-- ==== Sys2Proof/Word.lean ====
section
/-!
DEFINITION. The word types of the CL-9's frames and clocks (11-1, R1).
-/
namespace Sys2Proof

/-- One byte of a host port or pack port frame (11-1, 11-3). -/
abbrev Byte := BitVec 8

/-- A two byte field of a frame. -/
abbrev Word16 := BitVec 16

/-- A four byte field of a frame, a serial, a tag or a reading of one of the two clocks (R1). -/
abbrev Word32 := BitVec 32

end Sys2Proof
end

