-- ==== Sys2Proof/Config.lean ====
section
/-!
DEFINITION. The figures the CL-9 fixes for good: capacities (0-7 and the chapters named) and the codes of
Chapter 11. What the host may set is a parameter and stands in State, not here.
-/
namespace Sys2Proof.Config

/-- Interval ring of a lay tracker (R29). -/
def ringSize : Nat := 4
/-- Limit of the count accumulator, either sign (R26). -/
def countLimit : Int := 2147483647
/-- Greatest coil length in nm (R49, R51). -/
def lengthLimit : Int := 4294967295000000
/-- Limit of the worst slip of a coil, either sign (R49). -/
def slipBound : Int := 2147483647
/-- Splice entries of one coil (R49). -/
def spliceSize : Nat := 6
/-- The limit of the two byte counts of a piece and of the part (R49, R80, R128). -/
def countSat : Nat := 65535
/-- Mend list places (R74). -/
def mendSize : Nat := 48
/-- Limit of the mend overflow count (R69). -/
def overflowSat : Nat := 255
/-- Readings the grant list holds (R90). -/
def grantSize : Nat := 8
/-- Pack places, queued, at the scale and reserved together (R92, R129). -/
def packPlaces : Nat := 8
/-- Age in ms at which a reading leaves the grant list (R90). -/
def grantListAge : Nat := 600000
/-- Age in ms at which a lane time becomes absent (R90). -/
def laneTimeAge : Nat := 120000
/-- Greatest weight in g that is taken (R134). -/
def weightLimit : Nat := 2000000
/-- Greatest expected weight in g that is held (R133). -/
def expectedLimit : Nat := 4294967295
/-- Answers the pack port transmitter holds (R144). -/
def txSize : Nat := 4
/-- Greatest length byte the pack port receiver accepts (R143). -/
def rxLength : Nat := 40
/-- Limit of a pending notice's count (R162). -/
def noticeSat : Nat := 15
/-- Time between two changes of a pulsed permit's level, ms (R158). -/
def permitHalfPeriod : Nat := 5
/-- Entries in one READ MENDS answer (R82). -/
def mendPage : Nat := 16
/-- Records in one FIND PIECES answer (R119). -/
def findPage : Nat := 32
/-- Longest request frame judged (R168, R170). -/
def spanLimit : Nat := 256
/-- Read code, the first byte of a read span (11-1). -/
def readCode : Byte := 0xFF#8
/-- Start byte of a pack port frame (11-3). -/
def startByte : Byte := 0xA5#8
/-- Part code that IDENTIFY returns (11-1.2). -/
def partCode : Word16 := 0x3A61#16
/-- Revision that IDENTIFY returns (11-1.2). -/
def revision : Byte := 0x01#8

end Sys2Proof.Config
end

