-- ==== Sys2Proof/Syntax.lean ====
section
/-!
DEFINITION. The commands of the CL-9: one constructor of Instr for each row of spec/opcode_table.json, with the
operands that the frames of Chapter 11 and the arrivals of the line wiring carry.
-/
namespace Sys2Proof

/-- Direction of an edge on an input line. -/
inductive Edge where
  | rising
  | falling
deriving DecidableEq, Repr

/-- The two quadrature encoders of a lay station (R24). -/
inductive Encoder where
  | capstan
  | meter
deriving DecidableEq, Repr

/-- The two lanes onto the packing conveyor (5-1). -/
inductive Lane where
  | a
  | b
deriving DecidableEq, Repr

/-- Status codes shared by the two ports (10-3.1, 11-1.2). -/
inductive Status where
  | ok
  | clamped
  | empty
  | noResponse
  | badRequest
  | badLength
  | wrongMode
  | busy
  | notBound
  | noSuchOrder
  | orderInUse
  | wrongKind
  | noFreePiece
  | stalePiece
  | wrongState
  | faultPending
  | conditionPresent
  | notFound
  | tooLate
  | scaleOccupied
  | gradeReject
deriving DecidableEq, Repr

/-- The ROPE fields of a LOAD ORDER frame as they arrive, before any clamping (11-2.1). -/
structure RopeFields where
  lay : Word32
  strands : Byte
  target : Word32
  allowance : Word16
  density : Word32
  band : Word32
  drift : Word32
  persistence : Byte
  excA : Word16
  excB : Word16
  spliceA : Byte
  spliceB : Byte
  tolA : Word16
  tolB : Word16
deriving DecidableEq, Repr

/-- The NET fields of a LOAD ORDER frame as they arrive; the dead-hook rows may be left out (R5, 11-2.1). -/
structure NetFields where
  hooks : Byte
  rowTarget : Word16
  overrunRows : Word16
  rowMass : Word32
  knotsA : Word16
  knotsB : Word16
  holesB : Word16
  tolA : Word16
  tolB : Word16
  deadRows : Option Byte
deriving DecidableEq, Repr

/-- What follows the slot byte of a LOAD ORDER frame. A kind byte that is neither ROPE nor NET passes the length
step of R176 at any of the three lengths and is answered BAD_REQUEST by Chapter 1. -/
inductive OrderFields where
  | rope (tag : Word32) (fields : RopeFields)
  | net (tag : Word32) (fields : NetFields)
  | unknown (kind : Byte) (rest : List Byte)
deriving DecidableEq, Repr

/-- An item of AMEND PIECE, item codes 01h to 05h (11-1.1). -/
inductive AmendItem where
  | label (value : Word32)
  | labelNone
  | cap (code : Byte)
  | hold (code : Byte)
  | waive
deriving DecidableEq, Repr

/-- What the pack port receiver may see arrive: a whole character, one without its stop bit, or a break (R143). -/
inductive PackChar where
  | whole (b : Byte)
  | noStop (b : Byte)
  | lineBreak
deriving DecidableEq, Repr

/-- The commands of the part. dt is the time in microseconds that passes before the command is taken, the clocks
running meanwhile (R1; DESIGN CHOICE, assumption 1). tag is the tag byte of a host request frame. Stations, slots and record
numbers of requests are the bytes of the frame, since the part judges them; those of the line wiring and of the
part's own timers name a line or a timer that exists. -/
inductive Instr where
  | identify (dt : Nat) (tag : Byte)
  | enterConfig (dt : Nat) (tag : Byte)
  | leaveConfig (dt : Nat) (tag : Byte)
  | setParameter (dt : Nat) (tag : Byte) (ident station kind : Byte) (value : Word32)
  | getParameter (dt : Nat) (tag : Byte) (ident station kind : Byte)
  | partClear (dt : Nat) (tag : Byte)
  | loadOrder (dt : Nat) (tag : Byte) (slot : Byte) (fields : OrderFields)
  | readOrder (dt : Nat) (tag : Byte) (slot : Byte)
  | retireOrder (dt : Nat) (tag : Byte) (slot : Byte)
  | bind (dt : Nat) (tag : Byte) (station slot : Byte)
  | unbind (dt : Nat) (tag : Byte) (station : Byte)
  | start (dt : Nat) (tag : Byte) (station : Byte)
  | halt (dt : Nat) (tag : Byte) (station : Byte)
  | clearFault (dt : Nat) (tag : Byte) (station : Byte)
  | readStation (dt : Nat) (tag : Byte) (station : Byte)
  | readPiece (dt : Nat) (tag : Byte) (number : Byte) (serial : Option Word32)
  | findPieces (dt : Nat) (tag : Byte) (states station slot first : Byte)
  | amendPiece (dt : Nat) (tag : Byte) (number : Byte) (serial : Word32) (items : List AmendItem)
  | retirePiece (dt : Nat) (tag : Byte) (number : Byte) (serial : Word32)
  | readMends (dt : Nat) (tag : Byte) (first : Byte)
  | mend (dt : Nat) (tag : Byte) (entry : Word16)
  | poll (dt : Nat) (tag : Byte)
  | takeNotice (dt : Nat) (tag : Byte) (slot : Byte)
  | setMask (dt : Nat) (tag : Byte) (mask : Word32)
  | readSpan (dt : Nat) (shifted : Nat)
  | malformedFrame (dt : Nat) (bytes : List Byte)
  | packNext (dt : Nat)
  | packWeigh (dt : Nat) (number : Byte) (serial : Word32) (weight : Word32)
  | packPacked (dt : Nat) (number : Byte) (serial : Word32) (label : Word32)
  | packAside (dt : Nat) (number : Byte) (serial : Word32)
  | packQuery (dt : Nat) (number : Byte) (serial : Option Word32)
  | packFrameDiscard (dt : Nat) (chars : List PackChar)
  | flyerMark (dt : Nat) (station : Fin 8) (edge : Edge)
  | countArrival (dt : Nat) (station : Fin 8) (encoder : Encoder) (first second : Bool)
  | strandOutAssertion (dt : Nat) (station : Fin 8) (strand : Fin 4)
  | strandOutRelease (dt : Nat) (station : Fin 8) (strand : Fin 4)
  | rowIndex (dt : Nat) (edge : Edge)
  | senseWord (dt : Nat) (levels : BitVec 64)
  | cutDone (dt : Nat) (station : Fin 9) (edge : Edge)
  | resetAssert (dt : Nat)
  | resetRelease (dt : Nat)
  | powerOn (dt : Nat)
  | stallTimerExpiry (dt : Nat) (station : Fin 8)
  | rowStallTimerExpiry (dt : Nat)
  | cutTimerExpiry (dt : Nat) (station : Fin 9)
  | scaleTimerExpiry (dt : Nat)
  | linkSilenceExpiry (dt : Nat)
  | ageingOut (dt : Nat) (reading : Fin 8)
  | laneGapExpiry (dt : Nat) (lane : Lane)
  | anyGapExpiry (dt : Nat)
  | grantListDrop (dt : Nat)
  | laneTimeAbsent (dt : Nat) (lane : Lane)
  | demandPulse (dt : Nat) (station : Fin 8)
  | permitPulseToggle (dt : Nat) (station : Fin 9)
  | packAnswerSent (dt : Nat)
  | spanFirstByte (dt : Nat)
deriving DecidableEq, Repr

end Sys2Proof
end

