-- ==== Sys2Proof/Decode.lean ====
section
/-!
DEFINITION. What a frame spells: the byte order of fields, the host port's judging of a request span (R168, R170,
R176), the pack port's receiver and CRC (R143, R144), and the frames of the commands as their sender writes them.
-/
namespace Sys2Proof

/-! ### Fields (R176: high byte first) -/

def bytes16 (w : Word16) : List Byte := [w.extractLsb' 8 8, w.extractLsb' 0 8]

def bytes32 (w : Word32) : List Byte :=
  [w.extractLsb' 24 8, w.extractLsb' 16 8, w.extractLsb' 8 8, w.extractLsb' 0 8]

def bytes64 (w : BitVec 64) : List Byte := bytes32 (w.extractLsb' 32 32) ++ bytes32 (w.extractLsb' 0 32)

def word16 (hi lo : Byte) : Word16 := hi ++ lo

def word32 (b3 b2 b1 b0 : Byte) : Word32 := b3 ++ b2 ++ b1 ++ b0

/-! ### Request codes (11-1.1) -/

/-- The ROPE fields in the order of 11-2.1. -/
def ropeBytes (f : RopeFields) : List Byte :=
  bytes32 f.lay ++ [f.strands] ++ bytes32 f.target ++ bytes16 f.allowance ++ bytes32 f.density ++
  bytes32 f.band ++ bytes32 f.drift ++ [f.persistence] ++ bytes16 f.excA ++ bytes16 f.excB ++
  [f.spliceA, f.spliceB] ++ bytes16 f.tolA ++ bytes16 f.tolB

/-- The NET fields in the order of 11-2.1. -/
def netBytes (f : NetFields) : List Byte :=
  [f.hooks] ++ bytes16 f.rowTarget ++ bytes16 f.overrunRows ++ bytes32 f.rowMass ++ bytes16 f.knotsA ++
  bytes16 f.knotsB ++ bytes16 f.holesB ++ bytes16 f.tolA ++ bytes16 f.tolB ++ f.deadRows.toList

/-- What follows the slot byte of LOAD ORDER. -/
def orderBytes : OrderFields → List Byte
  | .rope tag f => [0x01#8] ++ bytes32 tag ++ ropeBytes f
  | .net tag f => [0x02#8] ++ bytes32 tag ++ netBytes f
  | .unknown kind rest => kind :: rest

/-- One item of AMEND PIECE. -/
def itemBytes : AmendItem → List Byte
  | .label v => 0x01#8 :: bytes32 v
  | .labelNone => [0x02#8]
  | .cap code => [0x03#8, code]
  | .hold code => [0x04#8, code]
  | .waive => [0x05#8]

/-- The items of AMEND PIECE, one after another. -/
def itemsBytes : List AmendItem → List Byte
  | [] => []
  | item :: items => itemBytes item ++ itemsBytes items

/-- Code, tag and fields of a host request (11-1.1); none for a command that is not one. -/
def requestParts : Instr → Option (Byte × Byte × List Byte)
  | .identify _ tag => some (0x01#8, tag, [])
  | .enterConfig _ tag => some (0x02#8, tag, [])
  | .leaveConfig _ tag => some (0x03#8, tag, [])
  | .setParameter _ tag ident station kind value => some (0x04#8, tag, [ident, station, kind] ++ bytes32 value)
  | .getParameter _ tag ident station kind => some (0x05#8, tag, [ident, station, kind])
  | .partClear _ tag => some (0x06#8, tag, [])
  | .loadOrder _ tag slot fields => some (0x10#8, tag, slot :: orderBytes fields)
  | .readOrder _ tag slot => some (0x11#8, tag, [slot])
  | .retireOrder _ tag slot => some (0x12#8, tag, [slot])
  | .bind _ tag station slot => some (0x13#8, tag, [station, slot])
  | .unbind _ tag station => some (0x14#8, tag, [station])
  | .start _ tag station => some (0x15#8, tag, [station])
  | .halt _ tag station => some (0x16#8, tag, [station])
  | .clearFault _ tag station => some (0x17#8, tag, [station])
  | .readStation _ tag station => some (0x18#8, tag, [station])
  | .readPiece _ tag number none => some (0x20#8, tag, [number])
  | .readPiece _ tag number (some serial) => some (0x20#8, tag, number :: bytes32 serial)
  | .findPieces _ tag states station slot first => some (0x21#8, tag, [states, station, slot, first])
  | .amendPiece _ tag number serial items => some (0x22#8, tag, number :: (bytes32 serial ++ itemsBytes items))
  | .retirePiece _ tag number serial => some (0x23#8, tag, number :: bytes32 serial)
  | .readMends _ tag first => some (0x28#8, tag, [first])
  | .mend _ tag entry => some (0x29#8, tag, bytes16 entry)
  | .poll _ tag => some (0x30#8, tag, [])
  | .takeNotice _ tag slot => some (0x31#8, tag, [slot])
  | .setMask _ tag mask => some (0x32#8, tag, bytes32 mask)
  | .readSpan .. | .malformedFrame .. | .packNext .. | .packWeigh .. | .packPacked .. | .packAside ..
  | .packQuery .. | .packFrameDiscard .. | .flyerMark .. | .countArrival .. | .strandOutAssertion ..
  | .strandOutRelease .. | .rowIndex .. | .senseWord .. | .cutDone .. | .resetAssert .. | .resetRelease ..
  | .powerOn .. | .stallTimerExpiry .. | .rowStallTimerExpiry .. | .cutTimerExpiry .. | .scaleTimerExpiry ..
  | .linkSilenceExpiry .. | .ageingOut .. | .laneGapExpiry .. | .anyGapExpiry .. | .grantListDrop ..
  | .laneTimeAbsent .. | .demandPulse .. | .permitPulseToggle .. | .packAnswerSent .. | .spanFirstByte .. => none

/-- The request frame that the host shifts in for a request (11-1): code, tag, length, fields. -/
def encodeRequest (i : Instr) : Option (List Byte) :=
  (requestParts i).map fun (code, tag, fields) => code :: tag :: BitVec.ofNat 8 fields.length :: fields

/-! ### Judging a request span (R168, R170, R176) -/

/-- The ROPE fields, if there are just as many bytes as 11-2.1 gives. -/
def readRope : List Byte → Option RopeFields
  | l3 :: l2 :: l1 :: l0 :: st :: t3 :: t2 :: t1 :: t0 :: a1 :: a0 :: d3 :: d2 :: d1 :: d0 :: b3 :: b2 :: b1 :: b0 ::
    r3 :: r2 :: r1 :: r0 :: p :: ea1 :: ea0 :: eb1 :: eb0 :: sa :: sb :: ta1 :: ta0 :: tb1 :: tb0 :: [] =>
    some
      { lay := word32 l3 l2 l1 l0, strands := st, target := word32 t3 t2 t1 t0, allowance := word16 a1 a0
        density := word32 d3 d2 d1 d0, band := word32 b3 b2 b1 b0, drift := word32 r3 r2 r1 r0
        persistence := p, excA := word16 ea1 ea0, excB := word16 eb1 eb0, spliceA := sa, spliceB := sb
        tolA := word16 ta1 ta0, tolB := word16 tb1 tb0 }
  | _ => none

/-- The last byte of the NET fields, which may be left out (R5). -/
def readDeadRows : List Byte → Option (Option Byte)
  | [] => some none
  | [d] => some (some d)
  | _ => none

/-- The NET fields, if there are just as many bytes as 11-2.1 gives, with or without the dead-hook rows. -/
def readNet : List Byte → Option NetFields
  | h :: r1 :: r0 :: o1 :: o0 :: m3 :: m2 :: m1 :: m0 :: ka1 :: ka0 :: kb1 :: kb0 :: hb1 :: hb0 ::
    ta1 :: ta0 :: tb1 :: tb0 :: rest =>
    (readDeadRows rest).map fun dead =>
      { hooks := h, rowTarget := word16 r1 r0, overrunRows := word16 o1 o0, rowMass := word32 m3 m2 m1 m0
        knotsA := word16 ka1 ka0, knotsB := word16 kb1 kb0, holesB := word16 hb1 hb0
        tolA := word16 ta1 ta0, tolB := word16 tb1 tb0, deadRows := dead }
  | _ => none

/-- What may follow the kind byte of an order whose kind is unknown: any of the three lengths of LOAD ORDER (R176). -/
def unknownOrderLength (n : Nat) : Bool := n == 38 || n == 23 || n == 24

/-- The kind byte of LOAD ORDER and what follows it (R176). -/
def readOrderFields (kind : Byte) (rest : List Byte) : Option OrderFields :=
  if kind = 0x01#8 then
    match rest with
    | t3 :: t2 :: t1 :: t0 :: more => (readRope more).map (.rope (word32 t3 t2 t1 t0))
    | _ => none
  else if kind = 0x02#8 then
    match rest with
    | t3 :: t2 :: t1 :: t0 :: more => (readNet more).map (.net (word32 t3 t2 t1 t0))
    | _ => none
  else if unknownOrderLength rest.length then some (.unknown kind rest)
  else none

/-- The walk over the items of AMEND PIECE (R176). -/
def walkItems : List Byte → Except Status (List AmendItem)
  | [] => .ok []
  | code :: rest =>
    if code = 0x01#8 then
      match rest with
      | b3 :: b2 :: b1 :: b0 :: more => (walkItems more).map (.label (word32 b3 b2 b1 b0) :: ·)
      | _ => .error .badLength
    else if code = 0x02#8 then (walkItems rest).map (.labelNone :: ·)
    else if code = 0x03#8 then
      match rest with
      | b :: more => (walkItems more).map (.cap b :: ·)
      | [] => .error .badLength
    else if code = 0x04#8 then
      match rest with
      | b :: more => (walkItems more).map (.hold b :: ·)
      | [] => .error .badLength
    else if code = 0x05#8 then (walkItems rest).map (.waive :: ·)
    else .error .badRequest

/-- An optional result, or BAD_LENGTH. -/
def orBadLength : Option Instr → Except Status Instr
  | some i => .ok i
  | none => .error .badLength

/-- Fields of AMEND PIECE: 5 to 15 bytes, then the walk (R176). -/
def readAmend (dt : Nat) (tag : Byte) : List Byte → Except Status Instr
  | number :: s3 :: s2 :: s1 :: s0 :: items =>
    if items.length ≤ 10 then
      (walkItems items).map (.amendPiece dt tag number (word32 s3 s2 s1 s0))
    else .error .badLength
  | _ => .error .badLength

/-- The request of a known code with these fields, or BAD_LENGTH where their number is none that 11-1.1 allows. -/
def readFields (dt : Nat) (code tag : Byte) (fields : List Byte) : Except Status Instr :=
  match code.toNat, fields with
  | 0x01, [] => .ok (.identify dt tag)
  | 0x02, [] => .ok (.enterConfig dt tag)
  | 0x03, [] => .ok (.leaveConfig dt tag)
  | 0x04, [ident, station, kind, v3, v2, v1, v0] =>
    .ok (.setParameter dt tag ident station kind (word32 v3 v2 v1 v0))
  | 0x05, [ident, station, kind] => .ok (.getParameter dt tag ident station kind)
  | 0x06, [] => .ok (.partClear dt tag)
  | 0x10, slot :: kind :: rest => orBadLength ((readOrderFields kind rest).map (.loadOrder dt tag slot))
  | 0x11, [slot] => .ok (.readOrder dt tag slot)
  | 0x12, [slot] => .ok (.retireOrder dt tag slot)
  | 0x13, [station, slot] => .ok (.bind dt tag station slot)
  | 0x14, [station] => .ok (.unbind dt tag station)
  | 0x15, [station] => .ok (.start dt tag station)
  | 0x16, [station] => .ok (.halt dt tag station)
  | 0x17, [station] => .ok (.clearFault dt tag station)
  | 0x18, [station] => .ok (.readStation dt tag station)
  | 0x20, [number] => .ok (.readPiece dt tag number none)
  | 0x20, [number, s3, s2, s1, s0] => .ok (.readPiece dt tag number (some (word32 s3 s2 s1 s0)))
  | 0x21, [states, station, slot, first] => .ok (.findPieces dt tag states station slot first)
  | 0x22, fs => readAmend dt tag fs
  | 0x23, [number, s3, s2, s1, s0] => .ok (.retirePiece dt tag number (word32 s3 s2 s1 s0))
  | 0x28, [first] => .ok (.readMends dt tag first)
  | 0x29, [e1, e0] => .ok (.mend dt tag (word16 e1 e0))
  | 0x30, [] => .ok (.poll dt tag)
  | 0x31, [slot] => .ok (.takeNotice dt tag slot)
  | 0x32, [m3, m2, m1, m0] => .ok (.setMask dt tag (word32 m3 m2 m1 m0))
  | _, _ => .error .badLength

/-- The request codes of 11-1.1. -/
def requestCodes : List Byte :=
  [0x01#8, 0x02#8, 0x03#8, 0x04#8, 0x05#8, 0x06#8, 0x10#8, 0x11#8, 0x12#8, 0x13#8, 0x14#8, 0x15#8, 0x16#8,
   0x17#8, 0x18#8, 0x20#8, 0x21#8, 0x22#8, 0x23#8, 0x28#8, 0x29#8, 0x30#8, 0x31#8, 0x32#8]

/-- What a chip-select span turns out to be (R168, R170). -/
inductive Judgement where
  | ignored
  | readSpan
  | malformed (tag : Byte) (status : Status)
  | request (i : Instr)
deriving DecidableEq, Repr

/-- The bytes shifted in during one span, judged: first the code, then the length (R170), of a span longer than 256
bytes on its first 256. -/
def judgeSpan (dt : Nat) (span : List Byte) : Judgement :=
  match span.take Config.spanLimit with
  | [] => .ignored
  | code :: rest =>
    if code = Config.readCode then .readSpan
    else if code ∉ requestCodes then .malformed (rest.headD 0) .badRequest
    else
      match rest with
      | tag :: len :: fields =>
        if fields.length = len.toNat then
          match readFields dt code tag fields with
          | .ok i => .request i
          | .error status => .malformed tag status
        else .malformed tag .badLength
      | _ => .malformed (rest.headD 0) .badLength

/-! ### Pack port (R143, R144, 11-3) -/

/-- One bit of the CRC against the polynomial 1021h. -/
def crcBit (c : Word16) : Word16 := if c.msb then (c <<< 1) ^^^ 0x1021#16 else c <<< 1

/-- One byte of the CRC, most significant bit first. -/
def crcByte (c : Word16) (b : Byte) : Word16 :=
  crcBit (crcBit (crcBit (crcBit (crcBit (crcBit (crcBit (crcBit (c ^^^ (b ++ 0#8)))))))))

/-- The CRC of R144 from its initial value of all ones. -/
def crc (bytes : List Byte) : Word16 := bytes.foldl crcByte 0xFFFF#16

/-- A pack port frame with this body, the kind byte and what follows it: start byte, length, body, CRC over length
and body, high byte first. -/
def packFrame (body : List Byte) : List Byte :=
  let counted := BitVec.ofNat 8 body.length :: body
  Config.startByte :: counted ++ bytes16 (crc counted)

/-- Kind and fields of a pack port request (11-3). -/
def packBody : Instr → Option (List Byte)
  | .packNext _ => some [0x01#8]
  | .packWeigh _ number serial weight => some (0x02#8 :: number :: (bytes32 serial ++ bytes32 weight))
  | .packPacked _ number serial label => some (0x03#8 :: number :: (bytes32 serial ++ bytes32 label))
  | .packAside _ number serial => some (0x04#8 :: number :: bytes32 serial)
  | .packQuery _ number none => some [0x05#8, number]
  | .packQuery _ number (some serial) => some (0x05#8 :: number :: bytes32 serial)
  | .identify .. | .enterConfig .. | .leaveConfig .. | .setParameter .. | .getParameter .. | .partClear ..
  | .loadOrder .. | .readOrder .. | .retireOrder .. | .bind .. | .unbind .. | .start .. | .halt ..
  | .clearFault .. | .readStation .. | .readPiece .. | .findPieces .. | .amendPiece .. | .retirePiece ..
  | .readMends .. | .mend .. | .poll .. | .takeNotice .. | .setMask .. | .readSpan .. | .malformedFrame ..
  | .packFrameDiscard .. | .flyerMark .. | .countArrival .. | .strandOutAssertion .. | .strandOutRelease ..
  | .rowIndex .. | .senseWord .. | .cutDone .. | .resetAssert .. | .resetRelease .. | .powerOn ..
  | .stallTimerExpiry .. | .rowStallTimerExpiry .. | .cutTimerExpiry .. | .scaleTimerExpiry ..
  | .linkSilenceExpiry .. | .ageingOut .. | .laneGapExpiry .. | .anyGapExpiry .. | .grantListDrop ..
  | .laneTimeAbsent .. | .demandPulse .. | .permitPulseToggle .. | .packAnswerSent .. | .spanFirstByte .. => none

/-- The characters by which the terminal sends a pack port request. -/
def encodePack (i : Instr) : Option (List Byte) := (packBody i).map packFrame

/-- The request of a frame's kind and fields, if the kind is known and the length is the one 11-3 gives for it. -/
def readPackBody (dt : Nat) (kind : Byte) (fields : List Byte) : Option Instr :=
  match kind.toNat, fields with
  | 0x01, [] => some (.packNext dt)
  | 0x02, [n, s3, s2, s1, s0, w3, w2, w1, w0] => some (.packWeigh dt n (word32 s3 s2 s1 s0) (word32 w3 w2 w1 w0))
  | 0x03, [n, s3, s2, s1, s0, l3, l2, l1, l0] => some (.packPacked dt n (word32 s3 s2 s1 s0) (word32 l3 l2 l1 l0))
  | 0x04, [n, s3, s2, s1, s0] => some (.packAside dt n (word32 s3 s2 s1 s0))
  | 0x05, [n] => some (.packQuery dt n none)
  | 0x05, [n, s3, s2, s1, s0] => some (.packQuery dt n (some (word32 s3 s2 s1 s0)))
  | _, _ => none

/-- The frame that was collected after its start byte, from the length byte to the CRC, checked as R144 gives: the CRC,
the kind, and the length, which counts the kind byte and the fields. -/
def judgePackFrame (dt : Nat) (got : List Byte) : Option Instr :=
  let counted := got.take (got.length - 2)
  if got.drop (got.length - 2) = bytes16 (crc counted) then
    match counted with
    | len :: kind :: fields => if len.toNat = fields.length + 1 then readPackBody dt kind fields else none
    | _ => none
  else none

/-! ### The rows that give bits -/

/-- The table gives no row any bits, so no word spells a command. -/
def decodeTableWord (_nbits _w : Nat) : Option Instr := none

end Sys2Proof
end

