-- ==== Sys2Proof/Machine/State.lean ====
section
/-!
DEFINITION. The state of the CL-9, block by block, as plain data, with its value after power-on.
-/
namespace Sys2Proof.Machine

/-! ### Named values -/

/-- Length source of a lay station (R24). -/
inductive Source where
  | capstan
  | meter
deriving DecidableEq, Repr

/-- Encoder sense (R25). -/
inductive Sense where
  | normal
  | inverted
deriving DecidableEq, Repr

/-- Level of a sense position that reports a closed knot (R67). -/
inductive KnotLevel where
  | high
  | low
deriving DecidableEq, Repr

/-- Reactions of the fault collector, mildest first (R147). -/
inductive Reaction where
  | note
  | hold
  | trip
  | tripAll
deriving DecidableEq, Repr

/-- How a given permit is driven (R158). -/
inductive PermitMode where
  | static
  | pulsed
deriving DecidableEq, Repr

/-- Class of a notice kind (R163). -/
inductive NoticeClass where
  | urgent
  | routine
deriving DecidableEq, Repr

/-- Mode of the part (R171). -/
inductive Mode where
  | config
  | operate
deriving DecidableEq, Repr

/-- Cause of the last reset (R174). -/
inductive ResetCause where
  | powerOn
  | pin
  | clear
deriving DecidableEq, Repr

/-- The sixteen fault kinds (R147). -/
inductive FaultKind where
  | flyerStall
  | flyerOverspeed
  | markLoss
  | layDrift
  | laySaturated
  | reverseRun
  | strandOut
  | slip
  | cutTimeout
  | hole
  | deadHook
  | mendOverflow
  | senseMissing
  | rowStall
  | linkLost
  | peerTrip
deriving DecidableEq, Repr

/-- The twenty-five notice kinds: the fault kinds and nine more (R161). -/
inductive NoticeKind where
  | fault (kind : FaultKind)
  | pieceCut
  | overrunHold
  | mendAdded
  | strayInput
  | pieceGraded
  | scaleTimeout
  | packQueueHigh
  | tableLow
  | packFraming
deriving DecidableEq, Repr

/-- Grades, best first (R112). -/
inductive Grade where
  | a
  | b
  | reject
deriving DecidableEq, Repr

/-- Grade caps that stand; an absent cap is none (R109). -/
inductive Cap where
  | b
  | reject
deriving DecidableEq, Repr

/-- Why a piece is ASIDE (R112). -/
inductive AsideReason where
  | short
  | packer
  | reject
deriving DecidableEq, Repr

/-- Kind of a mend entry (R73). -/
inductive MendKind where
  | knot
  | hole
deriving DecidableEq, Repr

/-- The six station states (R10). -/
inductive StationState where
  | unbound
  | ready
  | running
  | holding
  | cutting
  | tripped
deriving DecidableEq, Repr

/-- Cut status of a station as READ STATION reports it (R9). -/
inductive CutStatus where
  | none
  | waiting
  | granted
deriving DecidableEq, Repr

/-- States of a record that is not FREE (R108). -/
inductive PieceState where
  | opened
  | queued
  | atScale
  | weighed
  | packed
  | aside
deriving DecidableEq, Repr

/-! ### Time -/

/-- The two clocks (R1). mark counts microseconds, part milliseconds; phase is the part of a millisecond that has
passed, so that both run from the same instant (DEDUCED, assumption 2). -/
structure Clocks where
  mark : Word32
  part : Word32
  phase : Nat
deriving DecidableEq, Repr

/-- An armed timer: the clock reading at which it was armed and the time it was armed for. -/
structure Timer where
  start : Word32
  span : Nat
deriving DecidableEq, Repr

/-! ### Parameters (Chapter 10-5) -/

/-- Parameters of one lay station (R23, R50). -/
structure LayParams where
  marks : Nat
  markEdge : Edge
  source : Source
  capScale : Nat
  meterScale : Nat
  capSense : Sense
  meterSense : Sense
  drive : Nat
  fMax : Nat
  fStart : Nat
  tau : Nat
  tMin : Nat
  tMax : Nat
  rMax : Nat
  slipSpan : Nat
  slipLimit : Nat
  strandEdge : Edge
deriving DecidableEq, Repr

/-- Parameters of the loom (R67). -/
structure LoomParams where
  rowEdge : Edge
  knotLevel : KnotLevel
  rowTime : Nat
deriving DecidableEq, Repr

/-- Parameters every station holds (R88). -/
structure StationParams where
  lane : Lane
  cutEdge : Edge
deriving DecidableEq, Repr

/-- Parameters of the part (R88, R125, R128, R148, R157, R159, R163). -/
structure PartParams where
  kWin : Nat
  tWin : Nat
  laneGap : Nat
  anyGap : Nat
  cutTimeout : Nat
  lowWater : Nat
  scaleTimeout : Nat
  queueHigh : Nat
  queueLow : Nat
  packRate : Nat
  reactions : Vector Reaction 16
  permitMode : PermitMode
  linkTime : Nat
  classes : Vector NoticeClass 25
deriving DecidableEq, Repr

/-- All parameters, as stored by SET PARAMETER (R173). -/
structure Params where
  lay : Vector LayParams 8
  loom : LoomParams
  station : Vector StationParams 9
  part : PartParams
deriving DecidableEq, Repr

/-! ### Orders (Chapter 1) -/

/-- The fields of a ROPE order (R4). -/
structure RopeOrder where
  lay : Nat
  strands : Nat
  target : Nat
  allowance : Nat
  density : Nat
  band : Nat
  drift : Nat
  persistence : Nat
  excA : Nat
  excB : Nat
  spliceA : Nat
  spliceB : Nat
  tolA : Nat
  tolB : Nat
deriving DecidableEq, Repr

/-- The fields of a NET order (R5). -/
structure NetOrder where
  hooks : Nat
  rowTarget : Nat
  overrunRows : Nat
  rowMass : Nat
  knotsA : Nat
  knotsB : Nat
  holesB : Nat
  tolA : Nat
  tolB : Nat
  deadRows : Nat
deriving DecidableEq, Repr

/-- Kind and fields of an order (R3). -/
inductive OrderBody where
  | rope (fields : RopeOrder)
  | net (fields : NetOrder)
deriving DecidableEq, Repr

/-- A LOADED order slot (R3); an EMPTY slot is none. -/
structure Order where
  tag : Word32
  body : OrderBody
deriving DecidableEq, Repr

/-! ### Stations (Chapter 1) -/

/-- The set of hold reasons (R11). -/
structure Reasons where
  halted : Bool
  fault : Bool
  overrun : Bool
deriving DecidableEq, Repr

/-- The station record (R9). The cut status is not held twice: it mirrors the waiting queue and the state (R89), and
is formed from them. A pulsed permit's level and the reading of its last change stand here too (R158). -/
structure Station where
  state : StationState
  order : Option (Fin 16)
  reasons : Reasons
  piece : Option (Fin 64)
  pulseHigh : Bool
  pulseAt : Word32
deriving DecidableEq, Repr

/-! ### Lay stations (Chapters 2 and 3) -/

/-- The two derived constants of a bound lay station (R28): the advance per mark A and the bound Pmax, nm. -/
structure LayConsts where
  advance : Int
  bound : Int
deriving DecidableEq, Repr

/-- The lay tracker (R29), less its demand and its timer. -/
structure Tracker where
  tPrev : Option Word32
  ring : List Nat
  count : Int
  pos : Int
  reacquire : Bool
  reverse : Nat
  saturation : Nat
  driftAbove : Bool
deriving DecidableEq, Repr

/-- What one lay station holds beside its station record: tracker, demand output, stall timer, slip advances and
strand-out set (R28, R29, R42, R43, R49). Bit j of the set stands for strand j + 1. -/
structure LayStation where
  consts : Option LayConsts
  tracker : Tracker
  demand : Nat
  stall : Option Timer
  lastPulse : Option Word32
  slipCap : Int
  slipMeter : Int
  strandOut : BitVec 4
deriving DecidableEq, Repr

/-! ### The loom (Chapter 4) -/

/-- The row awaiting sense (R69). -/
structure AwaitRow where
  panel : Fin 64
  serial : Word32
  row : Nat
deriving DecidableEq, Repr

/-- The last sensed row (R69). Bit h of missing stands for hook h. -/
structure PrevRow where
  panel : Fin 64
  serial : Word32
  row : Nat
  missing : BitVec 64
deriving DecidableEq, Repr

/-- A mend entry (R74). -/
structure MendEntry where
  id : Word16
  panel : Fin 64
  row : Nat
  first : Nat
  span : Nat
  kind : MendKind
deriving DecidableEq, Repr

/-- The knot inspector (R69). The awaiting-sense flag is set while the awaiting row is present. -/
structure Inspector where
  awaiting : Option AwaitRow
  previous : Option PrevRow
  hookMiss : Vector Nat 64
  rowTimer : Option Timer
  mends : List MendEntry
  nextId : Word16
  overflow : Nat
  discarded : Nat
deriving DecidableEq, Repr

/-! ### The cut arbiter (Chapter 5) -/

/-- The cut arbiter (R89). -/
structure Arbiter where
  waiting : List (Fin 9)
  grants : List Word32
  laneA : Option Word32
  laneB : Option Word32
  reservedRecords : Nat
  reservedPlaces : Nat
  cutTimers : Vector (Option Timer) 9
deriving DecidableEq, Repr

/-! ### Pieces (Chapter 6) -/

/-- A splice entry: length in whole mm and strand number 1 to 4 (R64). -/
structure Splice where
  length : Nat
  strand : Nat
deriving DecidableEq, Repr

/-- The lay quality fields of a coil (R32, R36). -/
structure LayQuality where
  worst : Nat
  excursions : Nat
  inserted : Nat
  reverse : Nat
deriving DecidableEq, Repr

/-- The fields of a coil (R110). length is in nm. -/
structure Coil where
  length : Int
  splices : List Splice
  spliceOverflow : Nat
  quality : LayQuality
  worstSlip : Option Int
deriving DecidableEq, Repr

/-- The fields of a panel (R111). -/
structure Panel where
  rows : Nat
  knots : Nat
  holes : Nat
  unlisted : Nat
  unsensed : Nat
  unmended : Nat
  mended : Nat
  waived : Nat
deriving DecidableEq, Repr

/-- Kind of a piece with the fields of that kind (R109). -/
inductive PieceBody where
  | coil (fields : Coil)
  | panel (fields : Panel)
deriving DecidableEq, Repr

/-- What a WEIGH leaves in a record (R112). -/
structure Weighing where
  weight : Nat
  expected : Nat
  deviation : Option Int
  computed : Grade
  grade : Grade
deriving DecidableEq, Repr

/-- A record that is not FREE (R109, R112); a FREE record is none. -/
structure Piece where
  state : PieceState
  serial : Word32
  station : Fin 9
  slot : Fin 16
  tag : Word32
  openedAt : Word32
  closedAt : Option Word32
  short : Bool
  overrun : Bool
  label : Option Word32
  cap : Option Cap
  hold : Bool
  body : PieceBody
  weighing : Option Weighing
  packLabel : Option Word32
  aside : Option AsideReason
deriving DecidableEq, Repr

/-- The piece table (R108, R113, R125). -/
structure PieceTable where
  records : Vector (Option Piece) 64
  nextSerial : Word32
  lowArmed : Bool
deriving DecidableEq, Repr

/-! ### The pack line (Chapter 7) -/

/-- The pack port receiver (R143): hunting, or collecting the characters after the start byte. -/
inductive Receiver where
  | hunting
  | collecting (got : List Byte)
deriving DecidableEq, Repr

/-- The pack line (R128). rate is the rate in effect, which takes the parameter's value at LEAVE CONFIG. tx holds
the answers not yet sent, oldest first, and lastSent the last answer the transmitter finished. -/
structure PackLine where
  queue : List (Fin 64)
  scale : Option (Fin 64)
  scaleTimer : Option Timer
  highArmed : Bool
  framing : Nat
  rate : Nat
  receiver : Receiver
  tx : List (List Byte)
  lastSent : List Byte
deriving DecidableEq, Repr

/-! ### The fault collector (Chapter 8) -/

/-- A first-fault record (R149). The piece is its number and its serial. -/
structure FirstFault where
  kind : FaultKind
  time : Word32
  piece : Option (Fin 64 × Word32)
  extent : Option Nat
  source : Option (Fin 9)
deriving DecidableEq, Repr

/-- Fault set and first-fault record of one station (R149). Bit n - 1 of the set stands for kind code n. -/
structure StationFaults where
  set : BitVec 16
  first : Option FirstFault
deriving DecidableEq, Repr

/-- The fault collector, less the reaction table and the other parameters (R149). -/
structure Collector where
  stations : Vector StationFaults 9
  linkTimer : Option Timer
deriving DecidableEq, Repr

/-! ### Notices (Chapter 9) -/

/-- The notice unit (R161, R163): for each slot and each kind the count of the pending notice, 0 where the kind is
not pending; and the mask, bit n - 1 for kind code n. -/
structure Notices where
  slots : Vector (Vector Nat 25) 10
  mask : BitVec 25
deriving DecidableEq, Repr

/-! ### The host port (Chapter 10) -/

/-- One response with its PRIOR_UNREAD flag (R168, 11-1). -/
structure Response where
  tag : Byte
  status : Status
  prior : Bool
  fields : List Byte
deriving DecidableEq, Repr

/-- The request span in progress (R168, R175): none; one whose first byte has been taken, so that its end is the request
that follows; or one that RESET cut off, so that its end is not taken. -/
inductive SpanProgress where
  | idle
  | begun
  | dropped
deriving DecidableEq, Repr

/-- The host port (R168, R171, R174, R175). shifted is what the last read span shifted out. -/
structure Port where
  mode : Mode
  cause : ResetCause
  response : Option Response
  ready : Bool
  span : SpanProgress
  shifted : List Byte
deriving DecidableEq, Repr

/-! ### Input lines whose level matters -/

/-- The two lines of a quadrature pair (R25). -/
structure Pair where
  first : Bool
  second : Bool
deriving DecidableEq, Repr

/-- Levels of a lay station's inputs: bit j of strands is the level of the strand-out input of strand j + 1 (R63). -/
structure LayPins where
  strands : BitVec 4
  capstan : Pair
  meter : Pair
deriving DecidableEq, Repr

/-- Levels of the input lines; reset is set while the RESET input is asserted (R175). -/
structure Pins where
  lay : Vector LayPins 8
  reset : Bool
deriving DecidableEq, Repr

/-- The state of the part. pending is the queue of commands that are waiting, first in, first out. -/
structure State where
  clocks : Clocks
  pins : Pins
  params : Params
  orders : Vector (Option Order) 16
  stations : Vector Station 9
  lays : Vector LayStation 8
  inspector : Inspector
  arbiter : Arbiter
  table : PieceTable
  pack : PackLine
  collector : Collector
  notices : Notices
  port : Port
  pending : List Instr
deriving DecidableEq, Repr

/-- Reasons the part stops. -/
inductive Fault where
  /-- Raised by CUT_DONE_ARRIVAL at a CUTTING station when no record is FREE. R96 says that no event takes the record
  a reservation depends on, so no run from reset comes here; the spec gives no effect. Safe. -/
  | reservedRecordMissing
deriving DecidableEq, Repr

/-- Reasons a command is refused. -/
inductive Refusal where
  /-- Raised by an arm of exec whose command has no meaning yet; no arm of this model does. Safe. -/
  | notModelled (mnemonic : String)
deriving DecidableEq, Repr

/-! ### After power-on -/

/-- Defaults of R23 and R50. -/
def LayParams.default : LayParams where
  marks := 1
  markEdge := .rising
  source := .capstan
  capScale := 10000
  meterScale := 0
  capSense := .normal
  meterSense := .normal
  drive := 10000
  fMax := 50000
  fStart := 0
  tau := 500
  tMin := 2000
  tMax := 2000000
  rMax := 4
  slipSpan := 10
  slipLimit := 30
  strandEdge := .rising

/-- The reaction table after power-on, in the order of the kind codes (R147). -/
def defaultReactions : Vector Reaction 16 :=
  #v[.trip, .trip, .hold, .hold, .note, .hold, .hold, .hold,
     .trip, .hold, .hold, .hold, .hold, .trip, .hold, .trip]

/-- The classes after power-on: kinds 1 to 16 URGENT, 17 to 25 ROUTINE (R163). -/
def defaultClasses : Vector NoticeClass 25 :=
  #v[.urgent, .urgent, .urgent, .urgent, .urgent, .urgent, .urgent, .urgent,
     .urgent, .urgent, .urgent, .urgent, .urgent, .urgent, .urgent, .urgent,
     .routine, .routine, .routine, .routine, .routine, .routine, .routine, .routine, .routine]

/-- Defaults of R88, R125, R128, R147, R157, R159 and R163. -/
def PartParams.default : PartParams where
  kWin := 4
  tWin := 60
  laneGap := 20
  anyGap := 5
  cutTimeout := 30
  lowWater := 8
  scaleTimeout := 120
  queueHigh := 6
  queueLow := 3
  packRate := 19200
  reactions := defaultReactions
  permitMode := .static
  linkTime := 0
  classes := defaultClasses

/-- Every parameter at its default (R175). -/
def Params.default : Params where
  lay := Vector.replicate 8 LayParams.default
  loom := ⟨.rising, .high, 5000⟩
  station := Vector.replicate 9 ⟨.a, .rising⟩
  part := PartParams.default

/-- No hold reason (R11). -/
def Reasons.empty : Reasons := ⟨false, false, false⟩

/-- The station record after power-on (R9). -/
def Station.initial : Station := ⟨.unbound, none, Reasons.empty, none, false, 0⟩

/-- The tracker as the tracker reset leaves it (R29). -/
def Tracker.initial : Tracker := ⟨none, [], 0, 0, true, 0, 0, false⟩

/-- A lay station after power-on (R47, R66). -/
def LayStation.initial : LayStation := ⟨none, Tracker.initial, 0, none, none, 0, 0, 0⟩

/-- The inspector after power-on (R69). -/
def Inspector.initial : Inspector := ⟨none, none, Vector.replicate 64 0, none, [], 0, 0, 0⟩

/-- The arbiter after power-on (R89). -/
def Arbiter.initial : Arbiter := ⟨[], [], none, none, 0, 0, Vector.replicate 9 none⟩

/-- The piece table after power-on (R127). -/
def PieceTable.initial : PieceTable := ⟨Vector.replicate 64 none, 1, true⟩

/-- The pack line after power-on (R128). -/
def PackLine.initial : PackLine := ⟨[], none, none, true, 0, 19200, .hunting, [], []⟩

/-- The fault collector after power-on (R160). -/
def Collector.initial : Collector := ⟨Vector.replicate 9 ⟨0, none⟩, none⟩

/-- The notice unit after power-on (R167). -/
def Notices.initial : Notices := ⟨Vector.replicate 10 (Vector.replicate 25 0), 0⟩

/-- The host port after power-on (R175); that no span is in progress then is DESIGN CHOICE (assumption 39). -/
def Port.initial : Port := ⟨.config, .powerOn, none, false, .idle, []⟩

/-- Every line low and RESET released (DESIGN CHOICE, assumption 5: the spec gives no level at power-on). -/
def Pins.initial : Pins := ⟨Vector.replicate 8 ⟨0, ⟨false, false⟩, ⟨false, false⟩⟩, false⟩

/-- The part right after power-on (R1, R175), with no command waiting. -/
def State.reset : State where
  clocks := ⟨0, 0, 0⟩
  pins := Pins.initial
  params := Params.default
  orders := Vector.replicate 16 none
  stations := Vector.replicate 9 Station.initial
  lays := Vector.replicate 8 LayStation.initial
  inspector := Inspector.initial
  arbiter := Arbiter.initial
  table := PieceTable.initial
  pack := PackLine.initial
  collector := Collector.initial
  notices := Notices.initial
  port := Port.initial
  pending := []

end Sys2Proof.Machine
end

