-- ==== Sys2Proof/Machine/Operands.lean ====
section
/-!
DEFINITION. How the part reads its operands: the codes of the named values, edges, quadrature pairs and sense words,
the ranges that values are brought into, and the parameter identifiers of 11-1.1.
-/
namespace Sys2Proof.Machine

/-! ### Numbers -/

/-- A value brought to the nearest limit of its range (0-6). -/
def clampNat (lo hi v : Nat) : Nat := max lo (min hi v)

/-- A signed value held within its bounds. -/
def clampInt (lo hi v : Int) : Int := max lo (min hi v)

/-- One more, saturating (R2). -/
def satSucc (limit n : Nat) : Nat := if n < limit then n + 1 else n

/-- n / d rounded to the nearest integer, halves away from zero (R2), for values that are not negative. -/
def roundDiv (n d : Nat) : Nat := (2 * n + d) / (2 * d)

/-- Entry i of a vector replaced by f of it. -/
def modifyAt {α : Type} {n : Nat} (v : Vector α n) (i : Fin n) (f : α → α) : Vector α n := v.set i.1 (f v[i.1])

/-! ### Numbers of records -/

/-- A station number, 0 to 8 (R9). -/
def stationOf (b : Byte) : Option (Fin 9) := if h : b.toNat < 9 then some ⟨b.toNat, h⟩ else none

/-- An order slot, 0 to 15 (R3). -/
def slotOf (b : Byte) : Option (Fin 16) := if h : b.toNat < 16 then some ⟨b.toNat, h⟩ else none

/-- A record number, 0 to 63 (R117). -/
def recordOf (b : Byte) : Option (Fin 64) := if h : b.toNat < 64 then some ⟨b.toNat, h⟩ else none

/-- A notice slot, 0 to 9 (R166). -/
def noticeSlotOf (b : Byte) : Option (Fin 10) := if h : b.toNat < 10 then some ⟨b.toNat, h⟩ else none

/-- The lay station of a station number; none for the loom (R9). -/
def layOf (n : Fin 9) : Option (Fin 8) := if h : n.1 < 8 then some ⟨n.1, h⟩ else none

/-- The station number of a lay station. -/
def ofLay (n : Fin 8) : Fin 9 := ⟨n.1, Nat.lt_succ_of_lt n.2⟩

/-- The loom is station 8 (R9). -/
def loom : Fin 9 := 8

/-- The notice slot of a station (R161). -/
def slotOfStation (n : Fin 9) : Fin 10 := ⟨n.1, Nat.lt_succ_of_lt n.2⟩

/-- The part slot (R161). -/
def partSlot : Fin 10 := 9

/-! ### Codes -/

/-- Place of a fault kind in the reaction table: its code less 1 (R161). -/
def FaultKind.index : FaultKind → Fin 16
  | .flyerStall => 0
  | .flyerOverspeed => 1
  | .markLoss => 2
  | .layDrift => 3
  | .laySaturated => 4
  | .reverseRun => 5
  | .strandOut => 6
  | .slip => 7
  | .cutTimeout => 8
  | .hole => 9
  | .deadHook => 10
  | .mendOverflow => 11
  | .senseMissing => 12
  | .rowStall => 13
  | .linkLost => 14
  | .peerTrip => 15

/-- Kind code of a fault kind (R161). -/
def FaultKind.code (k : FaultKind) : Nat := k.index.1 + 1

/-- All fault kinds, in the order of their codes. -/
def FaultKind.all : List FaultKind :=
  [.flyerStall, .flyerOverspeed, .markLoss, .layDrift, .laySaturated, .reverseRun, .strandOut, .slip, .cutTimeout,
   .hole, .deadHook, .mendOverflow, .senseMissing, .rowStall, .linkLost, .peerTrip]

/-- Place of a notice kind in a slot: its code less 1 (R161). -/
def NoticeKind.index : NoticeKind → Fin 25
  | .fault k => ⟨k.index.1, Nat.lt_of_lt_of_le k.index.2 (by decide)⟩
  | .pieceCut => 16
  | .overrunHold => 17
  | .mendAdded => 18
  | .strayInput => 19
  | .pieceGraded => 20
  | .scaleTimeout => 21
  | .packQueueHigh => 22
  | .tableLow => 23
  | .packFraming => 24

/-- Severity of a reaction, which is also its code (R147, 11-1.1). -/
def Reaction.code : Reaction → Nat
  | .note => 0
  | .hold => 1
  | .trip => 2
  | .tripAll => 3

/-- The mildest reaction the works may choose for a kind (R147). -/
def FaultKind.floor : FaultKind → Reaction
  | .flyerStall => .hold
  | .flyerOverspeed => .hold
  | .markLoss => .note
  | .layDrift => .note
  | .laySaturated => .note
  | .reverseRun => .note
  | .strandOut => .hold
  | .slip => .note
  | .cutTimeout => .hold
  | .hole => .note
  | .deadHook => .hold
  | .mendOverflow => .hold
  | .senseMissing => .note
  | .rowStall => .hold
  | .linkLost => .hold
  | .peerTrip => .trip

/-- Values of the status codes (11-1.2). -/
def statusCode : Status → Byte
  | .ok => 0x00
  | .clamped => 0x01
  | .empty => 0x02
  | .noResponse => 0x03
  | .badRequest => 0x04
  | .badLength => 0x05
  | .wrongMode => 0x06
  | .busy => 0x07
  | .notBound => 0x08
  | .noSuchOrder => 0x09
  | .orderInUse => 0x0A
  | .wrongKind => 0x0B
  | .noFreePiece => 0x0C
  | .stalePiece => 0x0D
  | .wrongState => 0x0E
  | .faultPending => 0x0F
  | .conditionPresent => 0x10
  | .notFound => 0x11
  | .tooLate => 0x12
  | .scaleOccupied => 0x13
  | .gradeReject => 0x14

/-- Station states as READ STATION returns them (11-2.2). -/
def StationState.code : StationState → Byte
  | .unbound => 0
  | .ready => 1
  | .running => 2
  | .holding => 3
  | .cutting => 4
  | .tripped => 5

/-- Cut status as READ STATION returns it (11-2.2). -/
def CutStatus.code : CutStatus → Byte
  | .none => 0
  | .waiting => 1
  | .granted => 2

/-- State codes of pieces (11-1.1); 00h is FREE. -/
def PieceState.code : PieceState → Byte
  | .opened => 1
  | .queued => 2
  | .atScale => 3
  | .weighed => 4
  | .packed => 5
  | .aside => 6

/-- Grades as returned (11-2.3). -/
def Grade.code : Grade → Byte
  | .a => 0
  | .b => 1
  | .reject => 2

/-- A grade cap byte (R176). -/
def capCode : Option Cap → Byte
  | none => 0
  | some .b => 1
  | some .reject => 2

/-- Aside reasons as returned (11-2.3). -/
def AsideReason.code : AsideReason → Byte
  | .short => 0
  | .packer => 1
  | .reject => 2

/-- Kinds of a mend entry as returned (11-2.4). -/
def MendKind.code : MendKind → Byte
  | .knot => 0
  | .hole => 1

/-- Edge of a code (11-1.1). -/
def edgeOfCode : Nat → Option Edge
  | 0 => some .rising
  | 1 => some .falling
  | _ => none

/-- Code of an edge. -/
def edgeCode : Edge → Nat
  | .rising => 0
  | .falling => 1

/-- Sense of a code (11-1.1). -/
def Sense.ofCode : Nat → Option Sense
  | 0 => some .normal
  | 1 => some .inverted
  | _ => none

/-- Code of a sense. -/
def Sense.code : Sense → Nat
  | .normal => 0
  | .inverted => 1

/-- Knot level of a code (11-1.1). -/
def KnotLevel.ofCode : Nat → Option KnotLevel
  | 0 => some .high
  | 1 => some .low
  | _ => none

/-- Code of a knot level. -/
def KnotLevel.code : KnotLevel → Nat
  | .high => 0
  | .low => 1

/-- Lane of a code (11-1.1). -/
def laneOfCode : Nat → Option Lane
  | 0 => some .a
  | 1 => some .b
  | _ => none

/-- Code of a lane. -/
def laneCode : Lane → Nat
  | .a => 0
  | .b => 1

/-- Length source of a code (11-1.1). -/
def Source.ofCode : Nat → Option Source
  | 0 => some .capstan
  | 1 => some .meter
  | _ => none

/-- Code of a length source. -/
def Source.code : Source → Nat
  | .capstan => 0
  | .meter => 1

/-- Reaction of a code (11-1.1). -/
def Reaction.ofCode : Nat → Option Reaction
  | 0 => some .note
  | 1 => some .hold
  | 2 => some .trip
  | 3 => some .tripAll
  | _ => none

/-- Class of a code (11-1.1). -/
def NoticeClass.ofCode : Nat → Option NoticeClass
  | 0 => some .urgent
  | 1 => some .routine
  | _ => none

/-- Code of a class. -/
def NoticeClass.code : NoticeClass → Nat
  | .urgent => 0
  | .routine => 1

/-- Permit mode of a code (11-1.1). -/
def PermitMode.ofCode : Nat → Option PermitMode
  | 0 => some .static
  | 1 => some .pulsed
  | _ => none

/-- Code of a permit mode. -/
def PermitMode.code : PermitMode → Nat
  | .static => 0
  | .pulsed => 1

/-! ### Fault sets, strands and hooks -/

/-- The kind is in the set. -/
def inSet (set : BitVec 16) (k : FaultKind) : Bool := set.getLsbD k.index.1

/-- The set with the kind in it; a kind already there leaves it unchanged (R150). -/
def addToSet (set : BitVec 16) (k : FaultKind) : BitVec 16 := set ||| BitVec.twoPow 16 k.index.1

/-- The strand-out inputs that are asserted, of those whose levels are given (R50). -/
def assertedStrands (edge : Edge) (levels : BitVec 4) : BitVec 4 :=
  match edge with
  | .rising => levels
  | .falling => ~~~levels

/-- The strands in use under an order of that many strands: strands 1 up to it (R62). -/
def strandsInUse (strands : Nat) : BitVec 4 := BitVec.ofNat 4 (2 ^ strands - 1)

/-- The level a strand-out input takes at an assertion, set or clear (R50). -/
def assertLevel : Edge → Bool
  | .rising => true
  | .falling => false

/-- Line j of four put at a level. -/
def withLevel (levels : BitVec 4) (j : Fin 4) (level : Bool) : BitVec 4 :=
  if level then levels ||| BitVec.twoPow 4 j.1 else levels &&& ~~~(BitVec.twoPow 4 j.1)

/-- The strands of a set in ascending order, as strand numbers 1 to 4 (R64). -/
def strandList (set : BitVec 4) : List Nat := ((List.range 4).filter fun j => set.getLsbD j).map (· + 1)

/-- The missing set of a sensed row: the hooks in use whose position reports a miss under the knot level (R67, R72). -/
def missingSet (level : KnotLevel) (hooks : Nat) (word : BitVec 64) : BitVec 64 :=
  let missed := match level with
    | .high => ~~~word
    | .low => word
  missed &&& BitVec.ofNat 64 (2 ^ hooks - 1)

/-- A run of adjacent missing hooks (R72). -/
structure Run where
  first : Nat
  span : Nat
deriving DecidableEq, Repr

/-- Hook h put before the runs of the hooks above it. -/
def addHook (missing : BitVec 64) (h : Nat) (runs : List Run) : List Run :=
  if missing.getLsbD h then
    match runs with
    | run :: rest => if run.first = h + 1 then ⟨h, run.span + 1⟩ :: rest else ⟨h, 1⟩ :: run :: rest
    | [] => [⟨h, 1⟩]
  else runs

/-- The runs of the missing set in ascending order of first hook (R72). -/
def runsOf (missing : BitVec 64) : List Run := (List.range 64).foldr (addHook missing) []

/-- Some hook of the run that starts at first with that span is in the set. -/
def touches (missing : BitVec 64) (first span : Nat) : Bool :=
  (List.range span).any fun i => missing.getLsbD (first + i)

/-! ### Encoders (R25) -/

/-- Direction of a count. -/
inductive Direction where
  | forward
  | backward
deriving DecidableEq, Repr

/-- The direction of a change of one line of a pair, from the phase: forward where the first line leads. A change in
which both lines alter, and no change, give none (R25). -/
def quadrature (old new : Pair) : Option Direction :=
  if old.first != new.first && old.second != new.second then none
  else if old.first != new.first then some (if new.first != new.second then .forward else .backward)
  else if old.second != new.second then some (if new.second == new.first then .forward else .backward)
  else none

/-- The sense parameter swaps the two directions when it is INVERTED (R25). -/
def Sense.apply : Sense → Direction → Direction
  | .normal, d => d
  | .inverted, .forward => .backward
  | .inverted, .backward => .forward

/-- A count as a signed unit. -/
def Direction.unit : Direction → Int
  | .forward => 1
  | .backward => -1

/-- The encoder a length source selects (R24). -/
def Source.encoder : Source → Encoder
  | .capstan => .capstan
  | .meter => .meter

/-- Scale of an encoder at a station. -/
def LayParams.scale (p : LayParams) : Encoder → Nat
  | .capstan => p.capScale
  | .meter => p.meterScale

/-- Sense of an encoder at a station. -/
def LayParams.sense (p : LayParams) : Encoder → Sense
  | .capstan => p.capSense
  | .meter => p.meterSense

/-- Levels of an encoder's pair. -/
def LayPins.pair (p : LayPins) : Encoder → Pair
  | .capstan => p.capstan
  | .meter => p.meter

/-- An encoder's pair at new levels. -/
def LayPins.setPair (p : LayPins) (enc : Encoder) (pair : Pair) : LayPins :=
  match enc with
  | .capstan => { p with capstan := pair }
  | .meter => { p with meter := pair }

/-! ### Orders (R4 to R6) -/

/-- Pass 1 of LOAD ORDER on a ROPE order: each field into its own range (R4). -/
def RopeOrder.ofFields (f : RopeFields) : RopeOrder where
  lay := clampNat 500 2000000 f.lay.toNat
  strands := clampNat 1 4 f.strands.toNat
  target := clampNat 1000 2000000 f.target.toNat
  allowance := clampNat 0 50000 f.allowance.toNat
  density := clampNat 1 100000000 f.density.toNat
  band := clampNat 1 8000000 f.band.toNat
  drift := clampNat 1 8000000 f.drift.toNat
  persistence := clampNat 1 255 f.persistence.toNat
  excA := clampNat 0 65535 f.excA.toNat
  excB := clampNat 0 65535 f.excB.toNat
  spliceA := clampNat 0 6 f.spliceA.toNat
  spliceB := clampNat 0 6 f.spliceB.toNat
  tolA := clampNat 0 500 f.tolA.toNat
  tolB := clampNat 0 500 f.tolB.toNat

/-- The fields as given, before either pass. -/
def RopeOrder.given (f : RopeFields) : RopeOrder where
  lay := f.lay.toNat
  strands := f.strands.toNat
  target := f.target.toNat
  allowance := f.allowance.toNat
  density := f.density.toNat
  band := f.band.toNat
  drift := f.drift.toNat
  persistence := f.persistence.toNat
  excA := f.excA.toNat
  excB := f.excB.toNat
  spliceA := f.spliceA.toNat
  spliceB := f.spliceB.toNat
  tolA := f.tolA.toNat
  tolB := f.tolB.toNat

/-- Pass 2 on a ROPE order: a B value below its A value is raised to it (R6). -/
def RopeOrder.pairs (o : RopeOrder) : RopeOrder :=
  { o with tolB := max o.tolA o.tolB, excB := max o.excA o.excB, spliceB := max o.spliceA o.spliceB }

/-- Pass 1 of LOAD ORDER on a NET order; dead-hook rows left out are 4 (R5). -/
def NetOrder.ofFields (f : NetFields) : NetOrder where
  hooks := clampNat 8 64 f.hooks.toNat
  rowTarget := clampNat 1 60000 f.rowTarget.toNat
  overrunRows := clampNat 0 500 f.overrunRows.toNat
  rowMass := clampNat 1 5000000 f.rowMass.toNat
  knotsA := clampNat 0 65535 f.knotsA.toNat
  knotsB := clampNat 0 65535 f.knotsB.toNat
  holesB := clampNat 0 65535 f.holesB.toNat
  tolA := clampNat 0 500 f.tolA.toNat
  tolB := clampNat 0 500 f.tolB.toNat
  deadRows := match f.deadRows with
    | none => 4
    | some d => clampNat 2 15 d.toNat

/-- The fields as given, before either pass. -/
def NetOrder.given (f : NetFields) : NetOrder where
  hooks := f.hooks.toNat
  rowTarget := f.rowTarget.toNat
  overrunRows := f.overrunRows.toNat
  rowMass := f.rowMass.toNat
  knotsA := f.knotsA.toNat
  knotsB := f.knotsB.toNat
  holesB := f.holesB.toNat
  tolA := f.tolA.toNat
  tolB := f.tolB.toNat
  deadRows := match f.deadRows with
    | none => 4
    | some d => d.toNat

/-- Pass 2 on a NET order (R6). -/
def NetOrder.pairs (o : NetOrder) : NetOrder :=
  { o with tolB := max o.tolA o.tolB, knotsB := max o.knotsA o.knotsB }

/-- The order a LOAD ORDER stores, and whether either pass changed a value; none for an unknown kind (R6). -/
def orderOf : OrderFields → Option (Order × Bool)
  | .rope tag f =>
    let o := (RopeOrder.ofFields f).pairs
    some (⟨tag, .rope o⟩, decide (o ≠ RopeOrder.given f))
  | .net tag f =>
    let o := (NetOrder.ofFields f).pairs
    some (⟨tag, .net o⟩, decide (o ≠ NetOrder.given f))
  | .unknown _ _ => none

/-- Length in mm or rows at which the length tally places a cut request (R55). -/
def Order.target (o : Order) : Nat :=
  match o.body with
  | .rope f => f.target
  | .net f => f.rowTarget

/-- Length in mm or rows at which a station whose cut waits is held (R57). -/
def Order.limit (o : Order) : Nat :=
  match o.body with
  | .rope f => f.target + f.allowance
  | .net f => f.rowTarget + f.overrunRows

/-- An order of the kind suits the station: ROPE a lay station, NET the loom (R12). -/
def Order.suits (o : Order) (n : Fin 9) : Bool :=
  match o.body with
  | .rope _ => decide (n.1 < 8)
  | .net _ => decide (n.1 = 8)

/-- The derived constants of a lay station (R28). -/
def layConsts (lay marks : Nat) : LayConsts := ⟨roundDiv (lay * 1000) marks, 4 * lay * 1000⟩

/-! ### Parameter identifiers (11-1.1) -/

/-- Parameters of a lay station in identifier order, 01h to 11h. -/
inductive LayParam where
  | marks
  | markEdge
  | source
  | capScale
  | meterScale
  | capSense
  | meterSense
  | drive
  | fMax
  | fStart
  | tau
  | tMin
  | tMax
  | rMax
  | slipSpan
  | slipLimit
  | strandEdge
deriving DecidableEq, Repr

/-- Parameters of the loom, 12h to 14h. -/
inductive LoomParam where
  | rowEdge
  | knotLevel
  | rowTime
deriving DecidableEq, Repr

/-- Parameters of every station, 15h and 16h. -/
inductive StationParam where
  | lane
  | cutEdge
deriving DecidableEq, Repr

/-- Parameters of the part that are held once, 17h to 20h, 22h and 23h. -/
inductive PartParam where
  | kWin
  | tWin
  | laneGap
  | anyGap
  | cutTimeout
  | lowWater
  | scaleTimeout
  | queueHigh
  | queueLow
  | packRate
  | permitMode
  | linkTime
deriving DecidableEq, Repr

/-- A parameter with the station or the kind it is held for. -/
inductive ParamRef where
  | lay (n : Fin 8) (p : LayParam)
  | loom (p : LoomParam)
  | station (n : Fin 9) (p : StationParam)
  | part (p : PartParam)
  | reaction (k : FaultKind)
  | class (k : Fin 25)
deriving DecidableEq, Repr

/-- Identifiers 01h to 11h (11-1.1). -/
def layParamOf : Nat → Option LayParam
  | 0x01 => some .marks
  | 0x02 => some .markEdge
  | 0x03 => some .source
  | 0x04 => some .capScale
  | 0x05 => some .meterScale
  | 0x06 => some .capSense
  | 0x07 => some .meterSense
  | 0x08 => some .drive
  | 0x09 => some .fMax
  | 0x0A => some .fStart
  | 0x0B => some .tau
  | 0x0C => some .tMin
  | 0x0D => some .tMax
  | 0x0E => some .rMax
  | 0x0F => some .slipSpan
  | 0x10 => some .slipLimit
  | 0x11 => some .strandEdge
  | _ => none

/-- Identifiers 12h to 14h (11-1.1). -/
def loomParamOf : Nat → Option LoomParam
  | 0x12 => some .rowEdge
  | 0x13 => some .knotLevel
  | 0x14 => some .rowTime
  | _ => none

/-- Identifiers 15h and 16h (11-1.1). -/
def stationParamOf : Nat → Option StationParam
  | 0x15 => some .lane
  | 0x16 => some .cutEdge
  | _ => none

/-- Identifiers 17h to 20h, 22h and 23h (11-1.1). -/
def partParamOf : Nat → Option PartParam
  | 0x17 => some .kWin
  | 0x18 => some .tWin
  | 0x19 => some .laneGap
  | 0x1A => some .anyGap
  | 0x1B => some .cutTimeout
  | 0x1C => some .lowWater
  | 0x1D => some .scaleTimeout
  | 0x1E => some .queueHigh
  | 0x1F => some .queueLow
  | 0x20 => some .packRate
  | 0x22 => some .permitMode
  | 0x23 => some .linkTime
  | _ => none

/-- Identifier of the reaction table (11-1.1). -/
def reactionIdent : Nat := 0x21

/-- Identifier of the classes (11-1.1). -/
def classIdent : Nat := 0x24

/-- The parameter a request names; none where R173 answers BAD_REQUEST for the identifier, the station or the kind.
The station byte of a parameter not held for stations, and the kind byte of one not held for kinds, are not judged. -/
def paramRef (ident station kind : Byte) : Option ParamRef :=
  match layParamOf ident.toNat with
  | some p => if h : station.toNat < 8 then some (.lay ⟨station.toNat, h⟩ p) else none
  | none =>
  match loomParamOf ident.toNat with
  | some p => if station.toNat = 8 then some (.loom p) else none
  | none =>
  match stationParamOf ident.toNat with
  | some p => (stationOf station).map (.station · p)
  | none =>
  match partParamOf ident.toNat with
  | some p => some (.part p)
  | none =>
  if ident.toNat = reactionIdent then
    if kind.toNat = 0 then none else FaultKind.all[kind.toNat - 1]?.map .reaction
  else if ident.toNat = classIdent then
    if h : 1 ≤ kind.toNat ∧ kind.toNat ≤ 25 then some (.class ⟨kind.toNat - 1, by omega⟩) else none
  else none

/-- What a SET PARAMETER stores: the record after it, the number stored, and whether the answer is CLAMPED. -/
structure Stored (α : Type) where
  value : α
  number : Nat
  clamped : Bool
deriving DecidableEq, Repr

/-- A number, stored as the nearest limit of its range (R173). -/
def storeNumber {α : Type} (lo hi v : Nat) (set : Nat → α) : Option (Stored α) :=
  let w := clampNat lo hi v
  some ⟨set w, w, decide (w ≠ v)⟩

/-- A named value, refused if it is not one of its codes (R173). -/
def storeNamed {α β : Type} (named : Option β) (v : Nat) (set : β → α) : Option (Stored α) :=
  named.map fun c => ⟨set c, v, false⟩

/-- Storing a metering scale: 0, or 50 to 1,000,000 (R23); storing 0 returns the length source to CAPSTAN (R24). -/
def storeMeterScale (v : Nat) (x : LayParams) : Stored LayParams :=
  let w := if v = 0 then 0 else clampNat 50 1000000 v
  if w = 0 ∧ x.source = .meter then ⟨{ x with meterScale := w, source := .capstan }, w, true⟩
  else ⟨{ x with meterScale := w }, w, decide (w ≠ v)⟩

/-- Storing a length source: METER while the metering scale is 0 stores CAPSTAN (R24). -/
def storeSource (v : Nat) (x : LayParams) : Option (Stored LayParams) :=
  (Source.ofCode v).map fun c =>
    if c = .meter ∧ x.meterScale = 0 then ⟨{ x with source := .capstan }, 0, true⟩
    else ⟨{ x with source := c }, v, false⟩

/-- Storing a parameter of a lay station (R23, R24, R50). -/
def LayParam.store (p : LayParam) (v : Nat) (x : LayParams) : Option (Stored LayParams) :=
  match p with
  | .marks => storeNumber 1 16 v fun w => { x with marks := w }
  | .markEdge => storeNamed (edgeOfCode v) v fun c => { x with markEdge := c }
  | .source => storeSource v x
  | .capScale => storeNumber 50 1000000 v fun w => { x with capScale := w }
  | .meterScale => some (storeMeterScale v x)
  | .capSense => storeNamed (Sense.ofCode v) v fun c => { x with capSense := c }
  | .meterSense => storeNamed (Sense.ofCode v) v fun c => { x with meterSense := c }
  | .drive => storeNumber 100 1000000 v fun w => { x with drive := w }
  | .fMax => storeNumber 1 250000 v fun w => { x with fMax := w }
  | .fStart => storeNumber 0 250000 v fun w => { x with fStart := w }
  | .tau => storeNumber 10 10000 v fun w => { x with tau := w }
  | .tMin => storeNumber 100 1000000 v fun w => { x with tMin := w }
  | .tMax => storeNumber 1000 10000000 v fun w => { x with tMax := w }
  | .rMax => storeNumber 1 32 v fun w => { x with rMax := w }
  | .slipSpan => storeNumber 1 1000 v fun w => { x with slipSpan := w }
  | .slipLimit => storeNumber 1 500 v fun w => { x with slipLimit := w }
  | .strandEdge => storeNamed (edgeOfCode v) v fun c => { x with strandEdge := c }

/-- The value that stands of a lay station's parameter. -/
def LayParam.read (p : LayParam) (x : LayParams) : Nat :=
  match p with
  | .marks => x.marks
  | .markEdge => edgeCode x.markEdge
  | .source => x.source.code
  | .capScale => x.capScale
  | .meterScale => x.meterScale
  | .capSense => x.capSense.code
  | .meterSense => x.meterSense.code
  | .drive => x.drive
  | .fMax => x.fMax
  | .fStart => x.fStart
  | .tau => x.tau
  | .tMin => x.tMin
  | .tMax => x.tMax
  | .rMax => x.rMax
  | .slipSpan => x.slipSpan
  | .slipLimit => x.slipLimit
  | .strandEdge => edgeCode x.strandEdge

/-- Storing a parameter of the loom (R67). -/
def LoomParam.store (p : LoomParam) (v : Nat) (x : LoomParams) : Option (Stored LoomParams) :=
  match p with
  | .rowEdge => storeNamed (edgeOfCode v) v fun c => { x with rowEdge := c }
  | .knotLevel => storeNamed (KnotLevel.ofCode v) v fun c => { x with knotLevel := c }
  | .rowTime => storeNumber 100 60000 v fun w => { x with rowTime := w }

/-- The value that stands of a parameter of the loom. -/
def LoomParam.read (p : LoomParam) (x : LoomParams) : Nat :=
  match p with
  | .rowEdge => edgeCode x.rowEdge
  | .knotLevel => x.knotLevel.code
  | .rowTime => x.rowTime

/-- Storing a parameter every station holds (R88). -/
def StationParam.store (p : StationParam) (v : Nat) (x : StationParams) : Option (Stored StationParams) :=
  match p with
  | .lane => storeNamed (laneOfCode v) v fun c => { x with lane := c }
  | .cutEdge => storeNamed (edgeOfCode v) v fun c => { x with cutEdge := c }

/-- The value that stands of a parameter every station holds. -/
def StationParam.read (p : StationParam) (x : StationParams) : Nat :=
  match p with
  | .lane => laneCode x.lane
  | .cutEdge => edgeCode x.cutEdge

/-- Storing a parameter of the part (R88, R125, R128, R157, R159). -/
def PartParam.store (p : PartParam) (v : Nat) (x : PartParams) : Option (Stored PartParams) :=
  match p with
  | .kWin => storeNumber 1 8 v fun w => { x with kWin := w }
  | .tWin => storeNumber 1 600 v fun w => { x with tWin := w }
  | .laneGap => storeNumber 0 120 v fun w => { x with laneGap := w }
  | .anyGap => storeNumber 0 60 v fun w => { x with anyGap := w }
  | .cutTimeout => storeNumber 1 120 v fun w => { x with cutTimeout := w }
  | .lowWater => storeNumber 0 32 v fun w => { x with lowWater := w }
  | .scaleTimeout => storeNumber 10 600 v fun w => { x with scaleTimeout := w }
  | .queueHigh => storeNumber 1 8 v fun w => { x with queueHigh := w }
  | .queueLow => storeNumber 0 7 v fun w => { x with queueLow := w }
  | .packRate => storeNumber 9600 115200 v fun w => { x with packRate := w }
  | .permitMode => storeNamed (PermitMode.ofCode v) v fun c => { x with permitMode := c }
  | .linkTime => if v = 0 then some ⟨{ x with linkTime := 0 }, 0, false⟩
    else storeNumber 50 10000 v fun w => { x with linkTime := w }

/-- The value that stands of a parameter of the part. -/
def PartParam.read (p : PartParam) (x : PartParams) : Nat :=
  match p with
  | .kWin => x.kWin
  | .tWin => x.tWin
  | .laneGap => x.laneGap
  | .anyGap => x.anyGap
  | .cutTimeout => x.cutTimeout
  | .lowWater => x.lowWater
  | .scaleTimeout => x.scaleTimeout
  | .queueHigh => x.queueHigh
  | .queueLow => x.queueLow
  | .packRate => x.packRate
  | .permitMode => x.permitMode.code
  | .linkTime => x.linkTime

/-- A reaction brought up to the kind's floor; PEER_TRIP's is fixed at TRIP (R148). -/
def floorReaction (k : FaultKind) (r : Reaction) : Reaction :=
  if k = .peerTrip then .trip else if r.code < k.floor.code then k.floor else r

/-- Storing a parameter of any kind; none where the value is not one of its codes (R173). -/
def ParamRef.store (ref : ParamRef) (v : Nat) (x : Params) : Option (Stored Params) :=
  match ref with
  | .lay n p => (p.store v x.lay[n]).map fun r => ⟨{ x with lay := x.lay.set n.1 r.value }, r.number, r.clamped⟩
  | .loom p => (p.store v x.loom).map fun r => ⟨{ x with loom := r.value }, r.number, r.clamped⟩
  | .station n p =>
    (p.store v x.station[n]).map fun r => ⟨{ x with station := x.station.set n.1 r.value }, r.number, r.clamped⟩
  | .part p => (p.store v x.part).map fun r => ⟨{ x with part := r.value }, r.number, r.clamped⟩
  | .reaction k =>
    (Reaction.ofCode v).map fun given =>
      let r := floorReaction k given
      ⟨{ x with part := { x.part with reactions := x.part.reactions.set k.index.1 r } }, r.code, decide (r ≠ given)⟩
  | .class k =>
    storeNamed (NoticeClass.ofCode v) v fun c =>
      { x with part := { x.part with classes := x.part.classes.set k.1 c } }

/-- The value that stands of a parameter of any kind. -/
def ParamRef.read (ref : ParamRef) (x : Params) : Nat :=
  match ref with
  | .lay n p => p.read x.lay[n]
  | .loom p => p.read x.loom
  | .station n p => p.read x.station[n]
  | .part p => p.read x.part
  | .reaction k => (x.part.reactions[k.index]).code
  | .class k => (x.part.classes[k]).code

end Sys2Proof.Machine
end

