-- ==== Sys2Proof/Machine/Flags.lean ====
section
/-!
DEFINITION. What follows from the state without being held in it: reads of one record, output levels, cut status,
the counts the arbiter and the piece table judge by, readiness, and the figures of the scale.
-/
namespace Sys2Proof.Machine

/-- The stations in order, the lower number first (0-6). -/
def allStations : List (Fin 9) := [0, 1, 2, 3, 4, 5, 6, 7, 8]

/-- The lay stations in order. -/
def allLays : List (Fin 8) := [0, 1, 2, 3, 4, 5, 6, 7]

/-- The record numbers in ascending order. -/
def allRecords : List (Fin 64) := List.finRange 64

/-! ### Reads of one record -/

/-- The station record of station n. -/
def State.station (s : State) (n : Fin 9) : Station := s.stations[n.1]

/-- What lay station n holds beside its station record. -/
def State.lay (s : State) (n : Fin 8) : LayStation := s.lays[n.1]

/-- Parameters of lay station n. -/
def State.layParams (s : State) (n : Fin 8) : LayParams := s.params.lay[n.1]

/-- Parameters of station n. -/
def State.stationParams (s : State) (n : Fin 9) : StationParams := s.params.station[n.1]

/-- Input levels of lay station n. -/
def State.layPins (s : State) (n : Fin 8) : LayPins := s.pins.lay[n.1]

/-- An order slot; none while it is EMPTY. -/
def State.orderAt (s : State) (slot : Fin 16) : Option Order := s.orders[slot.1]

/-- A piece record; none while it is FREE. -/
def State.record (s : State) (i : Fin 64) : Option Piece := s.table.records[i.1]

/-- Fault set and first-fault record of station n. -/
def State.faults (s : State) (n : Fin 9) : StationFaults := s.collector.stations[n.1]

/-- Cut timer of station n. -/
def State.cutTimer (s : State) (n : Fin 9) : Option Timer := s.arbiter.cutTimers[n.1]

/-- The reaction the table holds for a kind (R147). -/
def State.reaction (s : State) (k : FaultKind) : Reaction := s.params.part.reactions[k.index.1]

/-- Count of a kind in a notice slot, 0 where it is not pending (R161). -/
def State.noticeCount (s : State) (slot : Fin 10) (k : Fin 25) : Nat := (s.notices.slots[slot.1])[k.1]

/-- The order a station is bound to. -/
def State.boundOrder (s : State) (n : Fin 9) : Option Order := (s.station n).order.bind s.orderAt

/-- The ROPE fields of the order a station is bound to. -/
def State.rope (s : State) (n : Fin 9) : Option RopeOrder :=
  match s.boundOrder n with
  | some ⟨_, .rope f⟩ => some f
  | _ => none

/-- The NET fields of the order a station is bound to. -/
def State.net (s : State) (n : Fin 9) : Option NetOrder :=
  match s.boundOrder n with
  | some ⟨_, .net f⟩ => some f
  | _ => none

/-- The open piece of a station. -/
def State.openPiece? (s : State) (n : Fin 9) : Option Piece := (s.station n).piece.bind s.record

/-- The station is bound. -/
def State.bound (s : State) (n : Fin 9) : Bool := decide ((s.station n).state ≠ .unbound)

/-- Some reason stands in the set (R11). -/
def Reasons.any (r : Reasons) : Bool := r.halted || r.fault || r.overrun

/-! ### Pieces -/

/-- The fields of a coil. -/
def Piece.coil? (p : Piece) : Option Coil :=
  match p.body with
  | .coil c => some c
  | .panel _ => none

/-- The fields of a panel. -/
def Piece.panel? (p : Piece) : Option Panel :=
  match p.body with
  | .coil _ => none
  | .panel q => some q

/-- A coil's length in whole millimetres, truncated (R54). -/
def Coil.mm (c : Coil) : Nat := c.length.toNat / 1000000

/-- A coil's splice total (R65). -/
def Coil.spliceTotal (c : Coil) : Nat := c.splices.length + c.spliceOverflow

/-- The figure that is compared with the order: a coil's length in mm or a panel's rows (R54). -/
def Piece.extent (p : Piece) : Nat :=
  match p.body with
  | .coil c => c.mm
  | .panel q => q.rows

/-- Work outstanding on a panel: entries in the mend list, or unlisted runs (R130). -/
def Piece.clean (p : Piece) : Bool :=
  match p.body with
  | .coil _ => true
  | .panel q => q.unmended == 0 && q.unlisted == 0

/-- Readiness of a QUEUED piece (R130). -/
def Piece.ready (p : Piece) : Bool := !p.hold && p.clean

/-- Number of records in a state. -/
def State.countIn (s : State) (st : PieceState) : Nat :=
  s.table.records.toList.countP fun r => match r with
    | some p => p.state == st
    | none => false

/-- Number of FREE records (R93). -/
def State.freeCount (s : State) : Nat := s.table.records.toList.countP (·.isNone)

/-- FREE records less those reserved, the figure of R125. -/
def State.figure (s : State) : Nat := s.freeCount - s.arbiter.reservedRecords

/-- The lowest-numbered FREE record (R16). -/
def State.firstFree (s : State) : Option (Fin 64) := allRecords.find? fun i => (s.record i).isNone

/-- Some non-FREE record bears the serial (R113). -/
def State.serialInUse (s : State) (v : Word32) : Bool :=
  s.table.records.toList.any fun r => match r with
    | some p => p.serial == v
    | none => false

/-- The record a request names by number and serial, if the serial is its own (R117). -/
def State.named (s : State) (i : Fin 64) (serial : Word32) : Option Piece :=
  match s.record i with
  | some p => if p.serial = serial then some p else none
  | none => none

/-- The record that an awaiting row names, if it still holds that panel (R70, R71). -/
def State.panelAt (s : State) (i : Fin 64) (serial : Word32) : Option Panel :=
  (s.named i serial).bind Piece.panel?

/-- Number of non-FREE records that name an order slot (R3). -/
def State.pieceCount (s : State) (slot : Fin 16) : Nat :=
  s.table.records.toList.countP fun r => match r with
    | some p => p.slot == slot
    | none => false

/-- Station n is bound to the slot (R3). -/
def State.boundTo (s : State) (slot : Fin 16) (n : Fin 9) : Bool := (s.station n).order == some slot

/-- A slot is in use while a station is bound to it or a piece names it (R3). -/
def State.slotInUse (s : State) (slot : Fin 16) : Bool :=
  allStations.any (s.boundTo slot) || decide (0 < s.pieceCount slot)

/-! ### Station outputs (R10, R158) -/

/-- Cut status: WAITING in the waiting queue, GRANTED while CUTTING, NONE otherwise (R89). -/
def State.cutStatus (s : State) (n : Fin 9) : CutStatus :=
  if (s.station n).state = .cutting then .granted
  else if n ∈ s.arbiter.waiting then .waiting
  else .none

/-- The states in which a run permit is given (R10). -/
def StationState.permitted (st : StationState) : Bool := st == .running || st == .holding || st == .cutting

/-- The run permit of a station is given (R158). -/
def State.permitGiven (s : State) (n : Fin 9) : Bool :=
  s.port.mode == .operate && (s.station n).state.permitted

/-- Level of the run permit output (R158). -/
def State.permitLevel (s : State) (n : Fin 9) : Bool :=
  s.permitGiven n && (s.params.part.permitMode == .static || (s.station n).pulseHigh)

/-- The hold output is on (R10). -/
def State.holdOn (s : State) (n : Fin 9) : Bool :=
  (s.station n).state == .holding || (s.station n).state == .cutting || (s.station n).state == .tripped

/-- The cut output is on (R10). -/
def State.cutOn (s : State) (n : Fin 9) : Bool := (s.station n).state == .cutting

/-! ### Notices (R163 to R166) -/

/-- The kind is pending in the slot and not masked. -/
def State.noticeShown (s : State) (slot : Fin 10) (k : Fin 25) : Bool :=
  decide (0 < s.noticeCount slot k) && !s.notices.mask.getLsbD k.1

/-- Class of a notice kind (R163). -/
def State.classOf (s : State) (k : Fin 25) : NoticeClass := s.params.part.classes[k.1]

/-- The notice kinds in the order of their codes. -/
def allKinds : List (Fin 25) := List.finRange 25

/-- The notice slots in order. -/
def allSlots : List (Fin 10) := List.finRange 10

/-- Level of the notice output (R164). -/
def State.noticeOutput (s : State) : Bool := allSlots.any fun slot => allKinds.any (s.noticeShown slot)

/-! ### What the arbiter judges by (R90, R92, R93) -/

/-- Age of a reading on a clock that now reads now, modulo 2^32 (R1, R90). -/
def age (now reading : Word32) : Nat := (now - reading).toNat

/-- A part clock reading's age in ms. -/
def State.ageOf (s : State) (reading : Word32) : Nat := age s.clocks.part reading

/-- Readings of the grant list in the window (R90). -/
def State.windowCount (s : State) : Nat :=
  s.arbiter.grants.countP fun r => decide (s.ageOf r < s.params.part.tWin * 1000)

/-- The latest grant's reading on a lane. -/
def Arbiter.laneTime (a : Arbiter) : Lane → Option Word32
  | .a => a.laneA
  | .b => a.laneB

/-- A lane time, if present, is younger than a gap in seconds. -/
def State.younger (s : State) (time : Option Word32) (gap : Nat) : Bool :=
  match time with
  | some r => decide (s.ageOf r < gap * 1000)
  | none => false

/-- The lane is blocked by its lane gap (R90). -/
def State.laneBlocked (s : State) (lane : Lane) : Bool :=
  s.younger (s.arbiter.laneTime lane) s.params.part.laneGap

/-- Every lane is blocked by the any-lane gap (R90). -/
def State.anyBlocked (s : State) : Bool :=
  s.younger s.arbiter.laneA s.params.part.anyGap || s.younger s.arbiter.laneB s.params.part.anyGap

/-- Pack places in use (R93). -/
def State.placesInUse (s : State) : Nat :=
  s.countIn .queued + (s.countIn .atScale + s.countIn .weighed) + s.arbiter.reservedPlaces

/-- The six conditions of R92. -/
def State.eligible (s : State) (n : Fin 9) : Bool :=
  ((s.station n).state == .running || (s.station n).state == .holding) &&
  decide (s.windowCount < s.params.part.kWin) &&
  !s.laneBlocked (s.stationParams n).lane &&
  !s.anyBlocked &&
  decide (s.placesInUse < Config.packPlaces) &&
  decide (1 ≤ s.figure)

/-! ### The scale (R133 to R137) -/

/-- Expected weight in g, as held (R133). -/
def expectedWeight (o : Order) (p : Piece) : Nat :=
  match o.body, p.body with
  | .rope f, .coil c => min Config.expectedLimit (roundDiv (c.mm * f.density) 1000000)
  | .net f, .panel q => min Config.expectedLimit (roundDiv (q.rows * f.rowMass) 1000)
  | _, _ => 0

/-- Deviation in per mille, truncated toward zero; absent when the expected weight is 0 (R133). -/
def deviation (weight expected : Nat) : Option Int :=
  if expected = 0 then none else some ((((weight : Int) - (expected : Int)) * 1000).tdiv (expected : Int))

/-- The deviation is there and its magnitude is at most tol. -/
def within (d : Option Int) (tol : Nat) : Bool :=
  match d with
  | some v => decide (v.natAbs ≤ tol)
  | none => false

/-- Computed grade of a coil (R135). -/
def coilGrade (f : RopeOrder) (c : Coil) (d : Option Int) : Grade :=
  if 0 < c.spliceOverflow ∨ d = none then .reject
  else if c.spliceTotal ≤ f.spliceA ∧ c.quality.excursions ≤ f.excA ∧ within d f.tolA then .a
  else if c.spliceTotal ≤ f.spliceB ∧ c.quality.excursions ≤ f.excB ∧ within d f.tolB then .b
  else .reject

/-- Computed grade of a panel (R136). -/
def panelGrade (f : NetOrder) (q : Panel) (d : Option Int) : Grade :=
  if 0 < q.waived ∨ d = none ∨ 0 < q.unmended ∨ 0 < q.unlisted then .reject
  else if q.holes = 0 ∧ q.knots ≤ f.knotsA ∧ q.unsensed = 0 ∧ within d f.tolA then .a
  else if q.holes ≤ f.holesB ∧ q.knots ≤ f.knotsB ∧ within d f.tolB then .b
  else .reject

/-- Computed grade of a piece under its order (R135, R136). -/
def computedGrade (o : Order) (p : Piece) (d : Option Int) : Grade :=
  match o.body, p.body with
  | .rope f, .coil c => coilGrade f c d
  | .net f, .panel q => panelGrade f q d
  | _, _ => .reject

/-- The worse of two grades (R137). -/
def Grade.worse (g h : Grade) : Grade :=
  match g, h with
  | .reject, _ => .reject
  | _, .reject => .reject
  | .b, _ => .b
  | _, .b => .b
  | .a, .a => .a

/-- The best grade a cap allows (R109). -/
def capGrade : Option Cap → Grade
  | none => .a
  | some .b => .b
  | some .reject => .reject

/-- The grade: the worse of the computed grade and the cap (R137). -/
def formGrade (computed : Grade) (cap : Option Cap) : Grade := computed.worse (capGrade cap)

end Sys2Proof.Machine
end

