-- ==== Sys2Proof/Machine/Ops.lean ====
section
/-!
DEFINITION. The operations that several commands share: time, notices, changes of station state, openings and
closings of pieces, the target and overrun tests, grants and aborts, faults and their reactions, and the line reset.
-/
namespace Sys2Proof.Machine

/-! ### Time (R1) -/

/-- Both clocks dt microseconds later. -/
def Clocks.elapse (c : Clocks) (dt : Nat) : Clocks where
  mark := c.mark + BitVec.ofNat 32 dt
  part := c.part + BitVec.ofNat 32 ((c.phase + dt) / 1000)
  phase := (c.phase + dt) % 1000

/-- Time passes; nothing else happens. -/
def State.elapse (s : State) (dt : Nat) : State := { s with clocks := s.clocks.elapse dt }

/-- What is left on a timer when its clock reads now. -/
def Timer.left (t : Timer) (now : Word32) : Nat := t.span - age now t.start

/-- Time passes until a timer on the mark clock runs out, none if it has (DESIGN CHOICE, assumption 3). -/
def State.waitMark (s : State) (t : Timer) : State := s.elapse (t.left s.clocks.mark)

/-- Time passes until a timer on the part clock runs out, none if it has (DESIGN CHOICE, assumption 3). -/
def State.waitPart (s : State) (t : Timer) : State :=
  if t.left s.clocks.part = 0 then s else s.elapse (t.left s.clocks.part * 1000 - s.clocks.phase)

/-- A timer armed now on the mark clock, for a time in microseconds. -/
def State.markTimer (s : State) (span : Nat) : Timer := ⟨s.clocks.mark, span⟩

/-- A timer armed now on the part clock, for a time in milliseconds. -/
def State.partTimer (s : State) (span : Nat) : Timer := ⟨s.clocks.part, span⟩

/-! ### Writes to one record -/

/-- Station n's record changed by f. -/
def State.modStation (s : State) (n : Fin 9) (f : Station → Station) : State :=
  { s with stations := modifyAt s.stations n f }

/-- Lay station n's tracker state changed by f. -/
def State.modLay (s : State) (n : Fin 8) (f : LayStation → LayStation) : State :=
  { s with lays := modifyAt s.lays n f }

/-- Input levels of lay station n changed by f. -/
def State.modPins (s : State) (n : Fin 8) (f : LayPins → LayPins) : State :=
  { s with pins := { s.pins with lay := modifyAt s.pins.lay n f } }

/-- Record i replaced. -/
def State.setRecord (s : State) (i : Fin 64) (r : Option Piece) : State :=
  { s with table := { s.table with records := s.table.records.set i.1 r } }

/-- Record i changed by f where it is not FREE. -/
def State.modPiece (s : State) (i : Fin 64) (f : Piece → Piece) : State := s.setRecord i ((s.record i).map f)

/-- The coil fields of record i changed by f, where it holds a coil. -/
def State.modCoil (s : State) (i : Fin 64) (f : Coil → Coil) : State :=
  s.modPiece i fun p => match p.body with
    | .coil c => { p with body := .coil (f c) }
    | .panel _ => p

/-- The panel fields of record i changed by f, where it holds a panel. -/
def State.modPanel (s : State) (i : Fin 64) (f : Panel → Panel) : State :=
  s.modPiece i fun p => match p.body with
    | .coil _ => p
    | .panel q => { p with body := .panel (f q) }

/-- Fault set and first-fault record of station n changed by f. -/
def State.modFaults (s : State) (n : Fin 9) (f : StationFaults → StationFaults) : State :=
  { s with collector := { s.collector with stations := modifyAt s.collector.stations n f } }

/-- Cut timer of station n. -/
def State.setCutTimer (s : State) (n : Fin 9) (t : Option Timer) : State :=
  { s with arbiter := { s.arbiter with cutTimers := s.arbiter.cutTimers.set n.1 t } }

/-- The inspector changed by f. -/
def State.modInspector (s : State) (f : Inspector → Inspector) : State := { s with inspector := f s.inspector }

/-- The waiting queue replaced. -/
def State.setWaiting (s : State) (q : List (Fin 9)) : State := { s with arbiter := { s.arbiter with waiting := q } }

/-! ### Notices (R162) -/

/-- The count of a kind noticed once more. -/
def noticed (count : Nat) : Nat := satSucc Config.noticeSat count

/-- A kind is noticed in a slot. -/
def State.notice (s : State) (slot : Fin 10) (k : NoticeKind) : State :=
  { s with notices := { s.notices with slots := modifyAt s.notices.slots slot fun v => modifyAt v k.index noticed } }

/-- The TABLE_LOW test (R125), applied at every change of the figure and at LEAVE CONFIG. -/
def State.lowTest (s : State) : State :=
  if s.figure ≤ s.params.part.lowWater then
    if s.table.lowArmed then ({ s with table := { s.table with lowArmed := false } }).notice partSlot .tableLow else s
  else { s with table := { s.table with lowArmed := true } }

/-- The low mark the high-queue test uses (R142). -/
def State.usedLowMark (s : State) : Nat := min s.params.part.queueLow (s.params.part.queueHigh - 1)

/-- The high-queue test (R142), applied at every change of the queued count and at LEAVE CONFIG. -/
def State.highTest (s : State) : State :=
  if s.pack.highArmed = true ∧ s.params.part.queueHigh ≤ s.pack.queue.length then
    ({ s with pack := { s.pack with highArmed := false } }).notice partSlot .packQueueHigh
  else if s.pack.queue.length ≤ s.usedLowMark then { s with pack := { s.pack with highArmed := true } }
  else s

/-! ### Station state (R10, R11, R17, R29) -/

/-- A lay station's demand set; a demand of 0 leaves the output idle, and the first pulse after it comes at once (R42). -/
def LayStation.setDemand (l : LayStation) (f : Nat) : LayStation :=
  if f = 0 then { l with demand := 0, lastPulse := none } else { l with demand := f }

/-- What a lay station does when its station leaves RUNNING (R17, R29, R41, R43). -/
def LayStation.stop (l : LayStation) : LayStation := { l.setDemand 0 with stall := none }

/-- The tracker reset at a station that is not RUNNING once it is done (R29). -/
def LayStation.trackerReset (l : LayStation) : LayStation := { l.stop with tracker := Tracker.initial }

/-- The station record in a new state. The permit of a station that had none begins high with a fresh pulse train
(R158); one withdrawn is low. mode is the mode of the part. -/
def Station.enter (x : Station) (mode : Mode) (now : Word32) (st : StationState) : Station :=
  if mode = .operate ∧ st.permitted = true then
    if x.state.permitted = true then { x with state := st }
    else { x with state := st, pulseHigh := true, pulseAt := now }
  else { x with state := st, pulseHigh := false }

/-- The station enters a state; its permit, hold and cut outputs follow (R10). -/
def State.enterState (s : State) (n : Fin 9) (st : StationState) : State :=
  s.modStation n fun x => x.enter s.port.mode s.clocks.part st

/-- What leaving RUNNING does at the station's tracker or row stall timer (R17). -/
def State.stopMachine (s : State) (n : Fin 9) : State :=
  match layOf n with
  | some l => s.modLay l LayStation.stop
  | none => s.modInspector fun i => { i with rowTimer := none }

/-- A station leaves RUNNING, if it is RUNNING, for another state, or goes from one stopped state to another (R17). -/
def State.leaveFor (s : State) (n : Fin 9) (st : StationState) : State :=
  if (s.station n).state = .running then (s.stopMachine n).enterState n st else s.enterState n st

/-- A station enters RUNNING with a fresh run (R17, R29). -/
def State.enterRunning (s : State) (n : Fin 9) : State :=
  match layOf n with
  | some l =>
    (s.enterState n .running).modLay l fun x =>
      { x.trackerReset.setDemand (s.layParams l).fStart with stall := some (s.markTimer (s.layParams l).tMax) }
  | none =>
    (s.enterState n .running).modInspector fun i =>
      { i with rowTimer := some (s.partTimer s.params.loom.rowTime) }

/-- The hold reasons of a station changed by f. -/
def State.modReasons (s : State) (n : Fin 9) (f : Reasons → Reasons) : State :=
  s.modStation n fun x => { x with reasons := f x.reasons }

/-- A hold reason joins the set of a RUNNING, HOLDING or CUTTING station; a RUNNING one enters HOLDING (R11). -/
def State.addReason (s : State) (n : Fin 9) (f : Reasons → Reasons) : State :=
  match (s.station n).state with
  | .running => (s.modReasons n f).leaveFor n .holding
  | .holding | .cutting => s.modReasons n f
  | .unbound | .ready | .tripped => s

/-! ### Pieces (R113 to R115) -/

/-- The serial after v; 0 is never given (R113). -/
def nextSerial (v : Word32) : Word32 := if v = BitVec.allOnes 32 then 1 else v + 1

/-- A value that is not held: v, or the first after it, each the next of the one before, within so many steps. -/
def firstUnheld {α : Type} (held : α → Bool) (next : α → α) : Nat → α → α
  | 0, v => v
  | fuel + 1, v => if held v then firstUnheld held next fuel (next v) else v

/-- The body of a new piece (R114): a worst slip of 0 where a metering wheel is fitted, absent otherwise. -/
def State.newBody (s : State) (n : Fin 9) : PieceBody :=
  match layOf n with
  | some l => .coil ⟨0, [], 0, ⟨0, 0, 0, 0⟩, if (s.layParams l).meterScale = 0 then none else some 0⟩
  | none => .panel ⟨0, 0, 0, 0, 0, 0, 0, 0⟩

/-- The record an opening writes (R114). -/
def State.newPiece (s : State) (n : Fin 9) (slot : Fin 16) (tag serial : Word32) : Piece where
  state := .opened
  serial := serial
  station := n
  slot := slot
  tag := tag
  openedAt := s.clocks.part
  closedAt := none
  short := false
  overrun := false
  label := none
  cap := none
  hold := false
  body := s.newBody n
  weighing := none
  packLabel := none
  aside := none

/-- The tag of the order in a slot. -/
def State.orderTag (s : State) (slot : Fin 16) : Word32 :=
  match s.orderAt slot with
  | some o => o.tag
  | none => 0

/-- The serial that the next opening takes: the counter's value, or the first after it that names no non-FREE record
(R113). -/
def State.openSerial (s : State) : Word32 := firstUnheld s.serialInUse nextSerial 64 s.table.nextSerial

/-- Record i holds a new piece of station n, and the serial counter stands past its serial (R113, R114). -/
def State.writePiece (s : State) (n : Fin 9) (slot : Fin 16) (i : Fin 64) : State :=
  { s with table := { s.table with
      records := s.table.records.set i.1 (some (s.newPiece n slot (s.orderTag slot) s.openSerial))
      nextSerial := nextSerial s.openSerial } }

/-- Record i is the open piece of station n. -/
def State.givePiece (s : State) (n : Fin 9) (i : Fin 64) : State := s.modStation n fun x => { x with piece := some i }

/-- At the loom an opening empties the previous row (R87). -/
def State.forgetRow (s : State) (n : Fin 9) : State :=
  if n = loom then s.modInspector fun x => { x with previous := none } else s

/-- Record i opens as the open piece of station n under a slot; at the loom the previous row is emptied (R16, R114). -/
def State.openInto (s : State) (n : Fin 9) (slot : Fin 16) (i : Fin 64) : State :=
  ((s.writePiece n slot i).givePiece n i).forgetRow n

/-- The lowest-numbered FREE record opens as the station's open piece; none if no record is FREE. -/
def State.openPiece (s : State) (n : Fin 9) : Option State :=
  match (s.station n).order, s.firstFree with
  | some slot, some i => some (s.openInto n slot i)
  | _, _ => none

/-! ### Grants (R94, R95) -/

/-- The grant list with a reading appended; the oldest of 8 goes first (R90). -/
def appendGrant (grants : List Word32) (now : Word32) : List Word32 :=
  if Config.grantSize ≤ grants.length then grants.tail ++ [now] else grants ++ [now]

/-- The arbiter's side of a grant to station n, on a lane, at a reading (R95). -/
def Arbiter.grant (a : Arbiter) (n : Fin 9) (lane : Lane) (now : Word32) (timer : Timer) : Arbiter :=
  { a with
    waiting := a.waiting.filter (· != n)
    grants := appendGrant a.grants now
    laneA := if lane = .a then some now else a.laneA
    laneB := if lane = .b then some now else a.laneB
    reservedRecords := a.reservedRecords + 1
    reservedPlaces := a.reservedPlaces + 1
    cutTimers := a.cutTimers.set n.1 (some timer) }

/-- A grant to station n, less the TABLE_LOW test (R95). -/
def State.award (s : State) (n : Fin 9) : State :=
  ({ s with
    arbiter := s.arbiter.grant n (s.stationParams n).lane s.clocks.part
      (s.partTimer (s.params.part.cutTimeout * 1000)) }).leaveFor n .cutting

/-- A grant to station n (R95, R125). -/
def State.grant (s : State) (n : Fin 9) : State := (s.award n).lowTest

/-- Walks of the waiting queue from its head, each granting the first eligible request (R94). -/
def considerWith : Nat → State → State
  | 0, s => s
  | fuel + 1, s =>
    match s.arbiter.waiting.find? s.eligible with
    | some n => considerWith fuel (s.grant n)
    | none => s

/-- The arbiter considers its grants (R94). Each grant shortens the queue, so the walks end within its length. -/
def State.consider (s : State) : State := considerWith s.arbiter.waiting.length s

/-- The arbiter considers its grants if the event just taken calls for it. -/
def State.considerIf (s : State) (due : Bool) : State := if due then s.consider else s

/-- A request joins the tail of the waiting queue (R91). -/
def State.placeRequest (s : State) (n : Fin 9) : State := s.setWaiting (s.arbiter.waiting ++ [n])

/-- A request leaves the waiting queue otherwise than by a grant (R91, R103). -/
def State.dropRequest (s : State) (n : Fin 9) : State := s.setWaiting (s.arbiter.waiting.filter (· != n))

/-! ### Target and overrun tests (R55, R57) -/

/-- The station's open piece stands at or above a figure of its order. -/
def State.reached (s : State) (n : Fin 9) (figure : Order → Nat) : Bool :=
  match s.openPiece? n, s.boundOrder n with
  | some p, some o => decide (figure o ≤ p.extent)
  | _, _ => false

/-- The states in which the target test places a request (R55). -/
def StationState.mayRequest (st : StationState) : Bool := st == .ready || st == .running || st == .holding

/-- The target test places a request for the station (R55). -/
def State.requestDue (s : State) (n : Fin 9) : Bool :=
  s.reached n Order.target && decide (s.cutStatus n = .none) && (s.station n).state.mayRequest

/-- The target test (R55). The consideration that the request's arrival starts (R94) comes after the overrun test of
the same event, which R57 has act on the request while it is WAITING (DEDUCED, assumption 7). -/
def State.targetTest (s : State) (n : Fin 9) : State := if s.requestDue n then s.placeRequest n else s

/-- The states in which the overrun test takes effect, at a START and otherwise (R57). -/
def StationState.mayOverrun (st : StationState) (atStart : Bool) : Bool :=
  st == .running || st == .holding || (atStart && st == .ready)

/-- The overrun flag of the station's open piece is set. -/
def State.flagOverrun (s : State) (n : Fin 9) : State :=
  match (s.station n).piece with
  | some i => s.modPiece i fun p => { p with overrun := true }
  | none => s

/-- A RUNNING station enters HOLDING. -/
def State.holdRunning (s : State) (n : Fin 9) : State :=
  if (s.station n).state = .running then s.leaveFor n .holding else s

/-- What the overrun test does when it takes effect (R57). -/
def State.overrunHold (s : State) (n : Fin 9) : State :=
  (((s.modReasons n fun r => { r with overrun := true }).flagOverrun n).holdRunning n).notice
    (slotOfStation n) .overrunHold

/-- The overrun test (R57). -/
def State.overrunTest (s : State) (n : Fin 9) (atStart : Bool) : State :=
  if s.cutStatus n = .waiting ∧ (s.station n).state.mayOverrun atStart = true ∧ s.reached n Order.limit = true ∧
      (s.station n).reasons.overrun = false then
    s.overrunHold n
  else s

/-- The two tests after a count or a row (R51, R53), and the consideration at the arrival of the request that the
target test placed, if it placed one (R94; DEDUCED, assumption 7). -/
def State.tallyTests (s : State) (n : Fin 9) : State :=
  ((s.targetTest n).overrunTest n false).considerIf (s.requestDue n)

/-! ### Aborts and trips (R102, R152, R153) -/

/-- The two reservations of one cut are released (R96, R102). -/
def State.release (s : State) : State :=
  { s with arbiter := { s.arbiter with
      reservedRecords := s.arbiter.reservedRecords - 1
      reservedPlaces := s.arbiter.reservedPlaces - 1 } }

/-- An abort, less the change of state that its cause sets, the TABLE_LOW test at the fall of the reserved count and
the consideration of grants that follow it (R102, R125). -/
def State.abortCut (s : State) (n : Fin 9) : State := (s.setCutTimer n none).release

/-- The state of a tripped station: no request, no hold reasons, TRIPPED (R152). -/
def State.tripped (s : State) (n : Fin 9) : State :=
  ((s.dropRequest n).modReasons n fun _ => Reasons.empty).leaveFor n .tripped

/-- A trip of a station in READY, RUNNING, HOLDING or CUTTING (R152). -/
def State.tripStation (s : State) (n : Fin 9) : State :=
  if (s.station n).state = .cutting then (((s.abortCut n).tripped n).lowTest).consider else s.tripped n

/-- TRIP applied at a station (R152); at an UNBOUND or TRIPPED one it changes nothing. -/
def State.trip (s : State) (n : Fin 9) : State :=
  match (s.station n).state with
  | .unbound | .tripped => s
  | .ready | .running | .holding | .cutting => s.tripStation n

/-! ### Faults (R149 to R154) -/

/-- The first-fault record of a fault raised now at station n (R149). -/
def State.firstFault (s : State) (n : Fin 9) (k : FaultKind) (source : Option (Fin 9)) : FirstFault where
  kind := k
  time := s.clocks.part
  piece := match (s.station n).piece, s.openPiece? n with
    | some i, some p => some (i, p.serial)
    | _, _ => none
  extent := (s.openPiece? n).map Piece.extent
  source := source

/-- Steps 1 to 3 of R150: set, first-fault record, notice. -/
def State.recordFault (s : State) (n : Fin 9) (k : FaultKind) (source : Option (Fin 9)) : State :=
  let record := s.firstFault n k source
  (s.modFaults n fun f => ⟨addToSet f.set k, f.first.getD record⟩).notice (slotOfStation n) (.fault k)

/-- PEER_TRIP at station m, raised by the TRIP_ALL of another (R153). -/
def State.peerTrip (source : Fin 9) (s : State) (m : Fin 9) : State :=
  if m ≠ source ∧ (s.station m).state ≠ .unbound ∧ (s.station m).state ≠ .tripped then
    (s.recordFault m .peerTrip (some source)).trip m
  else s

/-- Step 4 of R150: the reaction the table holds for the kind, against the state at this moment (R151 to R154). -/
def State.react (s : State) (n : Fin 9) (k : FaultKind) : State :=
  if (s.station n).state = .tripped then s
  else
    match s.reaction k with
    | .note => s
    | .hold => s.addReason n fun r => { r with fault := true }
    | .trip => s.trip n
    | .tripAll => allStations.foldl (State.peerTrip n) (s.trip n)

/-- A fault raised at a bound station (R150). -/
def State.raise (s : State) (n : Fin 9) (k : FaultKind) : State := (s.recordFault n k none).react n k

/-- Several faults of one event, taken in the order handed (R150). -/
def State.raiseAll (s : State) (n : Fin 9) (ks : List FaultKind) : State := ks.foldl (fun s k => s.raise n k) s

/-! ### The line reset (R175) -/

/-- A station at a line reset (R20). -/
def Station.lineReset (x : Station) : Station :=
  { x with
    state := if x.state = .unbound then .unbound else .ready
    reasons := Reasons.empty
    pulseHigh := false }

/-- A lay station at a line reset (R47, R61, R66): the strand-out set and the constants are kept. -/
def LayStation.lineReset (l : LayStation) : LayStation := { l.trackerReset with slipCap := 0, slipMeter := 0 }

/-- The inspector at a line reset (R87). -/
def Inspector.lineReset (i : Inspector) : Inspector :=
  { i with awaiting := none, previous := none, hookMiss := Vector.replicate 64 0, rowTimer := none }

/-- The arbiter at a line reset (R106). -/
def Arbiter.lineReset (a : Arbiter) : Arbiter :=
  { a with waiting := [], reservedRecords := 0, reservedPlaces := 0, cutTimers := Vector.replicate 9 none }

/-- The number of the piece at the scale if it is AT_SCALE. -/
def State.unweighed (s : State) : Option (Fin 64) :=
  match s.pack.scale with
  | some i => match s.record i with
    | some p => if p.state = .atScale then some i else none
    | none => none
  | none => none

/-- An AT_SCALE piece goes back to QUEUED at the head of the queue (R132, R146). -/
def State.takeBack (s : State) (i : Fin 64) : State :=
  { s.modPiece i fun p => { p with state := .queued } with
    pack := { s.pack with queue := i :: s.pack.queue, scale := none } }

/-- The pack line at a line reset, less the piece that is taken back (R146). -/
def PackLine.lineReset (p : PackLine) : PackLine :=
  { p with scaleTimer := none, highArmed := true, receiver := .hunting, tx := [] }

/-- A piece AT_SCALE, if any, goes back to the queue (R146). -/
def State.takeBackUnweighed (s : State) : State :=
  match s.unweighed with
  | some i => s.takeBack i
  | none => s

/-- Every block's own part of a line reset with a cause, but for the piece at the scale and the tests that follow. -/
def State.resetBlocks (s : State) (cause : ResetCause) : State :=
  { s with
    stations := s.stations.map Station.lineReset
    lays := s.lays.map LayStation.lineReset
    inspector := s.inspector.lineReset
    arbiter := s.arbiter.lineReset
    table := { s.table with lowArmed := true }
    pack := s.pack.lineReset
    collector := Collector.initial
    notices := { s.notices with slots := Notices.initial.slots }
    port := { s.port with cause := cause, response := none, ready := false } }

/-- The line reset with a cause (R20, R47, R66, R87, R106, R127, R146, R160, R167, R175). The two tests come after
the notices have been cleared. -/
def State.lineReset (s : State) (cause : ResetCause) : State :=
  ((s.takeBackUnweighed.resetBlocks cause).lowTest).highTest

end Sys2Proof.Machine
end

