-- ==== Sys2Proof/Machine/Frames.lean ====
section
/-!
DEFINITION. The records as returned (11-1.2, 11-2, R176, R177), and the two ports' handling of a request: the pending
response with its link silence restart (R157, R168 to R170), and the pack port's answers (R143, R144, R177).
-/
namespace Sys2Proof.Machine

/-! ### Fields -/

/-- A number in one byte. -/
def byteOf (n : Nat) : Byte := BitVec.ofNat 8 n

/-- A number in two bytes, high byte first. -/
def num2 (n : Nat) : List Byte := bytes16 (BitVec.ofNat 16 n)

/-- A number in four bytes, high byte first. -/
def num4 (n : Nat) : List Byte := bytes32 (BitVec.ofNat 32 n)

/-- A signed number in four bytes, two's complement. -/
def int4 (n : Int) : List Byte := bytes32 (BitVec.ofInt 32 n)

/-- A signed number in eight bytes, two's complement. -/
def int8 (n : Int) : List Byte := bytes64 (BitVec.ofInt 64 n)

/-- A bit of a flags byte. -/
def flag (set : Bool) (bit : Nat) : Byte := if set then BitVec.twoPow 8 bit else 0

/-- Four bytes, zeros while the field is absent (R176). -/
def word4 (w : Option Word32) : List Byte := bytes32 (w.getD 0)

/-- A bitmap of two bytes, position n for entry n of the list. -/
def bitmap2 (bits : List Bool) : List Byte :=
  num2 (bits.foldr (fun b n => 2 * n + b.toNat) 0)

/-! ### Responses on the host port (11-1) -/

/-- The bytes of a response frame. -/
def Response.bytes (r : Response) : List Byte :=
  r.tag :: (statusCode r.status ||| flag r.prior 7) :: byteOf r.fields.length :: r.fields

/-- What a read span shifts out when no response is pending (R169). -/
def noResponse : Response := ⟨0, .noResponse, false, []⟩

/-- The request span has ended, and its answer replaces the pending response; PRIOR_UNREAD tells whether one was
pending and unread (R168, R169). -/
def Port.answer (p : Port) (tag : Byte) (prior : Bool) (status : Status) (fields : List Byte) : Port :=
  { p with response := some ⟨tag, status, prior, fields⟩, ready := true, span := .idle }

/-- The request span in progress replaced. -/
def Port.setSpan (p : Port) (x : SpanProgress) : Port := { p with span := x }

/-- The host port changed by f. -/
def State.modPort (s : State) (f : Port → Port) : State := { s with port := f s.port }

/-- What a block makes of a request: the state after it, the status and the fields of the answer. -/
structure Answer where
  state : State
  status : Status
  fields : List Byte
deriving DecidableEq, Repr

/-- A request that is answered without effect and without fields. -/
def State.refuse (s : State) (status : Status) : Answer := ⟨s, status, []⟩

/-- The link silence timer after a well-formed request (R157). -/
def State.restartLink (s : State) : State :=
  { s with collector := { s.collector with
      linkTimer := if s.params.part.linkTime = 0 then none else some (s.partTimer s.params.part.linkTime) } }

/-- A well-formed host request has left the state as it now stands: the link silence timer is restarted (R157), and
the answer replaces the pending response (R169, R170). -/
def State.responded (s : State) (tag : Byte) (prior : Bool) (status : Status) (fields : List Byte) : State :=
  { s.restartLink with port := s.port.answer tag prior status fields }

/-- A response is pending and unread (R169). -/
def State.unread (s : State) : Bool := s.port.response.isSome

/-- A well-formed host request taken now, RESET being released (R157, R168 to R170, R175). -/
def State.takeRequest (s : State) (tag : Byte) (body : State → Answer) : State :=
  (body s).state.responded tag s.unread (body s).status (body s).fields

/-- A request span that ends now is taken: RESET is released, and did not cut the span off (R175). -/
def State.takesSpan (s : State) : Bool := !s.pins.reset && decide (s.port.span ≠ .dropped)

/-- A request span ends: time passes, and the span is taken, unless RESET is held or cut it off (R175, assumption 39). -/
def requestSpan (dt : Nat) (body : State → State) (s : State) : Host.Outcome State Fault Refusal :=
  if s.takesSpan then .next (body (s.elapse dt)) else .next ((s.elapse dt).modPort (·.setSpan .idle))

/-- A host request, whose span ends now (R168, R170, R175). -/
def hostRequest (dt : Nat) (tag : Byte) (body : State → Answer) (s : State) : Host.Outcome State Fault Refusal :=
  requestSpan dt (fun s => s.takeRequest tag body) s

/-! ### Answers on the pack port (R177, 11-3) -/

/-- A pack port answer frame: kind, status, fields. -/
def packAnswer (kind : Byte) (status : Status) (fields : List Byte) : List Byte :=
  packFrame (kind :: statusCode status :: fields)

/-- A pack port frame is discarded (R143). -/
def State.discardFrame (s : State) : State :=
  ({ s with pack := { s.pack with
      receiver := .hunting, framing := satSucc Config.countSat s.pack.framing } }).notice partSlot .packFraming

/-- A pack port request has left the state as it now stands: the receiver hunts, and the answer waits to be sent
(R143, R144). -/
def State.packResponded (s : State) (kind : Byte) (status : Status) (fields : List Byte) : State :=
  { s with pack := { s.pack with receiver := .hunting, tx := s.pack.tx ++ [packAnswer kind status fields] } }

/-- A pack port request taken when its last character arrives (R144); with 4 answers waiting the frame is discarded. -/
def State.takePack (s : State) (kind : Byte) (body : State → Answer) : State :=
  if Config.txSize ≤ s.pack.tx.length then s.discardFrame
  else (body s).state.packResponded kind (body s).status (body s).fields

/-- A pack port request: time passes, and the request is taken unless RESET is held (R175). -/
def packRequest (dt : Nat) (kind : Byte) (body : State → Answer) (s : State) : Host.Outcome State Fault Refusal :=
  if s.pins.reset then .next (s.elapse dt) else .next ((s.elapse dt).takePack kind body)

/-- An arrival on the line wiring: time passes, and it is taken unless RESET is held (R175). -/
def lineArrival (dt : Nat) (body : State → State) (s : State) : Host.Outcome State Fault Refusal :=
  if s.pins.reset then .next (s.elapse dt) else .next (body (s.elapse dt))

/-! ### Orders (11-2.1) -/

/-- The kind code and the fields of an order. -/
def OrderBody.kindByte : OrderBody → Byte
  | .rope _ => 0x01
  | .net _ => 0x02

/-- The kind fields in the order of 11-2.1; the dead-hook rows are always returned. -/
def OrderBody.fieldBytes : OrderBody → List Byte
  | .rope f =>
    num4 f.lay ++ [byteOf f.strands] ++ num4 f.target ++ num2 f.allowance ++ num4 f.density ++ num4 f.band ++
    num4 f.drift ++ [byteOf f.persistence] ++ num2 f.excA ++ num2 f.excB ++ [byteOf f.spliceA, byteOf f.spliceB] ++
    num2 f.tolA ++ num2 f.tolB
  | .net f =>
    [byteOf f.hooks] ++ num2 f.rowTarget ++ num2 f.overrunRows ++ num4 f.rowMass ++ num2 f.knotsA ++ num2 f.knotsB ++
    num2 f.holesB ++ num2 f.tolA ++ num2 f.tolB ++ [byteOf f.deadRows]

/-- The READ ORDER answer for a slot (R7, 11-2.1). -/
def State.orderBytes (s : State) (slot : Fin 16) : List Byte :=
  let usage := bitmap2 (allStations.map (s.boundTo slot)) ++ [byteOf (s.pieceCount slot)]
  match s.orderAt slot with
  | none => [byteOf slot.1, 0] ++ usage
  | some o => [byteOf slot.1, 1] ++ usage ++ [o.body.kindByte] ++ bytes32 o.tag ++ o.body.fieldBytes

/-! ### Stations (R19, 11-2.2) -/

/-- The order slot and tag, zeros while absent. -/
def State.stationOrderBytes (s : State) (n : Fin 9) : List Byte :=
  match (s.station n).order with
  | some slot => byteOf slot.1 :: bytes32 (s.orderTag slot)
  | none => 0 :: num4 0

/-- The open piece's number, serial and extent, zeros while absent. -/
def State.stationPieceBytes (s : State) (n : Fin 9) : List Byte :=
  match (s.station n).piece, s.openPiece? n with
  | some i, some p => byteOf i.1 :: (bytes32 p.serial ++ num4 p.extent)
  | _, _ => 0 :: (num4 0 ++ num4 0)

/-- The first-fault record: kind, time, piece, extent and source, zeros (the source FFh) while absent. -/
def firstFaultBytes : Option FirstFault → List Byte
  | none => 0 :: (num4 0 ++ 0 :: (num4 0 ++ num4 0) ++ [0xFF])
  | some f =>
    byteOf f.kind.code :: (bytes32 f.time ++
      (match f.piece with
        | some (i, serial) => byteOf i.1 :: bytes32 serial
        | none => 0 :: num4 0) ++
      num4 (f.extent.getD 0) ++
      [match f.source with
        | some m => byteOf m.1
        | none => 0xFF])

/-- What a lay station or the loom adds. -/
def State.stationTail (s : State) (n : Fin 9) : List Byte :=
  match layOf n with
  | some l => (s.lay l).strandOut.setWidth 8 :: (num4 (s.lay l).demand ++ int8 (s.lay l).tracker.pos)
  | none => [flag s.inspector.awaiting.isSome 0]

/-- The READ STATION answer, 50 bytes for a lay station and 38 for the loom. -/
def State.stationBytes (s : State) (n : Fin 9) : List Byte :=
  let x := s.station n
  [byteOf n.1, x.state.code,
   flag x.order.isSome 0 ||| flag (s.openPiece? n).isSome 1 ||| flag (s.faults n).first.isSome 2,
   flag (s.permitGiven n) 0 ||| flag (s.holdOn n) 1 ||| flag (s.cutOn n) 2,
   flag x.reasons.halted 0 ||| flag x.reasons.fault 1 ||| flag x.reasons.overrun 2,
   (s.cutStatus n).code] ++
  s.stationOrderBytes n ++ s.stationPieceBytes n ++ bytes16 (s.faults n).set ++
  firstFaultBytes (s.faults n).first ++ s.stationTail n

/-! ### Pieces (11-2.3) -/

/-- Some packing field is present (R112). -/
def Piece.hasPacking (p : Piece) : Bool := p.weighing.isSome || p.packLabel.isSome || p.aside.isSome

/-- The packing part, 20 bytes, when some packing field is present. -/
def Piece.packingBytes (p : Piece) : List Byte :=
  if p.hasPacking then
    [flag p.weighing.isSome 0 ||| flag (p.weighing.bind (·.deviation)).isSome 1 ||| flag p.packLabel.isSome 2 |||
      flag p.aside.isSome 3] ++
    (match p.weighing with
      | some w => num4 w.weight ++ num4 w.expected ++ int4 (w.deviation.getD 0) ++ [w.computed.code, w.grade.code]
      | none => num4 0 ++ num4 0 ++ num4 0 ++ [0, 0]) ++
    word4 p.packLabel ++
    [match p.aside with
      | some r => r.code
      | none => 0]
  else []

/-- Kind of a piece as returned. -/
def Piece.kindByte (p : Piece) : Byte :=
  match p.body with
  | .coil _ => 0
  | .panel _ => 1

/-- Position in the pack queue of a QUEUED piece, the head being 0; FFh otherwise. -/
def State.queuePosition (s : State) (i : Fin 64) (p : Piece) : Byte :=
  if p.state = .queued then byteOf (s.pack.queue.idxOf i) else 0xFF

/-- The ready flag, of a QUEUED piece only (R118). -/
def Piece.readyFlag (p : Piece) : Bool := p.state == .queued && p.ready

/-- One splice entry. -/
def Splice.bytes (x : Splice) : List Byte := num4 x.length ++ [byteOf x.strand]

/-- The coil part or the panel part. -/
def PieceBody.bytes : PieceBody → List Byte
  | .coil c =>
    num4 c.mm ++ num4 c.quality.worst ++ num2 c.quality.excursions ++ num2 c.quality.inserted ++
    num2 c.quality.reverse ++ int4 (c.worstSlip.getD 0) ++ num2 c.spliceOverflow ++ num4 c.spliceTotal ++
    [byteOf c.splices.length] ++ c.splices.flatMap Splice.bytes
  | .panel q =>
    num2 q.rows ++ num2 q.knots ++ num2 q.holes ++ num2 q.unlisted ++ num2 q.unsensed ++ num2 q.unmended ++
    num2 q.mended ++ num2 q.waived

/-- A worst slip is present. -/
def Piece.hasSlip (p : Piece) : Bool := (p.coil?.bind (·.worstSlip)).isSome

/-- The READ PIECE answer (R118). -/
def State.pieceBytes (s : State) (i : Fin 64) : List Byte :=
  match s.record i with
  | none => [byteOf i.1, 0]
  | some p =>
    [byteOf i.1, p.state.code] ++ bytes32 p.serial ++ [p.kindByte, byteOf p.station.1, byteOf p.slot.1] ++
    bytes32 p.tag ++ bytes32 p.openedAt ++ word4 p.closedAt ++
    [flag p.short 0 ||| flag p.overrun 1 ||| flag p.hold 2 ||| flag p.closedAt.isSome 3 ||| flag p.label.isSome 4 |||
      flag p.hasPacking 5 ||| flag p.readyFlag 6 ||| flag p.hasSlip 7] ++
    word4 p.label ++ [capCode p.cap, s.queuePosition i p] ++ p.body.bytes ++ p.packingBytes

/-- The QUERY fields of a coil or a panel (R177). -/
def PieceBody.queryBytes : PieceBody → List Byte
  | .coil c => num4 c.mm ++ num4 c.spliceTotal ++ num2 c.quality.excursions
  | .panel q =>
    num2 q.rows ++ num2 q.knots ++ num2 q.holes ++ num2 q.unsensed ++ num2 q.unmended ++ num2 q.unlisted ++
    num2 q.waived

/-- The QUERY answer (R141, R177). -/
def State.queryBytes (s : State) (i : Fin 64) : List Byte :=
  match s.record i with
  | none => [0]
  | some p =>
    [p.state.code] ++ bytes32 p.serial ++ [p.kindByte, byteOf p.station.1] ++ bytes32 p.tag ++
    [flag p.short 0 ||| flag p.label.isSome 1 ||| flag p.readyFlag 2 ||| flag p.hasPacking 3] ++
    word4 p.label ++ [capCode p.cap, s.queuePosition i p] ++ p.body.queryBytes ++ p.packingBytes

/-- The NEXT answer (R131, R177). -/
def issueBytes (i : Fin 64) (p : Piece) : List Byte :=
  byteOf i.1 :: (bytes32 p.serial ++ [p.kindByte, byteOf p.station.1] ++ bytes32 p.tag ++ [flag p.label.isSome 0] ++
    word4 p.label ++ num4 p.extent ++ [capCode p.cap])

/-- The WEIGH answer (R134, R177). -/
def Weighing.bytes (w : Weighing) : List Byte :=
  num4 w.weight ++ num4 w.expected ++ [flag w.deviation.isSome 0] ++ int4 (w.deviation.getD 0) ++
  [w.computed.code, w.grade.code]

/-- The AMEND PIECE answer (11-1.2). -/
def Piece.amendBytes (p : Piece) : List Byte :=
  [flag p.label.isSome 0] ++ word4 p.label ++ [capCode p.cap, flag p.hold 0,
    match p.weighing with
    | some w => w.grade.code
    | none => 0xFF] ++
  (match p.body with
    | .coil _ => num2 0 ++ num2 0 ++ num2 0
    | .panel q => num2 q.unmended ++ num2 q.unlisted ++ num2 q.waived)

/-! ### Mend list (11-2.4) -/

/-- One mend entry. -/
def MendEntry.bytes (e : MendEntry) : List Byte :=
  bytes16 e.id ++ [byteOf e.panel.1] ++ num2 e.row ++ [byteOf e.first, byteOf e.span, e.kind.code]

/-- The head of a READ MENDS answer: entry count, next entry id, overflow count, discarded count. -/
def Inspector.headBytes (x : Inspector) : List Byte :=
  [byteOf x.mends.length] ++ bytes16 x.nextId ++ [byteOf x.overflow] ++ num2 x.discarded

end Sys2Proof.Machine
end

