-- ==== Sys2Proof/Machine/Cuts.lean ====
section
/-!
DEFINITION. The cut arbiter's events: cut-done arrivals (R98 to R100), the cut timer (R101), and the instants of the
grant list and the lane times (R90).
-/
namespace Sys2Proof.Machine

/-! ### Completing a cut (R98) -/

/-- The old piece closes into QUEUED and joins the tail of the pack queue (step 2). -/
def State.closeCut (s : State) (i : Fin 64) : State :=
  { s.modPiece i fun p => { p with state := .queued, closedAt := some s.clocks.part } with
    pack := { s.pack with queue := s.pack.queue ++ [i] } }

/-- The station has no open piece. -/
def State.dropPiece (s : State) (n : Fin 9) : State := s.modStation n fun x => { x with piece := none }

/-- The old piece of the station, if any, closes; the station has no open piece then (step 2). -/
def State.closeOld (s : State) (n : Fin 9) : State :=
  match (s.station n).piece with
  | some i => (s.closeCut i).dropPiece n
  | none => s

/-- The station enters RUNNING, or HOLDING where a hold reason is left (step 6). -/
def State.resume (s : State) (n : Fin 9) : State :=
  if (s.station n).reasons.any then s.enterState n .holding else s.enterRunning n

/-- Steps 4 to 6, less the notice: the reservations fall, OVERRUN leaves the reasons, and the station resumes. -/
def State.finishCut (s : State) (n : Fin 9) : State :=
  (s.release.modReasons n fun r => { r with overrun := false }).resume n

/-- The completion of a cut, less its notices; none where no record is FREE for the new piece, which R96 rules out. -/
def State.completeCut (s : State) (n : Fin 9) : Option State :=
  (((s.setCutTimer n none).closeOld n).openPiece n).map fun s => s.finishCut n

/-- The notices of a completion: PIECE_CUT, and the high-queue test where a piece joined the queue (R98, R142). -/
def State.noticeCut (s : State) (n : Fin 9) (joined : Bool) : State :=
  let t := s.notice (slotOfStation n) .pieceCut
  if joined then t.highTest else t

/-- A cut-done arrival at a station (R98, R100). -/
def State.cutDoneAt (s : State) (n : Fin 9) : Host.Outcome State Fault Refusal :=
  match (s.station n).state with
  | .unbound => .next s
  | .ready | .running | .holding | .tripped => .next (s.notice (slotOfStation n) .strayInput)
  | .cutting =>
    match s.completeCut n with
    | some t => .next (t.noticeCut n (s.station n).piece.isSome)
    | none => .fault .reservedRecordMissing

/-! ### Cut timer (R101, R102) -/

/-- The target test where no overrun test goes with it, and the consideration at a request's arrival (R55, R94). -/
def State.retest (s : State) (n : Fin 9) : State := (s.targetTest n).considerIf (s.requestDue n)

/-- Step 2 of R101: the cut is aborted, the station holds, the released place and record are offered, and the target
test is applied. -/
def State.abortToHold (s : State) (n : Fin 9) : State :=
  ((((s.abortCut n).enterState n .holding).lowTest).consider).retest n

/-- Step 2 of R101 at a station that the reaction of step 1 has left CUTTING. -/
def State.abortTimedOut (s : State) (n : Fin 9) : State :=
  if (s.station n).state = .cutting then s.abortToHold n else s

/-- Expiry of the armed cut timer of a CUTTING station (R101). -/
def State.cutExpiry (s : State) (n : Fin 9) : State :=
  match s.cutTimer n with
  | some t =>
    if (s.station n).state = .cutting then
      (((s.waitPart t).setCutTimer n none).raise n .cutTimeout).abortTimedOut n
    else s
  | none => s

/-! ### Instants of the grant list and the lane times (R90) -/

/-- A reading of the grant list reaches the age T_win and leaves the window: a consideration (R90, R94). -/
def State.ageOut (s : State) (i : Fin 8) : State :=
  match s.arbiter.grants[i.1]? with
  | some r => (s.waitPart ⟨r, s.params.part.tWin * 1000⟩).consider
  | none => s

/-- A lane time reaches the age of the lane gap: a consideration (R90, R94). -/
def State.laneGapOver (s : State) (lane : Lane) : State :=
  match s.arbiter.laneTime lane with
  | some r => (s.waitPart ⟨r, s.params.part.laneGap * 1000⟩).consider
  | none => s

/-- The later of the two lane times, which is the younger. -/
def State.latestLane (s : State) : Option Word32 :=
  match s.arbiter.laneA, s.arbiter.laneB with
  | some a, some b => if s.ageOf a ≤ s.ageOf b then some a else some b
  | some a, none => some a
  | none, b => b

/-- The later lane time reaches the age of the any-lane gap: a consideration (R90, R94). -/
def State.anyGapOver (s : State) : State :=
  match s.latestLane with
  | some r => (s.waitPart ⟨r, s.params.part.anyGap * 1000⟩).consider
  | none => s

/-- The oldest reading leaves the grant list. -/
def State.forgetGrant (s : State) : State := { s with arbiter := { s.arbiter with grants := s.arbiter.grants.tail } }

/-- The oldest reading reaches 600,000 ms of age and leaves the list (R90). At T_win = 600 s the reading's ageing-out
falls on the same instant, and R90 gives the two no order: they are taken in the order of their commands, and a reading
that has left the list by then starts no consideration (DESIGN CHOICE, assumption 38). -/
def State.dropGrant (s : State) : State :=
  match s.arbiter.grants with
  | r :: _ => (s.waitPart ⟨r, Config.grantListAge⟩).forgetGrant
  | [] => s

/-- A lane's time replaced. -/
def Arbiter.setLane (a : Arbiter) (lane : Lane) (time : Option Word32) : Arbiter :=
  match lane with
  | .a => { a with laneA := time }
  | .b => { a with laneB := time }

/-- A lane time becomes absent. -/
def State.forgetLane (s : State) (lane : Lane) : State := { s with arbiter := s.arbiter.setLane lane none }

/-- A lane time reaches 120,000 ms of age and becomes absent (R90). At a lane gap of 120 s the lane-gap expiry
falls on the same instant, and R90 gives the two no order: they are taken in the order of their commands, and an expiry
whose lane time is absent by then considers nothing (DESIGN CHOICE, assumption 38). -/
def State.laneAbsent (s : State) (lane : Lane) : State :=
  match s.arbiter.laneTime lane with
  | some r => (s.waitPart ⟨r, Config.laneTimeAge⟩).forgetLane lane
  | none => s

/-! ### Meanings -/

/-- CUT_DONE_ARRIVAL: an edge in the direction of the station's cut-done edge (R98). -/
def execCutDone (dt : Nat) (station : Fin 9) (edge : Edge) (s : State) : Host.Outcome State Fault Refusal :=
  if s.pins.reset then .next (s.elapse dt)
  else if edge = (s.stationParams station).cutEdge then (s.elapse dt).cutDoneAt station
  else .next (s.elapse dt)

/-- CUT_TIMER_EXPIRY. -/
def execCutTimerExpiry (dt : Nat) (station : Fin 9) (s : State) : Host.Outcome State Fault Refusal :=
  .next ((s.elapse dt).cutExpiry station)

/-- AGEING_OUT of the reading at a place of the grant list, the oldest being 0. -/
def execAgeingOut (dt : Nat) (reading : Fin 8) (s : State) : Host.Outcome State Fault Refusal :=
  .next ((s.elapse dt).ageOut reading)

/-- LANE_GAP_EXPIRY. -/
def execLaneGapExpiry (dt : Nat) (lane : Lane) (s : State) : Host.Outcome State Fault Refusal :=
  .next ((s.elapse dt).laneGapOver lane)

/-- ANY_GAP_EXPIRY. -/
def execAnyGapExpiry (dt : Nat) (s : State) : Host.Outcome State Fault Refusal :=
  .next ((s.elapse dt).anyGapOver)

/-- GRANT_LIST_DROP. -/
def execGrantListDrop (dt : Nat) (s : State) : Host.Outcome State Fault Refusal :=
  .next ((s.elapse dt).dropGrant)

/-- LANE_TIME_ABSENT. -/
def execLaneTimeAbsent (dt : Nat) (lane : Lane) (s : State) : Host.Outcome State Fault Refusal :=
  .next ((s.elapse dt).laneAbsent lane)

end Sys2Proof.Machine
end

