-- ==== Sys2Proof/Machine/Lay.lean ====
section
/-!
DEFINITION. The lay stations: flyer marks and demand (R23 to R48), counts, length and slip (R49 to R61), strand-out
inputs (R62, R63), the stall timer (R43, R44) and the demand pulses (R42).
-/
namespace Sys2Proof.Machine

/-! ### The mark arrival (R30 to R40) -/

/-- What the tracker works with at a mark: the parameters, the order's figures and the constants. -/
structure MarkFrame where
  params : LayParams
  order : RopeOrder
  consts : LayConsts
deriving DecidableEq, Repr

/-- What a mark's processing leaves: the tracker, the coil's quality fields, the demand if it was computed, and the
faults raised, in the order the steps raise them (R38). -/
structure MarkResult where
  tracker : Tracker
  quality : LayQuality
  demand : Option Nat
  faults : List FaultKind
deriving DecidableEq, Repr

/-- The mean of the ring, truncated (R33). -/
def ringMean (ring : List Nat) : Nat := ring.sum / ring.length

/-- One interval pushed at the newest end; of four the oldest goes first (R34). -/
def pushInterval (ring : List Nat) (dt : Nat) : List Nat :=
  if Config.ringSize ≤ ring.length then ring.tail ++ [dt] else ring ++ [dt]

/-- The closing of a mark: t_prev = t and ΔC = 0 (R38). -/
def Tracker.close (k : Tracker) (t : Word32) : Tracker := { k with tPrev := some t, count := 0 }

/-- The multiplicity of a forward interval is 2 (R34). -/
def isDouble (ring : List Nat) (dt : Nat) : Bool := decide (2 ≤ ring.length ∧ 3 * ringMean ring < 2 * dt)

/-- The interval spans at least two missing marks (R33). -/
def isLoss (ring : List Nat) (dt : Nat) : Bool := decide (2 ≤ ring.length ∧ 5 * ringMean ring < 2 * dt)

/-- The ring after a forward interval (R34). -/
def pushForward (ring : List Nat) (dt : Nat) : List Nat :=
  if isDouble ring dt then pushInterval (pushInterval ring (dt / 2)) (dt - dt / 2) else pushInterval ring dt

/-- A reverse interval (R32). -/
def reverseInterval (m : MarkFrame) (k : Tracker) (q : LayQuality) (t : Word32) : MarkResult where
  tracker := { k.close t with reverse := satSucc m.params.rMax k.reverse, reacquire := true }
  quality := { q with reverse := satSucc Config.countSat q.reverse }
  demand := none
  faults := if k.reverse + 1 = m.params.rMax then [.reverseRun] else []

/-- The position error after an integration (R35). -/
def integrated (m : MarkFrame) (pos count : Int) (double : Bool) : Int :=
  clampInt (-m.consts.bound) m.consts.bound
    (pos + (if double then 2 else 1) * m.consts.advance - count * (m.params.scale m.params.source.encoder : Int))

/-- The quality fields after an integration that left the position error at pos (R36). -/
def LayQuality.integrate (q : LayQuality) (m : MarkFrame) (pos : Int) (double : Bool) : LayQuality where
  worst := max q.worst (pos.natAbs / 1000)
  excursions := if m.order.band * 1000 < pos.natAbs then satSucc Config.countSat q.excursions else q.excursions
  inserted := if double then satSucc Config.countSat q.inserted else q.inserted
  reverse := q.reverse

/-- The position error stands beyond the drift limit (R37). -/
def drifts (m : MarkFrame) (pos : Int) : Bool := decide (m.order.drift * 1000 < pos.natAbs)

/-- The raw demand from the ring mean and the position error (R39). -/
def rawDemand (m : MarkFrame) (ts : Nat) (pos : Int) : Int :=
  (m.consts.advance * 1000000).tdiv ((ts : Int) * (m.params.drive : Int)) +
    (pos * 1000).tdiv ((m.params.tau : Int) * (m.params.drive : Int))

/-- The raw demand lies outside 0 to f_max (R40). -/
def outOfRange (m : MarkFrame) (raw : Int) : Bool := decide (raw < 0 ∨ (m.params.fMax : Int) < raw)

/-- The demand step (R39, R40): the demand, the saturation run count, and LAY_SATURATED. -/
def demandStep (m : MarkFrame) (k : Tracker) (q : LayQuality) (faults : List FaultKind) (t : Word32) : MarkResult :=
  let raw := rawDemand m (ringMean k.ring) k.pos
  let out := outOfRange m raw
  { tracker := { k.close t with saturation := if out then satSucc m.order.persistence k.saturation else 0 }
    quality := q
    demand := some (clampInt 0 m.params.fMax raw).toNat
    faults := if out = true ∧ k.saturation + 1 = m.order.persistence then faults ++ [.laySaturated] else faults }

/-- A forward interval that is integrated, or that clears the re-acquire flag (R35 to R37), and then the demand. -/
def forwardInterval (m : MarkFrame) (k : Tracker) (q : LayQuality) (t : Word32) (dt : Nat) : MarkResult :=
  let double := isDouble k.ring dt
  let ring := pushForward k.ring dt
  if k.reacquire then demandStep m { k with ring := ring, reverse := 0, reacquire := false } q [] t
  else
    let pos := integrated m k.pos k.count double
    let drift := drifts m pos
    demandStep m { k with ring := ring, reverse := 0, pos := pos, driftAbove := drift }
      (q.integrate m pos double)
      (if drift = true ∧ k.driftAbove = false then [.layDrift] else []) t

/-- A mark arrival in RUNNING at a reading t of the mark clock (R30 to R40). -/
def markArrival (m : MarkFrame) (k : Tracker) (q : LayQuality) (t : Word32) : MarkResult :=
  match k.tPrev with
  | none => ⟨k.close t, q, none, []⟩
  | some prev =>
    let dt := age t prev
    if dt < m.params.tMin then ⟨k.close t, q, none, [.flyerOverspeed]⟩
    else if k.count < 0 then reverseInterval m k q t
    else if isLoss k.ring dt then
      ⟨{ k.close t with ring := [], reverse := 0, reacquire := true }, q, none, [.markLoss]⟩
    else forwardInterval m k q t dt

/-- The figures a mark at a lay station is worked with. -/
def State.markFrame (s : State) (l : Fin 8) : Option MarkFrame :=
  match s.rope (ofLay l), (s.lay l).consts with
  | some f, some c => some ⟨s.layParams l, f, c⟩
  | _, _ => none

/-- The quality fields of the station's open coil. -/
def State.openQuality (s : State) (n : Fin 9) : LayQuality :=
  match (s.openPiece? n).bind Piece.coil? with
  | some c => c.quality
  | none => ⟨0, 0, 0, 0⟩

/-- The quality fields of the station's open coil replaced. -/
def State.setOpenQuality (s : State) (n : Fin 9) (q : LayQuality) : State :=
  match (s.station n).piece with
  | some i => s.modCoil i fun c => { c with quality := q }
  | none => s

/-- A mark's result written into lay station l, which restarts its stall timer (R43). -/
def LayStation.afterMark (x : LayStation) (r : MarkResult) (stall : Timer) : LayStation :=
  let x := { x with tracker := r.tracker, stall := some stall }
  match r.demand with
  | some f => x.setDemand f
  | none => x

/-- A mark's result written, and then its faults taken (R38). -/
def State.afterMark (s : State) (l : Fin 8) (m : MarkFrame) (r : MarkResult) : State :=
  ((s.modLay l fun x => x.afterMark r (s.markTimer m.params.tMax)).setOpenQuality (ofLay l) r.quality).raiseAll
    (ofLay l) r.faults

/-- A mark arrival at a lay station (R27): processed while it is RUNNING, and then the faults are taken (R38). -/
def State.markAt (s : State) (l : Fin 8) : State :=
  if (s.station (ofLay l)).state = .running then
    match s.markFrame l with
    | some m =>
      s.afterMark l m (markArrival m (s.lay l).tracker (s.openQuality (ofLay l)) s.clocks.mark)
    | none => s
  else s

/-! ### Counts (R25, R26, R51, R59, R60) -/

/-- A count in the accumulator, saturating either way (R26). -/
def addCount (count : Int) (d : Direction) : Int := clampInt (-Config.countLimit) Config.countLimit (count + d.unit)

/-- A count in a coil's length (R51). -/
def addLength (length : Int) (d : Direction) (scale : Nat) : Int :=
  clampInt 0 Config.lengthLimit (length + d.unit * (scale : Int))

/-- The tracker's part of a count from the selected source (R26). -/
def State.trackCount (s : State) (l : Fin 8) (d : Direction) : State :=
  if (s.station (ofLay l)).state = .running then
    s.modLay l fun x => { x with tracker := { x.tracker with count := addCount x.tracker.count d } }
  else s

/-- The station has an open coil. -/
def State.hasCoil (s : State) (n : Fin 9) : Bool := ((s.openPiece? n).bind Piece.coil?).isSome

/-- Scale of a station's length source. -/
def LayParams.sourceScale (p : LayParams) : Nat := p.scale p.source.encoder

/-- The tally's part of a count from the selected source: length, then the target and overrun tests (R51). The tests
are applied after every such count, one that its bounds hold the length at included (DESIGN CHOICE, assumption 37). -/
def State.tallyCount (s : State) (l : Fin 8) (d : Direction) : State :=
  match (s.station (ofLay l)).piece with
  | some i =>
    if s.hasCoil (ofLay l) then
      (s.modCoil i fun c => { c with length := addLength c.length d (s.layParams l).sourceScale }).tallyTests (ofLay l)
    else s
  | none => s

/-- An advance of the slip check after a count (R59). -/
def LayStation.advance (x : LayStation) (enc : Encoder) (step : Int) : LayStation :=
  match enc with
  | .capstan => { x with slipCap := x.slipCap + step }
  | .meter => { x with slipMeter := x.slipMeter + step }

/-- The slip of a span in per mille, truncated toward zero (R60). -/
def slipOf (cap meter : Int) : Int := ((cap - meter) * 1000).tdiv meter

/-- The slip of a span as a worst slip can hold it: held at the limits of R49 (DEDUCED, assumption 34). -/
def heldSlip (slip : Int) : Int := clampInt (-Config.slipBound) Config.slipBound slip

/-- The worst slip after a span closed with this slip (R49, R60). -/
def worseSlip (worst : Option Int) (slip : Int) : Option Int :=
  match worst with
  | none => some (heldSlip slip)
  | some w => if w.natAbs < (heldSlip slip).natAbs then some (heldSlip slip) else some w

/-- The metering advance has reached the slip span (R60). -/
def spanFull (meter : Int) (span : Nat) : Bool := decide ((span : Int) * 1000000000 ≤ meter)

/-- The worst slip of the station's open coil after a span closed with this slip (R60). -/
def State.recordSlip (s : State) (n : Fin 9) (slip : Int) : State :=
  match (s.station n).piece with
  | some i => s.modCoil i fun c => { c with worstSlip := worseSlip c.worstSlip slip }
  | none => s

/-- The close of a slip span (R60); SLIP is raised once the tally is done. -/
def State.closeSpan (s : State) (l : Fin 8) (slip : Int) : State :=
  let t := (s.recordSlip (ofLay l) slip).modLay l fun x => { x with slipCap := 0, slipMeter := 0 }
  if (s.layParams l).slipLimit < slip.natAbs then t.raise (ofLay l) .slip else t

/-- The slip span closes if a metering count has filled it (R60). -/
def State.spanTest (s : State) (l : Fin 8) (enc : Encoder) : State :=
  if enc = .meter ∧ spanFull (s.lay l).slipMeter (s.layParams l).slipSpan = true then
    s.closeSpan l (slipOf (s.lay l).slipCap (s.lay l).slipMeter)
  else s

/-- The slip check's part of a count taken in RUNNING (R59, R60). -/
def State.slipCount (s : State) (l : Fin 8) (enc : Encoder) (d : Direction) : State :=
  if (s.layParams l).meterScale = 0 then s
  else
    (s.modLay l fun x => x.advance enc (d.unit * ((s.layParams l).scale enc : Int))).spanTest l enc

/-- The tracker's and the tally's part of a count, which is theirs if the encoder is the length source (R24). -/
def State.sourceCount (s : State) (l : Fin 8) (enc : Encoder) (d : Direction) : State :=
  if enc = (s.layParams l).source.encoder then (s.trackCount l d).tallyCount l d else s

/-- A count at a bound lay station: the tracker, the tally, and the slip check if it was RUNNING when the count was
taken (R25, R26, R51, R59; the order within the count is DEDUCED, assumption 10). -/
def State.countAt (s : State) (l : Fin 8) (enc : Encoder) (d : Direction) : State :=
  if (s.station (ofLay l)).state = .running then (s.sourceCount l enc d).slipCount l enc d else s.sourceCount l enc d

/-- The count that a change of an encoder's lines from old to new stands for at a station (R25). -/
def State.decodeCount (s : State) (l : Fin 8) (enc : Encoder) (old new : Pair) : Option Direction :=
  (quadrature old new).map ((s.layParams l).sense enc).apply

/-- The lines of an encoder at new levels. -/
def State.setLines (s : State) (l : Fin 8) (enc : Encoder) (new : Pair) : State :=
  s.modPins l fun p => p.setPair enc new

/-- The lines of an encoder take new levels; a count is taken while RESET is released and the station is bound
(R25, R175). -/
def State.linesAt (s : State) (l : Fin 8) (enc : Encoder) (new : Pair) : State :=
  match s.decodeCount l enc ((s.layPins l).pair enc) new with
  | some d =>
    if s.pins.reset = false ∧ s.bound (ofLay l) = true then (s.setLines l enc new).countAt l enc d
    else s.setLines l enc new
  | none => s.setLines l enc new

/-! ### Strand-out inputs (R62, R63) -/

/-- An assertion on a strand at a bound station: it joins the set and STRAND_OUT is raised, if it is in use (R62). -/
def State.strandAt (s : State) (l : Fin 8) (j : Fin 4) : State :=
  match s.rope (ofLay l) with
  | some f =>
    if s.bound (ofLay l) = true ∧ j.1 < f.strands then
      (s.modLay l fun x => { x with strandOut := x.strandOut ||| BitVec.twoPow 4 j.1 }).raise (ofLay l) .strandOut
    else s
  | none => s

/-- A strand-out input at a new level (R63). -/
def State.setStrand (s : State) (l : Fin 8) (j : Fin 4) (level : Bool) : State :=
  s.modPins l fun p => { p with strands := withLevel p.strands j level }

/-- A strand-out input goes to its asserted level, which is an arrival while RESET is released (R62, R175). -/
def State.assertStrand (s : State) (l : Fin 8) (j : Fin 4) : State :=
  let t := s.setStrand l j (assertLevel (s.layParams l).strandEdge)
  if s.pins.reset then t else t.strandAt l j

/-! ### Stall timer and demand pulses -/

/-- Expiry of an armed stall timer at a RUNNING station (R44). -/
def State.stallExpiry (s : State) (l : Fin 8) : State :=
  match (s.lay l).stall with
  | some t =>
    if (s.station (ofLay l)).state = .running then
      ((s.waitMark t).modLay l fun x => { x with stall := none }).raise (ofLay l) .flyerStall
    else s
  | none => s

/-- Time between two demand pulses, us (R42). -/
def pulseInterval (f : Nat) : Nat := roundDiv 1000000 f

/-- A pulse goes out now. -/
def State.emitPulse (s : State) (l : Fin 8) : State := s.modLay l fun x => { x with lastPulse := some s.clocks.mark }

/-- The next pulse of a lay station's demand output (R42). -/
def State.pulse (s : State) (l : Fin 8) : State :=
  if (s.lay l).demand = 0 then s
  else
    match (s.lay l).lastPulse with
    | some at_ => (s.waitMark ⟨at_, pulseInterval (s.lay l).demand⟩).emitPulse l
    | none => s.emitPulse l

/-! ### Meanings -/

/-- FLYER_MARK_ARRIVAL: an edge in the direction of the mark edge parameter is a mark (R27). -/
def execFlyerMark (dt : Nat) (station : Fin 8) (edge : Edge) (s : State) : Host.Outcome State Fault Refusal :=
  lineArrival dt (fun s => if edge = (s.layParams station).markEdge then s.markAt station else s) s

/-- COUNT_ARRIVAL: the pair of lines of an encoder at new levels (R25). -/
def execCountArrival (dt : Nat) (station : Fin 8) (encoder : Encoder) (first second : Bool) (s : State) :
    Host.Outcome State Fault Refusal :=
  .next ((s.elapse dt).linesAt station encoder ⟨first, second⟩)

/-- STRAND_OUT_ASSERTION: the input goes to its asserted level (R50, R62); while RESET is held only the level changes. -/
def execStrandOutAssertion (dt : Nat) (station : Fin 8) (strand : Fin 4) (s : State) :
    Host.Outcome State Fault Refusal :=
  .next ((s.elapse dt).assertStrand station strand)

/-- STRAND_OUT_RELEASE: the input goes to its other level and nothing else changes (R62). -/
def execStrandOutRelease (dt : Nat) (station : Fin 8) (strand : Fin 4) (s : State) :
    Host.Outcome State Fault Refusal :=
  .next ((s.elapse dt).setStrand station strand (!assertLevel (s.layParams station).strandEdge))

/-- STALL_TIMER_EXPIRY. -/
def execStallTimerExpiry (dt : Nat) (station : Fin 8) (s : State) : Host.Outcome State Fault Refusal :=
  .next ((s.elapse dt).stallExpiry station)

/-- DEMAND_PULSE. -/
def execDemandPulse (dt : Nat) (station : Fin 8) (s : State) : Host.Outcome State Fault Refusal :=
  .next ((s.elapse dt).pulse station)

end Sys2Proof.Machine
end

