-- ==== Sys2Proof/Machine/Loom.lean ====
section
/-!
DEFINITION. The loom: row indexes and the row awaiting sense (R53, R70), sense words and the mend entries they make
(R71 to R78), the row stall timer (R79), and the requests READ MENDS and MEND (R81, R82).
-/
namespace Sys2Proof.Machine

/-! ### Row index (R53, R70) -/

/-- The loom has an open panel. -/
def State.hasPanel (s : State) : Bool := ((s.openPiece? loom).bind Piece.panel?).isSome

/-- The tally's part of a row index: the open panel's rows, then the two tests (R53), applied also where the rows stand
at their limit (DESIGN CHOICE, assumption 37). -/
def State.tallyRow (s : State) : State :=
  match (s.station loom).piece with
  | some i =>
    if s.hasPanel then
      (s.modPanel i fun q => { q with rows := satSucc Config.countSat q.rows }).tallyTests loom
    else s
  | none => s

/-- Step 1 of R70 where a row awaits sense: the panel's unsensed rows, if the record still holds it, and the previous
row emptied. -/
def State.missSense (s : State) (a : AwaitRow) : State :=
  let t := s.modInspector fun i => { i with awaiting := none, previous := none }
  if (s.panelAt a.panel a.serial).isSome then
    t.modPanel a.panel fun q => { q with unsensed := satSucc Config.countSat q.unsensed }
  else t

/-- The row that a row index sets awaiting: the open panel's, as it stands after the tally's count (R70). -/
def State.awaitRow (s : State) : Option AwaitRow :=
  match (s.station loom).piece, s.openPiece? loom with
  | some i, some p => (p.panel?).map fun q => ⟨i, p.serial, q.rows⟩
  | _, _ => none

/-- Steps 2 and 3 of R70. -/
def State.nextRow (s : State) : State :=
  let t := s.modInspector fun i => { i with awaiting := s.awaitRow }
  if (s.station loom).state = .running then
    t.modInspector fun i => { i with rowTimer := some (s.partTimer s.params.loom.rowTime) }
  else t

/-- A row index arrival at a bound loom (R53, R70). SENSE_MISSING is taken once the inspector has finished. -/
def State.rowAt (s : State) : State :=
  match s.inspector.awaiting with
  | some a => ((s.tallyRow.missSense a).nextRow).raise loom .senseMissing
  | none => s.tallyRow.nextRow

/-! ### Sense word (R71 to R78) -/

/-- The id an entry takes: v, or the first after it that no entry of the list holds (R74). -/
def freshId (mends : List MendEntry) (v : Word16) : Word16 :=
  firstUnheld (fun v => mends.any (·.id == v)) (· + 1) Config.mendSize v

/-- What the runs of a sense word have changed so far: the inspector's list and counts and the panel's counts. -/
structure Sorting where
  inspector : Inspector
  panel : Panel
deriving DecidableEq, Repr

/-- Kind of a run: a HOLE if it spans 2 hooks or more or continues a miss of the row before (R73). -/
def runKind (before : BitVec 64) (run : Run) : MendKind :=
  if 2 ≤ run.span ∨ touches before run.first run.span = true then .hole else .knot

/-- The panel's knot or hole count after a run of the kind (R74). -/
def Panel.countRun (q : Panel) (kind : MendKind) : Panel :=
  match kind with
  | .knot => { q with knots := satSucc Config.countSat q.knots }
  | .hole => { q with holes := satSucc Config.countSat q.holes }

/-- One run sorted: listed while the list has room, otherwise counted as unlisted (R74, R75). -/
def Sorting.addRun (a : AwaitRow) (before : BitVec 64) (x : Sorting) (run : Run) : Sorting :=
  let kind := runKind before run
  let panel := x.panel.countRun kind
  if x.inspector.mends.length < Config.mendSize then
    let id := freshId x.inspector.mends x.inspector.nextId
    { inspector := { x.inspector with
        mends := x.inspector.mends ++ [⟨id, a.panel, a.row, run.first, run.span, kind⟩], nextId := id + 1 }
      panel := { panel with unmended := satSucc Config.countSat panel.unmended } }
  else
    { inspector := { x.inspector with overflow := satSucc Config.overflowSat x.inspector.overflow }
      panel := { panel with unlisted := satSucc Config.countSat panel.unlisted } }

/-- The previous row, if it is present and names the awaiting row's panel (R73, R76). -/
def sameRow (prev : Option PrevRow) (a : AwaitRow) : Option PrevRow :=
  match prev with
  | some p => if p.panel = a.panel ∧ p.serial = a.serial then some p else none
  | none => none

/-- The missing set a run is compared with; empty where no previous row names the panel (R73). -/
def beforeSet (prev : Option PrevRow) : BitVec 64 :=
  match prev with
  | some p => p.missing
  | none => 0

/-- The entry is one that the current row's missing set upgrades (R76). -/
def upgrades (prev : PrevRow) (missing : BitVec 64) (e : MendEntry) : Bool :=
  decide (e.panel = prev.panel) && decide (e.row = prev.row) && decide (e.kind = .knot) &&
  touches missing e.first e.span

/-- Number of entries upgraded among those that stood before the word (R76). -/
def upgradeCount (prev : Option PrevRow) (missing : BitVec 64) (old : List MendEntry) : Nat :=
  match prev with
  | some p => old.countP (upgrades p missing)
  | none => 0

/-- The entries that stood before the word, the upgraded ones as HOLE, each in its place (R76). -/
def upgradeEntries (prev : Option PrevRow) (missing : BitVec 64) (old : List MendEntry) : List MendEntry :=
  match prev with
  | some p => old.map fun e => if upgrades p missing e then { e with kind := .hole } else e
  | none => old

/-- Counts of hook misses after a word: one more for a hook that missed, up to the dead-hook rows; 0 for one that
knotted; unchanged for a hook not in use (R78). -/
def hookCounts (missing : BitVec 64) (hooks dead : Nat) (counts : Vector Nat 64) : Vector Nat 64 :=
  Vector.ofFn fun h : Fin 64 =>
    if h.1 < hooks then if missing.getLsbD h.1 then satSucc dead counts[h] else 0
    else counts[h]

/-- The word brought some counter to the dead-hook rows from one below it (R78). -/
def hookDies (missing : BitVec 64) (hooks dead : Nat) (counts : Vector Nat 64) : Bool :=
  (List.finRange 64).any fun h =>
    decide (h.1 < hooks) && missing.getLsbD h.1 && decide (counts[h] + 1 = dead)

/-- The inspector and the panel after a word is sorted: entries, upgrades, counters, and the row closed
(R72 to R78). -/
def sortWord (x : Sorting) (a : AwaitRow) (missing : BitVec 64) (hooks dead : Nat) : Sorting :=
  let old := x.inspector.mends
  let prev := sameRow x.inspector.previous a
  let y := (runsOf missing).foldl (Sorting.addRun a (beforeSet prev)) x
  let n := upgradeCount prev missing old
  { inspector := { y.inspector with
      mends := upgradeEntries prev missing old ++ y.inspector.mends.drop old.length
      hookMiss := hookCounts missing hooks dead y.inspector.hookMiss
      previous := some ⟨a.panel, a.serial, a.row, missing⟩
      awaiting := none }
    panel := { y.panel with knots := y.panel.knots - n, holes := min Config.countSat (y.panel.holes + n) } }

/-- Some run of the word was classified HOLE, or some entry was upgraded (R77). -/
def raisesHole (x : Inspector) (a : AwaitRow) (missing : BitVec 64) : Bool :=
  (runsOf missing).any (fun run => runKind (beforeSet (sameRow x.previous a)) run == .hole) ||
  decide (0 < upgradeCount (sameRow x.previous a) missing x.mends)

/-- The faults and the notice of a word, in the order of R77. -/
def State.handOn (s : State) (overflow hole added dead : Bool) : State :=
  let s1 := if overflow then s.raise loom .mendOverflow else s
  let s2 := if hole then s1.raise loom .hole else s1
  let s3 := if added then s2.notice (slotOfStation loom) .mendAdded else s2
  if dead then s3.raise loom .deadHook else s3

/-- A word taken against a row whose panel the table still holds (R72 to R78). -/
def State.senseRow (s : State) (a : AwaitRow) (q : Panel) (missing : BitVec 64) (hooks dead : Nat) : State :=
  let x := s.inspector
  let y := sortWord ⟨x, q⟩ a missing hooks dead
  let room := Config.mendSize - x.mends.length
  let runs := (runsOf missing).length
  ((s.modPanel a.panel fun _ => y.panel).modInspector fun _ => y.inspector).handOn (decide (room < runs))
    (raisesHole x a missing) (decide (0 < min room runs)) (hookDies missing hooks dead x.hookMiss)

/-- A word whose panel has left the table: the counters alone, and the previous row emptied (R71, R78). -/
def State.senseGone (s : State) (missing : BitVec 64) (hooks dead : Nat) : State :=
  (s.modInspector fun i =>
    { i with hookMiss := hookCounts missing hooks dead i.hookMiss, previous := none, awaiting := none }).handOn
    false false false (hookDies missing hooks dead s.inspector.hookMiss)

/-- A sense word arrival at a bound loom (R71). -/
def State.senseAt (s : State) (word : BitVec 64) : State :=
  match s.inspector.awaiting, s.net loom with
  | none, _ => s.notice (slotOfStation loom) .strayInput
  | some a, some f =>
    let missing := missingSet s.params.loom.knotLevel f.hooks word
    match s.panelAt a.panel a.serial with
    | some q => s.senseRow a q missing f.hooks f.deadRows
    | none => s.senseGone missing f.hooks f.deadRows
  | some _, none => s

/-! ### Row stall (R79) -/

/-- Expiry of the armed row stall timer at a RUNNING loom. -/
def State.rowStallExpiry (s : State) : State :=
  match s.inspector.rowTimer with
  | some t =>
    if (s.station loom).state = .running then
      ((s.waitPart t).modInspector fun i => { i with rowTimer := none }).raise loom .rowStall
    else s
  | none => s

/-! ### Requests on the list (R81, R82) -/

/-- READ MENDS (R82). -/
def State.readMends (s : State) (first : Byte) : Answer :=
  let x := s.inspector
  if first.toNat < x.mends.length then
    ⟨s, .ok, x.headBytes ++ ((x.mends.drop first.toNat).take Config.mendPage).flatMap MendEntry.bytes⟩
  else ⟨s, .empty, x.headBytes⟩

/-- The counts of a panel one of whose entries is mended (R81). -/
def Panel.mendOne (q : Panel) : Panel :=
  { q with unmended := q.unmended - 1, mended := satSucc Config.countSat q.mended }

/-- The answer of a MEND: panel number, serial, unmended count (11-1.2). -/
def State.mendBytes (s : State) (i : Fin 64) : List Byte :=
  match s.record i with
  | some p => byteOf i.1 :: (bytes32 p.serial ++ num2 ((p.panel?.map (·.unmended)).getD 0))
  | none => byteOf i.1 :: (num4 0 ++ num2 0)

/-- MEND (R81). -/
def State.mendRequest (s : State) (entry : Word16) : Answer :=
  match s.inspector.mends.find? (·.id == entry) with
  | none => s.refuse .notFound
  | some e =>
    let t := (s.modInspector fun i => { i with mends := i.mends.filter (·.id != entry) }).modPanel e.panel Panel.mendOne
    ⟨t, .ok, t.mendBytes e.panel⟩

/-! ### Meanings -/

/-- ROW_INDEX_ARRIVAL: an edge in the direction of the row index edge at a bound loom (R68). -/
def execRowIndex (dt : Nat) (edge : Edge) (s : State) : Host.Outcome State Fault Refusal :=
  lineArrival dt (fun s => if edge = s.params.loom.rowEdge ∧ s.bound loom = true then s.rowAt else s) s

/-- SENSE_WORD_ARRIVAL at a bound loom (R68). -/
def execSenseWord (dt : Nat) (levels : BitVec 64) (s : State) : Host.Outcome State Fault Refusal :=
  lineArrival dt (fun s => if s.bound loom then s.senseAt levels else s) s

/-- ROW_STALL_TIMER_EXPIRY. -/
def execRowStallTimerExpiry (dt : Nat) (s : State) : Host.Outcome State Fault Refusal :=
  .next ((s.elapse dt).rowStallExpiry)

/-- READ_MENDS. -/
def execReadMends (dt : Nat) (tag first : Byte) (s : State) : Host.Outcome State Fault Refusal :=
  hostRequest dt tag (fun s => s.readMends first) s

/-- MEND. -/
def execMend (dt : Nat) (tag : Byte) (entry : Word16) (s : State) : Host.Outcome State Fault Refusal :=
  hostRequest dt tag (fun s => s.mendRequest entry) s

end Sys2Proof.Machine
end

