-- ==== Sys2Proof/Machine/Notices.lean ====
section
/-!
DEFINITION. The host's requests on notices: POLL, TAKE NOTICE and SET MASK (R163 to R166).
-/
namespace Sys2Proof.Machine

/-! ### POLL (R165) -/

/-- The slot holds an unmasked pending notice. -/
def State.slotShows (s : State) (slot : Fin 10) : Bool := allKinds.any (s.noticeShown slot)

/-- The kind is pending in the slot, not masked, and URGENT. -/
def State.urgentShown (s : State) (slot : Fin 10) (k : Fin 25) : Bool :=
  s.noticeShown slot k && s.classOf k == .urgent

/-- The slot holds an unmasked pending notice whose kind is URGENT. -/
def State.slotUrgent (s : State) (slot : Fin 10) : Bool := allKinds.any (s.urgentShown slot)

/-- POLL (R165). -/
def State.pollRequest (s : State) : Answer :=
  ⟨s, .ok, bitmap2 (allSlots.map s.slotShows) ++ bitmap2 (allSlots.map s.slotUrgent)⟩

/-! ### TAKE NOTICE (R166) -/

/-- The kind that TAKE NOTICE chooses: the lowest URGENT one, or the lowest ROUTINE one where there is none. -/
def State.chooseNotice (s : State) (slot : Fin 10) : Option (Fin 25) :=
  match allKinds.find? (s.urgentShown slot) with
  | some k => some k
  | none => allKinds.find? (s.noticeShown slot)

/-- Number of unmasked pending notices in a slot. -/
def State.shownCount (s : State) (slot : Fin 10) : Nat := allKinds.countP (s.noticeShown slot)

/-- A kind removed from a slot. -/
def State.removeNotice (s : State) (slot : Fin 10) (k : Fin 25) : State :=
  { s with notices := { s.notices with slots := modifyAt s.notices.slots slot fun v => v.set k.1 0 } }

/-- TAKE NOTICE (R166). -/
def State.takeRequested (s : State) (slotByte : Byte) : Answer :=
  match noticeSlotOf slotByte with
  | none => s.refuse .badRequest
  | some slot =>
    match s.chooseNotice slot with
    | none => ⟨s, .empty, [byteOf slot.1, 0, 0, 0, 0]⟩
    | some k =>
      let t := s.removeNotice slot k
      ⟨t, .ok, [byteOf slot.1, byteOf (k.1 + 1), byteOf (s.classOf k).code, byteOf (s.noticeCount slot k),
        byteOf (t.shownCount slot)]⟩

/-! ### SET MASK (R163) -/

/-- SET MASK (R163): positions beyond code 25 are stored clear, and one that was set makes the answer CLAMPED. -/
def State.maskRequest (s : State) (mask : Word32) : Answer :=
  let kept : BitVec 25 := mask.setWidth 25
  ⟨{ s with notices := { s.notices with mask := kept } },
    if kept.setWidth 32 = mask then .ok else .clamped, bytes32 (kept.setWidth 32)⟩

/-! ### Meanings -/

/-- POLL. -/
def execPoll (dt : Nat) (tag : Byte) (s : State) : Host.Outcome State Fault Refusal :=
  hostRequest dt tag (fun s => s.pollRequest) s

/-- TAKE_NOTICE. -/
def execTakeNotice (dt : Nat) (tag slot : Byte) (s : State) : Host.Outcome State Fault Refusal :=
  hostRequest dt tag (fun s => s.takeRequested slot) s

/-- SET_MASK. -/
def execSetMask (dt : Nat) (tag : Byte) (mask : Word32) (s : State) : Host.Outcome State Fault Refusal :=
  hostRequest dt tag (fun s => s.maskRequest mask) s

end Sys2Proof.Machine
end

