-- ==== Sys2Proof/Machine/Orders.lean ====
section
/-!
DEFINITION. The order requests: LOAD ORDER, READ ORDER, RETIRE ORDER (R3 to R8).
-/
namespace Sys2Proof.Machine

/-- A slot's contents replaced. -/
def State.setOrder (s : State) (slot : Fin 16) (o : Option Order) : State :=
  { s with orders := s.orders.set slot.1 o }

/-- LOAD ORDER (R6): BAD_REQUEST for a slot above 15 or an unknown kind (1-2.1), then ORDER_IN_USE, then both passes.
That an unknown kind is answered before the slot's use is judged is DEDUCED (assumption 11). -/
def State.loadOrder (s : State) (slotByte : Byte) (fields : OrderFields) : Answer :=
  match slotOf slotByte, orderOf fields with
  | some slot, some (o, changed) =>
    if s.slotInUse slot then s.refuse .orderInUse
    else ⟨s.setOrder slot (some o), if changed then .clamped else .ok, []⟩
  | _, _ => s.refuse .badRequest

/-- READ ORDER (R7). -/
def State.readOrder (s : State) (slotByte : Byte) : Answer :=
  match slotOf slotByte with
  | some slot => ⟨s, .ok, s.orderBytes slot⟩
  | none => s.refuse .badRequest

/-- RETIRE ORDER (R8). -/
def State.retireOrder (s : State) (slotByte : Byte) : Answer :=
  match slotOf slotByte with
  | some slot =>
    if s.orderAt slot = none then s.refuse .noSuchOrder
    else if s.slotInUse slot then s.refuse .orderInUse
    else ⟨s.setOrder slot none, .ok, []⟩
  | none => s.refuse .badRequest

/-- LOAD_ORDER. -/
def execLoadOrder (dt : Nat) (tag slot : Byte) (fields : OrderFields) (s : State) : Host.Outcome State Fault Refusal :=
  hostRequest dt tag (fun s => s.loadOrder slot fields) s

/-- READ_ORDER. -/
def execReadOrder (dt : Nat) (tag slot : Byte) (s : State) : Host.Outcome State Fault Refusal :=
  hostRequest dt tag (fun s => s.readOrder slot) s

/-- RETIRE_ORDER. -/
def execRetireOrder (dt : Nat) (tag slot : Byte) (s : State) : Host.Outcome State Fault Refusal :=
  hostRequest dt tag (fun s => s.retireOrder slot) s

end Sys2Proof.Machine
end

