-- ==== Sys2Proof/Machine/Pack.lean ====
section
/-!
DEFINITION. The pack line: the terminal's requests NEXT, WEIGH, PACKED, ASIDE and QUERY (R131 to R141), the scale
timer (R132), the receiver and the discarding of a frame (R143, R144), and the sending of an answer.
-/
namespace Sys2Proof.Machine

/-! ### NEXT (R131) -/

/-- The piece of a record in the queue is ready (R130). -/
def State.readyAt (s : State) (i : Fin 64) : Bool :=
  match s.record i with
  | some p => p.ready
  | none => false

/-- Steps 1 to 3 of R131 for the piece of record i. -/
def State.toScale (s : State) (i : Fin 64) : State :=
  let t := s.modPiece i fun p => { p with state := .atScale }
  { t with pack := { s.pack with
      queue := s.pack.queue.filter (· != i)
      scale := some i
      scaleTimer := some (s.partTimer (s.params.part.scaleTimeout * 1000)) } }

/-- Steps 1 to 4 of R131 for the piece of record i. -/
def State.issue (s : State) (i : Fin 64) : State := (s.toScale i).highTest

/-- NEXT (R131). -/
def State.nextPiece (s : State) : Answer :=
  if s.pack.scale.isSome then s.refuse .scaleOccupied
  else
    match s.pack.queue.find? s.readyAt with
    | none => s.refuse .empty
    | some i =>
      ⟨s.issue i, .ok, match s.record i with
        | some p => issueBytes i p
        | none => []⟩

/-! ### Requests that name a piece (R138) -/

/-- A request on a piece named by number and serial, judged up to the serial (R138). -/
def State.onPiece (s : State) (number : Byte) (serial : Word32) (body : Fin 64 → Piece → Answer) : Answer :=
  match recordOf number with
  | none => s.refuse .badRequest
  | some i =>
    match s.named i serial with
    | none => s.refuse .stalePiece
    | some p => body i p

/-- The scale timer replaced. -/
def State.setScaleTimer (s : State) (t : Option Timer) : State := { s with pack := { s.pack with scaleTimer := t } }

/-! ### WEIGH (R134) -/

/-- The figures of a weighing under an order (R133 to R137). -/
def weighing (o : Order) (p : Piece) (weight : Nat) : Weighing :=
  let e := expectedWeight o p
  let d := deviation weight e
  let c := computedGrade o p d
  ⟨weight, e, d, c, formGrade c p.cap⟩

/-- The scale timer is disarmed if the piece at the scale was AT_SCALE (R134, R140). -/
def State.disarmScale (s : State) (p : Piece) : State := if p.state = .atScale then s.setScaleTimer none else s

/-- A weighing of the scale occupant. The timer is disarmed if the piece was AT_SCALE; a WEIGHED piece leaves it
disarmed already. -/
def State.weighPiece (s : State) (i : Fin 64) (p : Piece) (w : Weighing) : State :=
  (((s.disarmScale p).modPiece i fun p => { p with state := .weighed, weighing := some w }).notice
    partSlot .pieceGraded)

/-- WEIGH (R134). The order slot that a piece names stays LOADED while the piece exists (R8); NO_SUCH_ORDER stands for
the case that this law rules out. -/
def State.weighRequest (s : State) (number : Byte) (serial weight : Word32) : Answer :=
  s.onPiece number serial fun i p =>
    match p.state with
    | .opened | .packed | .aside => s.refuse .wrongState
    | .queued => s.refuse .tooLate
    | .atScale | .weighed =>
      match s.orderAt p.slot with
      | none => s.refuse .noSuchOrder
      | some o =>
        let w := weighing o p (min Config.weightLimit weight.toNat)
        ⟨s.weighPiece i p w, if Config.weightLimit < weight.toNat then .clamped else .ok, w.bytes⟩

/-! ### PACKED and ASIDE (R139, R140) -/

/-- The scale stands empty. -/
def State.clearScale (s : State) : State := { s with pack := { s.pack with scale := none } }

/-- Steps 1 to 3 of R139. -/
def State.packPiece (s : State) (i : Fin 64) (label : Word32) : State :=
  (s.modPiece i fun p => { p with state := .packed, packLabel := some label }).clearScale.consider

/-- The grade that a piece's latest weighing left, if it has been weighed. -/
def Piece.grade? (p : Piece) : Option Grade := p.weighing.map (·.grade)

/-- PACKED (R139). -/
def State.packedRequest (s : State) (number : Byte) (serial label : Word32) : Answer :=
  s.onPiece number serial fun i p =>
    match p.state with
    | .opened | .atScale | .packed | .aside => s.refuse .wrongState
    | .queued => s.refuse .tooLate
    | .weighed =>
      if p.grade? = some .reject then s.refuse .gradeReject
      else ⟨s.packPiece i label, .ok, (p.grade?.map Grade.code).toList⟩

/-- The reason of an ASIDE (R140). -/
def Piece.asideReason (p : Piece) : AsideReason := if p.grade? = some .reject then .reject else .packer

/-- Steps 1 to 3 of R140. -/
def State.asidePiece (s : State) (i : Fin 64) (p : Piece) : State :=
  ((s.disarmScale p).modPiece i fun q => { q with state := .aside, aside := some p.asideReason }).clearScale.consider

/-- ASIDE (R140). -/
def State.asideRequest (s : State) (number : Byte) (serial : Word32) : Answer :=
  s.onPiece number serial fun i p =>
    match p.state with
    | .opened | .packed | .aside => s.refuse .wrongState
    | .queued => s.refuse .tooLate
    | .atScale | .weighed => ⟨s.asidePiece i p, .ok, [p.asideReason.code]⟩

/-! ### QUERY (R141) -/

/-- QUERY, with or without a serial (R138, R141). -/
def State.queryRequest (s : State) (number : Byte) (serial : Option Word32) : Answer :=
  match serial with
  | some v => s.onPiece number v fun i _ => ⟨s, .ok, s.queryBytes i⟩
  | none =>
    match recordOf number with
    | none => s.refuse .badRequest
    | some i => ⟨s, .ok, s.queryBytes i⟩

/-! ### Scale timer (R132) -/

/-- Expiry of the armed scale timer while the occupant is AT_SCALE (R132). -/
def State.scaleExpiry (s : State) : State :=
  match s.pack.scaleTimer, s.unweighed with
  | some t, some i =>
    ((((s.waitPart t).takeBack i).setScaleTimer none).notice partSlot .scaleTimeout).highTest
  | _, _ => s

/-! ### Receiver (R143, R144) -/

/-- What the receiver makes of one character: its state after it, and the frame that ended with it, if one did; an
ended frame that is none was discarded before its end. -/
inductive Reception where
  | going (r : Receiver)
  | discard
  | frame (got : List Byte)
deriving DecidableEq, Repr

/-- Number of characters that follow the start byte in a frame of this length byte. -/
def frameChars (len : Byte) : Nat := len.toNat + 3

/-- A whole character that joins the frame in progress (R143, steps 2 and 3). -/
def collect (got : List Byte) (b : Byte) : Reception :=
  match got ++ [b] with
  | [] => .going .hunting
  | [len] => if len = 0 ∨ Config.rxLength < len.toNat then .discard else .going (.collecting [len])
  | len :: rest =>
    if frameChars len ≤ rest.length + 1 then .frame (len :: rest) else .going (.collecting (len :: rest))

/-- One character at the receiver (R143). -/
def rxChar (r : Receiver) (c : PackChar) : Reception :=
  match r, c with
  | .hunting, .whole b => if b = Config.startByte then .going (.collecting []) else .going .hunting
  | .hunting, .noStop _ => .going .hunting
  | .hunting, .lineBreak => .going .hunting
  | .collecting got, .whole b => collect got b
  | .collecting _, .noStop _ => .discard
  | .collecting _, .lineBreak => .discard

/-- The receiver replaced. -/
def State.setReceiver (s : State) (r : Receiver) : State := { s with pack := { s.pack with receiver := r } }

/-- One character of a run of characters that PACK_FRAME_DISCARD carries: a frame that ends in it is discarded unless
it is well-formed and there is room for its answer, which is the event of another row. -/
def State.takeChar (s : State) (c : PackChar) : State :=
  match rxChar s.pack.receiver c with
  | .going r => s.setReceiver r
  | .discard => s.discardFrame
  | .frame got =>
    if (judgePackFrame 0 got).isSome = true ∧ s.pack.tx.length < Config.txSize then s.setReceiver .hunting
    else s.discardFrame

/-- The characters of a PACK_FRAME_DISCARD, in the order they arrive. -/
def State.takeChars (s : State) (cs : List PackChar) : State := cs.foldl State.takeChar s

/-! ### Answers not yet sent (R144) -/

/-- The transmitter has sent the oldest answer (R144). -/
def State.sendAnswer (s : State) : State :=
  match s.pack.tx with
  | a :: rest => { s with pack := { s.pack with tx := rest, lastSent := a } }
  | [] => s

/-! ### Meanings -/

/-- NEXT. -/
def execPackNext (dt : Nat) (s : State) : Host.Outcome State Fault Refusal :=
  packRequest dt 0x01 (fun s => s.nextPiece) s

/-- WEIGH. -/
def execPackWeigh (dt : Nat) (number : Byte) (serial weight : Word32) (s : State) :
    Host.Outcome State Fault Refusal :=
  packRequest dt 0x02 (fun s => s.weighRequest number serial weight) s

/-- PACKED. -/
def execPackPacked (dt : Nat) (number : Byte) (serial label : Word32) (s : State) :
    Host.Outcome State Fault Refusal :=
  packRequest dt 0x03 (fun s => s.packedRequest number serial label) s

/-- ASIDE. -/
def execPackAside (dt : Nat) (number : Byte) (serial : Word32) (s : State) : Host.Outcome State Fault Refusal :=
  packRequest dt 0x04 (fun s => s.asideRequest number serial) s

/-- QUERY. -/
def execPackQuery (dt : Nat) (number : Byte) (serial : Option Word32) (s : State) :
    Host.Outcome State Fault Refusal :=
  packRequest dt 0x05 (fun s => s.queryRequest number serial) s

/-- PACK_FRAME_DISCARD: the characters that end a frame as a discard arrive (R143, R144). -/
def execPackFrameDiscard (dt : Nat) (chars : List PackChar) (s : State) : Host.Outcome State Fault Refusal :=
  lineArrival dt (fun s => s.takeChars chars) s

/-- SCALE_TIMER_EXPIRY. -/
def execScaleTimerExpiry (dt : Nat) (s : State) : Host.Outcome State Fault Refusal :=
  .next ((s.elapse dt).scaleExpiry)

/-- PACK_ANSWER_SENT. -/
def execPackAnswerSent (dt : Nat) (s : State) : Host.Outcome State Fault Refusal :=
  .next ((s.elapse dt).sendAnswer)

end Sys2Proof.Machine
end

