-- ==== Sys2Proof/Machine/Pieces.lean ====
section
/-!
DEFINITION. The host's requests on pieces: READ PIECE, FIND PIECES, AMEND PIECE with its waive, and RETIRE PIECE
(R82 to R84, R117 to R123).
-/
namespace Sys2Proof.Machine

/-! ### READ PIECE and FIND PIECES -/

/-- READ PIECE (R118). -/
def State.readPiece (s : State) (number : Byte) (serial : Option Word32) : Answer :=
  match recordOf number, serial with
  | none, _ => s.refuse .badRequest
  | some i, none => ⟨s, .ok, s.pieceBytes i⟩
  | some i, some v => if (s.named i v).isSome then ⟨s, .ok, s.pieceBytes i⟩ else s.refuse .stalePiece

/-- What FIND PIECES looks for (R119). -/
structure Search where
  states : Byte
  station : Option (Fin 9)
  slot : Option (Fin 16)
deriving DecidableEq, Repr

/-- The absent value of a station or slot byte of FIND PIECES (11-1.1). -/
def findAbsent : Byte := 0xFF

/-- An optional station or slot byte: FFh names none, another byte must be in range. -/
def optionalByte {α : Type} (read : Byte → Option α) (b : Byte) : Option (Option α) :=
  if b = findAbsent then some none else (read b).map some

/-- A record matches (R119). -/
def State.matches (s : State) (x : Search) (i : Fin 64) : Bool :=
  match s.record i with
  | none => x.states.getLsbD 0 && x.station.isNone && x.slot.isNone
  | some p =>
    x.states.getLsbD p.state.code.toNat &&
    (match x.station with
      | some n => p.station == n
      | none => true) &&
    (match x.slot with
      | some k => p.slot == k
      | none => true)

/-- One record of a FIND PIECES answer: number, serial (0 for a FREE record), state. -/
def State.foundBytes (s : State) (i : Fin 64) : List Byte :=
  match s.record i with
  | none => byteOf i.1 :: (num4 0 ++ [0])
  | some p => byteOf i.1 :: (bytes32 p.serial ++ [p.state.code])

/-- The continuation number: the one that follows the last record given, if matching records remain (R119). -/
def continuation (found given : List (Fin 64)) : Byte :=
  if given.length < found.length then
    match given.getLast? with
    | some i => byteOf (i.1 + 1)
    | none => 0xFF
  else 0xFF

/-- A FIND PIECES whose operands are in range (R119). -/
def State.search (s : State) (x : Search) (first : Nat) : Answer :=
  let total := (allRecords.filter (s.matches x)).length
  let found := allRecords.filter fun i => s.matches x i && decide (first ≤ i.1)
  let given := found.take Config.findPage
  if found.isEmpty then ⟨s, .empty, [byteOf total, 0, 0xFF]⟩
  else ⟨s, .ok, [byteOf total, byteOf given.length, continuation found given] ++ given.flatMap s.foundBytes⟩

/-- FIND PIECES (R117, R119). -/
def State.findPieces (s : State) (states station slot first : Byte) : Answer :=
  match optionalByte stationOf station, optionalByte slotOf slot, recordOf first with
  | some n, some k, some i => s.search ⟨states, n, k⟩ i.1
  | _, _, _ => s.refuse .badRequest

/-! ### AMEND PIECE -/

/-- The items of a request, at most one of each sort (R120). -/
structure Amendment where
  label : Option (Option Word32)
  cap : Option (Option Cap)
  hold : Option Bool
  waive : Bool
deriving DecidableEq, Repr

/-- A request with no item. -/
def Amendment.empty : Amendment := ⟨none, none, none, false⟩

/-- A grade cap item's code (11-1.1). -/
def capOf (b : Byte) : Option (Option Cap) :=
  if b = 0 then some none else if b = 1 then some (some .b) else if b = 2 then some (some .reject) else none

/-- A host hold item's code (11-1.1). -/
def holdOf (b : Byte) : Option Bool := if b = 0 then some false else if b = 1 then some true else none

/-- One item joined to those before it; none where the item is given twice or its code is none the item allows (R120). -/
def Amendment.add (a : Amendment) (item : AmendItem) : Option Amendment :=
  match item with
  | .label v => if a.label.isSome then none else some { a with label := some (some v) }
  | .labelNone => if a.label.isSome then none else some { a with label := some none }
  | .cap b => if a.cap.isSome then none else (capOf b).map fun c => { a with cap := some c }
  | .hold b => if a.hold.isSome then none else (holdOf b).map fun h => { a with hold := some h }
  | .waive => if a.waive then none else some { a with waive := true }

/-- The items of a request put together. -/
def gather : Amendment → List AmendItem → Option Amendment
  | a, [] => some a
  | a, item :: items =>
    match a.add item with
    | some b => gather b items
    | none => none

/-- The grade cap may change in this state (R120). -/
def PieceState.capAllowed (st : PieceState) : Bool := st != .atScale

/-- The host hold may change in this state (R120). -/
def PieceState.holdAllowed (st : PieceState) : Bool := st == .opened || st == .queued

/-- A panel may be waived in this state (R120). -/
def PieceState.waiveAllowed (st : PieceState) : Bool := st == .opened || st == .queued || st == .aside

/-- The first item that fails, in the order of R120's table. -/
def Amendment.refusal (a : Amendment) (p : Piece) : Option Status :=
  if a.cap.isSome = true ∧ p.state.capAllowed = false then some .wrongState
  else if a.hold.isSome = true ∧ p.state.holdAllowed = false then some .wrongState
  else if a.waive = true ∧ p.panel? = none then some .wrongKind
  else if a.waive = true ∧ p.state.waiveAllowed = false then some .wrongState
  else none

/-- Order of the caps: none, then B, then REJECT, the lowest (R121). -/
def capDepth : Option Cap → Nat
  | none => 0
  | some .b => 1
  | some .reject => 2

/-- The item is above the cap that stands, so that it is left and the answer is CLAMPED (R121). -/
def capClamped (p : Piece) (item : Option (Option Cap)) : Bool :=
  match item with
  | some c => decide (capDepth c < capDepth p.cap)
  | none => false

/-- A cap stored, and the grade formed again where there is one (R121). -/
def Piece.lowerCap (p : Piece) (c : Option Cap) : Piece :=
  { p with cap := c, weighing := p.weighing.map fun w => { w with grade := formGrade w.computed c } }

/-- The label, cap and hold items applied to a record (R121, R122). -/
def Piece.amend (p : Piece) (a : Amendment) : Piece :=
  let p := match a.label with
    | some v => { p with label := v }
    | none => p
  let p := match a.cap with
    | some c => if capDepth c < capDepth p.cap then p else p.lowerCap c
    | none => p
  match a.hold with
  | some h => { p with hold := h }
  | none => p

/-- The counts of a panel that is waived while the list holds that many entries of it (R83). -/
def Panel.waiveAll (q : Panel) (entries : Nat) : Panel :=
  { q with waived := min Config.countSat (q.waived + entries + q.unlisted), unmended := 0, unlisted := 0 }

/-- Number of mend entries that name a record. -/
def State.entriesOf (s : State) (i : Fin 64) : Nat := s.inspector.mends.countP (·.panel == i)

/-- Mend entries that name a record taken out of the list, which closes up (R80). -/
def State.dropEntries (s : State) (i : Fin 64) : State :=
  s.modInspector fun x => { x with mends := x.mends.filter (·.panel != i) }

/-- A waive (R83). -/
def State.waivePanel (s : State) (i : Fin 64) : State :=
  (s.modPanel i fun q => q.waiveAll (s.entriesOf i)).dropEntries i

/-- The items applied together (R120 to R122). -/
def State.applyAmendment (s : State) (i : Fin 64) (a : Amendment) : State :=
  let t := s.modPiece i fun p => p.amend a
  if a.waive then t.waivePanel i else t

/-- The fields of an AMEND PIECE answer, from the record after the request. -/
def State.amendBytes (s : State) (i : Fin 64) : List Byte :=
  match s.record i with
  | some p => p.amendBytes
  | none => []

/-- AMEND PIECE (R117, R120): the serial is checked first, then the items among themselves (DEDUCED, assumption 14),
then each item against the record. -/
def State.amendPiece (s : State) (number : Byte) (serial : Word32) (items : List AmendItem) : Answer :=
  match recordOf number with
  | none => s.refuse .badRequest
  | some i =>
    match s.named i serial, gather Amendment.empty items with
    | none, _ => s.refuse .stalePiece
    | some _, none => s.refuse .badRequest
    | some p, some a =>
      match a.refusal p with
      | some status => s.refuse status
      | none =>
        let t := s.applyAmendment i a
        ⟨t, if capClamped p a.cap then .clamped else .ok, t.amendBytes i⟩

/-! ### RETIRE PIECE -/

/-- A RETIRE PIECE that is taken (R84, R123): entries discarded, record FREE, TABLE_LOW tested at the change of the
figure, and the arbiter's consideration. -/
def State.retireRecord (s : State) (i : Fin 64) : State :=
  let t := (s.dropEntries i).modInspector fun x =>
    { x with discarded := min Config.countSat (x.discarded + s.entriesOf i) }
  (t.setRecord i none).lowTest.consider

/-- RETIRE PIECE (R117, R123). -/
def State.retirePiece (s : State) (number : Byte) (serial : Word32) : Answer :=
  match recordOf number with
  | none => s.refuse .badRequest
  | some i =>
    match s.named i serial with
    | none => s.refuse .stalePiece
    | some p =>
      if p.state = .packed ∨ p.state = .aside then ⟨s.retireRecord i, .ok, [byteOf (s.entriesOf i)]⟩
      else s.refuse .wrongState

/-! ### Meanings -/

/-- READ_PIECE. -/
def execReadPiece (dt : Nat) (tag number : Byte) (serial : Option Word32) (s : State) :
    Host.Outcome State Fault Refusal :=
  hostRequest dt tag (fun s => s.readPiece number serial) s

/-- FIND_PIECES. -/
def execFindPieces (dt : Nat) (tag states station slot first : Byte) (s : State) :
    Host.Outcome State Fault Refusal :=
  hostRequest dt tag (fun s => s.findPieces states station slot first) s

/-- AMEND_PIECE. -/
def execAmendPiece (dt : Nat) (tag number : Byte) (serial : Word32) (items : List AmendItem) (s : State) :
    Host.Outcome State Fault Refusal :=
  hostRequest dt tag (fun s => s.amendPiece number serial items) s

/-- RETIRE_PIECE. -/
def execRetirePiece (dt : Nat) (tag number : Byte) (serial : Word32) (s : State) :
    Host.Outcome State Fault Refusal :=
  hostRequest dt tag (fun s => s.retirePiece number serial) s

end Sys2Proof.Machine
end

