-- ==== Sys2Proof/Machine/Port.lean ====
section
/-!
DEFINITION. The host port and the requests on the part as a whole: spans and reading (R168, R169), malformed frames
(R170), modes and parameters (R171 to R173), IDENTIFY (R174), resets (R175), and the expiry of the link silence timer
(R157).
-/
namespace Sys2Proof.Machine

/-! ### IDENTIFY (R174) -/

/-- Reset causes as returned (11-1.2). -/
def ResetCause.code : ResetCause → Byte
  | .powerOn => 0
  | .pin => 1
  | .clear => 2

/-- Modes as returned (11-1.2). -/
def Mode.code : Mode → Byte
  | .config => 0
  | .operate => 1

/-- IDENTIFY (R174). -/
def State.identify (s : State) : Answer :=
  ⟨s, .ok, bytes16 Config.partCode ++ [Config.revision, s.port.cause.code, s.port.mode.code] ++
    bytes32 s.table.nextSerial ++ num2 s.pack.framing ++ bytes32 s.clocks.part⟩

/-! ### Modes (R171, R172) -/

/-- The mode replaced. -/
def State.setMode (s : State) (m : Mode) : State := { s with port := { s.port with mode := m } }

/-- A station stands in a state that forbids ENTER CONFIG. -/
def State.working (s : State) (n : Fin 9) : Bool := (s.station n).state.permitted

/-- ENTER CONFIG (R171). -/
def State.enterConfig (s : State) : Answer :=
  match s.port.mode with
  | .config => ⟨s, .ok, []⟩
  | .operate => if allStations.any s.working then s.refuse .busy else ⟨s.setMode .config, .ok, []⟩

/-- Cross-checks 1 and 4 of R172 at one lay station. -/
def LayParams.crossCheck (p : LayParams) : LayParams :=
  { p with tMax := if p.tMin < p.tMax then p.tMax else p.tMin + 1000, fStart := min p.fStart p.fMax }

/-- Cross-checks 2 and 3 of R172. -/
def PartParams.crossCheck (p : PartParams) : PartParams :=
  { p with
    anyGap := min p.anyGap p.laneGap
    queueLow := if p.queueLow < p.queueHigh then p.queueLow else p.queueHigh - 1 }

/-- The cross-checks of R172. They touch different parameters, so that their order does not show. -/
def Params.crossCheck (p : Params) : Params :=
  { p with lay := p.lay.map LayParams.crossCheck, part := p.part.crossCheck }

/-- What LEAVE CONFIG does at a lay station under the parameters as the cross-checks left them: constants from the
bound order, if any, and advances of 0 where no metering wheel is fitted (R28, R61, R172). -/
def LayStation.leaveConfig (x : LayStation) (p : LayParams) (order : Option RopeOrder) : LayStation :=
  let x := match order with
    | some f => { x with consts := some (layConsts f.lay p.marks) }
    | none => x
  if p.meterScale = 0 then { x with slipCap := 0, slipMeter := 0 } else x

/-- Every lay station after LEAVE CONFIG. -/
def State.leaveLays (s : State) : Vector LayStation 8 :=
  Vector.ofFn fun l : Fin 8 => (s.lay l).leaveConfig (s.layParams l) (s.rope (ofLay l))

/-- OPERATE is entered under the parameters as they stand: constants, advances, pack port (R172). Clearing the pack
port receiver drops its answers not yet sent with the frame in progress, as R146 says of the same words (DEDUCED,
assumption 35). -/
def State.operate (s : State) : State :=
  { s with
    lays := s.leaveLays
    pack := { s.pack with rate := s.params.part.packRate, receiver := .hunting, tx := [] }
    port := { s.port with mode := .operate } }

/-- The parameters after the cross-checks of R172. -/
def State.crossChecked (s : State) : State := { s with params := s.params.crossCheck }

/-- The effects of a LEAVE CONFIG taken in CONFIG (R172). -/
def State.toOperate (s : State) : State := (s.crossChecked.operate.lowTest).highTest

/-- LEAVE CONFIG (R172). -/
def State.leaveConfig (s : State) : Answer :=
  match s.port.mode with
  | .operate => ⟨s, .ok, []⟩
  | .config => ⟨s.toOperate, if s.params.crossCheck = s.params then .ok else .clamped, []⟩

/-! ### Parameters (R173) -/

/-- SET PARAMETER (R173). -/
def State.setParameter (s : State) (ident station kind : Byte) (value : Word32) : Answer :=
  match s.port.mode with
  | .operate => s.refuse .wrongMode
  | .config =>
    match (paramRef ident station kind).bind fun ref => ref.store value.toNat s.params with
    | none => s.refuse .badRequest
    | some r => ⟨{ s with params := r.value }, if r.clamped then .clamped else .ok, num4 r.number⟩

/-- GET PARAMETER (R173). -/
def State.getParameter (s : State) (ident station kind : Byte) : Answer :=
  match paramRef ident station kind with
  | none => s.refuse .badRequest
  | some ref => ⟨s, .ok, num4 (ref.read s.params)⟩

/-! ### Spans (R168 to R170) -/

/-- A read span that shifts out n bytes (R169): of the pending response, or of NO_RESPONSE. What the port shifts out
beyond the last byte of either no rule says, and nothing of it is recorded (DESIGN CHOICE, assumption 36). Spans do not
overlap (R168), so that no request span is in progress after it (assumption 39). -/
def Port.readSpan (p : Port) (n : Nat) : Port :=
  match p.response with
  | some r =>
    if r.bytes.length ≤ n then { p with response := none, ready := false, span := .idle, shifted := r.bytes }
    else { p with span := .idle, shifted := r.bytes.take n }
  | none => { p with span := .idle, shifted := noResponse.bytes.take n }

/-- A request span with these bytes, if it is malformed (R170): it replaces the pending response and touches nothing
else. A span that is not malformed is the event of another row. -/
def Port.malformed (p : Port) (bytes : List Byte) : Port :=
  match judgeSpan 0 bytes with
  | .malformed tag status => p.answer tag p.response.isSome status []
  | .ignored | .readSpan | .request _ => p.setSpan .idle

/-- The first byte of a span is not the read code: READY falls, and a request span is in progress (R168). -/
def Port.firstByte (p : Port) : Port := { p with ready := false, span := .begun }

/-! ### Link silence (R157) -/

/-- The station is bound and not TRIPPED. -/
def State.linkHears (s : State) (n : Fin 9) : Bool :=
  s.bound n && decide ((s.station n).state ≠ .tripped)

/-- The link silence timer disarmed. -/
def State.disarmLink (s : State) : State := { s with collector := { s.collector with linkTimer := none } }

/-- LINK_LOST raised at a station. -/
def State.raiseLinkLost (s : State) (n : Fin 9) : State := s.raise n .linkLost

/-- Expiry of the armed link silence timer (R157): the stations it names are those that are bound and not TRIPPED at
the expiry, taken in order. -/
def State.linkExpiry (s : State) : State :=
  match s.collector.linkTimer with
  | some t =>
    ((allStations.filter s.linkHears).foldl State.raiseLinkLost (s.waitPart t).disarmLink).notice
      partSlot (.fault .linkLost)
  | none => s

/-! ### RESET and power (R175) -/

/-- The RESET input's level. -/
def State.setReset (s : State) (level : Bool) : State := { s with pins := { s.pins with reset := level } }

/-- A request span in progress is dropped (R175). -/
def Port.dropSpan (p : Port) : Port := p.setSpan (if p.span = .begun then .dropped else p.span)

/-- RESET goes to its asserted level; the reset happens at the assertion, and a request span in progress is dropped
(R175). -/
def State.assertReset (s : State) : State :=
  if s.pins.reset then s else ((s.lineReset .pin).modPort Port.dropSpan).setReset true

/-- RESET is released (R175). -/
def State.releaseReset (s : State) : State := s.setReset false

/-- Power comes on: the part as after power-on, the input lines and the waiting commands as they are (R1, R175). -/
def State.powerUp (s : State) : State := { State.reset with pins := s.pins, pending := s.pending }

/-! ### Meanings -/

/-- IDENTIFY. -/
def execIdentify (dt : Nat) (tag : Byte) (s : State) : Host.Outcome State Fault Refusal :=
  hostRequest dt tag (fun s => s.identify) s

/-- ENTER_CONFIG. -/
def execEnterConfig (dt : Nat) (tag : Byte) (s : State) : Host.Outcome State Fault Refusal :=
  hostRequest dt tag (fun s => s.enterConfig) s

/-- LEAVE_CONFIG. -/
def execLeaveConfig (dt : Nat) (tag : Byte) (s : State) : Host.Outcome State Fault Refusal :=
  hostRequest dt tag (fun s => s.leaveConfig) s

/-- SET_PARAMETER. -/
def execSetParameter (dt : Nat) (tag ident station kind : Byte) (value : Word32) (s : State) :
    Host.Outcome State Fault Refusal :=
  hostRequest dt tag (fun s => s.setParameter ident station kind value) s

/-- GET_PARAMETER. -/
def execGetParameter (dt : Nat) (tag ident station kind : Byte) (s : State) : Host.Outcome State Fault Refusal :=
  hostRequest dt tag (fun s => s.getParameter ident station kind) s

/-- PART_CLEAR: the answer is prepared after the reset (R175). -/
def execPartClear (dt : Nat) (tag : Byte) (s : State) : Host.Outcome State Fault Refusal :=
  hostRequest dt tag (fun s => ⟨s.lineReset .clear, .ok, []⟩) s

/-- READ_SPAN, in which the host clocks out a number of bytes. While RESET is held it is not taken, but it is a span of
its own, so that no other is in progress (R168, R175, assumption 39). -/
def execReadSpan (dt shifted : Nat) (s : State) : Host.Outcome State Fault Refusal :=
  .next ((s.elapse dt).modPort fun p => if s.pins.reset then p.setSpan .idle else p.readSpan shifted)

/-- MALFORMED_FRAME. -/
def execMalformedFrame (dt : Nat) (bytes : List Byte) (s : State) : Host.Outcome State Fault Refusal :=
  requestSpan dt (fun s => s.modPort fun p => p.malformed bytes) s

/-- SPAN_FIRST_BYTE. A span that begins while RESET is held is not taken at its end either (DEDUCED: R175 has the part
take what arrives from the release on; assumption 39). -/
def execSpanFirstByte (dt : Nat) (s : State) : Host.Outcome State Fault Refusal :=
  .next ((s.elapse dt).modPort fun p => if s.pins.reset then p.setSpan .dropped else p.firstByte)

/-- RESET_ASSERT. -/
def execResetAssert (dt : Nat) (s : State) : Host.Outcome State Fault Refusal :=
  .next ((s.elapse dt).assertReset)

/-- RESET_RELEASE. -/
def execResetRelease (dt : Nat) (s : State) : Host.Outcome State Fault Refusal :=
  .next ((s.elapse dt).releaseReset)

/-- POWER_ON. -/
def execPowerOn (dt : Nat) (s : State) : Host.Outcome State Fault Refusal :=
  .next ((s.elapse dt).powerUp)

/-- LINK_SILENCE_EXPIRY. -/
def execLinkSilenceExpiry (dt : Nat) (s : State) : Host.Outcome State Fault Refusal :=
  .next ((s.elapse dt).linkExpiry)

end Sys2Proof.Machine
end

