-- ==== Sys2Proof/Machine/Stations.lean ====
section
/-!
DEFINITION. The station requests: BIND, UNBIND, START, HALT, READ STATION (R9 to R22) and CLEAR FAULT (R155), and the
toggling of a pulsed run permit (R158).
-/
namespace Sys2Proof.Machine

/-! ### BIND -/

/-- What BIND does at lay station l under a ROPE order: constants and strand-out set afresh (R12, R28, R63). -/
def State.bindLay (s : State) (l : Fin 8) (f : RopeOrder) : State :=
  s.modLay l fun x =>
    { x with
      consts := some (layConsts f.lay (s.layParams l).marks)
      strandOut := strandsInUse f.strands &&& assertedStrands (s.layParams l).strandEdge (s.layPins l).strands }

/-- What BIND does at the loom: previous row and awaiting flag cleared (R12), counters brought to the new dead-hook
rows at most (R78). -/
def Inspector.bindLoom (i : Inspector) (dead : Nat) : Inspector :=
  { i with awaiting := none, previous := none, rowTimer := none, hookMiss := i.hookMiss.map (min dead) }

/-- The station record and the waiting queue after a BIND to a slot (R12). -/
def State.bindStation (s : State) (n : Fin 9) (slot : Fin 16) : State :=
  (s.modStation n fun x =>
    { x.enter s.port.mode s.clocks.part .ready with
      order := some slot, reasons := Reasons.empty, piece := none }).dropRequest n

/-- What BIND does at the station's tracker or at the inspector (R12). -/
def State.bindBlock (s : State) (n : Fin 9) (o : Order) : State :=
  match layOf n, o.body with
  | some l, .rope f => s.bindLay l f
  | none, .net f => s.modInspector fun i => i.bindLoom f.deadRows
  | _, _ => s

/-- A BIND that passes every check of R12. -/
def State.bindTo (s : State) (n : Fin 9) (slot : Fin 16) (o : Order) : State := (s.bindStation n slot).bindBlock n o

/-- BIND (R12). -/
def State.bindRequest (s : State) (stationByte slotByte : Byte) : Answer :=
  match stationOf stationByte, slotOf slotByte with
  | some n, some slot =>
    if (s.station n).state = .unbound ∨ ((s.station n).state = .ready ∧ (s.station n).piece = none) then
      match s.orderAt slot with
      | none => s.refuse .noSuchOrder
      | some o => if o.suits n then ⟨s.bindTo n slot o, .ok, []⟩ else s.refuse .wrongKind
    else s.refuse .busy
  | _, _ => s.refuse .badRequest

/-! ### UNBIND -/

/-- A piece closed SHORT (R124). -/
def Piece.closeShort (p : Piece) (now : Word32) : Piece :=
  { p with state := .aside, closedAt := some now, short := true, aside := some .short }

/-- The station's open piece, if any, closes SHORT, and the station is UNBOUND without a request (R13, R124). -/
def State.unbindRecords (s : State) (n : Fin 9) : State :=
  let t := match (s.station n).piece with
    | some i => s.modPiece i fun p => p.closeShort s.clocks.part
    | none => s
  (t.modStation n fun x =>
    { x.enter s.port.mode s.clocks.part .unbound with
      order := none, reasons := Reasons.empty, piece := none }).dropRequest n

/-- A lay station at UNBIND (R13, R28, R29, R61, R63). -/
def LayStation.unbind (x : LayStation) : LayStation :=
  { x.trackerReset with consts := none, slipCap := 0, slipMeter := 0, strandOut := 0 }

/-- What UNBIND does at the station's tracker and tally, or at the inspector (R13). -/
def State.unbindBlock (s : State) (n : Fin 9) : State :=
  match layOf n with
  | some l => s.modLay l LayStation.unbind
  | none => s.modInspector fun i => { i with rowTimer := none, previous := none, awaiting := none }

/-- An UNBIND that is taken (R13). -/
def State.unbindStation (s : State) (n : Fin 9) : State := (s.unbindRecords n).unbindBlock n

/-- UNBIND (R13). -/
def State.unbindRequest (s : State) (stationByte : Byte) : Answer :=
  match stationOf stationByte with
  | some n =>
    match (s.station n).state with
    | .unbound => s.refuse .notBound
    | .running | .cutting => s.refuse .busy
    | .ready | .holding | .tripped => ⟨s.unbindStation n, .ok, []⟩
  | none => s.refuse .badRequest

/-! ### START -/

/-- One splice entry, or one more overflow when the list is full (R64). -/
def Coil.addSplice (c : Coil) (strand : Nat) : Coil :=
  if c.splices.length < Config.spliceSize then { c with splices := c.splices ++ [⟨c.mm, strand⟩] }
  else { c with spliceOverflow := satSucc Config.countSat c.spliceOverflow }

/-- The coil with one entry, or one overflow, for each strand of a set in ascending order (R64). -/
def Coil.addSplices (c : Coil) (set : BitVec 4) : Coil := (strandList set).foldl Coil.addSplice c

/-- The strand-out set becomes splice entries of the station's open coil, if it has one (R64). -/
def State.addSplices (s : State) (n : Fin 9) (set : BitVec 4) : State :=
  match (s.station n).piece with
  | some i => s.modCoil i fun c => c.addSplices set
  | none => s

/-- Step 1 of R15: the strand-out set becomes splice entries of the open coil, if any, and is emptied (R64). -/
def State.recordSplices (s : State) (n : Fin 9) : State :=
  match layOf n with
  | some l => (s.addSplices n (s.lay l).strandOut).modLay l fun x => { x with strandOut := 0 }
  | none => s

/-- Step 3 of R15: a station with no open piece opens one, and TABLE_LOW is tested (R16, R125). -/
def State.ensurePiece (s : State) (n : Fin 9) : State :=
  match (s.station n).piece with
  | some _ => s
  | none =>
    match s.openPiece n with
    | some t => t.lowTest
    | none => s

/-- Step 5 of R15: RUNNING when no hold reason is left, HOLDING otherwise. -/
def State.startState (s : State) (n : Fin 9) : State :=
  if (s.station n).reasons.any then s.leaveFor n .holding else s.enterRunning n

/-- A START of station n that led from s to t calls for a consideration: the station holds a request, and step 4 placed
it or step 5 took the station into RUNNING or HOLDING from another state (R21, R94). -/
def startConsiders (s t : State) (n : Fin 9) : Bool :=
  decide (n ∈ t.arbiter.waiting ∧ (n ∉ s.arbiter.waiting ∨ (t.station n).state ≠ (s.station n).state))

/-- A state as a START of station n that began in s leaves it, once grants are considered, if they are to be. -/
def State.considerStart (t s : State) (n : Fin 9) : State := t.considerIf (startConsiders s t n)

/-- Steps 1 to 4 of R15. -/
def State.startEffects (s : State) (n : Fin 9) : State :=
  (((((s.recordSplices n).modReasons n fun r => { r with halted := false, fault := false }).ensurePiece n).targetTest
    n).overrunTest n true)

/-- A START that passes every check of R14 (R15). Grants are considered once, after its five steps (DEDUCED,
assumption 9). -/
def State.startStation (s : State) (n : Fin 9) : State := ((s.startEffects n).startState n).considerStart s n

/-- Check 5 of R14: the fault set holds a kind whose reaction is HOLD or more severe. -/
def State.faultForbidsStart (s : State) (n : Fin 9) : Bool :=
  FaultKind.all.any fun k => inSet (s.faults n).set k && decide (s.reaction k ≠ .note)

/-- The strand-out input of some strand in the strand-out set is asserted (R63). -/
def State.strandPresent (s : State) (n : Fin 9) : Bool :=
  match layOf n with
  | some l =>
    decide ((s.lay l).strandOut &&& assertedStrands (s.layParams l).strandEdge (s.layPins l).strands ≠ 0)
  | none => false

/-- Checks 5 to 7 of R14, at a READY or HOLDING station. -/
def State.startAllowed (s : State) (n : Fin 9) : Answer :=
  if s.faultForbidsStart n then s.refuse .faultPending
  else if s.strandPresent n then s.refuse .conditionPresent
  else if (s.station n).piece = none ∧ s.figure < 1 then s.refuse .noFreePiece
  else ⟨s.startStation n, .ok, []⟩

/-- START (R14). -/
def State.startRequest (s : State) (stationByte : Byte) : Answer :=
  match stationOf stationByte with
  | some n =>
    if s.port.mode = .config then s.refuse .wrongMode
    else
      match (s.station n).state with
      | .unbound => s.refuse .notBound
      | .tripped => s.refuse .faultPending
      | .running | .cutting => ⟨s.modReasons n fun r => { r with halted := false }, .ok, []⟩
      | .ready | .holding => s.startAllowed n
  | none => s.refuse .badRequest

/-! ### HALT, CLEAR FAULT, READ STATION -/

/-- HALT (R18). -/
def State.haltRequest (s : State) (stationByte : Byte) : Answer :=
  match stationOf stationByte with
  | some n =>
    if (s.station n).state = .unbound then s.refuse .notBound
    else ⟨s.addReason n fun r => { r with halted := true }, .ok, []⟩
  | none => s.refuse .badRequest

/-- At the loom every hook miss counter returns to 0 (R78, R155). -/
def State.clearHooks (s : State) (n : Fin 9) : State :=
  if n = loom then s.modInspector fun i => { i with hookMiss := Vector.replicate 64 0 } else s

/-- A TRIPPED station enters READY (R155). -/
def State.untrip (s : State) (n : Fin 9) : State :=
  if (s.station n).state = .tripped then s.enterState n .ready else s

/-- A CLEAR FAULT that is taken (R155). -/
def State.clearStation (s : State) (n : Fin 9) : State :=
  ((s.modFaults n fun _ => ⟨0, none⟩).clearHooks n).untrip n

/-- CLEAR FAULT (R155). -/
def State.clearRequest (s : State) (stationByte : Byte) : Answer :=
  match stationOf stationByte with
  | some n =>
    if (s.station n).state = .cutting then s.refuse .conditionPresent
    else if inSet (s.faults n).set .strandOut = true ∧ s.strandPresent n = true then s.refuse .conditionPresent
    else ⟨s.clearStation n, .ok, []⟩
  | none => s.refuse .badRequest

/-- READ STATION (R19). -/
def State.readStation (s : State) (stationByte : Byte) : Answer :=
  match stationOf stationByte with
  | some n => ⟨s, .ok, s.stationBytes n⟩
  | none => s.refuse .badRequest

/-! ### The permit output -/

/-- The permit output of a station changes level now. -/
def State.changePermit (s : State) (n : Fin 9) : State :=
  s.modStation n fun x => { x with pulseHigh := !x.pulseHigh, pulseAt := s.clocks.part }

/-- Every 5 ms in PULSED mode a given permit's output changes level (R158). -/
def State.togglePermit (s : State) (n : Fin 9) : State :=
  if s.params.part.permitMode = .pulsed ∧ s.permitGiven n = true then
    (s.waitPart ⟨(s.station n).pulseAt, Config.permitHalfPeriod⟩).changePermit n
  else s

/-! ### Meanings -/

/-- BIND. -/
def execBind (dt : Nat) (tag station slot : Byte) (s : State) : Host.Outcome State Fault Refusal :=
  hostRequest dt tag (fun s => s.bindRequest station slot) s

/-- UNBIND. -/
def execUnbind (dt : Nat) (tag station : Byte) (s : State) : Host.Outcome State Fault Refusal :=
  hostRequest dt tag (fun s => s.unbindRequest station) s

/-- START. -/
def execStart (dt : Nat) (tag station : Byte) (s : State) : Host.Outcome State Fault Refusal :=
  hostRequest dt tag (fun s => s.startRequest station) s

/-- HALT. -/
def execHalt (dt : Nat) (tag station : Byte) (s : State) : Host.Outcome State Fault Refusal :=
  hostRequest dt tag (fun s => s.haltRequest station) s

/-- CLEAR_FAULT. -/
def execClearFault (dt : Nat) (tag station : Byte) (s : State) : Host.Outcome State Fault Refusal :=
  hostRequest dt tag (fun s => s.clearRequest station) s

/-- READ_STATION. -/
def execReadStation (dt : Nat) (tag station : Byte) (s : State) : Host.Outcome State Fault Refusal :=
  hostRequest dt tag (fun s => s.readStation station) s

/-- PERMIT_PULSE_TOGGLE. -/
def execPermitPulseToggle (dt : Nat) (station : Fin 9) (s : State) : Host.Outcome State Fault Refusal :=
  .next ((s.elapse dt).togglePermit station)

end Sys2Proof.Machine
end

