-- ==== Sys2Proof/Machine/Dispatch.lean ====
section
/-!
DEFINITION. The effect of every command, one arm for each row of the table.
-/
namespace Sys2Proof.Machine

/-- A command's effect on everything but the queue. -/
def exec (i : Instr) (s : State) : Host.Outcome State Fault Refusal :=
  match i with
  | .identify dt tag => Sys2Proof.Machine.execIdentify dt tag s
  | .enterConfig dt tag => Sys2Proof.Machine.execEnterConfig dt tag s
  | .leaveConfig dt tag => Sys2Proof.Machine.execLeaveConfig dt tag s
  | .setParameter dt tag ident station kind value => Sys2Proof.Machine.execSetParameter dt tag ident station kind value s
  | .getParameter dt tag ident station kind => Sys2Proof.Machine.execGetParameter dt tag ident station kind s
  | .partClear dt tag => Sys2Proof.Machine.execPartClear dt tag s
  | .loadOrder dt tag slot fields => Sys2Proof.Machine.execLoadOrder dt tag slot fields s
  | .readOrder dt tag slot => Sys2Proof.Machine.execReadOrder dt tag slot s
  | .retireOrder dt tag slot => Sys2Proof.Machine.execRetireOrder dt tag slot s
  | .bind dt tag station slot => Sys2Proof.Machine.execBind dt tag station slot s
  | .unbind dt tag station => Sys2Proof.Machine.execUnbind dt tag station s
  | .start dt tag station => Sys2Proof.Machine.execStart dt tag station s
  | .halt dt tag station => Sys2Proof.Machine.execHalt dt tag station s
  | .clearFault dt tag station => Sys2Proof.Machine.execClearFault dt tag station s
  | .readStation dt tag station => Sys2Proof.Machine.execReadStation dt tag station s
  | .readPiece dt tag number serial => Sys2Proof.Machine.execReadPiece dt tag number serial s
  | .findPieces dt tag states station slot first => Sys2Proof.Machine.execFindPieces dt tag states station slot first s
  | .amendPiece dt tag number serial items => Sys2Proof.Machine.execAmendPiece dt tag number serial items s
  | .retirePiece dt tag number serial => Sys2Proof.Machine.execRetirePiece dt tag number serial s
  | .readMends dt tag first => Sys2Proof.Machine.execReadMends dt tag first s
  | .mend dt tag entry => Sys2Proof.Machine.execMend dt tag entry s
  | .poll dt tag => Sys2Proof.Machine.execPoll dt tag s
  | .takeNotice dt tag slot => Sys2Proof.Machine.execTakeNotice dt tag slot s
  | .setMask dt tag mask => Sys2Proof.Machine.execSetMask dt tag mask s
  | .readSpan dt shifted => Sys2Proof.Machine.execReadSpan dt shifted s
  | .malformedFrame dt bytes => Sys2Proof.Machine.execMalformedFrame dt bytes s
  | .packNext dt => Sys2Proof.Machine.execPackNext dt s
  | .packWeigh dt number serial weight => Sys2Proof.Machine.execPackWeigh dt number serial weight s
  | .packPacked dt number serial label => Sys2Proof.Machine.execPackPacked dt number serial label s
  | .packAside dt number serial => Sys2Proof.Machine.execPackAside dt number serial s
  | .packQuery dt number serial => Sys2Proof.Machine.execPackQuery dt number serial s
  | .packFrameDiscard dt chars => Sys2Proof.Machine.execPackFrameDiscard dt chars s
  | .flyerMark dt station edge => Sys2Proof.Machine.execFlyerMark dt station edge s
  | .countArrival dt station encoder first second => Sys2Proof.Machine.execCountArrival dt station encoder first second s
  | .strandOutAssertion dt station strand => Sys2Proof.Machine.execStrandOutAssertion dt station strand s
  | .strandOutRelease dt station strand => Sys2Proof.Machine.execStrandOutRelease dt station strand s
  | .rowIndex dt edge => Sys2Proof.Machine.execRowIndex dt edge s
  | .senseWord dt levels => Sys2Proof.Machine.execSenseWord dt levels s
  | .cutDone dt station edge => Sys2Proof.Machine.execCutDone dt station edge s
  | .resetAssert dt => Sys2Proof.Machine.execResetAssert dt s
  | .resetRelease dt => Sys2Proof.Machine.execResetRelease dt s
  | .powerOn dt => Sys2Proof.Machine.execPowerOn dt s
  | .stallTimerExpiry dt station => Sys2Proof.Machine.execStallTimerExpiry dt station s
  | .rowStallTimerExpiry dt => Sys2Proof.Machine.execRowStallTimerExpiry dt s
  | .cutTimerExpiry dt station => Sys2Proof.Machine.execCutTimerExpiry dt station s
  | .scaleTimerExpiry dt => Sys2Proof.Machine.execScaleTimerExpiry dt s
  | .linkSilenceExpiry dt => Sys2Proof.Machine.execLinkSilenceExpiry dt s
  | .ageingOut dt reading => Sys2Proof.Machine.execAgeingOut dt reading s
  | .laneGapExpiry dt lane => Sys2Proof.Machine.execLaneGapExpiry dt lane s
  | .anyGapExpiry dt => Sys2Proof.Machine.execAnyGapExpiry dt s
  | .grantListDrop dt => Sys2Proof.Machine.execGrantListDrop dt s
  | .laneTimeAbsent dt lane => Sys2Proof.Machine.execLaneTimeAbsent dt lane s
  | .demandPulse dt station => Sys2Proof.Machine.execDemandPulse dt station s
  | .permitPulseToggle dt station => Sys2Proof.Machine.execPermitPulseToggle dt station s
  | .packAnswerSent dt => Sys2Proof.Machine.execPackAnswerSent dt s
  | .spanFirstByte dt => Sys2Proof.Machine.execSpanFirstByte dt s

end Sys2Proof.Machine
end

