-- ==== Sys2Proof/Safety.lean ====
section
/-!
DEFINITION. What counts as a safe run of the CL-9, in the terms the statements use: the laws that the spec says hold of
every state (R8, R10, R11, R74, R80, R91, R96, R113, R129, R158), the limits of every counted thing, and the answers of
the two ports.
-/
namespace Sys2Proof

/-! ### Commands -/

/-- The time that a command carries. -/
def Instr.time : Instr → Nat
  | .identify dt _ | .enterConfig dt _ | .leaveConfig dt _ | .setParameter dt _ _ _ _ _
  | .getParameter dt _ _ _ _ | .partClear dt _ | .loadOrder dt _ _ _ | .readOrder dt _ _ | .retireOrder dt _ _
  | .bind dt _ _ _ | .unbind dt _ _ | .start dt _ _ | .halt dt _ _ | .clearFault dt _ _ | .readStation dt _ _
  | .readPiece dt _ _ _ | .findPieces dt _ _ _ _ _ | .amendPiece dt _ _ _ _ | .retirePiece dt _ _ _
  | .readMends dt _ _ | .mend dt _ _ | .poll dt _ | .takeNotice dt _ _ | .setMask dt _ _ | .readSpan dt _
  | .malformedFrame dt _ | .packNext dt | .packWeigh dt _ _ _ | .packPacked dt _ _ _ | .packAside dt _ _
  | .packQuery dt _ _ | .packFrameDiscard dt _ | .flyerMark dt _ _ | .countArrival dt _ _ _ _
  | .strandOutAssertion dt _ _ | .strandOutRelease dt _ _ | .rowIndex dt _ | .senseWord dt _ | .cutDone dt _ _
  | .resetAssert dt | .resetRelease dt | .powerOn dt | .stallTimerExpiry dt _ | .rowStallTimerExpiry dt
  | .cutTimerExpiry dt _ | .scaleTimerExpiry dt | .linkSilenceExpiry dt | .ageingOut dt _ | .laneGapExpiry dt _
  | .anyGapExpiry dt | .grantListDrop dt | .laneTimeAbsent dt _ | .demandPulse dt _ | .permitPulseToggle dt _
  | .packAnswerSent dt | .spanFirstByte dt => dt

/-- The commands that are the end of a request span: the host requests and the malformed frame (R168, R170). -/
def Instr.endsRequestSpan : Instr → Bool
  | .identify .. | .enterConfig .. | .leaveConfig .. | .setParameter .. | .getParameter .. | .partClear ..
  | .loadOrder .. | .readOrder .. | .retireOrder .. | .bind .. | .unbind .. | .start .. | .halt ..
  | .clearFault .. | .readStation .. | .readPiece .. | .findPieces .. | .amendPiece .. | .retirePiece ..
  | .readMends .. | .mend .. | .poll .. | .takeNotice .. | .setMask .. | .malformedFrame .. => true
  | .readSpan .. | .spanFirstByte .. | .packNext .. | .packWeigh .. | .packPacked .. | .packAside ..
  | .packQuery .. | .packFrameDiscard .. | .flyerMark .. | .countArrival .. | .strandOutAssertion ..
  | .strandOutRelease .. | .rowIndex .. | .senseWord .. | .cutDone .. | .resetAssert .. | .resetRelease ..
  | .powerOn .. | .stallTimerExpiry .. | .rowStallTimerExpiry .. | .cutTimerExpiry .. | .scaleTimerExpiry ..
  | .linkSilenceExpiry .. | .ageingOut .. | .laneGapExpiry .. | .anyGapExpiry .. | .grantListDrop ..
  | .laneTimeAbsent .. | .demandPulse .. | .permitPulseToggle .. | .packAnswerSent .. => false

/-- The arrivals that a part held in reset does not take at all: pack port characters, and the input arrivals that leave
no level behind (R175). -/
def Instr.dropsInReset : Instr → Bool
  | .packNext .. | .packWeigh .. | .packPacked .. | .packAside .. | .packQuery .. | .packFrameDiscard ..
  | .flyerMark .. | .rowIndex .. | .senseWord .. | .cutDone .. => true
  | .identify .. | .enterConfig .. | .leaveConfig .. | .setParameter .. | .getParameter .. | .partClear ..
  | .loadOrder .. | .readOrder .. | .retireOrder .. | .bind .. | .unbind .. | .start .. | .halt ..
  | .clearFault .. | .readStation .. | .readPiece .. | .findPieces .. | .amendPiece .. | .retirePiece ..
  | .readMends .. | .mend .. | .poll .. | .takeNotice .. | .setMask .. | .readSpan .. | .malformedFrame ..
  | .spanFirstByte .. | .countArrival .. | .strandOutAssertion .. | .strandOutRelease .. | .resetAssert ..
  | .resetRelease .. | .powerOn .. | .stallTimerExpiry .. | .rowStallTimerExpiry .. | .cutTimerExpiry ..
  | .scaleTimerExpiry .. | .linkSilenceExpiry .. | .ageingOut .. | .laneGapExpiry .. | .anyGapExpiry ..
  | .grantListDrop .. | .laneTimeAbsent .. | .demandPulse .. | .permitPulseToggle .. | .packAnswerSent .. => false

end Sys2Proof

namespace Sys2Proof.Machine

/-! ### Answers -/

/-- A host request that changes nothing but the clocks, the link silence timer and the pending response. -/
def State.answeredOnly (s : State) (dt : Nat) (tag : Byte) (status : Status) (fields : List Byte) : State :=
  (s.elapse dt).responded tag s.unread status fields

/-- A pack port request that changes nothing but the clocks, the receiver and the answers waiting to be sent. -/
def State.packAnsweredOnly (s : State) (dt : Nat) (kind : Byte) (status : Status) (fields : List Byte) : State :=
  (s.elapse dt).packResponded kind status fields

/-- Room for one more answer of the pack port (R144). -/
def State.txRoom (s : State) : Prop := s.pack.tx.length < 4

/-! ### Reservations (R96) -/

/-- Number of stations in CUTTING. -/
def State.cuttingCount (s : State) : Nat := allStations.countP fun n => decide ((s.station n).state = .cutting)

/-- R96: the reserved records, and the reserved places, are as many as the stations in CUTTING, no more than the FREE
records; and a station that is not UNBOUND has an order slot (R9). -/
structure State.Reserved (s : State) : Prop where
  records : s.arbiter.reservedRecords = s.cuttingCount
  places : s.arbiter.reservedPlaces = s.cuttingCount
  free : s.arbiter.reservedRecords ≤ s.freeCount
  ordered : ∀ n, (s.station n).state ≠ .unbound → (s.station n).order ≠ none

/-! ### Orders (R8) -/

/-- R8: every non-FREE piece names a LOADED order slot, and so does every bound station; a station has an order exactly
while it is bound (R9). -/
structure State.OrdersStand (s : State) : Prop where
  piece : ∀ i p, s.record i = some p → s.orderAt p.slot ≠ none
  station : ∀ n k, (s.station n).order = some k → s.orderAt k ≠ none
  bound : ∀ n, (s.station n).state = .unbound ↔ (s.station n).order = none

/-! ### Custody of the pieces (R108, R115, R129) -/

/-- The record holds a piece in this state. -/
def State.inState (s : State) (i : Fin 64) (st : PieceState) : Prop := ∃ p, s.record i = some p ∧ p.state = st

/-- R129 and what it rests on: the pack queue holds exactly the QUEUED pieces, each once; the scale occupant is the one
piece AT_SCALE or WEIGHED, if any; a station's open piece is an OPEN piece of that station, and every OPEN piece is the
open piece of its station; an UNBOUND station has none. -/
structure State.Custody (s : State) : Prop where
  nodup : s.pack.queue.Nodup
  queue : ∀ i, i ∈ s.pack.queue ↔ s.inState i .queued
  scale : ∀ i, s.pack.scale = some i ↔ (s.inState i .atScale ∨ s.inState i .weighed)
  open_ : ∀ n i, (s.station n).piece = some i ↔ ∃ p, s.record i = some p ∧ p.state = .opened ∧ p.station = n
  unbound : ∀ n, (s.station n).state = .unbound → (s.station n).piece = none

/-- R10: a station in RUNNING, HOLDING or CUTTING has an open piece. -/
def State.WorkHasPiece (s : State) : Prop :=
  ∀ n, (s.station n).state = .running ∨ (s.station n).state = .holding ∨ (s.station n).state = .cutting →
    (s.station n).piece ≠ none

/-- R113: no two non-FREE records hold the same serial. -/
def State.SerialsDiffer (s : State) : Prop :=
  ∀ i j p q, s.record i = some p → s.record j = some q → p.serial = q.serial → i = j

/-! ### The waiting queue (R91, R92) -/

/-- R91, R92: the waiting queue holds a station at most once, and none that is UNBOUND, CUTTING or TRIPPED. -/
structure State.QueueStands (s : State) : Prop where
  nodup : s.arbiter.waiting.Nodup
  states : ∀ n, n ∈ s.arbiter.waiting → (s.station n).state.mayRequest = true

/-! ### Limits -/

/-- The length, counts, lists and worst slip of a coil stand within their limits (R49, R65, R110). -/
def Coil.WithinLimits (c : Coil) : Prop :=
  0 ≤ c.length ∧ c.length ≤ Config.lengthLimit ∧ c.splices.length ≤ Config.spliceSize ∧
  c.spliceOverflow ≤ Config.countSat ∧ (∀ w, c.worstSlip = some w → w.natAbs ≤ 2147483647) ∧
  c.quality.excursions ≤ Config.countSat ∧ c.quality.inserted ≤ Config.countSat ∧ c.quality.reverse ≤ Config.countSat

/-- The counts of a panel stand within their limits (R80, R111). -/
def Panel.WithinLimits (q : Panel) : Prop :=
  q.rows ≤ Config.countSat ∧ q.knots ≤ Config.countSat ∧ q.holes ≤ Config.countSat ∧ q.unlisted ≤ Config.countSat ∧
  q.unsensed ≤ Config.countSat ∧ q.unmended ≤ Config.countSat ∧ q.mended ≤ Config.countSat ∧
  q.waived ≤ Config.countSat

/-- The fields of a piece's kind stand within their limits. -/
def PieceBody.WithinLimits : PieceBody → Prop
  | .coil c => c.WithinLimits
  | .panel q => q.WithinLimits

/-- The interval ring and the count accumulator of a lay station stand within their limits (R26, R29). -/
def LayStation.WithinLimits (x : LayStation) : Prop :=
  x.tracker.ring.length ≤ Config.ringSize ∧ x.tracker.count.natAbs ≤ 2147483647

/-- The mend list and the inspector's counts stand within their limits (R69, R74, R80). -/
def Inspector.WithinLimits (x : Inspector) : Prop :=
  x.mends.length ≤ Config.mendSize ∧ x.overflow ≤ Config.overflowSat ∧ x.discarded ≤ Config.countSat

/-- Every list of the part stands within its capacity and every saturating count within its limit. -/
structure State.WithinLimits (s : State) : Prop where
  lays : ∀ l, (s.lay l).WithinLimits
  pieces : ∀ i p, s.record i = some p → p.body.WithinLimits
  inspector : s.inspector.WithinLimits
  grants : s.arbiter.grants.length ≤ Config.grantSize
  answers : s.pack.tx.length ≤ Config.txSize
  framing : s.pack.framing ≤ Config.countSat
  notices : ∀ slot k, s.noticeCount slot k ≤ Config.noticeSat

/-! ### Permits (R158, R171) -/

/-- R158, R171: no permit is given in CONFIG, and a pulsed permit's output is high only while the permit is given. -/
structure State.PermitsStand (s : State) : Prop where
  config : s.port.mode = .config → ∀ n, (s.station n).state.permitted = false
  pulse : ∀ n, (s.station n).pulseHigh = true → s.permitGiven n = true

/-! ### Stopped stations (R17, R41, R43) -/

/-- The demand is 0 and the stall timer disarmed (R41, R43). -/
def LayStation.idle (x : LayStation) : Prop := x.demand = 0 ∧ x.stall = none

/-- R41, R43, R17: a lay station that is not RUNNING has demand 0 and its stall timer disarmed, and the loom's row stall
timer is disarmed while it is not RUNNING. -/
structure State.StoppedStand (s : State) : Prop where
  lay : ∀ l, (s.station (ofLay l)).state ≠ .running → (s.lay l).idle
  loom : (s.station loom).state ≠ .running → s.inspector.rowTimer = none

/-! ### Hold reasons (R11) under the floors of the reactions (R147, R148) -/

/-- R147, R148: no reaction stands below its kind's floor, and PEER_TRIP's is TRIP. -/
structure Params.FloorsStand (p : Params) : Prop where
  floor : ∀ k : FaultKind, k.floor.code ≤ (p.part.reactions[k.index.1]).code
  peer : p.part.reactions[FaultKind.peerTrip.index.1] = .trip

/-- R11: the hold reasons are never empty in HOLDING, and always empty in UNBOUND, READY, RUNNING and TRIPPED. In CUTTING
they may be either. -/
structure State.ReasonsStand (s : State) : Prop where
  holding : ∀ n, (s.station n).state = .holding → (s.station n).reasons ≠ Reasons.empty
  others : ∀ n, (s.station n).state = .unbound ∨ (s.station n).state = .ready ∨ (s.station n).state = .running ∨
    (s.station n).state = .tripped → (s.station n).reasons = Reasons.empty

/-! ### The mend list and the panels (R74, R80, R84) -/

/-- R74, R80, R84: no two entries hold the same id; each names a record that holds a panel; and each panel's unmended
count is the number of entries that name it. -/
structure State.MendsStand (s : State) : Prop where
  ids : (s.inspector.mends.map (·.id)).Nodup
  named : ∀ e ∈ s.inspector.mends, ∃ p q, s.record e.panel = some p ∧ p.body = .panel q
  counted : ∀ i p q, s.record i = some p → p.body = .panel q →
    q.unmended = s.inspector.mends.countP (·.panel == i)

end Sys2Proof.Machine
end

