-- ==== Sys2Proof/WellFormed.lean ====
section
/-!
DEFINITION. Which terms of Instr spell a command that can arrive: a term that no sender can frame is ill-formed. Every
other operand may take every value of its type, since the part judges it.
-/
namespace Sys2Proof

/-- What follows the kind byte of an order is as long as R176 asks, and a kind byte that has a layout is not spelled
as an unknown one. -/
def OrderFields.wellFormed : OrderFields → Bool
  | .rope _ _ => true
  | .net _ _ => true
  | .unknown kind rest => kind != 0x01#8 && kind != 0x02#8 && unknownOrderLength rest.length

/-- The items of AMEND PIECE fit in a frame of 5 to 15 field bytes (11-1.1). -/
def itemsWellFormed (items : List AmendItem) : Bool := decide ((itemsBytes items).length ≤ 10)

/-- The bytes of a request span are judged malformed (R170). -/
def malformedSpan (bytes : List Byte) : Bool :=
  match judgeSpan 0 bytes with
  | .malformed _ _ => true
  | .ignored | .readSpan | .request _ => false

/-- A run of characters that ends one frame at its last character, from a given state of the receiver (R143). -/
def endsOneFrame (r : Machine.Receiver) : List PackChar → Bool
  | [] => false
  | c :: cs =>
    match Machine.rxChar r c with
    | .going r' => endsOneFrame r' cs
    | .discard => cs.isEmpty
    | .frame _ => cs.isEmpty

/-- The command can be framed by its sender. -/
def Instr.wellFormed : Instr → Bool
  | .loadOrder _ _ _ fields => fields.wellFormed
  | .amendPiece _ _ _ _ items => itemsWellFormed items
  | .malformedFrame _ bytes => malformedSpan bytes
  | .packFrameDiscard _ chars => endsOneFrame .hunting chars
  | .identify .. | .enterConfig .. | .leaveConfig .. | .setParameter .. | .getParameter .. | .partClear ..
  | .readOrder .. | .retireOrder .. | .bind .. | .unbind .. | .start .. | .halt .. | .clearFault ..
  | .readStation .. | .readPiece .. | .findPieces .. | .retirePiece .. | .readMends .. | .mend .. | .poll ..
  | .takeNotice .. | .setMask .. | .readSpan .. | .packNext .. | .packWeigh .. | .packPacked .. | .packAside ..
  | .packQuery .. | .flyerMark .. | .countArrival .. | .strandOutAssertion .. | .strandOutRelease .. | .rowIndex ..
  | .senseWord .. | .cutDone .. | .resetAssert .. | .resetRelease .. | .powerOn .. | .stallTimerExpiry ..
  | .rowStallTimerExpiry .. | .cutTimerExpiry .. | .scaleTimerExpiry .. | .linkSilenceExpiry .. | .ageingOut ..
  | .laneGapExpiry .. | .anyGapExpiry .. | .grantListDrop .. | .laneTimeAbsent .. | .demandPulse ..
  | .permitPulseToggle .. | .packAnswerSent .. | .spanFirstByte .. => true

end Sys2Proof
end

