-- ==== Sys2Proof/Certificates/Slice0/Obligations.lean ====
section
/-!
DEFINITION. The statements for the provers. Each docstring names the rules of spec/ it formalises, and the assumption
wherever it rests on a choice of the model.
-/
open Sys2Proof Sys2Proof.Machine

/-! ### The queue and time -/

/-- The command at the front of the queue is taken, with the rest of the queue left waiting. The queue is the model's
(assumption 15). -/
def Obligations.StepTakesFrontCommand : Prop :=
  ∀ (c : Instr) (s : State) (rest : List Instr), s.pending = c :: rest → step s = exec c { s with pending := rest }

/-- With no command waiting a microsecond passes and nothing else happens (assumption 4). Every command leaves the
queue behind it alone (assumption 15); and through every command but POWER_ON, a line reset included, both clocks run
without pause from the same instant (R1, assumption 2), the part clock a thousandth as fast. -/
def Obligations.EveryStepLetsTimePass : Prop :=
  (∀ s : State, s.pending = [] → s.clocks.phase < 1000 →
    step s = .next { s with clocks :=
      if s.clocks.phase = 999 then ⟨s.clocks.mark + 1, s.clocks.part + 1, 0⟩
      else ⟨s.clocks.mark + 1, s.clocks.part, s.clocks.phase + 1⟩ }) ∧
  (∀ (c : Instr) (s t : State), exec c s = .next t → t.pending = s.pending) ∧
  ∀ (c : Instr) (s t : State), exec c s = .next t → (∀ dt, c ≠ .powerOn dt) →
    t.clocks.phase < 1000 ∧
    ∃ d, c.time ≤ d ∧ t.clocks.mark = s.clocks.mark + BitVec.ofNat 32 d ∧
      t.clocks.part = s.clocks.part + BitVec.ofNat 32 ((s.clocks.phase + d) / 1000) ∧
      t.clocks.phase = (s.clocks.phase + d) % 1000

/-! ### Power and reset -/

/-- The part after power-on, as far as the spec gives it: every record, set, list, queue and slot empty, every timer
disarmed, the counters and modes at their values (R1, R3, R9, R29, R49, R69, R89, R127, R128, R160, R167, R175), and
every parameter at its default (R23, R50, R67, R88, R125, R128, R147, R157, R159, R163). POWER_ON brings the whole part
to that state, whatever it held; the levels on the input lines and the commands that wait are not the part's to reset
(assumption 5). The fields of the model's own, the readings no rule gives a value and the request span in progress have
the model's value (assumptions 22, 25 and 39). -/
def Obligations.PowerOnGivesTheInitialState : Prop :=
  (∀ (s : State) (dt : Nat),
    exec (.powerOn dt) s = .next { State.reset with pins := s.pins, pending := s.pending }) ∧
  State.reset.clocks.mark = 0 ∧ State.reset.clocks.part = 0 ∧
  State.reset.params =
    { lay := Vector.replicate 8
        { marks := 1, markEdge := .rising, source := .capstan, capScale := 10000, meterScale := 0
          capSense := .normal, meterSense := .normal, drive := 10000, fMax := 50000, fStart := 0, tau := 500
          tMin := 2000, tMax := 2000000, rMax := 4, slipSpan := 10, slipLimit := 30, strandEdge := .rising }
      loom := { rowEdge := .rising, knotLevel := .high, rowTime := 5000 }
      station := Vector.replicate 9 { lane := .a, cutEdge := .rising }
      part :=
        { kWin := 4, tWin := 60, laneGap := 20, anyGap := 5, cutTimeout := 30, lowWater := 8, scaleTimeout := 120
          queueHigh := 6, queueLow := 3, packRate := 19200
          reactions := #v[.trip, .trip, .hold, .hold, .note, .hold, .hold, .hold, .trip, .hold, .hold, .hold, .hold,
            .trip, .hold, .trip]
          permitMode := .static, linkTime := 0
          classes := #v[.urgent, .urgent, .urgent, .urgent, .urgent, .urgent, .urgent, .urgent, .urgent, .urgent,
            .urgent, .urgent, .urgent, .urgent, .urgent, .urgent, .routine, .routine, .routine, .routine, .routine,
            .routine, .routine, .routine, .routine] } } ∧
  (∀ k, State.reset.orderAt k = none) ∧
  (∀ n, (State.reset.station n).state = .unbound ∧ (State.reset.station n).order = none ∧
    (State.reset.station n).reasons = ⟨false, false, false⟩ ∧ (State.reset.station n).piece = none ∧
    State.reset.cutStatus n = .none ∧ State.reset.permitLevel n = false ∧ State.reset.holdOn n = false ∧
    State.reset.cutOn n = false ∧ State.reset.cutTimer n = none ∧ State.reset.faults n = ⟨0, none⟩) ∧
  (∀ l, State.reset.lay l = ⟨none, ⟨none, [], 0, 0, true, 0, 0, false⟩, 0, none, none, 0, 0, 0⟩) ∧
  State.reset.inspector = ⟨none, none, Vector.replicate 64 0, none, [], 0, 0, 0⟩ ∧
  State.reset.arbiter = ⟨[], [], none, none, 0, 0, Vector.replicate 9 none⟩ ∧
  (∀ i, State.reset.record i = none) ∧ State.reset.table.nextSerial = 1 ∧ State.reset.table.lowArmed = true ∧
  State.reset.figure = 64 ∧
  State.reset.pack.queue = [] ∧ State.reset.pack.scale = none ∧ State.reset.pack.scaleTimer = none ∧
  State.reset.pack.highArmed = true ∧ State.reset.pack.framing = 0 ∧ State.reset.pack.receiver = .hunting ∧
  State.reset.pack.tx = [] ∧ State.reset.pack.rate = 19200 ∧ State.reset.collector.linkTimer = none ∧
  (∀ slot k, State.reset.noticeCount slot k = 0) ∧ State.reset.notices.mask = 0 ∧
  State.reset.noticeOutput = false ∧ State.reset.port.mode = .config ∧ State.reset.port.cause = .powerOn ∧
  State.reset.port.response = none ∧ State.reset.port.ready = false

/-- What a line reset keeps and what it clears, block by block (R20, R47, R66, R87, R106, R127, R146, R160, R167,
R175), for both its causes: RESET_ASSERT of a released RESET input, and PART CLEAR. The low-warning flag and the
high-queue flag are armed and then tested (R125, R142), each with its notice. RESET_ASSERT drops a request span in
progress (R175); PART CLEAR is itself the request whose span ends. -/
def Obligations.LineResetKeepsTheWork : Prop :=
  ∀ (s : State) (dt : Nat) (tag : Byte), s.pins.reset = false →
    ∃ t : ResetCause → State,
      exec (.resetAssert dt) s = .next { t .pin with
        pins := { s.pins with reset := true }
        port := { (t .pin).port with span := if s.port.span = .begun then .dropped else s.port.span } } ∧
      (s.port.span ≠ .dropped →
        exec (.partClear dt tag) s = .next ((t .clear).responded tag s.unread .ok [])) ∧
      ∀ c,
        (t c).clocks = (s.elapse dt).clocks ∧ (t c).params = s.params ∧ (t c).orders = s.orders ∧
        (∀ n, ((t c).station n).state = (if (s.station n).state = .unbound then .unbound else .ready) ∧
          ((t c).station n).order = (s.station n).order ∧ ((t c).station n).reasons = ⟨false, false, false⟩ ∧
          ((t c).station n).piece = (s.station n).piece ∧ (t c).permitLevel n = false) ∧
        (∀ l, (t c).lay l = { s.lay l with
          tracker := ⟨none, [], 0, 0, true, 0, 0, false⟩, demand := 0, stall := none, lastPulse := none,
          slipCap := 0, slipMeter := 0 }) ∧
        (t c).inspector = { s.inspector with
          awaiting := none, previous := none, hookMiss := Vector.replicate 64 0, rowTimer := none } ∧
        (t c).arbiter = { s.arbiter with
          waiting := [], reservedRecords := 0, reservedPlaces := 0, cutTimers := Vector.replicate 9 none } ∧
        (t c).table.nextSerial = s.table.nextSerial ∧
        (t c).table.lowArmed = decide (s.params.part.lowWater < s.freeCount) ∧
        (∀ i, (t c).record i = if s.unweighed = some i
          then (s.record i).map fun p => { p with state := .queued } else s.record i) ∧
        (t c).pack.queue = s.unweighed.toList ++ s.pack.queue ∧
        (t c).pack.scale = (if s.unweighed.isSome then none else s.pack.scale) ∧
        (t c).pack.scaleTimer = none ∧ (t c).pack.receiver = .hunting ∧ (t c).pack.tx = [] ∧
        (t c).pack.framing = s.pack.framing ∧ (t c).pack.rate = s.pack.rate ∧
        (t c).pack.highArmed =
          decide ((s.unweighed.toList ++ s.pack.queue).length < s.params.part.queueHigh) ∧
        (∀ n, (t c).faults n = ⟨0, none⟩) ∧ (t c).collector.linkTimer = none ∧
        (t c).notices.mask = s.notices.mask ∧
        (∀ slot k, (t c).noticeCount slot k =
          if slot = partSlot ∧ k = NoticeKind.tableLow.index ∧ s.freeCount ≤ s.params.part.lowWater then 1
          else if slot = partSlot ∧ k = NoticeKind.packQueueHigh.index ∧
            s.params.part.queueHigh ≤ (s.unweighed.toList ++ s.pack.queue).length then 1
          else 0) ∧
        (t c).port.mode = s.port.mode ∧ (t c).port.cause = c ∧ (t c).port.response = none ∧
        (t c).port.ready = false ∧ (t c).port.span = s.port.span ∧ (t c).pins = s.pins ∧ (t c).pending = s.pending

/-- While RESET stays asserted no span, no pack port character and no input arrival is taken: time passes (R175), and
the port knows no more of a span that ends than that it is over. The levels of the strand-out and encoder lines still
follow their wires (assumption 5), and a further RESET_ASSERT changes nothing (assumption 19); when RESET is released
nothing else changes. A request span that is in progress when RESET is asserted is dropped: its end after the release is
not taken, and no response is prepared for it (R175). That a span begun while RESET is held is dropped too, and that a
read span ends it, is assumption 39. -/
def Obligations.HeldResetTakesNothing : Prop :=
  (∀ (c : Instr) (s : State), c.endsRequestSpan = true → s.pins.reset = false → s.port.span = .begun →
    ∀ a b, ∃ t u : State, exec (.resetAssert a) s = .next t ∧ exec (.resetRelease b) t = .next u ∧
      u.port.response = none ∧ u.port.ready = false ∧
      exec c u = .next { u.elapse c.time with port := { u.port with span := .idle } }) ∧
  (∀ (c : Instr) (s : State), c.endsRequestSpan = true → s.port.span = .dropped →
    exec c s = .next { s.elapse c.time with port := { s.port with span := .idle } }) ∧
  ∀ (c : Instr) (s : State), s.pins.reset = true →
    (c.dropsInReset = true → exec c s = .next (s.elapse c.time)) ∧
    (c.endsRequestSpan = true ∨ (∃ dt n, c = .readSpan dt n) →
      exec c s = .next { s.elapse c.time with port := { s.port with span := .idle } }) ∧
    (∀ dt, exec (.spanFirstByte dt) s =
      .next { s.elapse dt with port := { s.port with span := .dropped } }) ∧
    (∀ dt l enc a b, exec (.countArrival dt l enc a b) s = .next ((s.elapse dt).setLines l enc ⟨a, b⟩)) ∧
    (∀ dt l j, exec (.strandOutAssertion dt l j) s =
      .next ((s.elapse dt).setStrand l j (assertLevel (s.layParams l).strandEdge))) ∧
    (∀ dt, exec (.resetAssert dt) s = .next (s.elapse dt)) ∧
    ∀ dt, exec (.resetRelease dt) s =
      .next { s.elapse dt with pins := { s.pins with reset := false } }

/-! ### The host port -/

/-- A response's bytes are its tag, its status code with PRIOR_UNREAD in bit 7, the number of its fields, and the fields
(11-1, 11-1.2, R176); PRIOR_UNREAD is set where a response was pending and unread (R169). READ_SPAN (R169): a span that
shifts out every byte of the pending response reads it, a shorter one leaves it, and one with no response pending shifts
out NO_RESPONSE and changes nothing. SPAN_FIRST_BYTE lets READY fall, and a request span is in progress from then to the
request that ends it (R168); a read span leaves none in progress (assumption 39). What was shifted out is recorded for
the reader, a field of the model's own (assumption 22); that a span longer than the response, or than the three bytes of
NO_RESPONSE, adds nothing to it is the model's choice (assumption 36). The answer to a well-formed request replaces the
pending response, READY rises, and the link silence timer is restarted or left disarmed (R157, R168, R169). -/
def Obligations.ResponsesAreReadOnce : Prop :=
  (∀ r : Response, r.bytes =
    [r.tag, statusCode r.status + (if r.prior then 0x80#8 else 0x00#8), BitVec.ofNat 8 r.fields.length] ++
      r.fields) ∧
  (∀ e ∈ ([(.ok, 0x00#8), (.clamped, 0x01#8), (.empty, 0x02#8), (.noResponse, 0x03#8), (.badRequest, 0x04#8),
      (.badLength, 0x05#8), (.wrongMode, 0x06#8), (.busy, 0x07#8), (.notBound, 0x08#8), (.noSuchOrder, 0x09#8),
      (.orderInUse, 0x0A#8), (.wrongKind, 0x0B#8), (.noFreePiece, 0x0C#8), (.stalePiece, 0x0D#8),
      (.wrongState, 0x0E#8), (.faultPending, 0x0F#8), (.conditionPresent, 0x10#8), (.notFound, 0x11#8),
      (.tooLate, 0x12#8), (.scaleOccupied, 0x13#8), (.gradeReject, 0x14#8)] : List (Status × Byte)),
    statusCode e.1 = e.2) ∧
  (∀ s : State, s.unread = true ↔ ∃ r, s.port.response = some r) ∧
  (∀ (s : State) (tag : Byte) (prior : Bool) (status : Status) (fields : List Byte),
    s.responded tag prior status fields =
      { s with
        port := { s.port with response := some ⟨tag, status, prior, fields⟩, ready := true, span := .idle }
        collector := { s.collector with
          linkTimer := if s.params.part.linkTime = 0 then none
            else some ⟨s.clocks.part, s.params.part.linkTime⟩ } }) ∧
  ∀ (s : State) (dt n : Nat), s.pins.reset = false →
    (∀ r, s.port.response = some r → r.fields.length + 3 ≤ n →
      exec (.readSpan dt n) s = .next { s.elapse dt with
        port := { s.port with response := none, ready := false, span := .idle, shifted := r.bytes } }) ∧
    (∀ r, s.port.response = some r → n < r.fields.length + 3 →
      exec (.readSpan dt n) s = .next { s.elapse dt with
        port := { s.port with span := .idle, shifted := r.bytes.take n } }) ∧
    (s.port.response = none →
      exec (.readSpan dt n) s = .next { s.elapse dt with
        port := { s.port with span := .idle, shifted := [0x00#8, 0x03#8, 0x00#8].take n } }) ∧
    exec (.spanFirstByte dt) s = .next { s.elapse dt with port := { s.port with ready := false, span := .begun } }

/-- MALFORMED_FRAME (R170, R176): the answer carries the tag and no fields, and nothing outside the host port changes,
so the link silence timer is not restarted. An unknown code is BAD_REQUEST. A known one is BAD_LENGTH where the span
falls short of three bytes, where its fields are not as many as its length byte says, and where 11-1.1 does not give
that length for the code, in LOAD ORDER by its kind byte. In an AMEND PIECE of an allowed length the walk over its items
answers BAD_REQUEST for an item code outside 01h to 05h and BAD_LENGTH for an item whose value runs past the end. -/
def Obligations.MalformedFrameTouchesPortOnly : Prop :=
  ∀ (s : State) (dt : Nat), s.pins.reset = false → s.port.span ≠ .dropped →
    let answered (tag : Byte) (status : Status) : Host.Outcome State Fault Refusal :=
      .next { s.elapse dt with
        port := { s.port with response := some ⟨tag, status, s.unread, []⟩, ready := true, span := .idle } }
    (∀ bytes : List Byte, malformedSpan bytes = true → ∃ tag status,
      exec (.malformedFrame dt bytes) s = answered tag status ∧
      tag = (bytes.drop 1).headD 0 ∧ (status = .badRequest ∨ status = .badLength) ∧
      (bytes.headD 0 ∉ requestCodes → status = .badRequest) ∧
      (∀ code tag len fields, bytes = code :: tag :: len :: fields → code ∈ requestCodes →
        fields.length ≠ len.toNat → status = .badLength) ∧
      (bytes.headD 0 ∈ requestCodes → bytes.length < 3 → status = .badLength)) ∧
    (∀ e ∈ ([(0x01, [0]), (0x02, [0]), (0x03, [0]), (0x04, [7]), (0x05, [3]), (0x06, [0]), (0x10, [25, 26, 40]),
        (0x11, [1]), (0x12, [1]), (0x13, [2]), (0x14, [1]), (0x15, [1]), (0x16, [1]), (0x17, [1]), (0x18, [1]),
        (0x20, [1, 5]), (0x21, [4]), (0x22, [5, 6, 7, 8, 9, 10, 11, 12, 13, 14, 15]), (0x23, [5]), (0x28, [1]),
        (0x29, [2]), (0x30, [0]), (0x31, [1]), (0x32, [4])] : List (Byte × List Nat)),
      ∀ (tag : Byte) (fields : List Byte), fields.length ≤ 255 → fields.length ∉ e.2 →
        exec (.malformedFrame dt (e.1 :: tag :: BitVec.ofNat 8 fields.length :: fields)) s =
          answered tag .badLength) ∧
    (∀ (tag slot kind : Byte) (rest : List Byte),
      (kind = 0x01#8 ∧ rest.length ∈ [23, 24] ∨ kind = 0x02#8 ∧ rest.length = 38) →
        exec (.malformedFrame dt (0x10#8 :: tag :: BitVec.ofNat 8 (rest.length + 2) :: slot :: kind :: rest)) s =
          answered tag .badLength) ∧
    ∀ (tag number : Byte) (serial : Word32) (items : List AmendItem) (code : Byte) (rest : List Byte),
      let fields := number :: (bytes32 serial ++ (itemsBytes items ++ code :: rest))
      let amended := exec (.malformedFrame dt (0x22#8 :: tag :: BitVec.ofNat 8 fields.length :: fields)) s
      fields.length ≤ 15 →
      (code ∉ ([0x01#8, 0x02#8, 0x03#8, 0x04#8, 0x05#8] : List Byte) → amended = answered tag .badRequest) ∧
      (code = 0x01#8 → rest.length < 4 → amended = answered tag .badLength) ∧
      (code = 0x03#8 ∨ code = 0x04#8 → rest = [] → amended = answered tag .badLength)

/-- The requests that only read change nothing but the pending response and the link silence timer, and are answered:
GET PARAMETER, READ ORDER, READ STATION, READ PIECE, FIND PIECES, READ MENDS, POLL and IDENTIFY (R7, R19, R82, R118,
R119, R165, R173, R174), whatever bytes they carry. IDENTIFY gives its fields (R174), FIND PIECES the records that match
from its start number (R119), READ ORDER, READ STATION and READ PIECE the records of 11-2.1, 11-2.2 and 11-2.3 byte by
byte, high byte first and zeros, or FFh, while a field is absent (R7, R19, R118, R176), and a serial that is not the
record's is STALE_PIECE (R117). What FIND PIECES makes of an odd bitmap or start number is assumption 13, and how an
absent piece or extent of a first fault is returned is assumption 18. -/
def Obligations.ReadingRequestsChangeNothing : Prop :=
  let bits (flags : List Bool) : Byte := BitVec.ofNat 8 (flags.zipIdx.map fun f => if f.1 then 2 ^ f.2 else 0).sum
  let one (v : Nat) : List Byte := [BitVec.ofNat 8 v]
  let two (v : Nat) : List Byte := bytes16 (BitVec.ofNat 16 v)
  let four (v : Nat) : List Byte := bytes32 (BitVec.ofNat 32 v)
  (∀ w : Word16, bytes16 w = (List.range 2).map fun k => BitVec.ofNat 8 (w.toNat / 256 ^ (1 - k))) ∧
  (∀ w : Word32, bytes32 w = (List.range 4).map fun k => BitVec.ofNat 8 (w.toNat / 256 ^ (3 - k))) ∧
  (∀ w : BitVec 64, bytes64 w = (List.range 8).map fun k => BitVec.ofNat 8 (w.toNat / 256 ^ (7 - k))) ∧
  (∀ (s : State) (k : Fin 16),
    let usage := bytes16 (BitVec.ofNat 16 (((List.finRange 9).map fun n =>
        if (s.station n).order = some k then 2 ^ n.1 else 0).sum)) ++
      one ((List.finRange 64).countP fun i => decide ((s.record i).map (·.slot) = some k))
    s.orderBytes k = match s.orderAt k with
      | none => one k.1 ++ one 0 ++ usage
      | some o => one k.1 ++ one 1 ++ usage ++ match o.body with
        | .rope f => one 1 ++ bytes32 o.tag ++ four f.lay ++ one f.strands ++ four f.target ++ two f.allowance ++
          four f.density ++ four f.band ++ four f.drift ++ one f.persistence ++ two f.excA ++ two f.excB ++
          one f.spliceA ++ one f.spliceB ++ two f.tolA ++ two f.tolB
        | .net f => one 2 ++ bytes32 o.tag ++ one f.hooks ++ two f.rowTarget ++ two f.overrunRows ++ four f.rowMass ++
          two f.knotsA ++ two f.knotsB ++ two f.holesB ++ two f.tolA ++ two f.tolB ++ one f.deadRows) ∧
  (∀ (s : State) (n : Fin 9),
    let x := s.station n
    let opened : Option (Fin 64 × Piece) := x.piece.bind fun i => (s.record i).map fun p => (i, p)
    ∃ tail : List Byte, s.stationBytes n =
      one n.1 ++ one (match x.state with
        | .unbound => 0
        | .ready => 1
        | .running => 2
        | .holding => 3
        | .cutting => 4
        | .tripped => 5) ++
      [bits [x.order.isSome, opened.isSome, (s.faults n).first.isSome],
        bits [s.permitGiven n, s.holdOn n, s.cutOn n],
        bits [x.reasons.halted, x.reasons.fault, x.reasons.overrun]] ++
      one (if x.state = .cutting then 2 else if n ∈ s.arbiter.waiting then 1 else 0) ++
      (match x.order with
        | some k => one k.1 ++ bytes32 (((s.orderAt k).map (·.tag)).getD 0)
        | none => List.replicate 5 0) ++
      (match opened with
        | some (i, p) => one i.1 ++ bytes32 p.serial ++ four p.extent
        | none => List.replicate 9 0) ++
      bytes16 (s.faults n).set ++
      (match (s.faults n).first with
        | some f => one f.kind.code ++ bytes32 f.time ++
          (match f.piece with
            | some (i, serial) => one i.1 ++ bytes32 serial
            | none => List.replicate 5 0) ++
          four (f.extent.getD 0) ++ [match f.source with
            | some m => BitVec.ofNat 8 m.1
            | none => 0xFF]
        | none => List.replicate 14 0 ++ [0xFF]) ++ tail ∧
      (∀ l, n = ofLay l → tail = one (s.lay l).strandOut.toNat ++ four (s.lay l).demand ++
        bytes64 (BitVec.ofInt 64 (s.lay l).tracker.pos)) ∧
      (n = loom → tail = [bits [s.inspector.awaiting.isSome]])) ∧
  (∀ e ∈ ([(.opened, 1), (.queued, 2), (.atScale, 3), (.weighed, 4), (.packed, 5), (.aside, 6)] :
    List (PieceState × Byte)), e.1.code = e.2) ∧
  ([Grade.a, .b, .reject].map Grade.code = [0, 1, 2] ∧ [none, some Cap.b, some .reject].map capCode = [0, 1, 2] ∧
    [AsideReason.short, .packer, .reject].map AsideReason.code = [0, 1, 2]) ∧
  (∀ p : Piece,
    (p.readyFlag = true ↔ p.state = .queued ∧ p.hold = false ∧
      ∀ q, p.body = .panel q → q.unmended = 0 ∧ q.unlisted = 0) ∧
    (p.hasPacking = true ↔ p.weighing ≠ none ∨ p.packLabel ≠ none ∨ p.aside ≠ none) ∧
    p.packingBytes = if p.hasPacking then
        [bits [p.weighing.isSome, (p.weighing.bind (·.deviation)).isSome, p.packLabel.isSome, p.aside.isSome]] ++
        (match p.weighing with
          | some w => four w.weight ++ four w.expected ++ bytes32 (BitVec.ofInt 32 (w.deviation.getD 0)) ++
            [w.computed.code, w.grade.code]
          | none => List.replicate 14 0) ++
        bytes32 (p.packLabel.getD 0) ++ [(p.aside.map AsideReason.code).getD 0]
      else []) ∧
  (∀ (s : State) (i : Fin 64) (p : Piece),
    (p.state ≠ .queued → s.queuePosition i p = 0xFF) ∧
    ∀ before after, p.state = .queued → s.pack.queue = before ++ i :: after → i ∉ before →
      s.queuePosition i p = BitVec.ofNat 8 before.length) ∧
  (∀ (s : State) (i : Fin 64) (p : Piece), s.record i = some p →
    s.pieceBytes i =
      one i.1 ++ [p.state.code] ++ bytes32 p.serial ++
      one (match p.body with
        | .coil _ => 0
        | .panel _ => 1) ++ one p.station.1 ++ one p.slot.1 ++ bytes32 p.tag ++
      bytes32 p.openedAt ++ bytes32 (p.closedAt.getD 0) ++
      [bits [p.short, p.overrun, p.hold, p.closedAt.isSome, p.label.isSome, p.hasPacking, p.readyFlag,
        match p.body with
        | .coil c => c.worstSlip.isSome
        | .panel _ => false]] ++
      bytes32 (p.label.getD 0) ++ [capCode p.cap, s.queuePosition i p] ++
      (match p.body with
        | .coil c => four (c.length.toNat / 1000000) ++ four c.quality.worst ++ two c.quality.excursions ++
          two c.quality.inserted ++ two c.quality.reverse ++ bytes32 (BitVec.ofInt 32 (c.worstSlip.getD 0)) ++
          two c.spliceOverflow ++ four (c.splices.length + c.spliceOverflow) ++ one c.splices.length ++
          c.splices.flatMap fun x => four x.length ++ one x.strand
        | .panel q => two q.rows ++ two q.knots ++ two q.holes ++ two q.unlisted ++ two q.unsensed ++
          two q.unmended ++ two q.mended ++ two q.waived) ++ p.packingBytes) ∧
  ∀ (s : State) (dt : Nat) (tag : Byte), s.pins.reset = false → s.port.span ≠ .dropped →
    (∀ k : Fin 16, exec (.readOrder dt tag (BitVec.ofNat 8 k.1)) s =
      .next (s.answeredOnly dt tag .ok (s.orderBytes k))) ∧
    (∀ a b c, ∃ st fs, exec (.getParameter dt tag a b c) s = .next (s.answeredOnly dt tag st fs)) ∧
    (∀ a, ∃ st fs, exec (.readOrder dt tag a) s = .next (s.answeredOnly dt tag st fs)) ∧
    (∀ a, ∃ st fs, exec (.readStation dt tag a) s = .next (s.answeredOnly dt tag st fs)) ∧
    (∀ a v, ∃ st fs, exec (.readPiece dt tag a v) s = .next (s.answeredOnly dt tag st fs)) ∧
    (∀ a b c d, ∃ st fs, exec (.findPieces dt tag a b c d) s = .next (s.answeredOnly dt tag st fs)) ∧
    (∀ a, ∃ st fs, exec (.readMends dt tag a) s = .next (s.answeredOnly dt tag st fs)) ∧
    (∃ st fs, exec (.poll dt tag) s = .next (s.answeredOnly dt tag st fs)) ∧
    exec (.identify dt tag) s = .next (s.answeredOnly dt tag .ok
      ([0x3A#8, 0x61#8, 0x01#8, s.port.cause.code, s.port.mode.code] ++ bytes32 s.table.nextSerial ++
        bytes16 (BitVec.ofNat 16 s.pack.framing) ++ bytes32 (s.elapse dt).clocks.part)) ∧
    (∀ k : Fin 16, s.orderAt k = none → s.slotInUse k = false →
      exec (.readOrder dt tag (BitVec.ofNat 8 k.1)) s =
        .next (s.answeredOnly dt tag .ok [BitVec.ofNat 8 k.1, 0, 0, 0, 0])) ∧
    (∀ i : Fin 64, s.record i = none →
      exec (.readPiece dt tag (BitVec.ofNat 8 i.1) none) s =
        .next (s.answeredOnly dt tag .ok [BitVec.ofNat 8 i.1, 0])) ∧
    (∀ (i : Fin 64) p, s.record i = some p →
      exec (.readPiece dt tag (BitVec.ofNat 8 i.1) none) s = .next (s.answeredOnly dt tag .ok (s.pieceBytes i)) ∧
      exec (.readPiece dt tag (BitVec.ofNat 8 i.1) (some p.serial)) s =
        .next (s.answeredOnly dt tag .ok (s.pieceBytes i))) ∧
    (∀ (i : Fin 64) v, (∀ p, s.record i = some p → p.serial ≠ v) →
      exec (.readPiece dt tag (BitVec.ofNat 8 i.1) (some v)) s = .next (s.answeredOnly dt tag .stalePiece [])) ∧
    (∀ n : Fin 9, (s.stationBytes n).length = (if n = loom then 38 else 50) ∧
      exec (.readStation dt tag (BitVec.ofNat 8 n.1)) s = .next (s.answeredOnly dt tag .ok (s.stationBytes n))) ∧
    ∀ (x : Search) (first : Fin 64),
      let found := (List.finRange 64).filter (s.matches x)
      let later := found.filter fun i => first.1 ≤ i.1
      exec (.findPieces dt tag x.states (match x.station with
          | some n => BitVec.ofNat 8 n.1
          | none => 0xFF) (match x.slot with
          | some k => BitVec.ofNat 8 k.1
          | none => 0xFF) (BitVec.ofNat 8 first.1)) s =
        .next (if later = [] then s.answeredOnly dt tag .empty [BitVec.ofNat 8 found.length, 0, 0xFF]
          else s.answeredOnly dt tag .ok ([BitVec.ofNat 8 found.length, BitVec.ofNat 8 (min 32 later.length),
            if later.length ≤ 32 then 0xFF else BitVec.ofNat 8 (((later.take 32).getLastD first).1 + 1)] ++
            (later.take 32).flatMap s.foundBytes))

/-- ENTER_CONFIG and LEAVE_CONFIG (R171, R172): where each changes nothing, where ENTER CONFIG is BUSY, and what
LEAVE CONFIG does: the four cross-checks, the mode, the constants, the slip advances, the pack port, and the two
tests. That clearing the pack port receiver drops the answers not yet sent is assumption 35. -/
def Obligations.ModeRequestsChangeMode : Prop :=
  ∀ (s : State) (dt : Nat) (tag : Byte), s.pins.reset = false → s.port.span ≠ .dropped →
    (s.port.mode = .config → exec (.enterConfig dt tag) s = .next (s.answeredOnly dt tag .ok [])) ∧
    (s.port.mode = .operate →
      (∃ n, (s.station n).state = .running ∨ (s.station n).state = .holding ∨ (s.station n).state = .cutting) →
      exec (.enterConfig dt tag) s = .next (s.answeredOnly dt tag .busy [])) ∧
    (s.port.mode = .operate →
      (∀ n, (s.station n).state = .unbound ∨ (s.station n).state = .ready ∨ (s.station n).state = .tripped) →
      exec (.enterConfig dt tag) s =
        .next (({ s.elapse dt with port := { s.port with mode := .config } } : State).responded tag s.unread
          .ok [])) ∧
    (s.port.mode = .operate → exec (.leaveConfig dt tag) s = .next (s.answeredOnly dt tag .ok [])) ∧
    (s.port.mode = .config → ∃ t : State,
      exec (.leaveConfig dt tag) s =
        .next (t.lowTest.highTest.responded tag s.unread (if t.params = s.params then .ok else .clamped) []) ∧
      t.port = { s.port with mode := .operate } ∧
      (∀ l, t.layParams l = { s.layParams l with
        tMax := if (s.layParams l).tMin < (s.layParams l).tMax then (s.layParams l).tMax
          else (s.layParams l).tMin + 1000
        fStart := min (s.layParams l).fStart (s.layParams l).fMax }) ∧
      t.params.part = { s.params.part with
        anyGap := min s.params.part.anyGap s.params.part.laneGap
        queueLow := if s.params.part.queueLow < s.params.part.queueHigh then s.params.part.queueLow
          else s.params.part.queueHigh - 1 } ∧
      t.params.loom = s.params.loom ∧ t.params.station = s.params.station ∧
      (∀ l, t.lay l = { s.lay l with
        consts := match s.rope (ofLay l) with
          | some f => some ⟨roundDiv (f.lay * 1000) (s.layParams l).marks, 4 * f.lay * 1000⟩
          | none => (s.lay l).consts
        slipCap := if (s.layParams l).meterScale = 0 then 0 else (s.lay l).slipCap
        slipMeter := if (s.layParams l).meterScale = 0 then 0 else (s.lay l).slipMeter }) ∧
      t.pack = { s.pack with rate := s.params.part.packRate, receiver := .hunting, tx := [] } ∧
      t = { s.elapse dt with params := t.params, lays := t.lays, pack := t.pack, port := t.port })

/-- SET_PARAMETER and GET_PARAMETER (R173): WRONG_MODE in OPERATE; BAD_REQUEST where the identifier, station or kind
names no parameter of 11-1.1, or the value is none of its codes; otherwise the parameter is stored and reads back as it
was stored, CLAMPED where another value was stored or R24 returned the source to CAPSTAN, and no other parameter is
changed but that source. A number is stored as the nearest limit of its range (R23, R50, R67, R88, R125, R128, R157);
METER without a metering scale is CAPSTAN (R24), a reaction is raised to its floor, and PEER_TRIP's is TRIP (R148). -/
def Obligations.ParametersReadBackAsStored : Prop :=
  (∀ (s : State) (dt : Nat) (tag ident station kind : Byte) (value : Word32),
    s.pins.reset = false → s.port.span ≠ .dropped →
    (s.port.mode = .operate → exec (.setParameter dt tag ident station kind value) s =
      .next (s.answeredOnly dt tag .wrongMode [])) ∧
    (paramRef ident station kind = none →
      exec (.getParameter dt tag ident station kind) s = .next (s.answeredOnly dt tag .badRequest []) ∧
      (s.port.mode = .config → exec (.setParameter dt tag ident station kind value) s =
        .next (s.answeredOnly dt tag .badRequest []))) ∧
    ∀ ref, paramRef ident station kind = some ref →
      exec (.getParameter dt tag ident station kind) s =
        .next (s.answeredOnly dt tag .ok (bytes32 (BitVec.ofNat 32 (ref.read s.params)))) ∧
      (ref.store value.toNat s.params = none → s.port.mode = .config →
        exec (.setParameter dt tag ident station kind value) s = .next (s.answeredOnly dt tag .badRequest [])) ∧
      ∀ r, ref.store value.toNat s.params = some r → s.port.mode = .config →
        exec (.setParameter dt tag ident station kind value) s =
          .next (({ s.elapse dt with params := r.value } : State).responded tag s.unread
            (if r.clamped then .clamped else .ok) (bytes32 (BitVec.ofNat 32 r.number)))) ∧
  (∀ (ref : ParamRef) (v : Nat) (x : Params) (r : Stored Params), ref.store v x = some r →
    ref.read r.value = r.number ∧
    (∀ other, other ≠ ref → (∀ n, ¬ (ref = .lay n .meterScale ∧ v = 0 ∧ other = .lay n .source)) →
      other.read r.value = other.read x) ∧
    (r.clamped = true ↔
      r.number ≠ v ∨ ∃ n : Fin 8, ref = .lay n .meterScale ∧ v = 0 ∧ x.lay[n].source = .meter)) ∧
  (∀ station kind : Byte,
    (∀ (n : Fin 8), ∀ e ∈ ([(0x01, .marks), (0x02, .markEdge), (0x03, .source), (0x04, .capScale),
        (0x05, .meterScale), (0x06, .capSense), (0x07, .meterSense), (0x08, .drive), (0x09, .fMax), (0x0A, .fStart),
        (0x0B, .tau), (0x0C, .tMin), (0x0D, .tMax), (0x0E, .rMax), (0x0F, .slipSpan), (0x10, .slipLimit),
        (0x11, .strandEdge)] : List (Byte × LayParam)),
      paramRef e.1 (BitVec.ofNat 8 n.1) kind = some (.lay n e.2)) ∧
    (∀ e ∈ ([(0x12, .rowEdge), (0x13, .knotLevel), (0x14, .rowTime)] : List (Byte × LoomParam)),
      paramRef e.1 8 kind = some (.loom e.2)) ∧
    (∀ n : Fin 9, paramRef 0x15 (BitVec.ofNat 8 n.1) kind = some (.station n .lane) ∧
      paramRef 0x16 (BitVec.ofNat 8 n.1) kind = some (.station n .cutEdge)) ∧
    (∀ e ∈ ([(0x17, .kWin), (0x18, .tWin), (0x19, .laneGap), (0x1A, .anyGap), (0x1B, .cutTimeout), (0x1C, .lowWater),
        (0x1D, .scaleTimeout), (0x1E, .queueHigh), (0x1F, .queueLow), (0x20, .packRate), (0x22, .permitMode),
        (0x23, .linkTime)] : List (Byte × PartParam)),
      paramRef e.1 station kind = some (.part e.2)) ∧
    (∀ k : FaultKind, paramRef 0x21 station (BitVec.ofNat 8 k.code) = some (.reaction k)) ∧
    (∀ k : Fin 25, paramRef 0x24 station (BitVec.ofNat 8 (k.1 + 1)) = some (.class k)) ∧
    ∀ ident : Byte,
      (ident.toNat = 0 ∨ 0x24 < ident.toNat → paramRef ident station kind = none) ∧
      (1 ≤ ident.toNat → ident.toNat ≤ 0x11 → 8 ≤ station.toNat → paramRef ident station kind = none) ∧
      (0x12 ≤ ident.toNat → ident.toNat ≤ 0x14 → station ≠ 8 → paramRef ident station kind = none) ∧
      (0x15 ≤ ident.toNat → ident.toNat ≤ 0x16 → 9 ≤ station.toNat → paramRef ident station kind = none) ∧
      (ident = 0x21 → kind = 0 ∨ 16 < kind.toNat → paramRef ident station kind = none) ∧
      (ident = 0x24 → kind = 0 ∨ 25 < kind.toNat → paramRef ident station kind = none)) ∧
  (∀ v (x : Params) (n : Fin 8), ∀ e ∈ ([(.marks, 1, 16), (.capScale, 50, 1000000), (.drive, 100, 1000000),
      (.fMax, 1, 250000), (.fStart, 0, 250000), (.tau, 10, 10000), (.tMin, 100, 1000000), (.tMax, 1000, 10000000),
      (.rMax, 1, 32), (.slipSpan, 1, 1000), (.slipLimit, 1, 500)] : List (LayParam × Nat × Nat)),
    ∃ r, (ParamRef.lay n e.1).store v x = some r ∧ r.number = max e.2.1 (min e.2.2 v)) ∧
  (∀ v (x : Params) (n : Fin 8), ∃ r, (ParamRef.lay n .meterScale).store v x = some r ∧
    r.number = (if v = 0 then 0 else max 50 (min 1000000 v)) ∧
    r.value.lay[n].source = if v = 0 then .capstan else x.lay[n].source) ∧
  (∀ v (x : Params) (n : Fin 8), ((ParamRef.lay n .source).store v x = none ↔ 2 ≤ v) ∧
    (v < 2 → ∃ r, (ParamRef.lay n .source).store v x = some r ∧
      r.number = if x.lay[n].meterScale = 0 then 0 else v)) ∧
  (∀ v (x : Params), ∃ r, (ParamRef.loom .rowTime).store v x = some r ∧ r.number = max 100 (min 60000 v)) ∧
  (∀ v (x : Params), ∀ e ∈ ([(.kWin, 1, 8), (.tWin, 1, 600), (.laneGap, 0, 120), (.anyGap, 0, 60),
      (.cutTimeout, 1, 120), (.lowWater, 0, 32), (.scaleTimeout, 10, 600), (.queueHigh, 1, 8), (.queueLow, 0, 7),
      (.packRate, 9600, 115200)] : List (PartParam × Nat × Nat)),
    ∃ r, (ParamRef.part e.1).store v x = some r ∧ r.number = max e.2.1 (min e.2.2 v)) ∧
  (∀ v (x : Params), ∃ r, (ParamRef.part .linkTime).store v x = some r ∧
    r.number = if v = 0 then 0 else max 50 (min 10000 v)) ∧
  (∀ v (x : Params) (ref : ParamRef),
    ((∃ n p, ref = .lay n p ∧ p ∈ [LayParam.markEdge, .capSense, .meterSense, .strandEdge]) ∨
      (∃ p, ref = .loom p ∧ p ∈ [LoomParam.rowEdge, .knotLevel]) ∨ (∃ n p, ref = .station n p) ∨
      ref = .part .permitMode ∨ ∃ k, ref = .class k) →
    (ref.store v x = none ↔ 2 ≤ v) ∧ ∀ r, ref.store v x = some r → r.number = v) ∧
  ∀ v (x : Params), ∀ e ∈ ([(.flyerStall, 1), (.flyerOverspeed, 1), (.markLoss, 0), (.layDrift, 0), (.laySaturated, 0),
      (.reverseRun, 0), (.strandOut, 1), (.slip, 0), (.cutTimeout, 1), (.hole, 0), (.deadHook, 1), (.mendOverflow, 1),
      (.senseMissing, 0), (.rowStall, 1), (.linkLost, 1), (.peerTrip, 2)] : List (FaultKind × Nat)),
    ((ParamRef.reaction e.1).store v x = none ↔ 4 ≤ v) ∧
    (v < 4 → ∃ r, (ParamRef.reaction e.1).store v x = some r ∧
      r.number = if e.1 = .peerTrip then 2 else max e.2 v)

/-! ### Orders -/

/-- LOAD_ORDER (R4, R5, R6): both passes over the fields of either kind, CLAMPED where a pass changed a value; and
the two refusals. A slot above 15 is BAD_REQUEST; that an unknown kind is BAD_REQUEST even where the slot is in use,
before ORDER_IN_USE is judged, is the model's choice (assumption 11). Dead-hook rows left out are 4. RETIRE_ORDER (R8):
BAD_REQUEST for a slot above 15, NO_SUCH_ORDER for an EMPTY slot, ORDER_IN_USE for one that a bound station or a piece
names, otherwise the slot is EMPTY. -/
def Obligations.OrdersAreLoadedAndRetired : Prop :=
  ∀ (s : State) (dt : Nat) (tag : Byte) (slot : Fin 16), s.pins.reset = false → s.port.span ≠ .dropped →
    (∀ b fields, 16 ≤ b.toNat →
      exec (.loadOrder dt tag b fields) s = .next (s.answeredOnly dt tag .badRequest []) ∧
      exec (.retireOrder dt tag b) s = .next (s.answeredOnly dt tag .badRequest [])) ∧
    (∀ kind rest, exec (.loadOrder dt tag (BitVec.ofNat 8 slot.1) (.unknown kind rest)) s =
      .next (s.answeredOnly dt tag .badRequest [])) ∧
    (∀ v f, s.slotInUse slot = true → exec (.loadOrder dt tag (BitVec.ofNat 8 slot.1) (.rope v f)) s =
      .next (s.answeredOnly dt tag .orderInUse [])) ∧
    (∀ v f, s.slotInUse slot = true → exec (.loadOrder dt tag (BitVec.ofNat 8 slot.1) (.net v f)) s =
      .next (s.answeredOnly dt tag .orderInUse [])) ∧
    (s.slotInUse slot = false → ∀ v f,
      let o : RopeOrder :=
        { lay := max 500 (min 2000000 f.lay.toNat), strands := max 1 (min 4 f.strands.toNat)
          target := max 1000 (min 2000000 f.target.toNat), allowance := min 50000 f.allowance.toNat
          density := max 1 (min 100000000 f.density.toNat), band := max 1 (min 8000000 f.band.toNat)
          drift := max 1 (min 8000000 f.drift.toNat), persistence := max 1 (min 255 f.persistence.toNat)
          excA := f.excA.toNat, excB := max f.excA.toNat f.excB.toNat
          spliceA := min 6 f.spliceA.toNat, spliceB := max (min 6 f.spliceA.toNat) (min 6 f.spliceB.toNat)
          tolA := min 500 f.tolA.toNat, tolB := max (min 500 f.tolA.toNat) (min 500 f.tolB.toNat) }
      exec (.loadOrder dt tag (BitVec.ofNat 8 slot.1) (.rope v f)) s =
        .next (({ s.elapse dt with orders := s.orders.set slot.1 (some ⟨v, .rope o⟩) } : State).responded tag s.unread
          (if o = ⟨f.lay.toNat, f.strands.toNat, f.target.toNat, f.allowance.toNat, f.density.toNat, f.band.toNat,
              f.drift.toNat, f.persistence.toNat, f.excA.toNat, f.excB.toNat, f.spliceA.toNat, f.spliceB.toNat,
              f.tolA.toNat, f.tolB.toNat⟩ then .ok else .clamped) [])) ∧
    (s.slotInUse slot = false → ∀ v f,
      let o : NetOrder :=
        { hooks := max 8 (min 64 f.hooks.toNat), rowTarget := max 1 (min 60000 f.rowTarget.toNat)
          overrunRows := min 500 f.overrunRows.toNat, rowMass := max 1 (min 5000000 f.rowMass.toNat)
          knotsA := f.knotsA.toNat, knotsB := max f.knotsA.toNat f.knotsB.toNat, holesB := f.holesB.toNat
          tolA := min 500 f.tolA.toNat, tolB := max (min 500 f.tolA.toNat) (min 500 f.tolB.toNat)
          deadRows := (f.deadRows.map fun d => max 2 (min 15 d.toNat)).getD 4 }
      exec (.loadOrder dt tag (BitVec.ofNat 8 slot.1) (.net v f)) s =
        .next (({ s.elapse dt with orders := s.orders.set slot.1 (some ⟨v, .net o⟩) } : State).responded tag s.unread
          (if o = ⟨f.hooks.toNat, f.rowTarget.toNat, f.overrunRows.toNat, f.rowMass.toNat, f.knotsA.toNat,
              f.knotsB.toNat, f.holesB.toNat, f.tolA.toNat, f.tolB.toNat, (f.deadRows.map BitVec.toNat).getD 4⟩
            then .ok else .clamped) [])) ∧
    (s.orderAt slot = none → exec (.retireOrder dt tag (BitVec.ofNat 8 slot.1)) s =
      .next (s.answeredOnly dt tag .noSuchOrder [])) ∧
    (s.orderAt slot ≠ none →
      ((∃ n, (s.station n).order = some slot) ∨ ∃ i p, s.record i = some p ∧ p.slot = slot) →
      exec (.retireOrder dt tag (BitVec.ofNat 8 slot.1)) s = .next (s.answeredOnly dt tag .orderInUse [])) ∧
    (s.orderAt slot ≠ none → (∀ n, (s.station n).order ≠ some slot) →
      (∀ i p, s.record i = some p → p.slot ≠ slot) →
      exec (.retireOrder dt tag (BitVec.ofNat 8 slot.1)) s =
        .next (({ s.elapse dt with orders := s.orders.set slot.1 none } : State).responded tag s.unread .ok []))

/-! ### Stations -/

/-- BIND (R12) where its checks pass: the station is READY on the new slot with no reasons, no piece and no request;
a lay station's constants and strand-out set are formed afresh (R28, R63), and the loom's previous row and awaiting
flag are cleared, its hook counters brought to the new dead-hook rows at most (R78). All else stands. -/
def Obligations.BindReadiesStation : Prop :=
  ∀ (s : State) (dt : Nat) (tag : Byte) (n : Fin 9) (slot : Fin 16) (o : Order),
    s.pins.reset = false → s.port.span ≠ .dropped →
    ((s.station n).state = .unbound ∨ ((s.station n).state = .ready ∧ (s.station n).piece = none)) →
    s.orderAt slot = some o → o.suits n = true →
    ∃ t : State,
      exec (.bind dt tag (BitVec.ofNat 8 n.1) (BitVec.ofNat 8 slot.1)) s =
        .next (t.responded tag s.unread .ok []) ∧
      t.station n = ⟨.ready, some slot, ⟨false, false, false⟩, none, false, (s.station n).pulseAt⟩ ∧
      (∀ m, m ≠ n → t.station m = s.station m) ∧
      t.arbiter = { s.arbiter with waiting := s.arbiter.waiting.filter (· != n) } ∧
      (∀ l f, n = ofLay l → o.body = .rope f → t.lay l = { s.lay l with
        consts := some ⟨roundDiv (f.lay * 1000) (s.layParams l).marks, 4 * f.lay * 1000⟩
        strandOut := strandsInUse f.strands &&& assertedStrands (s.layParams l).strandEdge (s.layPins l).strands }) ∧
      (∀ l, n ≠ ofLay l → t.lay l = s.lay l) ∧
      (∀ f, n = loom → o.body = .net f → t.inspector = { s.inspector with
        awaiting := none, previous := none, rowTimer := none
        hookMiss := s.inspector.hookMiss.map fun k => min f.deadRows k }) ∧
      (n ≠ loom → t.inspector = s.inspector) ∧
      t = { s.elapse dt with
        stations := t.stations, arbiter := t.arbiter, lays := t.lays, inspector := t.inspector }

/-- UNBIND (R13, R124) of a READY, HOLDING or TRIPPED station: its open piece closes SHORT into ASIDE, its request is
gone, its tracker and slip advances are reset and its strand-out set emptied, and it is UNBOUND. All else stands, the
faults, the mend list and the pack queue among it. -/
def Obligations.UnbindClosesPieceShort : Prop :=
  ∀ (s : State) (dt : Nat) (tag : Byte) (n : Fin 9), s.pins.reset = false → s.port.span ≠ .dropped →
    ((s.station n).state = .ready ∨ (s.station n).state = .holding ∨ (s.station n).state = .tripped) →
    ∃ t : State,
      exec (.unbind dt tag (BitVec.ofNat 8 n.1)) s = .next (t.responded tag s.unread .ok []) ∧
      t.station n = ⟨.unbound, none, ⟨false, false, false⟩, none, false, (s.station n).pulseAt⟩ ∧
      (∀ m, m ≠ n → t.station m = s.station m) ∧
      (∀ i, t.record i = if (s.station n).piece = some i
        then (s.record i).map fun p => { p with
          state := .aside, closedAt := some (s.elapse dt).clocks.part, short := true, aside := some .short }
        else s.record i) ∧
      t.arbiter = { s.arbiter with waiting := s.arbiter.waiting.filter (· != n) } ∧
      (∀ l, n = ofLay l → t.lay l =
        ⟨none, ⟨none, [], 0, 0, true, 0, 0, false⟩, 0, none, none, 0, 0, 0⟩) ∧
      (∀ l, n ≠ ofLay l → t.lay l = s.lay l) ∧
      t.inspector = (if n = loom then { s.inspector with rowTimer := none, previous := none, awaiting := none }
        else s.inspector) ∧
      t = { s.elapse dt with
        stations := t.stations, arbiter := t.arbiter, lays := t.lays, inspector := t.inspector
        table := { s.table with records := t.table.records } }

/-- The refusals of the station requests, each in its turn, change nothing (R3, R9, R12, R13, R14, R18, R155). That a
station or slot out of range is answered before the mode and the state are judged is assumption 11. -/
def Obligations.StationRefusalsChangeNothing : Prop :=
  ∀ (s : State) (dt : Nat) (tag : Byte) (n : Fin 9), s.pins.reset = false → s.port.span ≠ .dropped →
    (∀ b : Byte, 9 ≤ b.toNat → ∀ c : Byte,
      exec (.bind dt tag b c) s = .next (s.answeredOnly dt tag .badRequest []) ∧
      exec (.unbind dt tag b) s = .next (s.answeredOnly dt tag .badRequest []) ∧
      exec (.start dt tag b) s = .next (s.answeredOnly dt tag .badRequest []) ∧
      exec (.halt dt tag b) s = .next (s.answeredOnly dt tag .badRequest []) ∧
      exec (.clearFault dt tag b) s = .next (s.answeredOnly dt tag .badRequest []) ∧
      exec (.readStation dt tag b) s = .next (s.answeredOnly dt tag .badRequest [])) ∧
    (∀ c : Byte, 16 ≤ c.toNat →
      exec (.bind dt tag (BitVec.ofNat 8 n.1) c) s = .next (s.answeredOnly dt tag .badRequest [])) ∧
    (∀ k : Fin 16,
      ¬ ((s.station n).state = .unbound ∨ ((s.station n).state = .ready ∧ (s.station n).piece = none)) →
      exec (.bind dt tag (BitVec.ofNat 8 n.1) (BitVec.ofNat 8 k.1)) s =
        .next (s.answeredOnly dt tag .busy [])) ∧
    (∀ k : Fin 16, ((s.station n).state = .unbound ∨ ((s.station n).state = .ready ∧ (s.station n).piece = none)) →
      s.orderAt k = none →
      exec (.bind dt tag (BitVec.ofNat 8 n.1) (BitVec.ofNat 8 k.1)) s =
        .next (s.answeredOnly dt tag .noSuchOrder [])) ∧
    (∀ (k : Fin 16) o,
      ((s.station n).state = .unbound ∨ ((s.station n).state = .ready ∧ (s.station n).piece = none)) →
      s.orderAt k = some o → ((∃ f, o.body = .net f) ∧ n ≠ loom ∨ (∃ f, o.body = .rope f) ∧ n = loom) →
      exec (.bind dt tag (BitVec.ofNat 8 n.1) (BitVec.ofNat 8 k.1)) s =
        .next (s.answeredOnly dt tag .wrongKind [])) ∧
    ((s.station n).state = .unbound →
      exec (.unbind dt tag (BitVec.ofNat 8 n.1)) s = .next (s.answeredOnly dt tag .notBound [])) ∧
    ((s.station n).state = .running ∨ (s.station n).state = .cutting →
      exec (.unbind dt tag (BitVec.ofNat 8 n.1)) s = .next (s.answeredOnly dt tag .busy [])) ∧
    (let c := exec (.start dt tag (BitVec.ofNat 8 n.1)) s
     (s.port.mode = .config → c = .next (s.answeredOnly dt tag .wrongMode [])) ∧
     (s.port.mode = .operate → (s.station n).state = .unbound → c = .next (s.answeredOnly dt tag .notBound [])) ∧
     (s.port.mode = .operate → (s.station n).state = .tripped →
       c = .next (s.answeredOnly dt tag .faultPending [])) ∧
     (s.port.mode = .operate → ((s.station n).state = .ready ∨ (s.station n).state = .holding) →
       ((∃ k, inSet (s.faults n).set k = true ∧ s.reaction k ≠ .note) →
         c = .next (s.answeredOnly dt tag .faultPending [])) ∧
       ((∀ k, inSet (s.faults n).set k = true → s.reaction k = .note) →
         ((∃ l, n = ofLay l ∧ (s.lay l).strandOut &&&
             assertedStrands (s.layParams l).strandEdge (s.layPins l).strands ≠ 0) →
           c = .next (s.answeredOnly dt tag .conditionPresent [])) ∧
         ((∀ l, n = ofLay l → (s.lay l).strandOut &&&
             assertedStrands (s.layParams l).strandEdge (s.layPins l).strands = 0) →
           (s.station n).piece = none → s.figure < 1 → c = .next (s.answeredOnly dt tag .noFreePiece [])))) ∧
     (s.port.mode = .operate → ((s.station n).state = .running ∨ (s.station n).state = .cutting) →
       c = .next (((s.elapse dt).modReasons n fun r => { r with halted := false }).responded tag s.unread .ok []))) ∧
    ((s.station n).state = .cutting ∨
      (inSet (s.faults n).set .strandOut = true ∧ s.strandPresent n = true) →
      exec (.clearFault dt tag (BitVec.ofNat 8 n.1)) s = .next (s.answeredOnly dt tag .conditionPresent []))

/-- START (R14 to R17) of a READY or HOLDING station that carries its open piece on: HALTED and FAULT are gone, and the
strand-out set has become splice entries and is empty. A piece at its target places a request where none waits (R55);
one at its target and allowance whose request waits, or was placed now, gains OVERRUN and its overrun flag, and
OVERRUN_HOLD is noticed (R57). The station then runs with a fresh run, or holds where OVERRUN stands, and grants are
considered where the request joined or its station changed state (R21, R94; once, at the end: assumption 9). -/
def Obligations.StartCarriesPieceOn : Prop :=
  ∀ (s : State) (dt : Nat) (tag : Byte) (n : Fin 9) (i : Fin 64) (p : Piece) (o : Order),
    s.pins.reset = false → s.port.span ≠ .dropped →
    s.port.mode = .operate → ((s.station n).state = .ready ∨ (s.station n).state = .holding) →
    s.faultForbidsStart n = false → s.strandPresent n = false → (s.station n).piece = some i →
    s.record i = some p → s.boundOrder n = some o →
    let joins : Bool := decide (o.target ≤ p.extent ∧ n ∉ s.arbiter.waiting)
    let overrun : Bool := decide (o.limit ≤ p.extent ∧ (s.station n).reasons.overrun = false ∧
      (joins = true ∨ n ∈ s.arbiter.waiting))
    let holds : Bool := overrun || (s.station n).reasons.overrun
    let st : StationState := if holds then .holding else .running
    ∃ t : State,
      exec (.start dt tag (BitVec.ofNat 8 n.1)) s = .next (
        (if joins = true ∨ (n ∈ s.arbiter.waiting ∧ st ≠ (s.station n).state) then t.consider else t).responded tag
          s.unread .ok []) ∧
      (t.station n).state = st ∧ (t.station n).order = (s.station n).order ∧
      (t.station n).reasons = ⟨false, false, holds⟩ ∧ (t.station n).piece = some i ∧
      t.permitGiven n = true ∧
      ((s.station n).state = .ready →
        (t.station n).pulseHigh = true ∧ (t.station n).pulseAt = (s.elapse dt).clocks.part) ∧
      ((s.station n).state = .holding →
        (t.station n).pulseHigh = (s.station n).pulseHigh ∧ (t.station n).pulseAt = (s.station n).pulseAt) ∧
      (∀ m, m ≠ n → t.station m = s.station m) ∧
      t.arbiter = { s.arbiter with
        waiting := if joins then s.arbiter.waiting ++ [n] else s.arbiter.waiting } ∧
      (∀ l, n = ofLay l → t.lay l = if holds then { s.lay l with strandOut := 0 } else { s.lay l with
        tracker := ⟨none, [], 0, 0, true, 0, 0, false⟩, demand := (s.layParams l).fStart
        stall := some ⟨(s.elapse dt).clocks.mark, (s.layParams l).tMax⟩, lastPulse := none, strandOut := 0 }) ∧
      (∀ l, n ≠ ofLay l → t.lay l = s.lay l) ∧
      t.inspector = (if n = loom ∧ holds = false
        then { s.inspector with rowTimer := some ⟨(s.elapse dt).clocks.part, s.params.loom.rowTime⟩ }
        else s.inspector) ∧
      (∀ l c, n = ofLay l → p.body = .coil c → t.record i = some { p with
        body := .coil (c.addSplices (s.lay l).strandOut), overrun := p.overrun || overrun }) ∧
      (n = loom → t.record i = some { p with overrun := p.overrun || overrun }) ∧
      (∀ j, j ≠ i → t.record j = s.record j) ∧
      t.notices = (if overrun then (s.notice (slotOfStation n) .overrunHold).notices else s.notices) ∧
      t = { s.elapse dt with
        stations := t.stations, lays := t.lays, inspector := t.inspector, arbiter := t.arbiter
        table := { s.table with records := t.table.records }, notices := t.notices }

/-- START (R15, R16, R113, R114, R125) of a READY or HOLDING station without a piece: the lowest-numbered FREE record
opens with every field at its start and a serial that no other record bears, TABLE_LOW is tested at the lower figure,
and the station is RUNNING. A strand-out set makes no entry and is emptied. The serial is the counter's value, or the
first after it that names no non-FREE record, and the counter then stands one past it, both wrapping from 4,294,967,295
to 1 (R113). -/
def Obligations.StartOpensLowestFreeRecord : Prop :=
  let next (v : Word32) : Word32 := if v = 4294967295 then 1 else v + 1
  (∀ s : State, (∃ i, s.record i = none) →
    (∀ j p, s.record j = some p → p.serial ≠ s.openSerial) ∧
    ∃ passed ≤ 63, s.openSerial = next^[passed] s.table.nextSerial ∧
      ∀ m < passed, ∃ j p, s.record j = some p ∧ p.serial = next^[m] s.table.nextSerial) ∧
  ∀ (s : State) (dt : Nat) (tag : Byte) (n : Fin 9) (slot : Fin 16) (o : Order),
    s.pins.reset = false → s.port.span ≠ .dropped →
    s.port.mode = .operate → ((s.station n).state = .ready ∨ (s.station n).state = .holding) →
    s.faultForbidsStart n = false → s.strandPresent n = false → (s.station n).piece = none → 1 ≤ s.figure →
    (s.station n).order = some slot → s.orderAt slot = some o → 0 < o.target →
    n ∉ s.arbiter.waiting → (s.station n).reasons.overrun = false →
    ∃ (t : State) (i : Fin 64) (b : PieceBody),
      exec (.start dt tag (BitVec.ofNat 8 n.1)) s = .next (t.responded tag s.unread .ok []) ∧
      s.record i = none ∧ (∀ j, j.1 < i.1 → s.record j ≠ none) ∧
      (∀ j p, s.record j = some p → p.serial ≠ s.openSerial) ∧
      t.record i = some
        { state := .opened, serial := s.openSerial, station := n, slot := slot, tag := o.tag
          openedAt := (s.elapse dt).clocks.part, closedAt := none, short := false, overrun := false, label := none
          cap := none, hold := false, body := b, weighing := none, packLabel := none, aside := none } ∧
      (∀ l, n = ofLay l → b = .coil ⟨0, [], 0, ⟨0, 0, 0, 0⟩,
        if (s.layParams l).meterScale = 0 then none else some 0⟩) ∧
      (n = loom → b = .panel ⟨0, 0, 0, 0, 0, 0, 0, 0⟩) ∧
      (∀ j, j ≠ i → t.record j = s.record j) ∧ t.table.nextSerial = next s.openSerial ∧
      t.table.lowArmed = decide (s.params.part.lowWater < s.figure - 1) ∧
      t.notices = (if s.figure - 1 ≤ s.params.part.lowWater ∧ s.table.lowArmed = true
        then (s.notice partSlot .tableLow).notices else s.notices) ∧
      (t.station n).state = .running ∧ (t.station n).order = some slot ∧
      (t.station n).reasons = ⟨false, false, false⟩ ∧ (t.station n).piece = some i ∧
      (∀ m, m ≠ n → t.station m = s.station m) ∧
      (∀ l, n = ofLay l → t.lay l = { s.lay l with
        tracker := ⟨none, [], 0, 0, true, 0, 0, false⟩, demand := (s.layParams l).fStart
        stall := some ⟨(s.elapse dt).clocks.mark, (s.layParams l).tMax⟩, lastPulse := none, strandOut := 0 }) ∧
      (∀ l, n ≠ ofLay l → t.lay l = s.lay l) ∧
      t.inspector = (if n = loom
        then { s.inspector with
          previous := none, rowTimer := some ⟨(s.elapse dt).clocks.part, s.params.loom.rowTime⟩ }
        else s.inspector) ∧
      t = { s.elapse dt with
        stations := t.stations, lays := t.lays, inspector := t.inspector, table := t.table, notices := t.notices }

/-- R64: each strand of the set becomes an entry in ascending order with the coil's length at that moment while the
list holds fewer than 6, and raises the overflow count, saturating at 65,535, after that. -/
def Obligations.SpliceEntriesThenOverflow : Prop :=
  ∀ (c : Coil) (set : BitVec 4),
    let strands := ([1, 2, 3, 4] : List Nat).filter fun j => set.getLsbD (j - 1)
    let room := 6 - c.splices.length
    c.spliceOverflow ≤ 65535 →
    c.addSplices set = { c with
      splices := c.splices ++ (strands.take room).map fun j => ⟨c.mm, j⟩
      spliceOverflow := min 65535 (c.spliceOverflow + (strands.length - room)) }

/-- HALT (R18): a RUNNING station holds with HALTED, its demand at 0 and its timer disarmed (R17); a HOLDING or
CUTTING one gains HALTED and keeps its state, and a CUTTING one holds once its cut is done; READY and TRIPPED are
answered OK without change. A waiting request stays, and its station is as eligible as before. -/
def Obligations.HaltHoldsWithoutEndingPiece : Prop :=
  ∀ (s : State) (dt : Nat) (tag : Byte) (n : Fin 9), s.pins.reset = false → s.port.span ≠ .dropped →
    ((s.station n).state = .running → ∃ t : State,
      exec (.halt dt tag (BitVec.ofNat 8 n.1)) s = .next (t.responded tag s.unread .ok []) ∧
      (t.station n).state = .holding ∧ (t.station n).order = (s.station n).order ∧
      (t.station n).piece = (s.station n).piece ∧
      (t.station n).reasons = { (s.station n).reasons with halted := true } ∧ t.holdOn n = true ∧
      t.permitGiven n = s.permitGiven n ∧ t.eligible n = (s.elapse dt).eligible n ∧
      (∀ m, m ≠ n → t.station m = s.station m) ∧
      (∀ l, t.lay l =
        if n = ofLay l then { s.lay l with demand := 0, stall := none, lastPulse := none } else s.lay l) ∧
      t.inspector = (if n = loom then { s.inspector with rowTimer := none } else s.inspector) ∧
      t = { s.elapse dt with stations := t.stations, lays := t.lays, inspector := t.inspector }) ∧
    ((s.station n).state = .holding ∨ (s.station n).state = .cutting → ∃ t : State,
      exec (.halt dt tag (BitVec.ofNat 8 n.1)) s = .next (t.responded tag s.unread .ok []) ∧
      t.station n = { s.station n with reasons := { (s.station n).reasons with halted := true } } ∧
      (∀ m, m ≠ n → t.station m = s.station m) ∧ t = { s.elapse dt with stations := t.stations }) ∧
    ((s.station n).state = .ready ∨ (s.station n).state = .tripped →
      exec (.halt dt tag (BitVec.ofNat 8 n.1)) s = .next (s.answeredOnly dt tag .ok [])) ∧
    ((s.station n).state = .cutting → ∀ u v dt', exec (.halt dt tag (BitVec.ofNat 8 n.1)) s = .next u →
      exec (.cutDone dt' n (u.stationParams n).cutEdge) u = .next v → (v.station n).state = .holding) ∧
    ((s.station n).state = .unbound →
      exec (.halt dt tag (BitVec.ofNat 8 n.1)) s = .next (s.answeredOnly dt tag .notBound []))

/-- CLEAR_FAULT (R155) where nothing forbids it: fault set and first-fault record are gone, the loom's hook counters
are 0, a TRIPPED station is READY, and all else stands. -/
def Obligations.ClearFaultEmptiesSet : Prop :=
  ∀ (s : State) (dt : Nat) (tag : Byte) (n : Fin 9),
    s.pins.reset = false → s.port.span ≠ .dropped → (s.station n).state ≠ .cutting →
    ¬ (inSet (s.faults n).set .strandOut = true ∧ s.strandPresent n = true) →
    ∃ t : State,
      exec (.clearFault dt tag (BitVec.ofNat 8 n.1)) s = .next (t.responded tag s.unread .ok []) ∧
      t.faults n = ⟨0, none⟩ ∧ (∀ m, m ≠ n → t.faults m = s.faults m) ∧
      t.station n = (if (s.station n).state = .tripped
        then { s.station n with state := .ready, pulseHigh := false } else s.station n) ∧
      (∀ m, m ≠ n → t.station m = s.station m) ∧
      t.inspector = (if n = loom then { s.inspector with hookMiss := Vector.replicate 64 0 } else s.inspector) ∧
      t = { s.elapse dt with
        stations := t.stations, inspector := t.inspector
        collector := { s.collector with stations := t.collector.stations } }

/-- R158: a permit is given in OPERATE to a RUNNING, HOLDING or CUTTING station alone; a withdrawn one is low; a
STATIC one is high while given; and a PULSED one given changes level 5 ms after its last change (that the command
waits for the instant is assumption 3). Only its own station's output changes. -/
def Obligations.PermitFollowsStateAndMode : Prop :=
  ∀ (s : State) (n : Fin 9),
    (s.permitGiven n = true ↔ s.port.mode = .operate ∧
      ((s.station n).state = .running ∨ (s.station n).state = .holding ∨ (s.station n).state = .cutting)) ∧
    (s.permitGiven n = false → s.permitLevel n = false) ∧
    (s.params.part.permitMode = .static → s.permitLevel n = s.permitGiven n) ∧
    (s.params.part.permitMode = .pulsed → s.permitGiven n = true → ∀ dt,
      let u := (s.elapse dt).waitPart ⟨(s.station n).pulseAt, 5⟩
      ∃ t : State, exec (.permitPulseToggle dt n) s = .next t ∧ t.permitLevel n = !s.permitLevel n ∧
        t.permitGiven n = true ∧ (t.station n).pulseAt = u.clocks.part ∧
        (∀ m, m ≠ n → t.station m = s.station m) ∧ t = { u with stations := t.stations }) ∧
    (s.params.part.permitMode = .static ∨ s.permitGiven n = false → ∀ dt,
      exec (.permitPulseToggle dt n) s = .next (s.elapse dt))

/-! ### Lay stations -/

/-- R30: the first mark in RUNNING begins the timing, discards the counts so far, and leaves the rest of the tracker
and the demand; it restarts the stall timer as every mark in RUNNING does (R43). -/
def Obligations.FirstMarkBeginsTiming : Prop :=
  ∀ (s : State) (dt : Nat) (l : Fin 8) (f : RopeOrder) (c : LayConsts), s.pins.reset = false →
    (s.station (ofLay l)).state = .running → s.rope (ofLay l) = some f → (s.lay l).consts = some c →
    (s.lay l).tracker.tPrev = none →
    exec (.flyerMark dt l (s.layParams l).markEdge) s =
      .next ((s.elapse dt).modLay l fun x => { x with
        tracker := { x.tracker with tPrev := some (s.elapse dt).clocks.mark, count := 0 }
        stall := some ⟨(s.elapse dt).clocks.mark, (s.layParams l).tMax⟩ })

/-- R27, R31 to R33: a mark outside RUNNING and an edge of the other direction change nothing; an interval below
T_min, a reverse interval, and one that spans two missing marks or more are not integrated. Each is closed with the
faults it raises: FLYER_OVERSPEED; REVERSE_RUN at the arrival that brings the count to R_max; MARK_LOSS. -/
def Obligations.UnusableIntervalsAreNotIntegrated : Prop :=
  (∀ (s : State) (dt : Nat) (l : Fin 8) (edge : Edge), s.pins.reset = false →
    ((s.station (ofLay l)).state ≠ .running ∨ edge ≠ (s.layParams l).markEdge) →
    exec (.flyerMark dt l edge) s = .next (s.elapse dt)) ∧
  ∀ (s : State) (dt : Nat) (l : Fin 8) (f : RopeOrder) (c : LayConsts) (prev : Word32), s.pins.reset = false →
    (s.station (ofLay l)).state = .running → s.rope (ofLay l) = some f → (s.lay l).consts = some c →
    (s.lay l).tracker.tPrev = some prev →
    let u := s.elapse dt
    let k := (s.lay l).tracker
    let interval := (u.clocks.mark - prev).toNat
    let ts := k.ring.sum / k.ring.length
    let closed (k' : Tracker) : State := u.modLay l fun x => { x with
      tracker := { k' with tPrev := some u.clocks.mark, count := 0 }
      stall := some ⟨u.clocks.mark, (s.layParams l).tMax⟩ }
    (interval < (s.layParams l).tMin →
      exec (.flyerMark dt l (s.layParams l).markEdge) s =
        .next ((closed k).raise (ofLay l) .flyerOverspeed)) ∧
    ((s.layParams l).tMin ≤ interval → k.count < 0 →
      ∀ (i : Fin 64) (p : Piece) (q : Coil), (s.station (ofLay l)).piece = some i → s.record i = some p →
      p.body = .coil q →
      let v := (closed { k with
          reverse := if k.reverse < (s.layParams l).rMax then k.reverse + 1 else k.reverse
          reacquire := true }).modCoil i
        fun q => { q with quality := { q.quality with
          reverse := if q.quality.reverse < 65535 then q.quality.reverse + 1 else q.quality.reverse } }
      exec (.flyerMark dt l (s.layParams l).markEdge) s =
        .next (if k.reverse + 1 = (s.layParams l).rMax then v.raise (ofLay l) .reverseRun else v)) ∧
    ((s.layParams l).tMin ≤ interval → 0 ≤ k.count → 2 ≤ k.ring.length → 5 * ts < 2 * interval →
      exec (.flyerMark dt l (s.layParams l).markEdge) s =
        .next ((closed { k with ring := [], reverse := 0, reacquire := true }).raise (ofLay l) .markLoss))

/-- R34 to R40: a forward interval is pushed, in two halves where one mark was missed, integrated unless the
re-acquire flag is set, tested for drift, and answered with a new demand, its faults taken in the order LAY_DRIFT,
LAY_SATURATED. -/
def Obligations.ForwardIntervalSetsDemand : Prop :=
  ∀ (s : State) (dt : Nat) (l : Fin 8) (f : RopeOrder) (c : LayConsts) (prev : Word32) (i : Fin 64) (p : Piece)
    (q : Coil), s.pins.reset = false →
    (s.station (ofLay l)).state = .running → s.rope (ofLay l) = some f → (s.lay l).consts = some c →
    (s.lay l).tracker.tPrev = some prev → (s.station (ofLay l)).piece = some i → s.record i = some p →
    p.body = .coil q →
    let u := s.elapse dt
    let w := s.layParams l
    let k := (s.lay l).tracker
    let interval := (u.clocks.mark - prev).toNat
    let ts := k.ring.sum / k.ring.length
    w.tMin ≤ interval → 0 ≤ k.count → ¬ (2 ≤ k.ring.length ∧ 5 * ts < 2 * interval) →
    let double : Bool := decide (2 ≤ k.ring.length ∧ 3 * ts < 2 * interval)
    let pushes := if double then [interval / 2, interval - interval / 2] else [interval]
    let ring := (k.ring ++ pushes).drop ((k.ring ++ pushes).length - 4)
    let scale : Int := match w.source with
      | .capstan => w.capScale
      | .meter => w.meterScale
    let sum : Int := k.pos + (if double then 2 else 1) * c.advance - k.count * scale
    let pos : Int := if k.reacquire then k.pos else max (-c.bound) (min c.bound sum)
    let drift : Bool := if k.reacquire then k.driftAbove else decide ((f.drift * 1000 : Int) < |pos|)
    let raw : Int := (c.advance * 1000000).tdiv (((ring.sum / ring.length : Nat) : Int) * w.drive) +
      (pos * 1000).tdiv ((w.tau : Int) * w.drive)
    let out : Bool := decide (raw < 0 ∨ (w.fMax : Int) < raw)
    let demand : Nat := (max 0 (min (w.fMax : Int) raw)).toNat
    let quality : LayQuality := if k.reacquire then q.quality else
      { q.quality with
        worst := max q.quality.worst (pos.natAbs / 1000)
        excursions := if (f.band * 1000 : Int) < |pos| ∧ q.quality.excursions < 65535
          then q.quality.excursions + 1 else q.quality.excursions
        inserted := if double = true ∧ q.quality.inserted < 65535
          then q.quality.inserted + 1 else q.quality.inserted }
    k.ring.length ≤ 4 →
    exec (.flyerMark dt l w.markEdge) s =
      .next (((u.modLay l fun x => { x with
          tracker := ⟨some u.clocks.mark, ring, 0, pos, false, 0,
            if out then (if k.saturation < f.persistence then k.saturation + 1 else k.saturation) else 0, drift⟩
          demand := demand
          lastPulse := if demand = 0 then none else x.lastPulse
          stall := some ⟨u.clocks.mark, w.tMax⟩ }).modCoil i fun q =>
            { q with quality := quality }).raiseAll (ofLay l)
        ((if k.reacquire = false ∧ drift = true ∧ k.driftAbove = false then [.layDrift] else []) ++
          if out = true ∧ k.saturation + 1 = f.persistence then [.laySaturated] else []))

/-- R25, R26, R51, R55, R57, R59: the effects of one count at a bound lay station with an open coil. A count from the
length source moves the coil's length by its scale, within its limits, in every bound state, and in RUNNING the count
accumulator by one. It places a request where the length stands at the target, none waits, and the station is READY,
RUNNING or HOLDING; it adds OVERRUN, with the overrun flag and OVERRUN_HOLD, where the length stands at target and
allowance, the request waits or was placed now, and the station is RUNNING or HOLDING, which then holds; and a request
placed has grants considered (R94; after the overrun test: assumption 7). A count from the other encoder moves neither.
In RUNNING, with a metering wheel fitted, each encoder's count moves its own slip advance, stated up to the close of a
span. At a bound lay station without an open piece a count moves no length, and outside RUNNING its lines alone (R51,
R59). The order of the blocks within a count is assumption 10, and the tests of a count that its bounds hold back are
assumption 37. -/
def Obligations.CountMovesLengthAndAccumulators : Prop :=
  (∀ (s : State) (dt : Nat) (l : Fin 8) (enc : Encoder) (a b : Bool), s.pins.reset = false →
    (s.station (ofLay l)).state ≠ .unbound → (s.station (ofLay l)).piece = none →
    (∃ t : State, exec (.countArrival dt l enc a b) s = .next t ∧ t.table.records = s.table.records) ∧
    ((s.station (ofLay l)).state ≠ .running →
      exec (.countArrival dt l enc a b) s = .next ((s.elapse dt).setLines l enc ⟨a, b⟩))) ∧
  ∀ (s : State) (dt : Nat) (l : Fin 8) (enc : Encoder) (a b : Bool) (d : Direction) (i : Fin 64) (p : Piece)
    (q : Coil) (o : Order), s.pins.reset = false →
    (s.station (ofLay l)).state ≠ .unbound → (s.station (ofLay l)).piece = some i → s.record i = some p →
    p.body = .coil q → s.boundOrder (ofLay l) = some o →
    s.decodeCount l enc ((s.layPins l).pair enc) ⟨a, b⟩ = some d →
    let w := s.layParams l
    let n := ofLay l
    let x := s.station n
    let running : Bool := decide (x.state = .running)
    let step : Int := d.unit * ((match enc with
      | .capstan => w.capScale
      | .meter => w.meterScale : Nat) : Int)
    let moved : Coil := { q with length := max 0 (min 4294967295000000 (q.length + step)) }
    let counted (k : Tracker) : Tracker :=
      if running then { k with count := max (-2147483647) (min 2147483647 (k.count + d.unit)) } else k
    let advanced (u : State) : State :=
      if running = true ∧ w.meterScale ≠ 0 then u.modLay l fun y => match enc with
        | .capstan => { y with slipCap := y.slipCap + step }
        | .meter => { y with slipMeter := y.slipMeter + step }
      else u
    let v := (s.elapse dt).setLines l enc ⟨a, b⟩
    (running = true → enc = .meter → (s.lay l).slipMeter + step < (w.slipSpan : Int) * 1000000000) →
    (enc ≠ w.source.encoder → exec (.countArrival dt l enc a b) s = .next (advanced v)) ∧
    (enc = w.source.encoder → moved.mm < o.target → n ∉ s.arbiter.waiting →
      exec (.countArrival dt l enc a b) s = .next (advanced
        ((v.modLay l fun y => { y with tracker := counted y.tracker }).modCoil i fun _ => moved))) ∧
    (enc = w.source.encoder → (running = true → s.port.mode = .operate) →
      let joins : Bool := decide (o.target ≤ moved.mm ∧ n ∉ s.arbiter.waiting ∧
        (x.state = .ready ∨ x.state = .running ∨ x.state = .holding))
      let overrun : Bool := decide (o.limit ≤ moved.mm ∧ (joins = true ∨ n ∈ s.arbiter.waiting) ∧
        (x.state = .running ∨ x.state = .holding) ∧ x.reasons.overrun = false)
      ∃ t : State,
        exec (.countArrival dt l enc a b) s = .next (advanced (if joins then t.consider else t)) ∧
        t.station n = (if overrun then { x with state := .holding, reasons := { x.reasons with overrun := true } }
          else x) ∧
        (∀ m, m ≠ n → t.station m = s.station m) ∧
        t.arbiter = { s.arbiter with
          waiting := if joins then s.arbiter.waiting ++ [n] else s.arbiter.waiting } ∧
        t.lay l = (if overrun = true ∧ running = true then { s.lay l with
            tracker := counted (s.lay l).tracker, demand := 0, stall := none, lastPulse := none }
          else { s.lay l with tracker := counted (s.lay l).tracker }) ∧
        (∀ m, m ≠ l → t.lay m = s.lay m) ∧
        t.record i = some { p with body := .coil moved, overrun := p.overrun || overrun } ∧
        (∀ j, j ≠ i → t.record j = s.record j) ∧
        t.notices = (if overrun then (s.notice (slotOfStation n) .overrunHold).notices else s.notices) ∧
        t = { v with
          stations := t.stations, lays := t.lays, arbiter := t.arbiter
          table := { s.table with records := t.table.records }, notices := t.notices })

/-- R60: the metering count, taken in RUNNING, that brings the metering advance to the slip span closes the span: the
slip is truncated toward zero, the greater magnitude is kept, both advances return to 0, and SLIP is raised beyond
the limit and not at it. That a slip beyond R49's range is kept at its limit is assumption 34. Under METER the same
count moves the length and the count accumulator first (R26, R51, assumption 10), stated below the target. -/
def Obligations.SlipSpanClosesAtMeteringCount : Prop :=
  ∀ (s : State) (dt : Nat) (l : Fin 8) (a b : Bool) (d : Direction) (i : Fin 64) (p : Piece) (q : Coil),
    s.pins.reset = false → (s.station (ofLay l)).state = .running → (s.station (ofLay l)).piece = some i →
    s.record i = some p → p.body = .coil q →
    s.decodeCount l .meter (s.layPins l).meter ⟨a, b⟩ = some d →
    let w := s.layParams l
    w.meterScale ≠ 0 →
    let step : Int := d.unit * (w.meterScale : Int)
    let moved : Coil := { q with length := max 0 (min 4294967295000000 (q.length + step)) }
    (w.source = .meter → ofLay l ∉ s.arbiter.waiting ∧
      ∃ o, s.boundOrder (ofLay l) = some o ∧ moved.mm < o.target) →
    let meter := (s.lay l).slipMeter + step
    let slip := (((s.lay l).slipCap - meter) * 1000).tdiv meter
    let kept := max (-2147483647) (min 2147483647 slip)
    let lines := (s.elapse dt).setLines l .meter ⟨a, b⟩
    let v := match w.source with
      | .capstan => lines
      | .meter => (lines.modLay l fun x => { x with tracker := { x.tracker with
          count := max (-2147483647) (min 2147483647 (x.tracker.count + d.unit)) } }).modCoil i fun _ => moved
    let closed := (v.modCoil i fun q => { q with
        worstSlip := match q.worstSlip with
          | none => some kept
          | some z => if |z| < |kept| then some kept else some z }).modLay l fun x =>
            { x with slipCap := 0, slipMeter := 0 }
    exec (.countArrival dt l .meter a b) s = .next (
      if meter < (w.slipSpan : Int) * 1000000000 then v.modLay l fun x => { x with slipMeter := meter }
      else if (w.slipLimit : Int) < |slip| then closed.raise (ofLay l) .slip
      else closed)

/-- R25: every change of one line is one count, forward where the first line leads, the other way round under an
INVERTED sense; no change and a change of both lines are none, and an UNBOUND station takes no count into any block.
Which levels lead is the convention of assumption 12. -/
def Obligations.QuadratureDecodesOneLineAtATime : Prop :=
  (∀ x y : Bool, quadrature ⟨x, y⟩ ⟨x, y⟩ = none ∧ quadrature ⟨x, y⟩ ⟨!x, !y⟩ = none ∧
    quadrature ⟨x, y⟩ ⟨!x, y⟩ = some (if x = y then .forward else .backward) ∧
    quadrature ⟨x, y⟩ ⟨x, !y⟩ = some (if x = y then .backward else .forward)) ∧
  (∀ old new d, quadrature old new = some d → ∃ e, quadrature new old = some e ∧ e ≠ d) ∧
  (∀ d, Sense.apply .inverted d ≠ d ∧ Sense.apply .normal d = d) ∧
  ∀ (s : State) (dt : Nat) (l : Fin 8) (enc : Encoder) (a b : Bool),
    ((s.station (ofLay l)).state = .unbound ∨ quadrature ((s.layPins l).pair enc) ⟨a, b⟩ = none) →
    exec (.countArrival dt l enc a b) s = .next ((s.elapse dt).setLines l enc ⟨a, b⟩)

/-- R62, R63: a strand-out assertion on a strand in use at a bound station joins the set and raises STRAND_OUT, in
every bound state; one on a strand not in use, or at an UNBOUND station, only moves its line, and so does a release.
That an assertion command is always a fresh edge is assumption 31. -/
def Obligations.StrandOutJoinsSetAndRaises : Prop :=
  ∀ (s : State) (dt : Nat) (l : Fin 8) (j : Fin 4), s.pins.reset = false →
    let up := (s.elapse dt).setStrand l j (assertLevel (s.layParams l).strandEdge)
    (∀ f, (s.station (ofLay l)).state ≠ .unbound → s.rope (ofLay l) = some f → j.1 < f.strands →
      exec (.strandOutAssertion dt l j) s =
        .next ((up.modLay l fun x => { x with strandOut := x.strandOut ||| BitVec.twoPow 4 j.1 }).raise (ofLay l)
          .strandOut)) ∧
    ((s.station (ofLay l)).state = .unbound → exec (.strandOutAssertion dt l j) s = .next up) ∧
    (∀ f, s.rope (ofLay l) = some f → f.strands ≤ j.1 → exec (.strandOutAssertion dt l j) s = .next up) ∧
    exec (.strandOutRelease dt l j) s =
      .next ((s.elapse dt).setStrand l j (!assertLevel (s.layParams l).strandEdge))

/-- R42: the next demand pulse goes out at the interval of the demand, 1,000,000 / f us rounded, from the last one,
or at once where that has passed or where there was none since the demand rose from 0; at a demand of 0 none goes
out. That the command waits for the instant is assumption 3. -/
def Obligations.DemandPulsesFollowTheDemand : Prop :=
  ∀ (s : State) (dt : Nat) (l : Fin 8),
    let emitted (u : State) : State := u.modLay l fun x => { x with lastPulse := some u.clocks.mark }
    ((s.lay l).demand = 0 → exec (.demandPulse dt l) s = .next (s.elapse dt)) ∧
    ((s.lay l).demand ≠ 0 → (s.lay l).lastPulse = none →
      exec (.demandPulse dt l) s = .next (emitted (s.elapse dt))) ∧
    ∀ last, (s.lay l).demand ≠ 0 → (s.lay l).lastPulse = some last →
      exec (.demandPulse dt l) s =
        .next (emitted ((s.elapse dt).waitMark ⟨last, roundDiv 1000000 (s.lay l).demand⟩))

/-- R43, R44, R79: expiry of an armed stall timer at a RUNNING lay station, or of the row stall timer of a RUNNING
loom, disarms it and raises FLYER_STALL or ROW_STALL; a timer that is disarmed, or whose station is not RUNNING, does
not expire. That the command waits for the time is assumption 3. -/
def Obligations.StallTimersRaiseTheirFaults : Prop :=
  ∀ (s : State) (dt : Nat),
    (∀ l t, (s.lay l).stall = some t → (s.station (ofLay l)).state = .running →
      exec (.stallTimerExpiry dt l) s =
        .next ((((s.elapse dt).waitMark t).modLay l fun x => { x with stall := none }).raise (ofLay l) .flyerStall)) ∧
    (∀ l, (s.lay l).stall = none ∨ (s.station (ofLay l)).state ≠ .running →
      exec (.stallTimerExpiry dt l) s = .next (s.elapse dt)) ∧
    (∀ t, s.inspector.rowTimer = some t → (s.station loom).state = .running →
      exec (.rowStallTimerExpiry dt) s = .next (
        (((s.elapse dt).waitPart t).modInspector fun x => { x with rowTimer := none }).raise loom .rowStall)) ∧
    (s.inspector.rowTimer = none ∨ (s.station loom).state ≠ .running →
      exec (.rowStallTimerExpiry dt) s = .next (s.elapse dt))

/-- An expiry command whose timer still runs lets the time pass until the timer has run out, to the tick, and one
whose timer has run out lets none pass (R1; that it waits is assumption 3). -/
def Obligations.ExpiryWaitsUntilTimerRunsOut : Prop :=
  ∀ (s : State) (t : Timer), t.span < 4294967296 →
    (t.span ≤ (s.clocks.mark - t.start).toNat → s.waitMark t = s.elapse 0) ∧
    ((s.clocks.mark - t.start).toNat < t.span →
      ((s.waitMark t).clocks.mark - t.start).toNat = t.span ∧ { s.waitMark t with clocks := s.clocks } = s) ∧
    (t.span ≤ (s.clocks.part - t.start).toNat → s.waitPart t = s) ∧
    ((s.clocks.part - t.start).toNat < t.span → s.clocks.phase < 1000 →
      ((s.waitPart t).clocks.part - t.start).toNat = t.span ∧ (s.waitPart t).clocks.phase = 0 ∧
      { s.waitPart t with clocks := s.clocks } = s)

/-! ### The loom -/

/-- R53, R55, R57, R70: a row index at a bound loom with an open panel counts the row, applies the target and overrun
tests as a count at a coil does, sets the row awaiting sense, and restarts the row stall timer of a loom that is still
RUNNING. Where a row was still awaiting, its panel, if the record holds it still, gains an unsensed row, the previous
row is emptied, and SENSE_MISSING is raised once the inspector has finished. A request placed has grants considered
(R94; after the overrun test: assumption 7); the tests of a row that 65,535 holds back are assumption 37. -/
def Obligations.RowIndexCountsRowAndAwaitsSense : Prop :=
  ∀ (s : State) (dt : Nat) (i : Fin 64) (p : Piece) (q : Panel) (o : Order), s.pins.reset = false →
    (s.station loom).state ≠ .unbound → (s.station loom).piece = some i → s.record i = some p → p.body = .panel q →
    s.boundOrder loom = some o →
    let x := s.station loom
    let rows := if q.rows < 65535 then q.rows + 1 else q.rows
    let missed (u : State) : State := match s.inspector.awaiting with
      | some a => (if (s.panelAt a.panel a.serial).isSome then
            u.modPanel a.panel fun q => { q with
              unsensed := if q.unsensed < 65535 then q.unsensed + 1 else q.unsensed }
          else u).modInspector fun y => { y with previous := none }
      | none => u
    let finished (u : State) : State :=
      let next := (missed u).modInspector fun y => { y with
        awaiting := some ⟨i, p.serial, rows⟩
        rowTimer := if (u.station loom).state = .running then some ⟨u.clocks.part, s.params.loom.rowTime⟩
          else y.rowTimer }
      if s.inspector.awaiting.isSome then next.raise loom .senseMissing else next
    (rows < o.target → loom ∉ s.arbiter.waiting →
      exec (.rowIndex dt s.params.loom.rowEdge) s =
        .next (finished ((s.elapse dt).modPanel i fun q => { q with rows := rows }))) ∧
    ((x.state = .running → s.port.mode = .operate) →
      let joins : Bool := decide (o.target ≤ rows ∧ loom ∉ s.arbiter.waiting ∧
        (x.state = .ready ∨ x.state = .running ∨ x.state = .holding))
      let overrun : Bool := decide (o.limit ≤ rows ∧ (joins = true ∨ loom ∈ s.arbiter.waiting) ∧
        (x.state = .running ∨ x.state = .holding) ∧ x.reasons.overrun = false)
      ∃ t : State,
        exec (.rowIndex dt s.params.loom.rowEdge) s = .next (finished (if joins then t.consider else t)) ∧
        t.station loom = (if overrun then { x with state := .holding, reasons := { x.reasons with overrun := true } }
          else x) ∧
        (∀ m, m ≠ loom → t.station m = s.station m) ∧
        t.arbiter = { s.arbiter with
          waiting := if joins then s.arbiter.waiting ++ [loom] else s.arbiter.waiting } ∧
        t.inspector = (if overrun = true ∧ x.state = .running then { s.inspector with rowTimer := none }
          else s.inspector) ∧
        t.record i = some { p with body := .panel { q with rows := rows }, overrun := p.overrun || overrun } ∧
        (∀ j, j ≠ i → t.record j = s.record j) ∧
        t.notices = (if overrun then (s.notice (slotOfStation loom) .overrunHold).notices else s.notices) ∧
        t = { s.elapse dt with
          stations := t.stations, inspector := t.inspector, arbiter := t.arbiter
          table := { s.table with records := t.table.records }, notices := t.notices })

/-- R68, R70, R71: at an UNBOUND loom both arrivals are ignored; a row index of the other edge is none; with no open
panel a row index counts no row and sets none awaiting; a sense word with no row awaiting is a stray, which is
noticed and changes nothing else; and one whose panel has left the table counts for the hook miss counters alone
(R78). -/
def Obligations.LoomArrivalsWithoutARow : Prop :=
  (∀ (s : State) (dt : Nat) (word : BitVec 64), s.pins.reset = false →
    ((s.station loom).state = .unbound → ∀ edge,
      exec (.rowIndex dt edge) s = .next (s.elapse dt) ∧ exec (.senseWord dt word) s = .next (s.elapse dt)) ∧
    (∀ edge, edge ≠ s.params.loom.rowEdge → exec (.rowIndex dt edge) s = .next (s.elapse dt)) ∧
    ((s.station loom).state ≠ .unbound → (s.station loom).state ≠ .running → (s.station loom).piece = none →
      s.inspector.awaiting = none → exec (.rowIndex dt s.params.loom.rowEdge) s = .next (s.elapse dt)) ∧
    ((s.station loom).state ≠ .unbound → s.inspector.awaiting = none →
      exec (.senseWord dt word) s = .next ((s.elapse dt).notice 8 .strayInput))) ∧
  ∀ (s : State) (dt : Nat) (word : BitVec 64) (a : AwaitRow) (f : NetOrder), s.pins.reset = false →
    (s.station loom).state ≠ .unbound → s.inspector.awaiting = some a → s.net loom = some f →
    s.panelAt a.panel a.serial = none →
    let missing := missingSet s.params.loom.knotLevel f.hooks word
    let counted := (s.elapse dt).modInspector fun x => { x with
      hookMiss := hookCounts missing f.hooks f.deadRows x.hookMiss, previous := none, awaiting := none }
    exec (.senseWord dt word) s = .next (
      if hookDies missing f.hooks f.deadRows s.inspector.hookMiss then counted.raise loom .deadHook else counted)

/-- R72: the missing set of a sensed row is the hooks in use whose position reports a miss under the knot level, and its
runs are its maximal groups of adjacent hooks, each once, in ascending order: they stand apart, every hook of a run is
missing, and every missing hook is in a run. An empty missing set has no runs; its row still closes and still resets
the counters. -/
def Obligations.RunsAreMaximalGroups : Prop :=
  (∀ (level : KnotLevel) (hooks : Nat) (word : BitVec 64) (h : Nat), hooks ≤ 64 →
    ((missingSet level hooks word).getLsbD h = true ↔ h < hooks ∧ word.getLsbD h = decide (level = .low))) ∧
  (∀ missing : BitVec 64,
    (runsOf missing).Pairwise (fun a b => a.first + a.span < b.first) ∧
    (∀ r ∈ runsOf missing, 1 ≤ r.span ∧ r.first + r.span ≤ 64) ∧
    (∀ h : Nat, missing.getLsbD h = true ↔ ∃ r ∈ runsOf missing, r.first ≤ h ∧ h < r.first + r.span)) ∧
  runsOf 0 = [] ∧
  ∀ (s : State) (dt : Nat) (word : BitVec 64) (a : AwaitRow) (f : NetOrder) (q : Panel), s.pins.reset = false →
    (s.station loom).state ≠ .unbound → s.inspector.awaiting = some a → s.net loom = some f →
    s.panelAt a.panel a.serial = some q → missingSet s.params.loom.knotLevel f.hooks word = 0 →
    ∃ t : State, exec (.senseWord dt word) s = .next t ∧ t.inspector.awaiting = none ∧
      t.inspector.previous = some ⟨a.panel, a.serial, a.row, 0⟩ ∧ t.inspector.mends = s.inspector.mends ∧
      ∀ h : Fin 64, h.1 < f.hooks → t.inspector.hookMiss[h] = 0

/-- R72 to R78: a sense word taken against an awaiting row of a panel that the table holds. The list grows by an entry
for each run while it has room, at the tail; the KNOT entries of the previous row that the word continues become HOLE in
their places; the panel's counts follow, the counters of the hooks in use go up or to 0, the row closes as the previous
row, and MEND_OVERFLOW, HOLE, MEND_ADDED and DEAD_HOOK come in that order (R77). Each new entry takes the next entry id,
or the first after it that no entry of the list holds, and the next entry id stands past the last one taken (R74). That
only entries of before the word are upgraded is assumption 26. -/
def Obligations.SenseWordSortsItsRow : Prop :=
  ∀ (s : State) (dt : Nat) (word : BitVec 64) (a : AwaitRow) (f : NetOrder) (q : Panel), s.pins.reset = false →
    (s.station loom).state ≠ .unbound → s.inspector.awaiting = some a → s.net loom = some f →
    s.panelAt a.panel a.serial = some q → f.hooks ≤ 64 →
    q.knots + 64 ≤ 65535 → q.holes + 112 ≤ 65535 → q.unmended + 64 ≤ 65535 → q.unlisted + 64 ≤ 65535 →
    s.inspector.mends.length ≤ 48 → s.inspector.overflow + 64 ≤ 255 →
    let x := s.inspector
    let missing : BitVec 64 := (match s.params.loom.knotLevel with
      | .high => ~~~word
      | .low => word) &&& BitVec.ofNat 64 (2 ^ f.hooks - 1)
    let prior : Option PrevRow := x.previous.filter fun b => decide (b.panel = a.panel ∧ b.serial = a.serial)
    let touched (set : BitVec 64) (first span : Nat) : Bool :=
      decide (∃ h < span, set.getLsbD (first + h) = true)
    let runs := runsOf missing
    let listed := runs.take (48 - x.mends.length)
    let isHole (r : Run) : Bool := decide (2 ≤ r.span) || match prior with
      | some b => touched b.missing r.first r.span
      | none => false
    let upgraded (e : MendEntry) : Bool := match prior with
      | some b => decide (e.panel = b.panel ∧ e.row = b.row ∧ e.kind = .knot) && touched missing e.first e.span
      | none => false
    let ups := x.mends.countP upgraded
    let raiseIf (due : Bool) (k : FaultKind) (u : State) : State := if due then u.raise loom k else u
    let addedIf (due : Bool) (u : State) : State := if due then u.notice 8 .mendAdded else u
    let deadHook : Bool := (List.finRange 64).any fun h =>
      decide (h.1 < f.hooks) && missing.getLsbD h.1 && decide (x.hookMiss[h] + 1 = f.deadRows)
    ∃ (new : List MendEntry) (nextId : Word16) (counters : Vector Nat 64),
      exec (.senseWord dt word) s = .next (
        raiseIf deadHook .deadHook (addedIf (decide (listed ≠ []))
          (raiseIf (runs.any isHole || decide (0 < ups)) .hole
            (raiseIf (decide (listed.length < runs.length)) .mendOverflow
        (((s.elapse dt).modPanel a.panel fun _ => { q with
          knots := q.knots + runs.countP (fun r => !isHole r) - ups
          holes := q.holes + runs.countP isHole + ups
          unmended := q.unmended + listed.length
          unlisted := q.unlisted + (runs.length - listed.length) }).modInspector fun _ => { x with
            mends := (x.mends.map fun e => if upgraded e then { e with kind := .hole } else e) ++ new
            nextId := nextId
            hookMiss := counters
            overflow := x.overflow + (runs.length - listed.length)
            previous := some ⟨a.panel, a.serial, a.row, missing⟩
            awaiting := none }))))) ∧
      new.map (fun e => (e.panel, e.row, e.first, e.span, e.kind)) =
        listed.map (fun r => (a.panel, a.row, r.first, r.span, if isHole r then MendKind.hole else .knot)) ∧
      (∀ before e after, new = before ++ e :: after →
        let held := (x.mends ++ before).map (·.id)
        let first : Word16 := match before.getLast? with
          | some last => last.id + 1
          | none => x.nextId
        e.id ∉ held ∧ ∃ passed : Nat, passed ≤ held.length ∧ e.id = first + BitVec.ofNat 16 passed ∧
          ∀ k < passed, first + BitVec.ofNat 16 k ∈ held) ∧
      nextId = (match new.getLast? with
        | some last => last.id + 1
        | none => x.nextId) ∧
      (∀ h : Fin 64, counters[h] = if f.hooks ≤ h.1 then x.hookMiss[h]
        else if missing.getLsbD h.1 = false then 0
        else if x.hookMiss[h] < f.deadRows then x.hookMiss[h] + 1 else x.hookMiss[h])

/-- MEND (R81) takes the entry out of the list, which closes up, and moves its panel's unmended count into the mended
one; an id that no entry holds is NOT_FOUND. READ_MENDS (R82) gives 16 entries at most from its start position, each in
the 8 bytes of 11-2.4. -/
def Obligations.MendRemovesItsEntry : Prop :=
  (∀ e : MendEntry, e.bytes = bytes16 e.id ++ [BitVec.ofNat 8 e.panel.1] ++ bytes16 (BitVec.ofNat 16 e.row) ++
    [BitVec.ofNat 8 e.first, BitVec.ofNat 8 e.span, match e.kind with
      | .knot => 0
      | .hole => 1]) ∧
  ∀ (s : State) (dt : Nat) (tag : Byte), s.pins.reset = false → s.port.span ≠ .dropped →
    (∀ id, (∀ e ∈ s.inspector.mends, e.id ≠ id) →
      exec (.mend dt tag id) s = .next (s.answeredOnly dt tag .notFound [])) ∧
    (∀ e p q, e ∈ s.inspector.mends → (∀ e' ∈ s.inspector.mends, e'.id = e.id → e' = e) →
      s.record e.panel = some p → p.body = .panel q → q.mended < 65535 →
      exec (.mend dt tag e.id) s = .next (
        (((s.elapse dt).modInspector fun x => { x with mends := x.mends.filter (·.id != e.id) }).modPanel e.panel
          fun q => { q with unmended := q.unmended - 1, mended := q.mended + 1 }).responded tag s.unread .ok
        (BitVec.ofNat 8 e.panel.1 :: (bytes32 p.serial ++ bytes16 (BitVec.ofNat 16 (q.unmended - 1)))))) ∧
    ∀ first : Byte,
      let x := s.inspector
      let head := [BitVec.ofNat 8 x.mends.length] ++ bytes16 x.nextId ++ [BitVec.ofNat 8 x.overflow] ++
        bytes16 (BitVec.ofNat 16 x.discarded)
      (x.mends.length ≤ first.toNat →
        exec (.readMends dt tag first) s = .next (s.answeredOnly dt tag .empty head)) ∧
      (first.toNat < x.mends.length →
        exec (.readMends dt tag first) s = .next (s.answeredOnly dt tag .ok
          (head ++ ((x.mends.drop first.toNat).take 16).flatMap MendEntry.bytes)))

/-! ### Cuts -/

/-- R98: a cut-done arrival at a CUTTING station with an open piece and a FREE record. The old piece is QUEUED at the
tail of the pack queue, the lowest FREE record is the new open piece, the timer is disarmed, both reservations fall,
OVERRUN is gone, PIECE_CUT is noticed, the high-queue test is applied to the queue as it now stands (R142), and the
station runs or holds with what reasons are left. The new piece starts with the next serial, the tag of its order and
every other field at its start, and the serial counter stands one past the serial (R113, R114). An edge in the other
direction is no cut-done arrival. -/
def Obligations.CutDoneExchangesPieces : Prop :=
  (∀ (s : State) (dt : Nat) (n : Fin 9) (edge : Edge), edge ≠ (s.stationParams n).cutEdge →
    exec (.cutDone dt n edge) s = .next (s.elapse dt)) ∧
  ∀ (s : State) (dt : Nat) (n : Fin 9) (i : Fin 64) (p : Piece) (slot : Fin 16), s.pins.reset = false →
    (s.station n).state = .cutting → (s.station n).piece = some i → s.record i = some p →
    (s.station n).order = some slot → (∃ k, s.record k = none) →
    ∃ (t : State) (j : Fin 64) (b : PieceBody),
      exec (.cutDone dt n (s.stationParams n).cutEdge) s = .next t ∧
      s.record j = none ∧ (∀ k, k.1 < j.1 → s.record k ≠ none) ∧
      t.record i = some { p with state := .queued, closedAt := some (s.elapse dt).clocks.part } ∧
      t.record j = some
        { state := .opened, serial := s.openSerial, station := n, slot := slot, tag := s.orderTag slot
          openedAt := (s.elapse dt).clocks.part, closedAt := none, short := false, overrun := false, label := none
          cap := none, hold := false, body := b, weighing := none, packLabel := none, aside := none } ∧
      (∀ o, s.orderAt slot = some o → s.orderTag slot = o.tag) ∧
      (∀ l, n = ofLay l → b = .coil ⟨0, [], 0, ⟨0, 0, 0, 0⟩,
        if (s.layParams l).meterScale = 0 then none else some 0⟩) ∧
      (n = loom → b = .panel ⟨0, 0, 0, 0, 0, 0, 0, 0⟩) ∧ b = s.newBody n ∧ b.WithinLimits ∧
      t.table.nextSerial = (if s.openSerial = 4294967295 then 1 else s.openSerial + 1) ∧
      t.table.lowArmed = s.table.lowArmed ∧
      (∀ k, k ≠ i → k ≠ j → t.record k = s.record k) ∧ t.pack.queue = s.pack.queue ++ [i] ∧
      t.pack.scale = s.pack.scale ∧ t.cutTimer n = none ∧ (∀ m, m ≠ n → t.cutTimer m = s.cutTimer m) ∧
      t.arbiter.reservedRecords = s.arbiter.reservedRecords - 1 ∧
      t.arbiter.reservedPlaces = s.arbiter.reservedPlaces - 1 ∧ t.arbiter.waiting = s.arbiter.waiting ∧
      t.arbiter.grants = s.arbiter.grants ∧ (t.station n).piece = some j ∧ (t.station n).order = some slot ∧
      (t.station n).reasons = { (s.station n).reasons with overrun := false } ∧
      (t.station n).state = (if (s.station n).reasons.halted = true ∨ (s.station n).reasons.fault = true
        then .holding else .running) ∧
      (∀ m, m ≠ n → t.station m = s.station m) ∧ t.cutOn n = false ∧
      (let high := s.params.part.queueHigh
       let length := s.pack.queue.length + 1
       let noticed : Bool := decide (s.pack.highArmed = true ∧ high ≤ length)
       t.pack.highArmed = (if noticed then false
         else if length ≤ min s.params.part.queueLow (high - 1) then true else s.pack.highArmed) ∧
       ∀ slot k, t.noticeCount slot k =
         if (slot = slotOfStation n ∧ k = NoticeKind.pieceCut.index ∨
             slot = partSlot ∧ k = NoticeKind.packQueueHigh.index ∧ noticed = true) ∧ s.noticeCount slot k < 15
           then s.noticeCount slot k + 1 else s.noticeCount slot k) ∧
      (∀ l, n = ofLay l → (t.station n).state = .running → t.lay l = { s.lay l with
        tracker := ⟨none, [], 0, 0, true, 0, 0, false⟩, demand := (s.layParams l).fStart, lastPulse := none
        stall := some ⟨(s.elapse dt).clocks.mark, (s.layParams l).tMax⟩ }) ∧
      (∀ l, n ≠ ofLay l ∨ (t.station n).state = .holding → t.lay l = s.lay l) ∧
      (n = loom → t.inspector.previous = none ∧ t.inspector.mends = s.inspector.mends ∧
        t.inspector.awaiting = s.inspector.awaiting) ∧ (n ≠ loom → t.inspector = s.inspector) ∧
      t.collector = s.collector ∧ t.orders = s.orders ∧ t.params = s.params ∧ t.port = s.port

/-- R100: a cut-done arrival at a bound station that is not CUTTING is a stray: STRAY_INPUT is noticed in the
station's slot and no other state changes. At an UNBOUND station it is ignored and gives no notice. -/
def Obligations.StrayCutDoneIsNoticedOnly : Prop :=
  ∀ (s : State) (dt : Nat) (n : Fin 9), s.pins.reset = false →
    ((s.station n).state ≠ .unbound → (s.station n).state ≠ .cutting →
      exec (.cutDone dt n (s.stationParams n).cutEdge) s =
        .next ((s.elapse dt).notice (slotOfStation n) .strayInput)) ∧
    ((s.station n).state = .unbound →
      exec (.cutDone dt n (s.stationParams n).cutEdge) s = .next (s.elapse dt))

/-- R101: expiry of the cut timer of a CUTTING station disarms it and raises CUT_TIMEOUT; under a reaction that leaves
the station CUTTING the cut is then aborted (R102), the station holds, grants are considered and the target test is
applied, which places a request anew where the piece stands at its target (R55, R94). Under TRIP the trip aborts the
cut: both reservations fall, the grant list and the lane times stand, and grants are considered (R152). Up to that
consideration nothing changes beside these but the wait, one CUT_TIMEOUT notice and the station's faults. A timer that is
disarmed, or whose station is not CUTTING, does not expire. That the command waits for the time is assumption 3, and
that TABLE_LOW is tested before the consideration is assumption 8. -/
def Obligations.CutTimerExpiryAbortsTheCut : Prop :=
  ∀ (s : State) (dt : Nat) (n : Fin 9),
    (∀ t, s.cutTimer n = some t → (s.station n).state = .cutting →
      let raised := (((s.elapse dt).waitPart t).setCutTimer n none).raise n .cutTimeout
      (s.reaction .cutTimeout = .hold → ∃ aborted : State,
        (let u := aborted.lowTest.consider
         let due : Prop := n ∉ u.arbiter.waiting ∧
           ((u.station n).state = .ready ∨ (u.station n).state = .running ∨ (u.station n).state = .holding) ∧
           ∃ i p o, (u.station n).piece = some i ∧ u.record i = some p ∧ u.boundOrder n = some o ∧
             o.target ≤ p.extent
         (due → exec (.cutTimerExpiry dt n) s =
           .next ({ u with arbiter := { u.arbiter with waiting := u.arbiter.waiting ++ [n] } } : State).consider) ∧
         (¬ due → exec (.cutTimerExpiry dt n) s = .next u)) ∧
        aborted.station n = { s.station n with
          state := .holding, reasons := { (s.station n).reasons with fault := true }
          pulseHigh := (s.station n).pulseHigh && s.permitGiven n } ∧
        (∀ m, m ≠ n → aborted.station m = s.station m) ∧
        aborted.cutTimer n = none ∧ (∀ m, m ≠ n → aborted.cutTimer m = s.cutTimer m) ∧
        aborted.arbiter = { s.arbiter with
          reservedRecords := s.arbiter.reservedRecords - 1, reservedPlaces := s.arbiter.reservedPlaces - 1
          cutTimers := aborted.arbiter.cutTimers } ∧
        (∀ k, inSet (aborted.faults n).set k = (inSet (s.faults n).set k || decide (k = .cutTimeout))) ∧
        aborted.faults n = raised.faults n ∧ (∀ m, m ≠ n → aborted.faults m = s.faults m) ∧
        aborted.notices = (s.notice (slotOfStation n) (.fault .cutTimeout)).notices ∧
        aborted = { (s.elapse dt).waitPart t with
          stations := aborted.stations, arbiter := aborted.arbiter, notices := aborted.notices
          collector := { s.collector with stations := aborted.collector.stations } }) ∧
      (s.reaction .cutTimeout = .trip ∨ s.reaction .cutTimeout = .tripAll →
        exec (.cutTimerExpiry dt n) s = .next raised ∧ (raised.station n).state = .tripped ∧
        raised.cutTimer n = none ∧ (raised.station n).piece = (s.station n).piece ∧ n ∉ raised.arbiter.waiting) ∧
      (s.reaction .cutTimeout = .trip → ∃ u : State, raised = u.lowTest.consider ∧
        u.station n = { s.station n with state := .tripped, reasons := ⟨false, false, false⟩, pulseHigh := false } ∧
        (∀ m, m ≠ n → u.station m = s.station m) ∧
        u.cutTimer n = none ∧ (∀ m, m ≠ n → u.cutTimer m = s.cutTimer m) ∧
        u.arbiter = { s.arbiter with
          waiting := s.arbiter.waiting.filter (· != n), reservedRecords := s.arbiter.reservedRecords - 1
          reservedPlaces := s.arbiter.reservedPlaces - 1, cutTimers := u.arbiter.cutTimers } ∧
        inSet (u.faults n).set .cutTimeout = true ∧ (∀ m, m ≠ n → u.faults m = s.faults m) ∧
        u.notices = (s.notice (slotOfStation n) (.fault .cutTimeout)).notices ∧
        u = { (s.elapse dt).waitPart t with
          stations := u.stations, arbiter := u.arbiter, notices := u.notices
          collector := { s.collector with stations := u.collector.stations } })) ∧
    (s.cutTimer n = none ∨ (s.station n).state ≠ .cutting →
      exec (.cutTimerExpiry dt n) s = .next (s.elapse dt))

/-- R90, R94: an ageing-out, a lane-gap expiry and an any-gap expiry each let the time pass until the reading has the
age in question and start a consideration of grants; the oldest reading leaves the grant list at 600,000 ms of age
and a lane time is absent at 120,000 ms, with nothing else changed; with no such reading nothing happens. That the
commands wait for the age is assumption 3, and that two of these instants which fall together are taken in the order of
their commands is assumption 38. -/
def Obligations.GrantReadingsAge : Prop :=
  ∀ (s : State) (dt : Nat),
    (∀ (i : Fin 8), s.arbiter.grants[i.1]? = none → exec (.ageingOut dt i) s = .next (s.elapse dt)) ∧
    (∀ (i : Fin 8) r, s.arbiter.grants[i.1]? = some r → exec (.ageingOut dt i) s =
      .next (((s.elapse dt).waitPart ⟨r, s.params.part.tWin * 1000⟩).consider)) ∧
    (∀ lane, s.arbiter.laneTime lane = none → exec (.laneGapExpiry dt lane) s = .next (s.elapse dt)) ∧
    (∀ lane r, s.arbiter.laneTime lane = some r → exec (.laneGapExpiry dt lane) s =
      .next (((s.elapse dt).waitPart ⟨r, s.params.part.laneGap * 1000⟩).consider)) ∧
    (s.arbiter.laneA = none → s.arbiter.laneB = none → exec (.anyGapExpiry dt) s = .next (s.elapse dt)) ∧
    (∀ r, (s.arbiter.laneA = some r ∧ s.arbiter.laneB = none ∨ s.arbiter.laneA = none ∧ s.arbiter.laneB = some r ∨
        s.arbiter.laneA = some r ∧ s.arbiter.laneB = some r) →
      exec (.anyGapExpiry dt) s = .next (((s.elapse dt).waitPart ⟨r, s.params.part.anyGap * 1000⟩).consider)) ∧
    (∀ a b, s.arbiter.laneA = some a → s.arbiter.laneB = some b →
      exec (.anyGapExpiry dt) s = .next (((s.elapse dt).waitPart
        ⟨if (s.elapse dt).ageOf a ≤ (s.elapse dt).ageOf b then a else b, s.params.part.anyGap * 1000⟩).consider)) ∧
    (s.arbiter.grants = [] → exec (.grantListDrop dt) s = .next (s.elapse dt)) ∧
    (∀ r rest, s.arbiter.grants = r :: rest → exec (.grantListDrop dt) s =
      .next { (s.elapse dt).waitPart ⟨r, 600000⟩ with arbiter := { s.arbiter with grants := rest } }) ∧
    (∀ lane, s.arbiter.laneTime lane = none → exec (.laneTimeAbsent dt lane) s = .next (s.elapse dt)) ∧
    (∀ r, s.arbiter.laneA = some r → exec (.laneTimeAbsent dt .a) s =
      .next { (s.elapse dt).waitPart ⟨r, 120000⟩ with arbiter := { s.arbiter with laneA := none } }) ∧
    ∀ r, s.arbiter.laneB = some r → exec (.laneTimeAbsent dt .b) s =
      .next { (s.elapse dt).waitPart ⟨r, 120000⟩ with arbiter := { s.arbiter with laneB := none } }

/-- R94: a consideration ends with no eligible request, and the requests that are left keep their order. Every
station whose request it took was RUNNING or HOLDING before and is CUTTING after. A station without a request, and one
whose request stays in the queue, does not change. -/
def Obligations.ConsiderationLeavesNoEligibleRequest : Prop :=
  ∀ s : State,
    (∀ n ∈ s.consider.arbiter.waiting, s.consider.eligible n = false) ∧
    s.consider.arbiter.waiting.Sublist s.arbiter.waiting ∧
    (∀ n, n ∈ s.arbiter.waiting → n ∉ s.consider.arbiter.waiting →
      (s.consider.station n).state = .cutting ∧
      ((s.station n).state = .running ∨ (s.station n).state = .holding)) ∧
    ∀ n, n ∉ s.arbiter.waiting ∨ n ∈ s.consider.arbiter.waiting → s.consider.station n = s.station n

/-- R90, R92 to R95: a request is eligible when the six conditions hold, of which a reading as old as the window or the
gap no longer stands in the way. A consideration with no eligible request changes nothing; otherwise it grants the first
eligible request of the queue and goes on from the state that grant leaves, and with an any-lane gap above 0 it grants
that one alone. The grant appends the reading, of 8 dropping the oldest, sets the lane's time, reserves a record and a
place, arms the cut timer, takes the station to CUTTING with its reasons as they stood, stops a machine that was RUNNING
(R17), and TABLE_LOW is tested at the lower figure (R125), before any further grant (assumption 8). -/
def Obligations.ConsiderationGrantsFirstEligible : Prop :=
  (∀ (s : State) (n : Fin 9),
    let age (r : Word32) : Nat := (s.clocks.part - r).toNat
    let x := s.params.part
    s.eligible n = true ↔
      ((s.station n).state = .running ∨ (s.station n).state = .holding) ∧
      (s.arbiter.grants.filter fun r => decide (age r < x.tWin * 1000)).length < x.kWin ∧
      ((s.stationParams n).lane = .a → ∀ r, s.arbiter.laneA = some r → x.laneGap * 1000 ≤ age r) ∧
      ((s.stationParams n).lane = .b → ∀ r, s.arbiter.laneB = some r → x.laneGap * 1000 ≤ age r) ∧
      (∀ r, s.arbiter.laneA = some r ∨ s.arbiter.laneB = some r → x.anyGap * 1000 ≤ age r) ∧
      ((List.finRange 64).filter fun i => match s.record i with
        | some p => decide (p.state = .queued ∨ p.state = .atScale ∨ p.state = .weighed)
        | none => false).length + s.arbiter.reservedPlaces < 8 ∧
      s.arbiter.reservedRecords < ((List.finRange 64).filter fun i => decide (s.record i = none)).length) ∧
  ∀ s : State, ((∀ n ∈ s.arbiter.waiting, s.eligible n = false) → s.consider = s) ∧
  ∀ (before after : List (Fin 9)) (n : Fin 9),
    s.arbiter.waiting = before ++ n :: after → (∀ m ∈ before, s.eligible m = false) → s.eligible n = true →
    n ∉ before → n ∉ after → s.arbiter.grants.length ≤ 8 →
    let now := s.clocks.part
    let figure := s.figure - 1
    ∃ t : State, s.consider = t.consider ∧ (0 < s.params.part.anyGap → s.consider = t) ∧
      t.arbiter.waiting = before ++ after ∧
      t.arbiter.grants = (s.arbiter.grants.drop (s.arbiter.grants.length - 7)) ++ [now] ∧
      t.arbiter.laneA = (if (s.stationParams n).lane = .a then some now else s.arbiter.laneA) ∧
      t.arbiter.laneB = (if (s.stationParams n).lane = .b then some now else s.arbiter.laneB) ∧
      t.arbiter.reservedRecords = s.arbiter.reservedRecords + 1 ∧
      t.arbiter.reservedPlaces = s.arbiter.reservedPlaces + 1 ∧
      t.cutTimer n = some ⟨now, s.params.part.cutTimeout * 1000⟩ ∧ (∀ m, m ≠ n → t.cutTimer m = s.cutTimer m) ∧
      t.station n = { s.station n with
        state := .cutting, pulseHigh := (s.station n).pulseHigh && s.permitGiven n } ∧
      (∀ m, m ≠ n → t.station m = s.station m) ∧
      t.cutStatus n = .granted ∧ t.cutOn n = true ∧ t.holdOn n = true ∧
      (∀ l, n = ofLay l → (s.station n).state = .running →
        t.lay l = { s.lay l with demand := 0, stall := none, lastPulse := none }) ∧
      (∀ l, n = ofLay l → (s.station n).state = .holding → t.lay l = s.lay l) ∧
      (∀ l, n ≠ ofLay l → t.lay l = s.lay l) ∧
      t.inspector = (if n = loom ∧ (s.station n).state = .running then { s.inspector with rowTimer := none }
        else s.inspector) ∧
      t.table.lowArmed = decide (s.params.part.lowWater < figure) ∧
      t.notices = (if figure ≤ s.params.part.lowWater ∧ s.table.lowArmed = true
        then (s.notice 9 .tableLow).notices else s.notices) ∧
      t = { s with
        stations := t.stations, lays := t.lays, inspector := t.inspector, arbiter := t.arbiter
        table := { s.table with lowArmed := t.table.lowArmed }, notices := t.notices }

/-! ### Piece requests -/

/-- AMEND_PIECE (R117, R120, R121, R122, R83): what each item does to the record its serial names and where it is
refused, items together, an item given twice, and a request with none. A serial that is not the record's is answered
before any item is looked at. That an item given twice is answered before any item is judged against the record is
assumption 14. -/
def Obligations.AmendPieceAppliesItems : Prop :=
  ∀ (s : State) (dt : Nat) (tag : Byte) (i : Fin 64) (p : Piece),
    s.pins.reset = false → s.port.span ≠ .dropped → s.record i = some p →
    let amend (items : List AmendItem) := exec (.amendPiece dt tag (BitVec.ofNat 8 i.1) p.serial items) s
    let refused (status : Status) : Host.Outcome State Fault Refusal := .next (s.answeredOnly dt tag status [])
    let changed (f : Piece → Piece) (status : Status) : Host.Outcome State Fault Refusal :=
      .next (((s.elapse dt).modPiece i f).responded tag s.unread status (f p).amendBytes)
    let capped (c : Option Cap) (q : Piece) : Piece := if capDepth c < capDepth q.cap then q else
      { q with cap := c, weighing := q.weighing.map fun w => { w with grade := w.computed.worse (capGrade c) } }
    let capStatus (c : Option Cap) : Status := if capDepth c < capDepth p.cap then .clamped else .ok
    (∀ v items, v ≠ p.serial →
      exec (.amendPiece dt tag (BitVec.ofNat 8 i.1) v items) s = refused .stalePiece) ∧
    (∀ b : Byte, 64 ≤ b.toNat → ∀ v items, exec (.amendPiece dt tag b v items) s = refused .badRequest) ∧
    (amend [] = .next (s.answeredOnly dt tag .ok p.amendBytes)) ∧
    (∀ v, amend [.label v] = changed (fun q => { q with label := some v }) .ok) ∧
    (amend [.labelNone] = changed (fun q => { q with label := none }) .ok) ∧
    (∀ c, p.state ≠ .atScale → amend [.cap (capCode c)] = changed (capped c) (capStatus c)) ∧
    (∀ c, p.state = .atScale → amend [.cap (capCode c)] = refused .wrongState) ∧
    (∀ h : Bool, let b : Byte := if h then 1 else 0
      ((p.state = .opened ∨ p.state = .queued) → amend [.hold b] = changed (fun q => { q with hold := h }) .ok) ∧
      (¬ (p.state = .opened ∨ p.state = .queued) → amend [.hold b] = refused .wrongState) ∧
      ((p.state = .opened ∨ p.state = .queued) → ∀ v c, amend [.label v, .cap (capCode c), .hold b] =
        changed (fun q => { capped c q with label := some v, hold := h }) (capStatus c)) ∧
      (p.state = .queued → ∀ c, p.body = .coil c → amend [.hold b, .waive] = refused .wrongKind)) ∧
    (∀ c, p.body = .coil c → amend [.waive] = refused .wrongKind) ∧
    (∀ q, p.body = .panel q → ¬ (p.state = .opened ∨ p.state = .queued ∨ p.state = .aside) →
      amend [.waive] = refused .wrongState) ∧
    (∀ q, p.body = .panel q → (p.state = .opened ∨ p.state = .queued ∨ p.state = .aside) →
      let waived : Panel := { q with
        waived := min 65535 (q.waived + s.inspector.mends.countP (·.panel == i) + q.unlisted)
        unmended := 0, unlisted := 0 }
      amend [.waive] = .next (
        (((s.elapse dt).modPiece i fun p => { p with body := .panel waived }).modInspector fun x => { x with
          mends := x.mends.filter (·.panel != i) }).responded tag s.unread .ok
        { p with body := .panel waived }.amendBytes)) ∧
    (∀ v w, amend [.label v, .label w] = refused .badRequest ∧ amend [.label v, .labelNone] = refused .badRequest) ∧
    amend [.waive, .waive] = refused .badRequest ∧ (∀ b c, amend [.cap b, .cap c] = refused .badRequest) ∧
    ∀ b c, amend [.hold b, .hold c] = refused .badRequest

/-- RETIRE_PIECE (R117, R123, R84, R125, R94): a PACKED or ASIDE record becomes FREE, its mend entries are discarded
and counted, TABLE_LOW is tested at the higher figure, and grants are considered (in that order: assumption 8). Other
states, a serial that is not the record's, and a number above 63 are refused. -/
def Obligations.RetirePieceFreesRecord : Prop :=
  ∀ (s : State) (dt : Nat) (tag : Byte) (i : Fin 64), s.pins.reset = false → s.port.span ≠ .dropped →
    (∀ p, s.record i = some p → (p.state = .packed ∨ p.state = .aside) →
      let entries := s.inspector.mends.countP (·.panel == i)
      ∃ t : State,
        exec (.retirePiece dt tag (BitVec.ofNat 8 i.1) p.serial) s =
          .next (t.lowTest.consider.responded tag s.unread .ok [BitVec.ofNat 8 entries]) ∧
        t.record i = none ∧ (∀ j, j ≠ i → t.record j = s.record j) ∧ t.freeCount = s.freeCount + 1 ∧
        t.inspector = { s.inspector with
          mends := s.inspector.mends.filter (·.panel != i)
          discarded := min 65535 (s.inspector.discarded + entries) } ∧
        t = { s.elapse dt with inspector := t.inspector, table := { s.table with records := t.table.records } }) ∧
    (∀ p, s.record i = some p → ¬ (p.state = .packed ∨ p.state = .aside) →
      exec (.retirePiece dt tag (BitVec.ofNat 8 i.1) p.serial) s = .next (s.answeredOnly dt tag .wrongState [])) ∧
    (∀ v, (∀ p, s.record i = some p → p.serial ≠ v) →
      exec (.retirePiece dt tag (BitVec.ofNat 8 i.1) v) s = .next (s.answeredOnly dt tag .stalePiece [])) ∧
    ∀ b : Byte, 64 ≤ b.toNat → ∀ v,
      exec (.retirePiece dt tag b v) s = .next (s.answeredOnly dt tag .badRequest [])

/-! ### The packing terminal -/

/-- NEXT and the scale timer (R131, R132, R142): the first ready piece of the queue goes to the scale, its timer armed;
with the scale occupied or no piece ready nothing changes; and at the expiry a piece still AT_SCALE goes back to the
head of the queue and SCALE_TIMEOUT is noticed. The high-queue test (R142) notices PACK_QUEUE_HIGH once at or above the
high mark, and is armed anew at or below the low mark, taken as the high mark less 1 where it is not below it. That the
expiry command waits for the time is assumption 3. -/
def Obligations.ScaleTakesFirstReadyPiece : Prop :=
  (∀ s : State,
    let high := s.params.part.queueHigh
    let length := s.pack.queue.length
    let c := s.noticeCount 9 NoticeKind.packQueueHigh.index
    let t := s.highTest
    (s.pack.highArmed = true → high ≤ length →
      t.pack.highArmed = false ∧ t.noticeCount 9 NoticeKind.packQueueHigh.index = if c < 15 then c + 1 else c) ∧
    (s.pack.highArmed = false ∨ length < high → t.notices = s.notices ∧
      t.pack.highArmed = (s.pack.highArmed || decide (length ≤ s.params.part.queueLow ∧ length ≤ high - 1))) ∧
    (∀ slot k, slot ≠ 9 ∨ k ≠ NoticeKind.packQueueHigh.index → t.noticeCount slot k = s.noticeCount slot k) ∧
    t = { s with
      pack := { s.pack with highArmed := t.pack.highArmed }
      notices := { s.notices with slots := t.notices.slots } }) ∧
  ∀ (s : State) (dt : Nat),
    (s.pins.reset = false → s.txRoom → s.pack.scale ≠ none →
      exec (.packNext dt) s = .next (s.packAnsweredOnly dt 1 .scaleOccupied [])) ∧
    (s.pins.reset = false → s.txRoom → s.pack.scale = none → (∀ i ∈ s.pack.queue, s.readyAt i = false) →
      exec (.packNext dt) s = .next (s.packAnsweredOnly dt 1 .empty [])) ∧
    (∀ before i after p, s.pins.reset = false → s.txRoom → s.pack.scale = none →
      s.pack.queue = before ++ i :: after → (∀ j ∈ before, s.readyAt j = false) → i ∉ after →
      s.record i = some p → p.ready = true →
      ∃ t : State,
        exec (.packNext dt) s = .next (t.highTest.packResponded 1 .ok (BitVec.ofNat 8 i.1 ::
          (bytes32 p.serial ++ [p.kindByte, BitVec.ofNat 8 p.station.1] ++ bytes32 p.tag ++
            [if p.label = none then 0 else 1] ++ bytes32 (p.label.getD 0) ++ bytes32 (BitVec.ofNat 32 p.extent) ++
            [capCode p.cap]))) ∧
        t.record i = some { p with state := .atScale } ∧ (∀ j, j ≠ i → t.record j = s.record j) ∧
        t.pack = { s.pack with
          queue := before ++ after, scale := some i
          scaleTimer := some ⟨(s.elapse dt).clocks.part, s.params.part.scaleTimeout * 1000⟩ } ∧
        t = { s.elapse dt with pack := t.pack, table := { s.table with records := t.table.records } }) ∧
    (∀ timer i p, s.pack.scaleTimer = some timer → s.pack.scale = some i → s.record i = some p →
      p.state = .atScale →
      ∃ t : State, exec (.scaleTimerExpiry dt) s = .next ((t.notice 9 .scaleTimeout).highTest) ∧
        t.record i = some { p with state := .queued } ∧ (∀ j, j ≠ i → t.record j = s.record j) ∧
        t.pack = { s.pack with queue := i :: s.pack.queue, scale := none, scaleTimer := none } ∧
        t = { (s.elapse dt).waitPart timer with
          pack := t.pack, table := { s.table with records := t.table.records } }) ∧
    (s.pack.scaleTimer = none → exec (.scaleTimerExpiry dt) s = .next (s.elapse dt))

/-- WEIGH of the scale occupant (R133 to R137): the weight is held at 2,000,000 g, the expected weight and the
deviation are formed from the order, the computed grade by the limits of its kind, the grade as the worse of that and
the cap; the piece is WEIGHED, its timer disarmed, and PIECE_GRADED noticed. -/
def Obligations.WeighGradesTheOccupant : Prop :=
  ∀ (s : State) (dt : Nat) (i : Fin 64) (p : Piece) (o : Order) (weight : Word32), s.pins.reset = false →
    s.txRoom → s.record i = some p → (p.state = .atScale ∨ p.state = .weighed) → s.orderAt p.slot = some o →
    ∃ w : Weighing,
      exec (.packWeigh dt (BitVec.ofNat 8 i.1) p.serial weight) s = .next (
        ((({ s.elapse dt with pack := { s.pack with
            scaleTimer := if p.state = .atScale then none else s.pack.scaleTimer } } : State).modPiece i fun p =>
          { p with state := .weighed, weighing := some w }).notice 9 .pieceGraded).packResponded 2
          (if 2000000 < weight.toNat then .clamped else .ok)
          (bytes32 (BitVec.ofNat 32 w.weight) ++ bytes32 (BitVec.ofNat 32 w.expected) ++
            [if w.deviation = none then 0 else 1] ++ bytes32 (BitVec.ofInt 32 (w.deviation.getD 0)) ++
            [w.computed.code, w.grade.code])) ∧
      w.weight = min 2000000 weight.toNat ∧
      (w.expected = 0 → w.deviation = none) ∧
      (w.expected ≠ 0 → w.deviation = some ((((w.weight : Int) - w.expected) * 1000).tdiv w.expected)) ∧
      w.grade = w.computed.worse (capGrade p.cap) ∧
      (∀ f c, o.body = .rope f → p.body = .coil c →
        let total := c.splices.length + c.spliceOverflow
        let near (tol : Nat) : Prop := ∃ d, w.deviation = some d ∧ d.natAbs ≤ tol
        let a : Prop := c.spliceOverflow = 0 ∧ total ≤ f.spliceA ∧ c.quality.excursions ≤ f.excA ∧ near f.tolA
        let b : Prop := c.spliceOverflow = 0 ∧ total ≤ f.spliceB ∧ c.quality.excursions ≤ f.excB ∧ near f.tolB
        w.expected = min 4294967295 (roundDiv (c.length.toNat / 1000000 * f.density) 1000000) ∧
        (w.computed = .a ↔ a) ∧ (w.computed = .b ↔ ¬ a ∧ b) ∧ (w.computed = .reject ↔ ¬ a ∧ ¬ b)) ∧
      (∀ f q, o.body = .net f → p.body = .panel q →
        let near (tol : Nat) : Prop := ∃ d, w.deviation = some d ∧ d.natAbs ≤ tol
        let clean : Prop := q.waived = 0 ∧ q.unmended = 0 ∧ q.unlisted = 0
        let a : Prop := clean ∧ q.holes = 0 ∧ q.knots ≤ f.knotsA ∧ q.unsensed = 0 ∧ near f.tolA
        let b : Prop := clean ∧ q.holes ≤ f.holesB ∧ q.knots ≤ f.knotsB ∧ near f.tolB
        w.expected = min 4294967295 (roundDiv (q.rows * f.rowMass) 1000) ∧
        (w.computed = .a ↔ a) ∧ (w.computed = .b ↔ ¬ a ∧ b) ∧ (w.computed = .reject ↔ ¬ a ∧ ¬ b))

/-- PACKED and ASIDE of a piece at the scale (R139, R140): the record takes its last state with the label or the
reason, the scale stands empty, its timer is disarmed, and grants are considered. A piece graded REJECT is refused
PACKED. -/
def Obligations.PackedAndAsideFreeTheScale : Prop :=
  ∀ (s : State) (dt : Nat) (i : Fin 64) (p : Piece), s.pins.reset = false → s.txRoom → s.record i = some p →
    (∀ w label, p.state = .weighed → p.weighing = some w → w.grade ≠ .reject →
      exec (.packPacked dt (BitVec.ofNat 8 i.1) p.serial label) s = .next (
        (({ (s.elapse dt).modPiece i fun p => { p with state := .packed, packLabel := some label } with
          pack := { s.pack with scale := none } } : State).consider).packResponded 3 .ok [w.grade.code])) ∧
    (∀ w label, p.state = .weighed → p.weighing = some w → w.grade = .reject →
      exec (.packPacked dt (BitVec.ofNat 8 i.1) p.serial label) s =
        .next (s.packAnsweredOnly dt 3 .gradeReject [])) ∧
    (p.state = .atScale ∨ p.state = .weighed →
      let reason : AsideReason := match p.weighing with
        | some w => if w.grade = .reject then .reject else .packer
        | none => .packer
      exec (.packAside dt (BitVec.ofNat 8 i.1) p.serial) s = .next (
        (({ (s.elapse dt).modPiece i fun p => { p with state := .aside, aside := some reason } with
          pack := { s.pack with
            scale := none, scaleTimer := if p.state = .atScale then none else s.pack.scaleTimer } } : State
          ).consider).packResponded 4 .ok [reason.code]))

/-- R138, R141: the answers of the terminal's requests by the record they name: BAD_REQUEST above 63, STALE_PIECE
where the serial is not the record's, and the table of states for WEIGH, PACKED and ASIDE, all without effect. QUERY
is answered in every state and changes nothing; its fields are those of R177's table. Every request of the terminal is
answered with its own kind, and one with a status other than OK and CLAMPED has no effect and no field after the status,
an EMPTY answer to NEXT included (R177). -/
def Obligations.TerminalRequestsAreJudgedByRecord : Prop :=
  let two (v : Nat) : List Byte := bytes16 (BitVec.ofNat 16 v)
  let four (v : Nat) : List Byte := bytes32 (BitVec.ofNat 32 v)
  (∀ (s : State) (i : Fin 64) (p : Piece), s.record i = some p →
    s.queryBytes i = [p.state.code] ++ bytes32 p.serial ++
      [BitVec.ofNat 8 (match p.body with
        | .coil _ => 0
        | .panel _ => 1), BitVec.ofNat 8 p.station.1] ++ bytes32 p.tag ++
      [BitVec.ofNat 8 ((if p.short then 1 else 0) + (if p.label ≠ none then 2 else 0) +
        (if p.state = .queued ∧ p.ready = true then 4 else 0) +
        if p.weighing ≠ none ∨ p.packLabel ≠ none ∨ p.aside ≠ none then 8 else 0)] ++
      bytes32 (p.label.getD 0) ++ [capCode p.cap, s.queuePosition i p] ++
      (match p.body with
        | .coil c => four (c.length.toNat / 1000000) ++ four (c.splices.length + c.spliceOverflow) ++
          two c.quality.excursions
        | .panel q => two q.rows ++ two q.knots ++ two q.holes ++ two q.unsensed ++ two q.unmended ++
          two q.unlisted ++ two q.waived) ++ p.packingBytes) ∧
  ∀ (s : State) (dt : Nat), s.pins.reset = false → s.txRoom →
    (let settled (kind : Byte) (c : Instr) : Prop := ∃ (t : State) (status : Status) (fields : List Byte),
      exec c s = .next (t.packResponded kind status fields) ∧ t.pack.tx = s.pack.tx ∧
      (status ≠ .ok → status ≠ .clamped → fields = [] ∧ t = s.elapse dt)
     settled 1 (.packNext dt) ∧ ∀ b v w, settled 2 (.packWeigh dt b v w) ∧ settled 3 (.packPacked dt b v w) ∧
       settled 4 (.packAside dt b v) ∧ settled 5 (.packQuery dt b none) ∧ settled 5 (.packQuery dt b (some v))) ∧
    (∀ b : Byte, 64 ≤ b.toNat → ∀ v w,
      exec (.packWeigh dt b v w) s = .next (s.packAnsweredOnly dt 2 .badRequest []) ∧
      exec (.packPacked dt b v w) s = .next (s.packAnsweredOnly dt 3 .badRequest []) ∧
      exec (.packAside dt b v) s = .next (s.packAnsweredOnly dt 4 .badRequest []) ∧
      exec (.packQuery dt b none) s = .next (s.packAnsweredOnly dt 5 .badRequest []) ∧
      exec (.packQuery dt b (some v)) s = .next (s.packAnsweredOnly dt 5 .badRequest [])) ∧
    ∀ i : Fin 64, let b : Byte := BitVec.ofNat 8 i.1
      (∀ v w, (∀ p, s.record i = some p → p.serial ≠ v) →
        exec (.packWeigh dt b v w) s = .next (s.packAnsweredOnly dt 2 .stalePiece []) ∧
        exec (.packPacked dt b v w) s = .next (s.packAnsweredOnly dt 3 .stalePiece []) ∧
        exec (.packAside dt b v) s = .next (s.packAnsweredOnly dt 4 .stalePiece []) ∧
        exec (.packQuery dt b (some v)) s = .next (s.packAnsweredOnly dt 5 .stalePiece [])) ∧
      (∀ p, s.record i = some p → ∀ w,
        let weigh := exec (.packWeigh dt b p.serial w) s
        let packed := exec (.packPacked dt b p.serial w) s
        let aside := exec (.packAside dt b p.serial) s
        (p.state = .opened ∨ p.state = .packed ∨ p.state = .aside →
          weigh = .next (s.packAnsweredOnly dt 2 .wrongState []) ∧
          packed = .next (s.packAnsweredOnly dt 3 .wrongState []) ∧
          aside = .next (s.packAnsweredOnly dt 4 .wrongState [])) ∧
        (p.state = .queued →
          weigh = .next (s.packAnsweredOnly dt 2 .tooLate []) ∧
          packed = .next (s.packAnsweredOnly dt 3 .tooLate []) ∧
          aside = .next (s.packAnsweredOnly dt 4 .tooLate [])) ∧
        (p.state = .atScale → packed = .next (s.packAnsweredOnly dt 3 .wrongState []))) ∧
      (s.record i = none → exec (.packQuery dt b none) s = .next (s.packAnsweredOnly dt 5 .ok [0])) ∧
      ∀ p, s.record i = some p →
        exec (.packQuery dt b none) s = .next (s.packAnsweredOnly dt 5 .ok (s.queryBytes i)) ∧
        exec (.packQuery dt b (some p.serial)) s = .next (s.packAnsweredOnly dt 5 .ok (s.queryBytes i))

/-- R143, R144: a frame is discarded, with one more in the framing count and PACK_FRAMING noticed, at a length of 0 or
above 40, at a line fault within it, where it fails a check at its end, and where 4 answers already wait; characters and
line faults outside a frame are passed over without count. The checks at the end: its CRC bytes, high byte first, are
the CRC over its length, kind and fields; its kind is NEXT, WEIGH, PACKED, ASIDE or QUERY, 01h to 05h; and its length is
the one 11-3 gives for the kind: 1, 10, 10, 6, and 2 or 6. An answer joins the end of those waiting, and the receiver
hunts: start byte, length, kind, status code, fields, and the CRC from FFFFh against 1021h, each byte's most significant
bit first, over all from the length to the last field (R177, 11-3). PACK_ANSWER_SENT takes the oldest answer waiting.
What PACK_FRAME_DISCARD makes of a well-formed frame is assumption 16. The record pack.lastSent of the answer just sent
is the model's own field (assumption 22). -/
def Obligations.PackFramesAreDiscardedAndAnswersSent : Prop :=
  let crcBit (c : Word16) (b : Bool) : Word16 := if c.msb != b then (c <<< 1) ^^^ 0x1021#16 else c <<< 1
  let crcOf (bytes : List Byte) : Word16 := bytes.foldl
    (fun c b => ([7, 6, 5, 4, 3, 2, 1, 0] : List Nat).foldl (fun c j => crcBit c (b.getLsbD j)) c) 0xFFFF#16
  crcOf [0x31#8, 0x32#8, 0x33#8, 0x34#8, 0x35#8, 0x36#8, 0x37#8, 0x38#8, 0x39#8] = 0x29B1#16 ∧
  (∀ (s : State) (kind : Byte) (status : Status) (fields : List Byte),
    let counted := [BitVec.ofNat 8 (fields.length + 2), kind, statusCode status] ++ fields
    s.packResponded kind status fields = { s with pack := { s.pack with
      receiver := .hunting
      tx := s.pack.tx ++ [[0xA5#8] ++ counted ++
        [BitVec.ofNat 8 ((crcOf counted).toNat / 256), BitVec.ofNat 8 (crcOf counted).toNat]] } }) ∧
  ∀ (s : State) (dt : Nat),
    let discarded : State := ({ s.elapse dt with pack := { s.pack with
      receiver := .hunting
      framing := if s.pack.framing < 65535 then s.pack.framing + 1 else s.pack.framing } } : State).notice 9
        .packFraming
    (s.pins.reset = false → s.pack.receiver = .hunting →
      (∀ len : Byte, (len = 0 ∨ 40 < len.toNat) →
        exec (.packFrameDiscard dt [.whole 0xA5#8, .whole len]) s = .next discarded) ∧
      (∀ (len : Byte) (rest : List Byte), len ≠ 0 → len.toNat ≤ 40 → rest.length = len.toNat + 2 →
        judgePackFrame 0 (len :: rest) = none →
        exec (.packFrameDiscard dt ([.whole 0xA5#8, .whole len] ++ rest.map PackChar.whole)) s = .next discarded) ∧
      (∀ (len kind : Byte) (fields : List Byte) (hi lo : Byte), len.toNat ≤ 40 → len.toNat = fields.length + 1 →
        let crcWrong : Prop := hi.toNat * 256 + lo.toNat ≠ (crcOf (len :: kind :: fields)).toNat
        let kindUnknown : Prop := kind.toNat = 0 ∨ 5 < kind.toNat
        let lengthWrong : Prop :=
          kind = 1 ∧ len ≠ 1 ∨ (kind = 2 ∨ kind = 3) ∧ len ≠ 10 ∨ kind = 4 ∧ len ≠ 6 ∨ kind = 5 ∧ len ≠ 2 ∧ len ≠ 6
        (judgePackFrame dt (len :: kind :: fields ++ [hi, lo]) = none ↔ crcWrong ∨ kindUnknown ∨ lengthWrong) ∧
        (crcWrong ∨ kindUnknown ∨ lengthWrong →
          exec (.packFrameDiscard dt ([.whole 0xA5#8, .whole len, .whole kind] ++ fields.map PackChar.whole ++
            [.whole hi, .whole lo])) s = .next discarded)) ∧
      (∀ (len : Byte) (rest : List Byte) (b : Byte), len ≠ 0 → len.toNat ≤ 40 → rest.length < len.toNat + 2 →
        exec (.packFrameDiscard dt ([.whole 0xA5#8, .whole len] ++ rest.map PackChar.whole ++ [.noStop b])) s =
          .next discarded ∧
        exec (.packFrameDiscard dt ([.whole 0xA5#8, .whole len] ++ rest.map PackChar.whole ++ [.lineBreak])) s =
          .next discarded) ∧
      (∀ b : Byte, b ≠ 0xA5#8 → exec (.packFrameDiscard dt [.whole b, .noStop b, .lineBreak]) s =
        .next (s.elapse dt))) ∧
    (s.pins.reset = false → ¬ s.txRoom →
      exec (.packNext dt) s = .next discarded ∧
      (∀ b v w, exec (.packWeigh dt b v w) s = .next discarded ∧
        exec (.packPacked dt b v w) s = .next discarded ∧ exec (.packAside dt b v) s = .next discarded) ∧
      ∀ b v, exec (.packQuery dt b v) s = .next discarded) ∧
    (∀ a rest, s.pack.tx = a :: rest → exec (.packAnswerSent dt) s =
      .next { s.elapse dt with pack := { s.pack with tx := rest, lastSent := a } }) ∧
    (s.pack.tx = [] → exec (.packAnswerSent dt) s = .next (s.elapse dt))

/-! ### Faults -/

/-- R150 to R152, R154: a fault joins the set, fills an absent first-fault record, is noticed, and has the reaction
of the table against the station's state at that moment; a TRIPPED station only records it. TRIP at a CUTTING station
aborts the cut (R102): its timer is disarmed, both reservations fall, its piece, the grant list and the lane times
stand, TABLE_LOW is tested, and grants are considered (in that order: assumption 8). -/
def Obligations.FaultIsRecordedNoticedAndAnswered : Prop :=
  ∀ (s : State) (n : Fin 9) (k : FaultKind), s.reaction k ≠ .tripAll →
    let t := s.raise n k
    let x := s.station n
    let c := s.noticeCount (slotOfStation n) (NoticeKind.fault k).index
    (∀ k', inSet (t.faults n).set k' = (inSet (s.faults n).set k' || decide (k' = k))) ∧
    (∀ f, (s.faults n).first = some f → (t.faults n).first = some f) ∧
    ((s.faults n).first = none → ∃ f, (t.faults n).first = some f ∧ f.kind = k ∧ f.time = s.clocks.part ∧
      f.source = none ∧ (x.piece = none → f.piece = none ∧ f.extent = none) ∧
      ∀ i p, x.piece = some i → s.record i = some p → f.piece = some (i, p.serial) ∧ f.extent = some p.extent) ∧
    (∀ m, m ≠ n → t.faults m = s.faults m) ∧
    t.noticeCount (slotOfStation n) (NoticeKind.fault k).index = (if c < 15 then c + 1 else c) ∧
    ((s.reaction k = .note ∨ x.state = .tripped ∨ x.state = .unbound) →
      t = { s with collector := t.collector, notices := t.notices }) ∧
    (s.reaction k = .hold → (x.state = .running ∨ x.state = .holding ∨ x.state = .cutting) →
      (t.station n).state = (if x.state = .running then .holding else x.state) ∧
      (t.station n).reasons = { x.reasons with fault := true } ∧ (t.station n).piece = x.piece ∧
      (∀ m, m ≠ n → t.station m = s.station m) ∧ t.arbiter = s.arbiter ∧ t.table = s.table) ∧
    (s.reaction k = .hold → x.state = .ready → t = { s with collector := t.collector, notices := t.notices }) ∧
    (s.reaction k = .trip → x.state ≠ .tripped → x.state ≠ .unbound →
      (t.station n).state = .tripped ∧ (t.station n).reasons = ⟨false, false, false⟩ ∧
      (t.station n).piece = x.piece ∧ (t.station n).order = x.order ∧ n ∉ t.arbiter.waiting ∧
      t.permitGiven n = false ∧ t.holdOn n = true ∧ t.cutOn n = false ∧ t.table.records = s.table.records ∧
      t.pack = s.pack ∧
      (x.state = .cutting → t.cutTimer n = none ∧ ∃ u : State, t = u.lowTest.consider ∧
        u.station n = { x with state := .tripped, reasons := ⟨false, false, false⟩, pulseHigh := false } ∧
        (∀ m, m ≠ n → u.station m = s.station m) ∧
        u.cutTimer n = none ∧ (∀ m, m ≠ n → u.cutTimer m = s.cutTimer m) ∧
        u.arbiter = { s.arbiter with
          waiting := s.arbiter.waiting.filter (· != n), reservedRecords := s.arbiter.reservedRecords - 1
          reservedPlaces := s.arbiter.reservedPlaces - 1, cutTimers := u.arbiter.cutTimers } ∧
        u.notices = (s.notice (slotOfStation n) (.fault k)).notices ∧
        u = { s with
          stations := u.stations, arbiter := u.arbiter, collector := t.collector, notices := u.notices }) ∧
      (x.state ≠ .cutting → (∀ m, m ≠ n → t.station m = s.station m) ∧ t.table = s.table ∧
        t.arbiter = { s.arbiter with waiting := s.arbiter.waiting.filter (· != n) })) ∧
    (∀ l, n = ofLay l → s.reaction k ≠ .note → x.state = .running →
      t.lay l = { s.lay l with demand := 0, stall := none, lastPulse := none }) ∧
    ∀ l, n ≠ ofLay l → x.state ≠ .cutting → t.lay l = s.lay l

/-- R153: TRIP_ALL at a bound station that is not TRIPPED leaves every bound station TRIPPED; each other one that was
not TRIPPED has PEER_TRIP in its set, and a record that was absent names the station of the TRIP_ALL. UNBOUND
stations and those already TRIPPED are not reached. -/
def Obligations.TripAllTripsEveryBoundStation : Prop :=
  ∀ (s : State) (n : Fin 9) (k : FaultKind), s.reaction k = .tripAll → s.reaction .peerTrip = .trip →
    (s.station n).state ≠ .unbound → (s.station n).state ≠ .tripped →
    let t := s.raise n k
    (∀ m, (s.station m).state ≠ .unbound →
      (t.station m).state = .tripped ∧ (t.station m).piece = (s.station m).piece) ∧
    (∀ m, m ≠ n → (s.station m).state = .unbound ∨ (s.station m).state = .tripped →
      t.station m = s.station m ∧ t.faults m = s.faults m) ∧
    (∀ m, m ≠ n → (s.station m).state ≠ .unbound → (s.station m).state ≠ .tripped →
      inSet (t.faults m).set .peerTrip = true ∧
      ((s.faults m).first = none → ∃ f, (t.faults m).first = some f ∧ f.kind = .peerTrip ∧ f.source = some n)) ∧
    inSet (t.faults n).set k = true ∧ t.table.records = s.table.records

/-- R157: expiry of the link silence timer raises LINK_LOST at every station that is bound and not TRIPPED, notices
it in the part slot, and leaves the timer disarmed. That the command waits for the time is assumption 3, and that the
stations are those that stood so at the expiry is assumption 6. -/
def Obligations.LinkSilenceExpiryRaisesLinkLost : Prop :=
  ∀ (s : State) (dt : Nat),
    (∀ timer, s.collector.linkTimer = some timer → ∃ t : State,
      exec (.linkSilenceExpiry dt) s = .next t ∧ t.collector.linkTimer = none ∧
      (∀ n, (s.station n).state ≠ .unbound → (s.station n).state ≠ .tripped →
        inSet (t.faults n).set .linkLost = true ∧
        (s.reaction .linkLost = .hold → (s.station n).state = .running →
          (t.station n).state = .holding ∧ (t.station n).reasons = { (s.station n).reasons with fault := true })) ∧
      (∀ n, (s.station n).state = .unbound ∨ (s.station n).state = .tripped →
        t.station n = s.station n ∧ t.faults n = s.faults n) ∧
      (let c := s.noticeCount 9 (NoticeKind.fault .linkLost).index
       t.noticeCount 9 (NoticeKind.fault .linkLost).index = if c < 15 then c + 1 else c) ∧
      t.clocks = ((s.elapse dt).waitPart timer).clocks ∧ t.table.records = s.table.records ∧ t.params = s.params ∧
      t.port = s.port) ∧
    (s.collector.linkTimer = none → exec (.linkSilenceExpiry dt) s = .next (s.elapse dt))

/-! ### Notices -/

/-- R162: a kind noticed where it is not pending is pending with a count of 1; where it is, its count rises by 1 up
to 15. The mask does not matter, no other kind or slot is touched, notices in different slots need no order, and with
a TAKE NOTICE that removes the same kind every raising is counted once in either order. -/
def Obligations.NoticeRaisesItsCount : Prop :=
  ∀ (s : State) (slot : Fin 10) (k : NoticeKind),
    (s.noticeCount slot k.index = 0 → (s.notice slot k).noticeCount slot k.index = 1) ∧
    (s.noticeCount slot k.index < 15 →
      (s.notice slot k).noticeCount slot k.index = s.noticeCount slot k.index + 1) ∧
    (s.noticeCount slot k.index = 15 → (s.notice slot k).noticeCount slot k.index = 15) ∧
    (∀ slot' k', slot' ≠ slot ∨ k' ≠ k.index → (s.notice slot k).noticeCount slot' k' = s.noticeCount slot' k') ∧
    s.notice slot k = { s with notices := { s.notices with slots := (s.notice slot k).notices.slots } } ∧
    (∀ mask, ({ s with notices := { s.notices with mask := mask } } : State).notice slot k =
      { s.notice slot k with notices := { (s.notice slot k).notices with mask := mask } }) ∧
    (∀ slot' k', slot' ≠ slot → (s.notice slot k).notice slot' k' = (s.notice slot' k').notice slot k) ∧
    (s.noticeCount slot k.index < 14 →
      ((s.notice slot k).notice slot k).noticeCount slot k.index = s.noticeCount slot k.index + 2) ∧
    ∀ (dt : Nat) (tag : Byte) (t : State) (c left : Byte), s.pins.reset = false → s.port.span ≠ .dropped →
      let taken (count : Nat) : List Byte :=
        [BitVec.ofNat 8 slot.1, BitVec.ofNat 8 (k.index.1 + 1), c, BitVec.ofNat 8 count, left]
      let count := s.noticeCount slot k.index
      exec (.takeNotice dt tag (BitVec.ofNat 8 slot.1)) s = .next (t.responded tag s.unread .ok (taken count)) →
      (t.notice slot k).noticeCount slot k.index = 1 ∧
      ∃ u : State, exec (.takeNotice dt tag (BitVec.ofNat 8 slot.1)) (s.notice slot k) =
          .next (u.responded tag s.unread .ok (taken (if count < 15 then count + 1 else count))) ∧
        u.noticeCount slot k.index = 0

/-- TAKE_NOTICE takes the lowest URGENT kind that is pending in the slot and not masked, or the lowest ROUTINE one
where there is no URGENT one, with its count and the number left; a slot that shows none is EMPTY, and a slot above 9
BAD_REQUEST. SET_MASK stores the 25 kinds' positions and is CLAMPED where another was set; POLL gives the two bitmaps of
slots; and the notice output is on while some slot shows a kind (R163 to R166). The kinds have the codes of R161. -/
def Obligations.NoticesAreTakenUrgentFirst : Prop :=
  (([.fault .flyerStall, .fault .flyerOverspeed, .fault .markLoss, .fault .layDrift, .fault .laySaturated,
      .fault .reverseRun, .fault .strandOut, .fault .slip, .fault .cutTimeout, .fault .hole, .fault .deadHook,
      .fault .mendOverflow, .fault .senseMissing, .fault .rowStall, .fault .linkLost, .fault .peerTrip, .pieceCut,
      .overrunHold, .mendAdded, .strayInput, .pieceGraded, .scaleTimeout, .packQueueHigh, .tableLow,
      .packFraming] : List NoticeKind).map (·.index.1 + 1) = (List.range 25).map (· + 1)) ∧
  (∀ k : FaultKind, k.code = (NoticeKind.fault k).index.1 + 1 ∧ k.index.1 + 1 = k.code) ∧
  ∀ (s : State) (dt : Nat) (tag : Byte), s.pins.reset = false → s.port.span ≠ .dropped →
    (∀ (slot : Fin 10) (k : Fin 25), s.noticeShown slot k = true →
      (∀ j, s.noticeShown slot j = true → s.classOf k = .routine → s.classOf j = .routine) →
      (∀ j, j.1 < k.1 → s.noticeShown slot j = true → s.classOf j ≠ s.classOf k) →
      ∃ t : State,
        exec (.takeNotice dt tag (BitVec.ofNat 8 slot.1)) s = .next (t.responded tag s.unread .ok
          [BitVec.ofNat 8 slot.1, BitVec.ofNat 8 (k.1 + 1), (s.classOf k).code, BitVec.ofNat 8 (s.noticeCount slot k),
            BitVec.ofNat 8 (((List.finRange 25).filter fun j => decide (j ≠ k) && s.noticeShown slot j).length)]) ∧
        t.noticeCount slot k = 0 ∧
        (∀ slot' j, slot' ≠ slot ∨ j ≠ k → t.noticeCount slot' j = s.noticeCount slot' j) ∧
        t = { s.elapse dt with notices := { s.notices with slots := t.notices.slots } }) ∧
    (∀ slot : Fin 10, (∀ k, s.noticeShown slot k = false) →
      exec (.takeNotice dt tag (BitVec.ofNat 8 slot.1)) s =
        .next (s.answeredOnly dt tag .empty [BitVec.ofNat 8 slot.1, 0, 0, 0, 0])) ∧
    (∀ b : Byte, 10 ≤ b.toNat →
      exec (.takeNotice dt tag b) s = .next (s.answeredOnly dt tag .badRequest [])) ∧
    (∀ mask : Word32, ∃ kept : BitVec 25, (∀ k : Fin 25, kept.getLsbD k.1 = mask.getLsbD k.1) ∧
      exec (.setMask dt tag mask) s = .next (
        ({ s.elapse dt with notices := { s.notices with mask := kept } } : State).responded tag s.unread
          (if mask.toNat < 2 ^ 25 then .ok else .clamped) (bytes32 (BitVec.ofNat 32 (mask.toNat % 2 ^ 25))))) ∧
    (∃ shown urgent : Word16,
      exec (.poll dt tag) s = .next (s.answeredOnly dt tag .ok (bytes16 shown ++ bytes16 urgent)) ∧
      (∀ slot : Fin 10, shown.getLsbD slot.1 = true ↔
        ∃ k : Fin 25, 0 < s.noticeCount slot k ∧ s.notices.mask.getLsbD k.1 = false) ∧
      (∀ slot : Fin 10, urgent.getLsbD slot.1 = true ↔
        ∃ k : Fin 25, 0 < s.noticeCount slot k ∧ s.notices.mask.getLsbD k.1 = false ∧ s.classOf k = .urgent) ∧
      ∀ j, 10 ≤ j → shown.getLsbD j = false ∧ urgent.getLsbD j = false) ∧
    (s.noticeOutput = true ↔
      ∃ (slot : Fin 10) (k : Fin 25), 0 < s.noticeCount slot k ∧ s.notices.mask.getLsbD k.1 = false)

/-! ### Frames -/

/-- R168, R170, R176, 11-1.1, 11-3: a span is taken as a request exactly when its bytes are the frame of a
well-formed command, and as that command; the pack port's receiver, hunting, ends a frame at the last character of each
of the terminal's requests and takes it as that request; and the characters it has collected after a start byte pass
the checks at a frame's end only where they and the start byte are such a request's frame. That a command stands for its
whole frame is assumption 17. -/
def Obligations.FramesSpellTheirRequests : Prop :=
  (∀ (i : Instr) (bytes : List Byte), i.wellFormed = true →
    encodeRequest i = some bytes → judgeSpan i.time bytes = .request i) ∧
  (∀ (dt : Nat) (bytes : List Byte) (i : Instr), judgeSpan dt bytes = .request i →
    i.wellFormed = true ∧ i.time = dt ∧ encodeRequest i = some bytes) ∧
  (∀ (i : Instr) (bytes : List Byte), encodePack i = some bytes →
    ∃ got last, bytes = 0xA5#8 :: (got ++ [last]) ∧ judgePackFrame i.time (got ++ [last]) = some i ∧
      rxChar (.collecting got) (.whole last) = .frame (got ++ [last]) ∧
      ∀ s : State, s.pack.receiver = .hunting →
        s.takeChars ((0xA5#8 :: got).map PackChar.whole) = s.setReceiver (.collecting got)) ∧
  ∀ (dt : Nat) (got : List Byte) (i : Instr), judgePackFrame dt got = some i →
    i.wellFormed = true ∧ i.time = dt ∧ encodePack i = some (0xA5#8 :: got)

/-! ### Laws that every step keeps -/

/-- R96, with R9: the reservations are as many as the cuts in flight and covered by FREE records. Every command keeps
this, so the record a completion opens is there, and no command ever stops the part. -/
def Obligations.ReservationsCoverEveryCut : Prop :=
  ∀ s : State, s.Reserved → ∃ t, step s = .next t ∧ t.Reserved

/-- R108, R115, R129: the pack queue holds exactly the QUEUED pieces, each once, the scale holds the one piece
AT_SCALE or WEIGHED, each OPEN piece is its station's open piece, and no more than 8 pack places are in use. A station
in RUNNING, HOLDING or CUTTING has its open piece (R10), and no two non-FREE records hold the same serial (R113). -/
def Obligations.PiecesStayInCustody : Prop :=
  (∀ s t : State, s.Reserved → s.Custody → s.placesInUse ≤ 8 → step s = .next t →
    t.Custody ∧ t.placesInUse ≤ 8) ∧
  (∀ s t : State, s.Reserved → s.WorkHasPiece → step s = .next t → t.WorkHasPiece) ∧
  ∀ s t : State, s.SerialsDiffer → step s = .next t → t.SerialsDiffer

/-- R8: an order that a bound station or a piece names stays LOADED, and a station has an order exactly while bound.
-/
def Obligations.NamedOrdersStayLoaded : Prop :=
  ∀ s t : State, s.OrdersStand → step s = .next t → t.OrdersStand

/-- R91, R92, R17, R41, R43, R158, R171: the waiting queue holds a station once at most and only in a state that may
hold a request; a machine that is not RUNNING has no demand and no stall timer; no permit is given in CONFIG, and a
pulsed output is high only while given. The hold reasons are never empty in HOLDING and always empty in UNBOUND, READY,
RUNNING and TRIPPED (R11), under reactions that stand at their floors or above (R147, R148). -/
def Obligations.StoppedMachinesStayStopped : Prop :=
  (∀ s t : State, s.QueueStands → s.StoppedStand → s.PermitsStand → step s = .next t →
    t.QueueStands ∧ t.StoppedStand ∧ t.PermitsStand) ∧
  ∀ s t : State, s.params.FloorsStand → s.ReasonsStand → step s = .next t → t.params.FloorsStand ∧ t.ReasonsStand

/-- What State.WithinLimits names stands within its limits at every step: a lay station's interval ring and count
accumulator (R26, R29); a coil's length, splice list, overflow count, worst slip and three quality counts, and a panel's
eight counts (R49, R65, R110, R111; of the worst slip, assumption 34); the mend list with the overflow and discarded
counts (R69, R74, R80); the grant list (R90); the answers not yet sent and the framing count (R128, R144); and every
notice's count (R161). It says nothing of the two run counts of R29, the hook counters, the position error, the two
queues and the reservations. Beside the limits, no two entries of the mend list hold the same id, each names a record
that holds its panel, and each panel's unmended count is the number of entries that name it (R74, R80, R84). -/
def Obligations.ListsAndCountsStayWithinLimits : Prop :=
  (∀ s t : State, s.WithinLimits → step s = .next t → t.WithinLimits) ∧
  ∀ s t : State, s.MendsStand → step s = .next t → t.MendsStand

/-- The laws that every step keeps hold of the part after power-on. -/
def Obligations.LawsHoldAfterPowerOn : Prop :=
  State.reset.Reserved ∧ State.reset.Custody ∧ State.reset.placesInUse = 0 ∧ State.reset.WorkHasPiece ∧
  State.reset.SerialsDiffer ∧ State.reset.OrdersStand ∧ State.reset.QueueStands ∧ State.reset.StoppedStand ∧
  State.reset.PermitsStand ∧ State.reset.params.FloorsStand ∧ State.reset.ReasonsStand ∧
  State.reset.WithinLimits ∧ State.reset.MendsStand
end

