-- ==== Sys2Proof/Laws/State.lean ====
section
/-!
SUPPORT. One lemma per field per update of the state, each true by definition, so that no later proof unfolds a record
update. Updates that hold a test or a loop have their lemmas in Laws/Basic.lean and
Laws/Operations.lean.
-/
namespace Sys2Proof.Machine

variable (s : State)


/-! ### elapse -/

@[simp] theorem State.elapse_pins (dt : Nat) : (s.elapse dt).pins = s.pins := rfl
@[simp] theorem State.elapse_params (dt : Nat) : (s.elapse dt).params = s.params := rfl
@[simp] theorem State.elapse_orders (dt : Nat) : (s.elapse dt).orders = s.orders := rfl
@[simp] theorem State.elapse_stations (dt : Nat) : (s.elapse dt).stations = s.stations := rfl
@[simp] theorem State.elapse_lays (dt : Nat) : (s.elapse dt).lays = s.lays := rfl
@[simp] theorem State.elapse_inspector (dt : Nat) : (s.elapse dt).inspector = s.inspector := rfl
@[simp] theorem State.elapse_arbiter (dt : Nat) : (s.elapse dt).arbiter = s.arbiter := rfl
@[simp] theorem State.elapse_table (dt : Nat) : (s.elapse dt).table = s.table := rfl
@[simp] theorem State.elapse_pack (dt : Nat) : (s.elapse dt).pack = s.pack := rfl
@[simp] theorem State.elapse_collector (dt : Nat) : (s.elapse dt).collector = s.collector := rfl
@[simp] theorem State.elapse_notices (dt : Nat) : (s.elapse dt).notices = s.notices := rfl
@[simp] theorem State.elapse_port (dt : Nat) : (s.elapse dt).port = s.port := rfl
@[simp] theorem State.elapse_pending (dt : Nat) : (s.elapse dt).pending = s.pending := rfl
@[simp] theorem State.elapse_station (dt : Nat) (m : Fin 9) : (s.elapse dt).station m = s.station m := rfl
@[simp] theorem State.elapse_lay (dt : Nat) (m : Fin 8) : (s.elapse dt).lay m = s.lay m := rfl
@[simp] theorem State.elapse_layParams (dt : Nat) (m : Fin 8) : (s.elapse dt).layParams m = s.layParams m := rfl
@[simp] theorem State.elapse_stationParams (dt : Nat) (m : Fin 9) : (s.elapse dt).stationParams m = s.stationParams m :=
  rfl
@[simp] theorem State.elapse_layPins (dt : Nat) (m : Fin 8) : (s.elapse dt).layPins m = s.layPins m := rfl
@[simp] theorem State.elapse_orderAt (dt : Nat) (m : Fin 16) : (s.elapse dt).orderAt m = s.orderAt m := rfl
@[simp] theorem State.elapse_record (dt : Nat) (m : Fin 64) : (s.elapse dt).record m = s.record m := rfl
@[simp] theorem State.elapse_faults (dt : Nat) (m : Fin 9) : (s.elapse dt).faults m = s.faults m := rfl
@[simp] theorem State.elapse_cutTimer (dt : Nat) (m : Fin 9) : (s.elapse dt).cutTimer m = s.cutTimer m := rfl
@[simp] theorem State.elapse_freeCount (dt : Nat) : (s.elapse dt).freeCount = s.freeCount := rfl

/-! ### modStation -/

@[simp] theorem State.modStation_clocks (n : Fin 9) (f : Station → Station) : (s.modStation n f).clocks = s.clocks :=
  rfl
@[simp] theorem State.modStation_pins (n : Fin 9) (f : Station → Station) : (s.modStation n f).pins = s.pins := rfl
@[simp] theorem State.modStation_params (n : Fin 9) (f : Station → Station) : (s.modStation n f).params = s.params :=
  rfl
@[simp] theorem State.modStation_orders (n : Fin 9) (f : Station → Station) : (s.modStation n f).orders = s.orders :=
  rfl
@[simp] theorem State.modStation_lays (n : Fin 9) (f : Station → Station) : (s.modStation n f).lays = s.lays := rfl
@[simp] theorem State.modStation_inspector (n : Fin 9) (f : Station → Station) :
    (s.modStation n f).inspector = s.inspector := rfl
@[simp] theorem State.modStation_arbiter (n : Fin 9) (f : Station → Station) : (s.modStation n f).arbiter = s.arbiter :=
  rfl
@[simp] theorem State.modStation_table (n : Fin 9) (f : Station → Station) : (s.modStation n f).table = s.table := rfl
@[simp] theorem State.modStation_pack (n : Fin 9) (f : Station → Station) : (s.modStation n f).pack = s.pack := rfl
@[simp] theorem State.modStation_collector (n : Fin 9) (f : Station → Station) :
    (s.modStation n f).collector = s.collector := rfl
@[simp] theorem State.modStation_notices (n : Fin 9) (f : Station → Station) : (s.modStation n f).notices = s.notices :=
  rfl
@[simp] theorem State.modStation_port (n : Fin 9) (f : Station → Station) : (s.modStation n f).port = s.port := rfl
@[simp] theorem State.modStation_pending (n : Fin 9) (f : Station → Station) : (s.modStation n f).pending = s.pending :=
  rfl
@[simp] theorem State.modStation_lay (n : Fin 9) (f : Station → Station) (m : Fin 8) :
    (s.modStation n f).lay m = s.lay m := rfl
@[simp] theorem State.modStation_layParams (n : Fin 9) (f : Station → Station) (m : Fin 8) :
    (s.modStation n f).layParams m = s.layParams m := rfl
@[simp] theorem State.modStation_stationParams (n : Fin 9) (f : Station → Station) (m : Fin 9) :
    (s.modStation n f).stationParams m = s.stationParams m := rfl
@[simp] theorem State.modStation_layPins (n : Fin 9) (f : Station → Station) (m : Fin 8) :
    (s.modStation n f).layPins m = s.layPins m := rfl
@[simp] theorem State.modStation_orderAt (n : Fin 9) (f : Station → Station) (m : Fin 16) :
    (s.modStation n f).orderAt m = s.orderAt m := rfl
@[simp] theorem State.modStation_record (n : Fin 9) (f : Station → Station) (m : Fin 64) :
    (s.modStation n f).record m = s.record m := rfl
@[simp] theorem State.modStation_faults (n : Fin 9) (f : Station → Station) (m : Fin 9) :
    (s.modStation n f).faults m = s.faults m := rfl
@[simp] theorem State.modStation_cutTimer (n : Fin 9) (f : Station → Station) (m : Fin 9) :
    (s.modStation n f).cutTimer m = s.cutTimer m := rfl
@[simp] theorem State.modStation_freeCount (n : Fin 9) (f : Station → Station) :
    (s.modStation n f).freeCount = s.freeCount := rfl

/-! ### modReasons -/

@[simp] theorem State.modReasons_clocks (n : Fin 9) (f : Reasons → Reasons) : (s.modReasons n f).clocks = s.clocks :=
  rfl
@[simp] theorem State.modReasons_pins (n : Fin 9) (f : Reasons → Reasons) : (s.modReasons n f).pins = s.pins := rfl
@[simp] theorem State.modReasons_params (n : Fin 9) (f : Reasons → Reasons) : (s.modReasons n f).params = s.params :=
  rfl
@[simp] theorem State.modReasons_orders (n : Fin 9) (f : Reasons → Reasons) : (s.modReasons n f).orders = s.orders :=
  rfl
@[simp] theorem State.modReasons_lays (n : Fin 9) (f : Reasons → Reasons) : (s.modReasons n f).lays = s.lays := rfl
@[simp] theorem State.modReasons_inspector (n : Fin 9) (f : Reasons → Reasons) :
    (s.modReasons n f).inspector = s.inspector := rfl
@[simp] theorem State.modReasons_arbiter (n : Fin 9) (f : Reasons → Reasons) : (s.modReasons n f).arbiter = s.arbiter :=
  rfl
@[simp] theorem State.modReasons_table (n : Fin 9) (f : Reasons → Reasons) : (s.modReasons n f).table = s.table := rfl
@[simp] theorem State.modReasons_pack (n : Fin 9) (f : Reasons → Reasons) : (s.modReasons n f).pack = s.pack := rfl
@[simp] theorem State.modReasons_collector (n : Fin 9) (f : Reasons → Reasons) :
    (s.modReasons n f).collector = s.collector := rfl
@[simp] theorem State.modReasons_notices (n : Fin 9) (f : Reasons → Reasons) : (s.modReasons n f).notices = s.notices :=
  rfl
@[simp] theorem State.modReasons_port (n : Fin 9) (f : Reasons → Reasons) : (s.modReasons n f).port = s.port := rfl
@[simp] theorem State.modReasons_pending (n : Fin 9) (f : Reasons → Reasons) : (s.modReasons n f).pending = s.pending :=
  rfl
@[simp] theorem State.modReasons_lay (n : Fin 9) (f : Reasons → Reasons) (m : Fin 8) :
    (s.modReasons n f).lay m = s.lay m := rfl
@[simp] theorem State.modReasons_layParams (n : Fin 9) (f : Reasons → Reasons) (m : Fin 8) :
    (s.modReasons n f).layParams m = s.layParams m := rfl
@[simp] theorem State.modReasons_stationParams (n : Fin 9) (f : Reasons → Reasons) (m : Fin 9) :
    (s.modReasons n f).stationParams m = s.stationParams m := rfl
@[simp] theorem State.modReasons_layPins (n : Fin 9) (f : Reasons → Reasons) (m : Fin 8) :
    (s.modReasons n f).layPins m = s.layPins m := rfl
@[simp] theorem State.modReasons_orderAt (n : Fin 9) (f : Reasons → Reasons) (m : Fin 16) :
    (s.modReasons n f).orderAt m = s.orderAt m := rfl
@[simp] theorem State.modReasons_record (n : Fin 9) (f : Reasons → Reasons) (m : Fin 64) :
    (s.modReasons n f).record m = s.record m := rfl
@[simp] theorem State.modReasons_faults (n : Fin 9) (f : Reasons → Reasons) (m : Fin 9) :
    (s.modReasons n f).faults m = s.faults m := rfl
@[simp] theorem State.modReasons_cutTimer (n : Fin 9) (f : Reasons → Reasons) (m : Fin 9) :
    (s.modReasons n f).cutTimer m = s.cutTimer m := rfl
@[simp] theorem State.modReasons_freeCount (n : Fin 9) (f : Reasons → Reasons) :
    (s.modReasons n f).freeCount = s.freeCount := rfl

/-! ### enterState -/

@[simp] theorem State.enterState_clocks (n : Fin 9) (st : StationState) : (s.enterState n st).clocks = s.clocks := rfl
@[simp] theorem State.enterState_pins (n : Fin 9) (st : StationState) : (s.enterState n st).pins = s.pins := rfl
@[simp] theorem State.enterState_params (n : Fin 9) (st : StationState) : (s.enterState n st).params = s.params := rfl
@[simp] theorem State.enterState_orders (n : Fin 9) (st : StationState) : (s.enterState n st).orders = s.orders := rfl
@[simp] theorem State.enterState_lays (n : Fin 9) (st : StationState) : (s.enterState n st).lays = s.lays := rfl
@[simp] theorem State.enterState_inspector (n : Fin 9) (st : StationState) :
    (s.enterState n st).inspector = s.inspector := rfl
@[simp] theorem State.enterState_arbiter (n : Fin 9) (st : StationState) : (s.enterState n st).arbiter = s.arbiter :=
  rfl
@[simp] theorem State.enterState_table (n : Fin 9) (st : StationState) : (s.enterState n st).table = s.table := rfl
@[simp] theorem State.enterState_pack (n : Fin 9) (st : StationState) : (s.enterState n st).pack = s.pack := rfl
@[simp] theorem State.enterState_collector (n : Fin 9) (st : StationState) :
    (s.enterState n st).collector = s.collector := rfl
@[simp] theorem State.enterState_notices (n : Fin 9) (st : StationState) : (s.enterState n st).notices = s.notices :=
  rfl
@[simp] theorem State.enterState_port (n : Fin 9) (st : StationState) : (s.enterState n st).port = s.port := rfl
@[simp] theorem State.enterState_pending (n : Fin 9) (st : StationState) : (s.enterState n st).pending = s.pending :=
  rfl
@[simp] theorem State.enterState_lay (n : Fin 9) (st : StationState) (m : Fin 8) :
    (s.enterState n st).lay m = s.lay m := rfl
@[simp] theorem State.enterState_layParams (n : Fin 9) (st : StationState) (m : Fin 8) :
    (s.enterState n st).layParams m = s.layParams m := rfl
@[simp] theorem State.enterState_stationParams (n : Fin 9) (st : StationState) (m : Fin 9) :
    (s.enterState n st).stationParams m = s.stationParams m := rfl
@[simp] theorem State.enterState_layPins (n : Fin 9) (st : StationState) (m : Fin 8) :
    (s.enterState n st).layPins m = s.layPins m := rfl
@[simp] theorem State.enterState_orderAt (n : Fin 9) (st : StationState) (m : Fin 16) :
    (s.enterState n st).orderAt m = s.orderAt m := rfl
@[simp] theorem State.enterState_record (n : Fin 9) (st : StationState) (m : Fin 64) :
    (s.enterState n st).record m = s.record m := rfl
@[simp] theorem State.enterState_faults (n : Fin 9) (st : StationState) (m : Fin 9) :
    (s.enterState n st).faults m = s.faults m := rfl
@[simp] theorem State.enterState_cutTimer (n : Fin 9) (st : StationState) (m : Fin 9) :
    (s.enterState n st).cutTimer m = s.cutTimer m := rfl
@[simp] theorem State.enterState_freeCount (n : Fin 9) (st : StationState) :
    (s.enterState n st).freeCount = s.freeCount := rfl

/-! ### modLay -/

@[simp] theorem State.modLay_clocks (n : Fin 8) (f : LayStation → LayStation) : (s.modLay n f).clocks = s.clocks :=
  rfl
@[simp] theorem State.modLay_pins (n : Fin 8) (f : LayStation → LayStation) : (s.modLay n f).pins = s.pins := rfl
@[simp] theorem State.modLay_params (n : Fin 8) (f : LayStation → LayStation) : (s.modLay n f).params = s.params :=
  rfl
@[simp] theorem State.modLay_orders (n : Fin 8) (f : LayStation → LayStation) : (s.modLay n f).orders = s.orders :=
  rfl
@[simp] theorem State.modLay_stations (n : Fin 8) (f : LayStation → LayStation) :
    (s.modLay n f).stations = s.stations := rfl
@[simp] theorem State.modLay_inspector (n : Fin 8) (f : LayStation → LayStation) :
    (s.modLay n f).inspector = s.inspector := rfl
@[simp] theorem State.modLay_arbiter (n : Fin 8) (f : LayStation → LayStation) : (s.modLay n f).arbiter = s.arbiter :=
  rfl
@[simp] theorem State.modLay_table (n : Fin 8) (f : LayStation → LayStation) : (s.modLay n f).table = s.table := rfl
@[simp] theorem State.modLay_pack (n : Fin 8) (f : LayStation → LayStation) : (s.modLay n f).pack = s.pack := rfl
@[simp] theorem State.modLay_collector (n : Fin 8) (f : LayStation → LayStation) :
    (s.modLay n f).collector = s.collector := rfl
@[simp] theorem State.modLay_notices (n : Fin 8) (f : LayStation → LayStation) : (s.modLay n f).notices = s.notices :=
  rfl
@[simp] theorem State.modLay_port (n : Fin 8) (f : LayStation → LayStation) : (s.modLay n f).port = s.port := rfl
@[simp] theorem State.modLay_pending (n : Fin 8) (f : LayStation → LayStation) : (s.modLay n f).pending = s.pending :=
  rfl
@[simp] theorem State.modLay_station (n : Fin 8) (f : LayStation → LayStation) (m : Fin 9) :
    (s.modLay n f).station m = s.station m := rfl
@[simp] theorem State.modLay_layParams (n : Fin 8) (f : LayStation → LayStation) (m : Fin 8) :
    (s.modLay n f).layParams m = s.layParams m := rfl
@[simp] theorem State.modLay_stationParams (n : Fin 8) (f : LayStation → LayStation) (m : Fin 9) :
    (s.modLay n f).stationParams m = s.stationParams m := rfl
@[simp] theorem State.modLay_layPins (n : Fin 8) (f : LayStation → LayStation) (m : Fin 8) :
    (s.modLay n f).layPins m = s.layPins m := rfl
@[simp] theorem State.modLay_orderAt (n : Fin 8) (f : LayStation → LayStation) (m : Fin 16) :
    (s.modLay n f).orderAt m = s.orderAt m := rfl
@[simp] theorem State.modLay_record (n : Fin 8) (f : LayStation → LayStation) (m : Fin 64) :
    (s.modLay n f).record m = s.record m := rfl
@[simp] theorem State.modLay_faults (n : Fin 8) (f : LayStation → LayStation) (m : Fin 9) :
    (s.modLay n f).faults m = s.faults m := rfl
@[simp] theorem State.modLay_cutTimer (n : Fin 8) (f : LayStation → LayStation) (m : Fin 9) :
    (s.modLay n f).cutTimer m = s.cutTimer m := rfl
@[simp] theorem State.modLay_freeCount (n : Fin 8) (f : LayStation → LayStation) :
    (s.modLay n f).freeCount = s.freeCount := rfl

/-! ### modPins -/

@[simp] theorem State.modPins_clocks (n : Fin 8) (f : LayPins → LayPins) : (s.modPins n f).clocks = s.clocks := rfl
@[simp] theorem State.modPins_pins_reset (n : Fin 8) (f : LayPins → LayPins) :
    (s.modPins n f).pins.reset = s.pins.reset := rfl
@[simp] theorem State.modPins_params (n : Fin 8) (f : LayPins → LayPins) : (s.modPins n f).params = s.params := rfl
@[simp] theorem State.modPins_orders (n : Fin 8) (f : LayPins → LayPins) : (s.modPins n f).orders = s.orders := rfl
@[simp] theorem State.modPins_stations (n : Fin 8) (f : LayPins → LayPins) : (s.modPins n f).stations = s.stations :=
  rfl
@[simp] theorem State.modPins_lays (n : Fin 8) (f : LayPins → LayPins) : (s.modPins n f).lays = s.lays := rfl
@[simp] theorem State.modPins_inspector (n : Fin 8) (f : LayPins → LayPins) : (s.modPins n f).inspector = s.inspector :=
  rfl
@[simp] theorem State.modPins_arbiter (n : Fin 8) (f : LayPins → LayPins) : (s.modPins n f).arbiter = s.arbiter := rfl
@[simp] theorem State.modPins_table (n : Fin 8) (f : LayPins → LayPins) : (s.modPins n f).table = s.table := rfl
@[simp] theorem State.modPins_pack (n : Fin 8) (f : LayPins → LayPins) : (s.modPins n f).pack = s.pack := rfl
@[simp] theorem State.modPins_collector (n : Fin 8) (f : LayPins → LayPins) : (s.modPins n f).collector = s.collector :=
  rfl
@[simp] theorem State.modPins_notices (n : Fin 8) (f : LayPins → LayPins) : (s.modPins n f).notices = s.notices := rfl
@[simp] theorem State.modPins_port (n : Fin 8) (f : LayPins → LayPins) : (s.modPins n f).port = s.port := rfl
@[simp] theorem State.modPins_pending (n : Fin 8) (f : LayPins → LayPins) : (s.modPins n f).pending = s.pending := rfl
@[simp] theorem State.modPins_station (n : Fin 8) (f : LayPins → LayPins) (m : Fin 9) :
    (s.modPins n f).station m = s.station m := rfl
@[simp] theorem State.modPins_lay (n : Fin 8) (f : LayPins → LayPins) (m : Fin 8) : (s.modPins n f).lay m = s.lay m :=
  rfl
@[simp] theorem State.modPins_layParams (n : Fin 8) (f : LayPins → LayPins) (m : Fin 8) :
    (s.modPins n f).layParams m = s.layParams m := rfl
@[simp] theorem State.modPins_stationParams (n : Fin 8) (f : LayPins → LayPins) (m : Fin 9) :
    (s.modPins n f).stationParams m = s.stationParams m := rfl
@[simp] theorem State.modPins_orderAt (n : Fin 8) (f : LayPins → LayPins) (m : Fin 16) :
    (s.modPins n f).orderAt m = s.orderAt m := rfl
@[simp] theorem State.modPins_record (n : Fin 8) (f : LayPins → LayPins) (m : Fin 64) :
    (s.modPins n f).record m = s.record m := rfl
@[simp] theorem State.modPins_faults (n : Fin 8) (f : LayPins → LayPins) (m : Fin 9) :
    (s.modPins n f).faults m = s.faults m := rfl
@[simp] theorem State.modPins_cutTimer (n : Fin 8) (f : LayPins → LayPins) (m : Fin 9) :
    (s.modPins n f).cutTimer m = s.cutTimer m := rfl
@[simp] theorem State.modPins_freeCount (n : Fin 8) (f : LayPins → LayPins) : (s.modPins n f).freeCount = s.freeCount :=
  rfl

/-! ### setRecord -/

@[simp] theorem State.setRecord_clocks (i : Fin 64) (r : Option Piece) : (s.setRecord i r).clocks = s.clocks := rfl
@[simp] theorem State.setRecord_pins (i : Fin 64) (r : Option Piece) : (s.setRecord i r).pins = s.pins := rfl
@[simp] theorem State.setRecord_params (i : Fin 64) (r : Option Piece) : (s.setRecord i r).params = s.params := rfl
@[simp] theorem State.setRecord_orders (i : Fin 64) (r : Option Piece) : (s.setRecord i r).orders = s.orders := rfl
@[simp] theorem State.setRecord_stations (i : Fin 64) (r : Option Piece) : (s.setRecord i r).stations = s.stations :=
  rfl
@[simp] theorem State.setRecord_lays (i : Fin 64) (r : Option Piece) : (s.setRecord i r).lays = s.lays := rfl
@[simp] theorem State.setRecord_inspector (i : Fin 64) (r : Option Piece) : (s.setRecord i r).inspector = s.inspector :=
  rfl
@[simp] theorem State.setRecord_arbiter (i : Fin 64) (r : Option Piece) : (s.setRecord i r).arbiter = s.arbiter := rfl
@[simp] theorem State.setRecord_table_nextSerial (i : Fin 64) (r : Option Piece) :
    (s.setRecord i r).table.nextSerial = s.table.nextSerial := rfl
@[simp] theorem State.setRecord_table_lowArmed (i : Fin 64) (r : Option Piece) :
    (s.setRecord i r).table.lowArmed = s.table.lowArmed := rfl
@[simp] theorem State.setRecord_pack (i : Fin 64) (r : Option Piece) : (s.setRecord i r).pack = s.pack := rfl
@[simp] theorem State.setRecord_collector (i : Fin 64) (r : Option Piece) : (s.setRecord i r).collector = s.collector :=
  rfl
@[simp] theorem State.setRecord_notices (i : Fin 64) (r : Option Piece) : (s.setRecord i r).notices = s.notices := rfl
@[simp] theorem State.setRecord_port (i : Fin 64) (r : Option Piece) : (s.setRecord i r).port = s.port := rfl
@[simp] theorem State.setRecord_pending (i : Fin 64) (r : Option Piece) : (s.setRecord i r).pending = s.pending := rfl
@[simp] theorem State.setRecord_station (i : Fin 64) (r : Option Piece) (m : Fin 9) :
    (s.setRecord i r).station m = s.station m := rfl
@[simp] theorem State.setRecord_lay (i : Fin 64) (r : Option Piece) (m : Fin 8) : (s.setRecord i r).lay m = s.lay m :=
  rfl
@[simp] theorem State.setRecord_layParams (i : Fin 64) (r : Option Piece) (m : Fin 8) :
    (s.setRecord i r).layParams m = s.layParams m := rfl
@[simp] theorem State.setRecord_stationParams (i : Fin 64) (r : Option Piece) (m : Fin 9) :
    (s.setRecord i r).stationParams m = s.stationParams m := rfl
@[simp] theorem State.setRecord_layPins (i : Fin 64) (r : Option Piece) (m : Fin 8) :
    (s.setRecord i r).layPins m = s.layPins m := rfl
@[simp] theorem State.setRecord_orderAt (i : Fin 64) (r : Option Piece) (m : Fin 16) :
    (s.setRecord i r).orderAt m = s.orderAt m := rfl
@[simp] theorem State.setRecord_faults (i : Fin 64) (r : Option Piece) (m : Fin 9) :
    (s.setRecord i r).faults m = s.faults m := rfl
@[simp] theorem State.setRecord_cutTimer (i : Fin 64) (r : Option Piece) (m : Fin 9) :
    (s.setRecord i r).cutTimer m = s.cutTimer m := rfl

/-! ### modPiece -/

@[simp] theorem State.modPiece_clocks (i : Fin 64) (f : Piece → Piece) : (s.modPiece i f).clocks = s.clocks := rfl
@[simp] theorem State.modPiece_pins (i : Fin 64) (f : Piece → Piece) : (s.modPiece i f).pins = s.pins := rfl
@[simp] theorem State.modPiece_params (i : Fin 64) (f : Piece → Piece) : (s.modPiece i f).params = s.params := rfl
@[simp] theorem State.modPiece_orders (i : Fin 64) (f : Piece → Piece) : (s.modPiece i f).orders = s.orders := rfl
@[simp] theorem State.modPiece_stations (i : Fin 64) (f : Piece → Piece) : (s.modPiece i f).stations = s.stations :=
  rfl
@[simp] theorem State.modPiece_lays (i : Fin 64) (f : Piece → Piece) : (s.modPiece i f).lays = s.lays := rfl
@[simp] theorem State.modPiece_inspector (i : Fin 64) (f : Piece → Piece) : (s.modPiece i f).inspector = s.inspector :=
  rfl
@[simp] theorem State.modPiece_arbiter (i : Fin 64) (f : Piece → Piece) : (s.modPiece i f).arbiter = s.arbiter := rfl
@[simp] theorem State.modPiece_table_nextSerial (i : Fin 64) (f : Piece → Piece) :
    (s.modPiece i f).table.nextSerial = s.table.nextSerial := rfl
@[simp] theorem State.modPiece_table_lowArmed (i : Fin 64) (f : Piece → Piece) :
    (s.modPiece i f).table.lowArmed = s.table.lowArmed := rfl
@[simp] theorem State.modPiece_pack (i : Fin 64) (f : Piece → Piece) : (s.modPiece i f).pack = s.pack := rfl
@[simp] theorem State.modPiece_collector (i : Fin 64) (f : Piece → Piece) : (s.modPiece i f).collector = s.collector :=
  rfl
@[simp] theorem State.modPiece_notices (i : Fin 64) (f : Piece → Piece) : (s.modPiece i f).notices = s.notices := rfl
@[simp] theorem State.modPiece_port (i : Fin 64) (f : Piece → Piece) : (s.modPiece i f).port = s.port := rfl
@[simp] theorem State.modPiece_pending (i : Fin 64) (f : Piece → Piece) : (s.modPiece i f).pending = s.pending := rfl
@[simp] theorem State.modPiece_station (i : Fin 64) (f : Piece → Piece) (m : Fin 9) :
    (s.modPiece i f).station m = s.station m := rfl
@[simp] theorem State.modPiece_lay (i : Fin 64) (f : Piece → Piece) (m : Fin 8) : (s.modPiece i f).lay m = s.lay m :=
  rfl
@[simp] theorem State.modPiece_layParams (i : Fin 64) (f : Piece → Piece) (m : Fin 8) :
    (s.modPiece i f).layParams m = s.layParams m := rfl
@[simp] theorem State.modPiece_stationParams (i : Fin 64) (f : Piece → Piece) (m : Fin 9) :
    (s.modPiece i f).stationParams m = s.stationParams m := rfl
@[simp] theorem State.modPiece_layPins (i : Fin 64) (f : Piece → Piece) (m : Fin 8) :
    (s.modPiece i f).layPins m = s.layPins m := rfl
@[simp] theorem State.modPiece_orderAt (i : Fin 64) (f : Piece → Piece) (m : Fin 16) :
    (s.modPiece i f).orderAt m = s.orderAt m := rfl
@[simp] theorem State.modPiece_faults (i : Fin 64) (f : Piece → Piece) (m : Fin 9) :
    (s.modPiece i f).faults m = s.faults m := rfl
@[simp] theorem State.modPiece_cutTimer (i : Fin 64) (f : Piece → Piece) (m : Fin 9) :
    (s.modPiece i f).cutTimer m = s.cutTimer m := rfl

/-! ### modCoil -/

@[simp] theorem State.modCoil_clocks (i : Fin 64) (f : Coil → Coil) : (s.modCoil i f).clocks = s.clocks := rfl
@[simp] theorem State.modCoil_pins (i : Fin 64) (f : Coil → Coil) : (s.modCoil i f).pins = s.pins := rfl
@[simp] theorem State.modCoil_params (i : Fin 64) (f : Coil → Coil) : (s.modCoil i f).params = s.params := rfl
@[simp] theorem State.modCoil_orders (i : Fin 64) (f : Coil → Coil) : (s.modCoil i f).orders = s.orders := rfl
@[simp] theorem State.modCoil_stations (i : Fin 64) (f : Coil → Coil) : (s.modCoil i f).stations = s.stations := rfl
@[simp] theorem State.modCoil_lays (i : Fin 64) (f : Coil → Coil) : (s.modCoil i f).lays = s.lays := rfl
@[simp] theorem State.modCoil_inspector (i : Fin 64) (f : Coil → Coil) : (s.modCoil i f).inspector = s.inspector :=
  rfl
@[simp] theorem State.modCoil_arbiter (i : Fin 64) (f : Coil → Coil) : (s.modCoil i f).arbiter = s.arbiter := rfl
@[simp] theorem State.modCoil_table_nextSerial (i : Fin 64) (f : Coil → Coil) :
    (s.modCoil i f).table.nextSerial = s.table.nextSerial := rfl
@[simp] theorem State.modCoil_table_lowArmed (i : Fin 64) (f : Coil → Coil) :
    (s.modCoil i f).table.lowArmed = s.table.lowArmed := rfl
@[simp] theorem State.modCoil_pack (i : Fin 64) (f : Coil → Coil) : (s.modCoil i f).pack = s.pack := rfl
@[simp] theorem State.modCoil_collector (i : Fin 64) (f : Coil → Coil) : (s.modCoil i f).collector = s.collector :=
  rfl
@[simp] theorem State.modCoil_notices (i : Fin 64) (f : Coil → Coil) : (s.modCoil i f).notices = s.notices := rfl
@[simp] theorem State.modCoil_port (i : Fin 64) (f : Coil → Coil) : (s.modCoil i f).port = s.port := rfl
@[simp] theorem State.modCoil_pending (i : Fin 64) (f : Coil → Coil) : (s.modCoil i f).pending = s.pending := rfl
@[simp] theorem State.modCoil_station (i : Fin 64) (f : Coil → Coil) (m : Fin 9) :
    (s.modCoil i f).station m = s.station m := rfl
@[simp] theorem State.modCoil_lay (i : Fin 64) (f : Coil → Coil) (m : Fin 8) : (s.modCoil i f).lay m = s.lay m := rfl
@[simp] theorem State.modCoil_layParams (i : Fin 64) (f : Coil → Coil) (m : Fin 8) :
    (s.modCoil i f).layParams m = s.layParams m := rfl
@[simp] theorem State.modCoil_stationParams (i : Fin 64) (f : Coil → Coil) (m : Fin 9) :
    (s.modCoil i f).stationParams m = s.stationParams m := rfl
@[simp] theorem State.modCoil_layPins (i : Fin 64) (f : Coil → Coil) (m : Fin 8) :
    (s.modCoil i f).layPins m = s.layPins m := rfl
@[simp] theorem State.modCoil_orderAt (i : Fin 64) (f : Coil → Coil) (m : Fin 16) :
    (s.modCoil i f).orderAt m = s.orderAt m := rfl
@[simp] theorem State.modCoil_faults (i : Fin 64) (f : Coil → Coil) (m : Fin 9) :
    (s.modCoil i f).faults m = s.faults m := rfl
@[simp] theorem State.modCoil_cutTimer (i : Fin 64) (f : Coil → Coil) (m : Fin 9) :
    (s.modCoil i f).cutTimer m = s.cutTimer m := rfl

/-! ### modPanel -/

@[simp] theorem State.modPanel_clocks (i : Fin 64) (f : Panel → Panel) : (s.modPanel i f).clocks = s.clocks := rfl
@[simp] theorem State.modPanel_pins (i : Fin 64) (f : Panel → Panel) : (s.modPanel i f).pins = s.pins := rfl
@[simp] theorem State.modPanel_params (i : Fin 64) (f : Panel → Panel) : (s.modPanel i f).params = s.params := rfl
@[simp] theorem State.modPanel_orders (i : Fin 64) (f : Panel → Panel) : (s.modPanel i f).orders = s.orders := rfl
@[simp] theorem State.modPanel_stations (i : Fin 64) (f : Panel → Panel) : (s.modPanel i f).stations = s.stations :=
  rfl
@[simp] theorem State.modPanel_lays (i : Fin 64) (f : Panel → Panel) : (s.modPanel i f).lays = s.lays := rfl
@[simp] theorem State.modPanel_inspector (i : Fin 64) (f : Panel → Panel) : (s.modPanel i f).inspector = s.inspector :=
  rfl
@[simp] theorem State.modPanel_arbiter (i : Fin 64) (f : Panel → Panel) : (s.modPanel i f).arbiter = s.arbiter := rfl
@[simp] theorem State.modPanel_table_nextSerial (i : Fin 64) (f : Panel → Panel) :
    (s.modPanel i f).table.nextSerial = s.table.nextSerial := rfl
@[simp] theorem State.modPanel_table_lowArmed (i : Fin 64) (f : Panel → Panel) :
    (s.modPanel i f).table.lowArmed = s.table.lowArmed := rfl
@[simp] theorem State.modPanel_pack (i : Fin 64) (f : Panel → Panel) : (s.modPanel i f).pack = s.pack := rfl
@[simp] theorem State.modPanel_collector (i : Fin 64) (f : Panel → Panel) : (s.modPanel i f).collector = s.collector :=
  rfl
@[simp] theorem State.modPanel_notices (i : Fin 64) (f : Panel → Panel) : (s.modPanel i f).notices = s.notices := rfl
@[simp] theorem State.modPanel_port (i : Fin 64) (f : Panel → Panel) : (s.modPanel i f).port = s.port := rfl
@[simp] theorem State.modPanel_pending (i : Fin 64) (f : Panel → Panel) : (s.modPanel i f).pending = s.pending := rfl
@[simp] theorem State.modPanel_station (i : Fin 64) (f : Panel → Panel) (m : Fin 9) :
    (s.modPanel i f).station m = s.station m := rfl
@[simp] theorem State.modPanel_lay (i : Fin 64) (f : Panel → Panel) (m : Fin 8) : (s.modPanel i f).lay m = s.lay m :=
  rfl
@[simp] theorem State.modPanel_layParams (i : Fin 64) (f : Panel → Panel) (m : Fin 8) :
    (s.modPanel i f).layParams m = s.layParams m := rfl
@[simp] theorem State.modPanel_stationParams (i : Fin 64) (f : Panel → Panel) (m : Fin 9) :
    (s.modPanel i f).stationParams m = s.stationParams m := rfl
@[simp] theorem State.modPanel_layPins (i : Fin 64) (f : Panel → Panel) (m : Fin 8) :
    (s.modPanel i f).layPins m = s.layPins m := rfl
@[simp] theorem State.modPanel_orderAt (i : Fin 64) (f : Panel → Panel) (m : Fin 16) :
    (s.modPanel i f).orderAt m = s.orderAt m := rfl
@[simp] theorem State.modPanel_faults (i : Fin 64) (f : Panel → Panel) (m : Fin 9) :
    (s.modPanel i f).faults m = s.faults m := rfl
@[simp] theorem State.modPanel_cutTimer (i : Fin 64) (f : Panel → Panel) (m : Fin 9) :
    (s.modPanel i f).cutTimer m = s.cutTimer m := rfl

/-! ### modFaults -/

@[simp] theorem State.modFaults_clocks (n : Fin 9) (f : StationFaults → StationFaults) :
    (s.modFaults n f).clocks = s.clocks := rfl
@[simp] theorem State.modFaults_pins (n : Fin 9) (f : StationFaults → StationFaults) :
    (s.modFaults n f).pins = s.pins := rfl
@[simp] theorem State.modFaults_params (n : Fin 9) (f : StationFaults → StationFaults) :
    (s.modFaults n f).params = s.params := rfl
@[simp] theorem State.modFaults_orders (n : Fin 9) (f : StationFaults → StationFaults) :
    (s.modFaults n f).orders = s.orders := rfl
@[simp] theorem State.modFaults_stations (n : Fin 9) (f : StationFaults → StationFaults) :
    (s.modFaults n f).stations = s.stations := rfl
@[simp] theorem State.modFaults_lays (n : Fin 9) (f : StationFaults → StationFaults) :
    (s.modFaults n f).lays = s.lays := rfl
@[simp] theorem State.modFaults_inspector (n : Fin 9) (f : StationFaults → StationFaults) :
    (s.modFaults n f).inspector = s.inspector := rfl
@[simp] theorem State.modFaults_arbiter (n : Fin 9) (f : StationFaults → StationFaults) :
    (s.modFaults n f).arbiter = s.arbiter := rfl
@[simp] theorem State.modFaults_table (n : Fin 9) (f : StationFaults → StationFaults) :
    (s.modFaults n f).table = s.table := rfl
@[simp] theorem State.modFaults_pack (n : Fin 9) (f : StationFaults → StationFaults) :
    (s.modFaults n f).pack = s.pack := rfl
@[simp] theorem State.modFaults_collector_linkTimer (n : Fin 9) (f : StationFaults → StationFaults) :
    (s.modFaults n f).collector.linkTimer = s.collector.linkTimer := rfl
@[simp] theorem State.modFaults_notices (n : Fin 9) (f : StationFaults → StationFaults) :
    (s.modFaults n f).notices = s.notices := rfl
@[simp] theorem State.modFaults_port (n : Fin 9) (f : StationFaults → StationFaults) :
    (s.modFaults n f).port = s.port := rfl
@[simp] theorem State.modFaults_pending (n : Fin 9) (f : StationFaults → StationFaults) :
    (s.modFaults n f).pending = s.pending := rfl
@[simp] theorem State.modFaults_station (n : Fin 9) (f : StationFaults → StationFaults) (m : Fin 9) :
    (s.modFaults n f).station m = s.station m := rfl
@[simp] theorem State.modFaults_lay (n : Fin 9) (f : StationFaults → StationFaults) (m : Fin 8) :
    (s.modFaults n f).lay m = s.lay m := rfl
@[simp] theorem State.modFaults_layParams (n : Fin 9) (f : StationFaults → StationFaults) (m : Fin 8) :
    (s.modFaults n f).layParams m = s.layParams m := rfl
@[simp] theorem State.modFaults_stationParams (n : Fin 9) (f : StationFaults → StationFaults) (m : Fin 9) :
    (s.modFaults n f).stationParams m = s.stationParams m := rfl
@[simp] theorem State.modFaults_layPins (n : Fin 9) (f : StationFaults → StationFaults) (m : Fin 8) :
    (s.modFaults n f).layPins m = s.layPins m := rfl
@[simp] theorem State.modFaults_orderAt (n : Fin 9) (f : StationFaults → StationFaults) (m : Fin 16) :
    (s.modFaults n f).orderAt m = s.orderAt m := rfl
@[simp] theorem State.modFaults_record (n : Fin 9) (f : StationFaults → StationFaults) (m : Fin 64) :
    (s.modFaults n f).record m = s.record m := rfl
@[simp] theorem State.modFaults_cutTimer (n : Fin 9) (f : StationFaults → StationFaults) (m : Fin 9) :
    (s.modFaults n f).cutTimer m = s.cutTimer m := rfl
@[simp] theorem State.modFaults_freeCount (n : Fin 9) (f : StationFaults → StationFaults) :
    (s.modFaults n f).freeCount = s.freeCount := rfl

/-! ### setCutTimer -/

@[simp] theorem State.setCutTimer_clocks (n : Fin 9) (t : Option Timer) : (s.setCutTimer n t).clocks = s.clocks := rfl
@[simp] theorem State.setCutTimer_pins (n : Fin 9) (t : Option Timer) : (s.setCutTimer n t).pins = s.pins := rfl
@[simp] theorem State.setCutTimer_params (n : Fin 9) (t : Option Timer) : (s.setCutTimer n t).params = s.params := rfl
@[simp] theorem State.setCutTimer_orders (n : Fin 9) (t : Option Timer) : (s.setCutTimer n t).orders = s.orders := rfl
@[simp] theorem State.setCutTimer_stations (n : Fin 9) (t : Option Timer) : (s.setCutTimer n t).stations = s.stations :=
  rfl
@[simp] theorem State.setCutTimer_lays (n : Fin 9) (t : Option Timer) : (s.setCutTimer n t).lays = s.lays := rfl
@[simp] theorem State.setCutTimer_inspector (n : Fin 9) (t : Option Timer) :
    (s.setCutTimer n t).inspector = s.inspector := rfl
@[simp] theorem State.setCutTimer_arbiter_waiting (n : Fin 9) (t : Option Timer) :
    (s.setCutTimer n t).arbiter.waiting = s.arbiter.waiting := rfl
@[simp] theorem State.setCutTimer_arbiter_grants (n : Fin 9) (t : Option Timer) :
    (s.setCutTimer n t).arbiter.grants = s.arbiter.grants := rfl
@[simp] theorem State.setCutTimer_arbiter_laneA (n : Fin 9) (t : Option Timer) :
    (s.setCutTimer n t).arbiter.laneA = s.arbiter.laneA := rfl
@[simp] theorem State.setCutTimer_arbiter_laneB (n : Fin 9) (t : Option Timer) :
    (s.setCutTimer n t).arbiter.laneB = s.arbiter.laneB := rfl
@[simp] theorem State.setCutTimer_arbiter_reservedRecords (n : Fin 9) (t : Option Timer) :
    (s.setCutTimer n t).arbiter.reservedRecords = s.arbiter.reservedRecords := rfl
@[simp] theorem State.setCutTimer_arbiter_reservedPlaces (n : Fin 9) (t : Option Timer) :
    (s.setCutTimer n t).arbiter.reservedPlaces = s.arbiter.reservedPlaces := rfl
@[simp] theorem State.setCutTimer_table (n : Fin 9) (t : Option Timer) : (s.setCutTimer n t).table = s.table := rfl
@[simp] theorem State.setCutTimer_pack (n : Fin 9) (t : Option Timer) : (s.setCutTimer n t).pack = s.pack := rfl
@[simp] theorem State.setCutTimer_collector (n : Fin 9) (t : Option Timer) :
    (s.setCutTimer n t).collector = s.collector := rfl
@[simp] theorem State.setCutTimer_notices (n : Fin 9) (t : Option Timer) : (s.setCutTimer n t).notices = s.notices :=
  rfl
@[simp] theorem State.setCutTimer_port (n : Fin 9) (t : Option Timer) : (s.setCutTimer n t).port = s.port := rfl
@[simp] theorem State.setCutTimer_pending (n : Fin 9) (t : Option Timer) : (s.setCutTimer n t).pending = s.pending :=
  rfl
@[simp] theorem State.setCutTimer_station (n : Fin 9) (t : Option Timer) (m : Fin 9) :
    (s.setCutTimer n t).station m = s.station m := rfl
@[simp] theorem State.setCutTimer_lay (n : Fin 9) (t : Option Timer) (m : Fin 8) :
    (s.setCutTimer n t).lay m = s.lay m := rfl
@[simp] theorem State.setCutTimer_layParams (n : Fin 9) (t : Option Timer) (m : Fin 8) :
    (s.setCutTimer n t).layParams m = s.layParams m := rfl
@[simp] theorem State.setCutTimer_stationParams (n : Fin 9) (t : Option Timer) (m : Fin 9) :
    (s.setCutTimer n t).stationParams m = s.stationParams m := rfl
@[simp] theorem State.setCutTimer_layPins (n : Fin 9) (t : Option Timer) (m : Fin 8) :
    (s.setCutTimer n t).layPins m = s.layPins m := rfl
@[simp] theorem State.setCutTimer_orderAt (n : Fin 9) (t : Option Timer) (m : Fin 16) :
    (s.setCutTimer n t).orderAt m = s.orderAt m := rfl
@[simp] theorem State.setCutTimer_record (n : Fin 9) (t : Option Timer) (m : Fin 64) :
    (s.setCutTimer n t).record m = s.record m := rfl
@[simp] theorem State.setCutTimer_faults (n : Fin 9) (t : Option Timer) (m : Fin 9) :
    (s.setCutTimer n t).faults m = s.faults m := rfl
@[simp] theorem State.setCutTimer_freeCount (n : Fin 9) (t : Option Timer) :
    (s.setCutTimer n t).freeCount = s.freeCount := rfl

/-! ### modInspector -/

@[simp] theorem State.modInspector_clocks (f : Inspector → Inspector) : (s.modInspector f).clocks = s.clocks := rfl
@[simp] theorem State.modInspector_pins (f : Inspector → Inspector) : (s.modInspector f).pins = s.pins := rfl
@[simp] theorem State.modInspector_params (f : Inspector → Inspector) : (s.modInspector f).params = s.params := rfl
@[simp] theorem State.modInspector_orders (f : Inspector → Inspector) : (s.modInspector f).orders = s.orders := rfl
@[simp] theorem State.modInspector_stations (f : Inspector → Inspector) : (s.modInspector f).stations = s.stations :=
  rfl
@[simp] theorem State.modInspector_lays (f : Inspector → Inspector) : (s.modInspector f).lays = s.lays := rfl
@[simp] theorem State.modInspector_arbiter (f : Inspector → Inspector) : (s.modInspector f).arbiter = s.arbiter := rfl
@[simp] theorem State.modInspector_table (f : Inspector → Inspector) : (s.modInspector f).table = s.table := rfl
@[simp] theorem State.modInspector_pack (f : Inspector → Inspector) : (s.modInspector f).pack = s.pack := rfl
@[simp] theorem State.modInspector_collector (f : Inspector → Inspector) : (s.modInspector f).collector = s.collector :=
  rfl
@[simp] theorem State.modInspector_notices (f : Inspector → Inspector) : (s.modInspector f).notices = s.notices := rfl
@[simp] theorem State.modInspector_port (f : Inspector → Inspector) : (s.modInspector f).port = s.port := rfl
@[simp] theorem State.modInspector_pending (f : Inspector → Inspector) : (s.modInspector f).pending = s.pending := rfl
@[simp] theorem State.modInspector_station (f : Inspector → Inspector) (m : Fin 9) :
    (s.modInspector f).station m = s.station m := rfl
@[simp] theorem State.modInspector_lay (f : Inspector → Inspector) (m : Fin 8) : (s.modInspector f).lay m = s.lay m :=
  rfl
@[simp] theorem State.modInspector_layParams (f : Inspector → Inspector) (m : Fin 8) :
    (s.modInspector f).layParams m = s.layParams m := rfl
@[simp] theorem State.modInspector_stationParams (f : Inspector → Inspector) (m : Fin 9) :
    (s.modInspector f).stationParams m = s.stationParams m := rfl
@[simp] theorem State.modInspector_layPins (f : Inspector → Inspector) (m : Fin 8) :
    (s.modInspector f).layPins m = s.layPins m := rfl
@[simp] theorem State.modInspector_orderAt (f : Inspector → Inspector) (m : Fin 16) :
    (s.modInspector f).orderAt m = s.orderAt m := rfl
@[simp] theorem State.modInspector_record (f : Inspector → Inspector) (m : Fin 64) :
    (s.modInspector f).record m = s.record m := rfl
@[simp] theorem State.modInspector_faults (f : Inspector → Inspector) (m : Fin 9) :
    (s.modInspector f).faults m = s.faults m := rfl
@[simp] theorem State.modInspector_cutTimer (f : Inspector → Inspector) (m : Fin 9) :
    (s.modInspector f).cutTimer m = s.cutTimer m := rfl
@[simp] theorem State.modInspector_freeCount (f : Inspector → Inspector) : (s.modInspector f).freeCount = s.freeCount :=
  rfl

/-! ### setWaiting -/

@[simp] theorem State.setWaiting_clocks (q : List (Fin 9)) : (s.setWaiting q).clocks = s.clocks := rfl
@[simp] theorem State.setWaiting_pins (q : List (Fin 9)) : (s.setWaiting q).pins = s.pins := rfl
@[simp] theorem State.setWaiting_params (q : List (Fin 9)) : (s.setWaiting q).params = s.params := rfl
@[simp] theorem State.setWaiting_orders (q : List (Fin 9)) : (s.setWaiting q).orders = s.orders := rfl
@[simp] theorem State.setWaiting_stations (q : List (Fin 9)) : (s.setWaiting q).stations = s.stations := rfl
@[simp] theorem State.setWaiting_lays (q : List (Fin 9)) : (s.setWaiting q).lays = s.lays := rfl
@[simp] theorem State.setWaiting_inspector (q : List (Fin 9)) : (s.setWaiting q).inspector = s.inspector := rfl
@[simp] theorem State.setWaiting_arbiter_grants (q : List (Fin 9)) :
    (s.setWaiting q).arbiter.grants = s.arbiter.grants := rfl
@[simp] theorem State.setWaiting_arbiter_laneA (q : List (Fin 9)) : (s.setWaiting q).arbiter.laneA = s.arbiter.laneA :=
  rfl
@[simp] theorem State.setWaiting_arbiter_laneB (q : List (Fin 9)) : (s.setWaiting q).arbiter.laneB = s.arbiter.laneB :=
  rfl
@[simp] theorem State.setWaiting_arbiter_reservedRecords (q : List (Fin 9)) :
    (s.setWaiting q).arbiter.reservedRecords = s.arbiter.reservedRecords := rfl
@[simp] theorem State.setWaiting_arbiter_reservedPlaces (q : List (Fin 9)) :
    (s.setWaiting q).arbiter.reservedPlaces = s.arbiter.reservedPlaces := rfl
@[simp] theorem State.setWaiting_arbiter_cutTimers (q : List (Fin 9)) :
    (s.setWaiting q).arbiter.cutTimers = s.arbiter.cutTimers := rfl
@[simp] theorem State.setWaiting_table (q : List (Fin 9)) : (s.setWaiting q).table = s.table := rfl
@[simp] theorem State.setWaiting_pack (q : List (Fin 9)) : (s.setWaiting q).pack = s.pack := rfl
@[simp] theorem State.setWaiting_collector (q : List (Fin 9)) : (s.setWaiting q).collector = s.collector := rfl
@[simp] theorem State.setWaiting_notices (q : List (Fin 9)) : (s.setWaiting q).notices = s.notices := rfl
@[simp] theorem State.setWaiting_port (q : List (Fin 9)) : (s.setWaiting q).port = s.port := rfl
@[simp] theorem State.setWaiting_pending (q : List (Fin 9)) : (s.setWaiting q).pending = s.pending := rfl
@[simp] theorem State.setWaiting_station (q : List (Fin 9)) (m : Fin 9) : (s.setWaiting q).station m = s.station m :=
  rfl
@[simp] theorem State.setWaiting_lay (q : List (Fin 9)) (m : Fin 8) : (s.setWaiting q).lay m = s.lay m := rfl
@[simp] theorem State.setWaiting_layParams (q : List (Fin 9)) (m : Fin 8) :
    (s.setWaiting q).layParams m = s.layParams m := rfl
@[simp] theorem State.setWaiting_stationParams (q : List (Fin 9)) (m : Fin 9) :
    (s.setWaiting q).stationParams m = s.stationParams m := rfl
@[simp] theorem State.setWaiting_layPins (q : List (Fin 9)) (m : Fin 8) : (s.setWaiting q).layPins m = s.layPins m :=
  rfl
@[simp] theorem State.setWaiting_orderAt (q : List (Fin 9)) (m : Fin 16) : (s.setWaiting q).orderAt m = s.orderAt m :=
  rfl
@[simp] theorem State.setWaiting_record (q : List (Fin 9)) (m : Fin 64) : (s.setWaiting q).record m = s.record m :=
  rfl
@[simp] theorem State.setWaiting_faults (q : List (Fin 9)) (m : Fin 9) : (s.setWaiting q).faults m = s.faults m := rfl
@[simp] theorem State.setWaiting_cutTimer (q : List (Fin 9)) (m : Fin 9) : (s.setWaiting q).cutTimer m = s.cutTimer m :=
  rfl
@[simp] theorem State.setWaiting_freeCount (q : List (Fin 9)) : (s.setWaiting q).freeCount = s.freeCount := rfl

/-! ### dropRequest -/

@[simp] theorem State.dropRequest_clocks (n : Fin 9) : (s.dropRequest n).clocks = s.clocks := rfl
@[simp] theorem State.dropRequest_pins (n : Fin 9) : (s.dropRequest n).pins = s.pins := rfl
@[simp] theorem State.dropRequest_params (n : Fin 9) : (s.dropRequest n).params = s.params := rfl
@[simp] theorem State.dropRequest_orders (n : Fin 9) : (s.dropRequest n).orders = s.orders := rfl
@[simp] theorem State.dropRequest_stations (n : Fin 9) : (s.dropRequest n).stations = s.stations := rfl
@[simp] theorem State.dropRequest_lays (n : Fin 9) : (s.dropRequest n).lays = s.lays := rfl
@[simp] theorem State.dropRequest_inspector (n : Fin 9) : (s.dropRequest n).inspector = s.inspector := rfl
@[simp] theorem State.dropRequest_arbiter_grants (n : Fin 9) : (s.dropRequest n).arbiter.grants = s.arbiter.grants :=
  rfl
@[simp] theorem State.dropRequest_arbiter_laneA (n : Fin 9) : (s.dropRequest n).arbiter.laneA = s.arbiter.laneA := rfl
@[simp] theorem State.dropRequest_arbiter_laneB (n : Fin 9) : (s.dropRequest n).arbiter.laneB = s.arbiter.laneB := rfl
@[simp] theorem State.dropRequest_arbiter_reservedRecords (n : Fin 9) :
    (s.dropRequest n).arbiter.reservedRecords = s.arbiter.reservedRecords := rfl
@[simp] theorem State.dropRequest_arbiter_reservedPlaces (n : Fin 9) :
    (s.dropRequest n).arbiter.reservedPlaces = s.arbiter.reservedPlaces := rfl
@[simp] theorem State.dropRequest_arbiter_cutTimers (n : Fin 9) :
    (s.dropRequest n).arbiter.cutTimers = s.arbiter.cutTimers := rfl
@[simp] theorem State.dropRequest_table (n : Fin 9) : (s.dropRequest n).table = s.table := rfl
@[simp] theorem State.dropRequest_pack (n : Fin 9) : (s.dropRequest n).pack = s.pack := rfl
@[simp] theorem State.dropRequest_collector (n : Fin 9) : (s.dropRequest n).collector = s.collector := rfl
@[simp] theorem State.dropRequest_notices (n : Fin 9) : (s.dropRequest n).notices = s.notices := rfl
@[simp] theorem State.dropRequest_port (n : Fin 9) : (s.dropRequest n).port = s.port := rfl
@[simp] theorem State.dropRequest_pending (n : Fin 9) : (s.dropRequest n).pending = s.pending := rfl
@[simp] theorem State.dropRequest_station (n : Fin 9) (m : Fin 9) : (s.dropRequest n).station m = s.station m := rfl
@[simp] theorem State.dropRequest_lay (n : Fin 9) (m : Fin 8) : (s.dropRequest n).lay m = s.lay m := rfl
@[simp] theorem State.dropRequest_layParams (n : Fin 9) (m : Fin 8) : (s.dropRequest n).layParams m = s.layParams m :=
  rfl
@[simp] theorem State.dropRequest_stationParams (n : Fin 9) (m : Fin 9) :
    (s.dropRequest n).stationParams m = s.stationParams m := rfl
@[simp] theorem State.dropRequest_layPins (n : Fin 9) (m : Fin 8) : (s.dropRequest n).layPins m = s.layPins m := rfl
@[simp] theorem State.dropRequest_orderAt (n : Fin 9) (m : Fin 16) : (s.dropRequest n).orderAt m = s.orderAt m := rfl
@[simp] theorem State.dropRequest_record (n : Fin 9) (m : Fin 64) : (s.dropRequest n).record m = s.record m := rfl
@[simp] theorem State.dropRequest_faults (n : Fin 9) (m : Fin 9) : (s.dropRequest n).faults m = s.faults m := rfl
@[simp] theorem State.dropRequest_cutTimer (n : Fin 9) (m : Fin 9) : (s.dropRequest n).cutTimer m = s.cutTimer m :=
  rfl
@[simp] theorem State.dropRequest_freeCount (n : Fin 9) : (s.dropRequest n).freeCount = s.freeCount := rfl

/-! ### notice -/

@[simp] theorem State.notice_clocks (slot : Fin 10) (k : NoticeKind) : (s.notice slot k).clocks = s.clocks := rfl
@[simp] theorem State.notice_pins (slot : Fin 10) (k : NoticeKind) : (s.notice slot k).pins = s.pins := rfl
@[simp] theorem State.notice_params (slot : Fin 10) (k : NoticeKind) : (s.notice slot k).params = s.params := rfl
@[simp] theorem State.notice_orders (slot : Fin 10) (k : NoticeKind) : (s.notice slot k).orders = s.orders := rfl
@[simp] theorem State.notice_stations (slot : Fin 10) (k : NoticeKind) : (s.notice slot k).stations = s.stations :=
  rfl
@[simp] theorem State.notice_lays (slot : Fin 10) (k : NoticeKind) : (s.notice slot k).lays = s.lays := rfl
@[simp] theorem State.notice_inspector (slot : Fin 10) (k : NoticeKind) : (s.notice slot k).inspector = s.inspector :=
  rfl
@[simp] theorem State.notice_arbiter (slot : Fin 10) (k : NoticeKind) : (s.notice slot k).arbiter = s.arbiter := rfl
@[simp] theorem State.notice_table (slot : Fin 10) (k : NoticeKind) : (s.notice slot k).table = s.table := rfl
@[simp] theorem State.notice_pack (slot : Fin 10) (k : NoticeKind) : (s.notice slot k).pack = s.pack := rfl
@[simp] theorem State.notice_collector (slot : Fin 10) (k : NoticeKind) : (s.notice slot k).collector = s.collector :=
  rfl
@[simp] theorem State.notice_notices_mask (slot : Fin 10) (k : NoticeKind) :
    (s.notice slot k).notices.mask = s.notices.mask := rfl
@[simp] theorem State.notice_port (slot : Fin 10) (k : NoticeKind) : (s.notice slot k).port = s.port := rfl
@[simp] theorem State.notice_pending (slot : Fin 10) (k : NoticeKind) : (s.notice slot k).pending = s.pending := rfl
@[simp] theorem State.notice_station (slot : Fin 10) (k : NoticeKind) (m : Fin 9) :
    (s.notice slot k).station m = s.station m := rfl
@[simp] theorem State.notice_lay (slot : Fin 10) (k : NoticeKind) (m : Fin 8) : (s.notice slot k).lay m = s.lay m :=
  rfl
@[simp] theorem State.notice_layParams (slot : Fin 10) (k : NoticeKind) (m : Fin 8) :
    (s.notice slot k).layParams m = s.layParams m := rfl
@[simp] theorem State.notice_stationParams (slot : Fin 10) (k : NoticeKind) (m : Fin 9) :
    (s.notice slot k).stationParams m = s.stationParams m := rfl
@[simp] theorem State.notice_layPins (slot : Fin 10) (k : NoticeKind) (m : Fin 8) :
    (s.notice slot k).layPins m = s.layPins m := rfl
@[simp] theorem State.notice_orderAt (slot : Fin 10) (k : NoticeKind) (m : Fin 16) :
    (s.notice slot k).orderAt m = s.orderAt m := rfl
@[simp] theorem State.notice_record (slot : Fin 10) (k : NoticeKind) (m : Fin 64) :
    (s.notice slot k).record m = s.record m := rfl
@[simp] theorem State.notice_faults (slot : Fin 10) (k : NoticeKind) (m : Fin 9) :
    (s.notice slot k).faults m = s.faults m := rfl
@[simp] theorem State.notice_cutTimer (slot : Fin 10) (k : NoticeKind) (m : Fin 9) :
    (s.notice slot k).cutTimer m = s.cutTimer m := rfl
@[simp] theorem State.notice_freeCount (slot : Fin 10) (k : NoticeKind) : (s.notice slot k).freeCount = s.freeCount :=
  rfl

/-! ### release -/

@[simp] theorem State.release_clocks : (s.release).clocks = s.clocks := rfl
@[simp] theorem State.release_pins : (s.release).pins = s.pins := rfl
@[simp] theorem State.release_params : (s.release).params = s.params := rfl
@[simp] theorem State.release_orders : (s.release).orders = s.orders := rfl
@[simp] theorem State.release_stations : (s.release).stations = s.stations := rfl
@[simp] theorem State.release_lays : (s.release).lays = s.lays := rfl
@[simp] theorem State.release_inspector : (s.release).inspector = s.inspector := rfl
@[simp] theorem State.release_arbiter_waiting : (s.release).arbiter.waiting = s.arbiter.waiting := rfl
@[simp] theorem State.release_arbiter_grants : (s.release).arbiter.grants = s.arbiter.grants := rfl
@[simp] theorem State.release_arbiter_laneA : (s.release).arbiter.laneA = s.arbiter.laneA := rfl
@[simp] theorem State.release_arbiter_laneB : (s.release).arbiter.laneB = s.arbiter.laneB := rfl
@[simp] theorem State.release_arbiter_cutTimers : (s.release).arbiter.cutTimers = s.arbiter.cutTimers := rfl
@[simp] theorem State.release_table : (s.release).table = s.table := rfl
@[simp] theorem State.release_pack : (s.release).pack = s.pack := rfl
@[simp] theorem State.release_collector : (s.release).collector = s.collector := rfl
@[simp] theorem State.release_notices : (s.release).notices = s.notices := rfl
@[simp] theorem State.release_port : (s.release).port = s.port := rfl
@[simp] theorem State.release_pending : (s.release).pending = s.pending := rfl
@[simp] theorem State.release_station (m : Fin 9) : (s.release).station m = s.station m := rfl
@[simp] theorem State.release_lay (m : Fin 8) : (s.release).lay m = s.lay m := rfl
@[simp] theorem State.release_layParams (m : Fin 8) : (s.release).layParams m = s.layParams m := rfl
@[simp] theorem State.release_stationParams (m : Fin 9) : (s.release).stationParams m = s.stationParams m := rfl
@[simp] theorem State.release_layPins (m : Fin 8) : (s.release).layPins m = s.layPins m := rfl
@[simp] theorem State.release_orderAt (m : Fin 16) : (s.release).orderAt m = s.orderAt m := rfl
@[simp] theorem State.release_record (m : Fin 64) : (s.release).record m = s.record m := rfl
@[simp] theorem State.release_faults (m : Fin 9) : (s.release).faults m = s.faults m := rfl
@[simp] theorem State.release_cutTimer (m : Fin 9) : (s.release).cutTimer m = s.cutTimer m := rfl
@[simp] theorem State.release_freeCount : (s.release).freeCount = s.freeCount := rfl

/-! ### recordFault -/

@[simp] theorem State.recordFault_clocks (n : Fin 9) (k : FaultKind) (src : Option (Fin 9)) :
    (s.recordFault n k src).clocks = s.clocks := rfl
@[simp] theorem State.recordFault_pins (n : Fin 9) (k : FaultKind) (src : Option (Fin 9)) :
    (s.recordFault n k src).pins = s.pins := rfl
@[simp] theorem State.recordFault_params (n : Fin 9) (k : FaultKind) (src : Option (Fin 9)) :
    (s.recordFault n k src).params = s.params := rfl
@[simp] theorem State.recordFault_orders (n : Fin 9) (k : FaultKind) (src : Option (Fin 9)) :
    (s.recordFault n k src).orders = s.orders := rfl
@[simp] theorem State.recordFault_stations (n : Fin 9) (k : FaultKind) (src : Option (Fin 9)) :
    (s.recordFault n k src).stations = s.stations := rfl
@[simp] theorem State.recordFault_lays (n : Fin 9) (k : FaultKind) (src : Option (Fin 9)) :
    (s.recordFault n k src).lays = s.lays := rfl
@[simp] theorem State.recordFault_inspector (n : Fin 9) (k : FaultKind) (src : Option (Fin 9)) :
    (s.recordFault n k src).inspector = s.inspector := rfl
@[simp] theorem State.recordFault_arbiter (n : Fin 9) (k : FaultKind) (src : Option (Fin 9)) :
    (s.recordFault n k src).arbiter = s.arbiter := rfl
@[simp] theorem State.recordFault_table (n : Fin 9) (k : FaultKind) (src : Option (Fin 9)) :
    (s.recordFault n k src).table = s.table := rfl
@[simp] theorem State.recordFault_pack (n : Fin 9) (k : FaultKind) (src : Option (Fin 9)) :
    (s.recordFault n k src).pack = s.pack := rfl
@[simp] theorem State.recordFault_collector_linkTimer (n : Fin 9) (k : FaultKind) (src : Option (Fin 9)) :
    (s.recordFault n k src).collector.linkTimer = s.collector.linkTimer := rfl
@[simp] theorem State.recordFault_notices_mask (n : Fin 9) (k : FaultKind) (src : Option (Fin 9)) :
    (s.recordFault n k src).notices.mask = s.notices.mask := rfl
@[simp] theorem State.recordFault_port (n : Fin 9) (k : FaultKind) (src : Option (Fin 9)) :
    (s.recordFault n k src).port = s.port := rfl
@[simp] theorem State.recordFault_pending (n : Fin 9) (k : FaultKind) (src : Option (Fin 9)) :
    (s.recordFault n k src).pending = s.pending := rfl
@[simp] theorem State.recordFault_station (n : Fin 9) (k : FaultKind) (src : Option (Fin 9)) (m : Fin 9) :
    (s.recordFault n k src).station m = s.station m := rfl
@[simp] theorem State.recordFault_lay (n : Fin 9) (k : FaultKind) (src : Option (Fin 9)) (m : Fin 8) :
    (s.recordFault n k src).lay m = s.lay m := rfl
@[simp] theorem State.recordFault_layParams (n : Fin 9) (k : FaultKind) (src : Option (Fin 9)) (m : Fin 8) :
    (s.recordFault n k src).layParams m = s.layParams m := rfl
@[simp] theorem State.recordFault_stationParams (n : Fin 9) (k : FaultKind) (src : Option (Fin 9)) (m : Fin 9) :
    (s.recordFault n k src).stationParams m = s.stationParams m := rfl
@[simp] theorem State.recordFault_layPins (n : Fin 9) (k : FaultKind) (src : Option (Fin 9)) (m : Fin 8) :
    (s.recordFault n k src).layPins m = s.layPins m := rfl
@[simp] theorem State.recordFault_orderAt (n : Fin 9) (k : FaultKind) (src : Option (Fin 9)) (m : Fin 16) :
    (s.recordFault n k src).orderAt m = s.orderAt m := rfl
@[simp] theorem State.recordFault_record (n : Fin 9) (k : FaultKind) (src : Option (Fin 9)) (m : Fin 64) :
    (s.recordFault n k src).record m = s.record m := rfl
@[simp] theorem State.recordFault_cutTimer (n : Fin 9) (k : FaultKind) (src : Option (Fin 9)) (m : Fin 9) :
    (s.recordFault n k src).cutTimer m = s.cutTimer m := rfl
@[simp] theorem State.recordFault_freeCount (n : Fin 9) (k : FaultKind) (src : Option (Fin 9)) :
    (s.recordFault n k src).freeCount = s.freeCount := rfl

/-! ### restartLink -/

@[simp] theorem State.restartLink_clocks : (s.restartLink).clocks = s.clocks := rfl
@[simp] theorem State.restartLink_pins : (s.restartLink).pins = s.pins := rfl
@[simp] theorem State.restartLink_params : (s.restartLink).params = s.params := rfl
@[simp] theorem State.restartLink_orders : (s.restartLink).orders = s.orders := rfl
@[simp] theorem State.restartLink_stations : (s.restartLink).stations = s.stations := rfl
@[simp] theorem State.restartLink_lays : (s.restartLink).lays = s.lays := rfl
@[simp] theorem State.restartLink_inspector : (s.restartLink).inspector = s.inspector := rfl
@[simp] theorem State.restartLink_arbiter : (s.restartLink).arbiter = s.arbiter := rfl
@[simp] theorem State.restartLink_table : (s.restartLink).table = s.table := rfl
@[simp] theorem State.restartLink_pack : (s.restartLink).pack = s.pack := rfl
@[simp] theorem State.restartLink_collector_stations : (s.restartLink).collector.stations = s.collector.stations :=
  rfl
@[simp] theorem State.restartLink_notices : (s.restartLink).notices = s.notices := rfl
@[simp] theorem State.restartLink_port : (s.restartLink).port = s.port := rfl
@[simp] theorem State.restartLink_pending : (s.restartLink).pending = s.pending := rfl
@[simp] theorem State.restartLink_station (m : Fin 9) : (s.restartLink).station m = s.station m := rfl
@[simp] theorem State.restartLink_lay (m : Fin 8) : (s.restartLink).lay m = s.lay m := rfl
@[simp] theorem State.restartLink_layParams (m : Fin 8) : (s.restartLink).layParams m = s.layParams m := rfl
@[simp] theorem State.restartLink_stationParams (m : Fin 9) : (s.restartLink).stationParams m = s.stationParams m :=
  rfl
@[simp] theorem State.restartLink_layPins (m : Fin 8) : (s.restartLink).layPins m = s.layPins m := rfl
@[simp] theorem State.restartLink_orderAt (m : Fin 16) : (s.restartLink).orderAt m = s.orderAt m := rfl
@[simp] theorem State.restartLink_record (m : Fin 64) : (s.restartLink).record m = s.record m := rfl
@[simp] theorem State.restartLink_faults (m : Fin 9) : (s.restartLink).faults m = s.faults m := rfl
@[simp] theorem State.restartLink_cutTimer (m : Fin 9) : (s.restartLink).cutTimer m = s.cutTimer m := rfl
@[simp] theorem State.restartLink_freeCount : (s.restartLink).freeCount = s.freeCount := rfl

/-! ### modPort -/

@[simp] theorem State.modPort_clocks (f : Port → Port) : (s.modPort f).clocks = s.clocks := rfl
@[simp] theorem State.modPort_pins (f : Port → Port) : (s.modPort f).pins = s.pins := rfl
@[simp] theorem State.modPort_params (f : Port → Port) : (s.modPort f).params = s.params := rfl
@[simp] theorem State.modPort_orders (f : Port → Port) : (s.modPort f).orders = s.orders := rfl
@[simp] theorem State.modPort_stations (f : Port → Port) : (s.modPort f).stations = s.stations := rfl
@[simp] theorem State.modPort_lays (f : Port → Port) : (s.modPort f).lays = s.lays := rfl
@[simp] theorem State.modPort_inspector (f : Port → Port) : (s.modPort f).inspector = s.inspector := rfl
@[simp] theorem State.modPort_arbiter (f : Port → Port) : (s.modPort f).arbiter = s.arbiter := rfl
@[simp] theorem State.modPort_table (f : Port → Port) : (s.modPort f).table = s.table := rfl
@[simp] theorem State.modPort_pack (f : Port → Port) : (s.modPort f).pack = s.pack := rfl
@[simp] theorem State.modPort_collector (f : Port → Port) : (s.modPort f).collector = s.collector := rfl
@[simp] theorem State.modPort_notices (f : Port → Port) : (s.modPort f).notices = s.notices := rfl
@[simp] theorem State.modPort_port (f : Port → Port) : (s.modPort f).port = f s.port := rfl
@[simp] theorem State.modPort_pending (f : Port → Port) : (s.modPort f).pending = s.pending := rfl
@[simp] theorem State.modPort_station (f : Port → Port) (m : Fin 9) : (s.modPort f).station m = s.station m := rfl
@[simp] theorem State.modPort_lay (f : Port → Port) (m : Fin 8) : (s.modPort f).lay m = s.lay m := rfl
@[simp] theorem State.modPort_layParams (f : Port → Port) (m : Fin 8) : (s.modPort f).layParams m = s.layParams m := rfl
@[simp] theorem State.modPort_stationParams (f : Port → Port) (m : Fin 9) :
    (s.modPort f).stationParams m = s.stationParams m := rfl
@[simp] theorem State.modPort_layPins (f : Port → Port) (m : Fin 8) : (s.modPort f).layPins m = s.layPins m := rfl
@[simp] theorem State.modPort_orderAt (f : Port → Port) (m : Fin 16) : (s.modPort f).orderAt m = s.orderAt m := rfl
@[simp] theorem State.modPort_record (f : Port → Port) (m : Fin 64) : (s.modPort f).record m = s.record m := rfl
@[simp] theorem State.modPort_faults (f : Port → Port) (m : Fin 9) : (s.modPort f).faults m = s.faults m := rfl
@[simp] theorem State.modPort_cutTimer (f : Port → Port) (m : Fin 9) : (s.modPort f).cutTimer m = s.cutTimer m := rfl
@[simp] theorem State.modPort_freeCount (f : Port → Port) : (s.modPort f).freeCount = s.freeCount := rfl

end Sys2Proof.Machine
end

