-- ==== Sys2Proof/Laws/Basic.lean ====
section
/-!
SUPPORT. Reading an entry after one was written: the entry that was written gives the new value, every other entry what
it gave before.
-/
namespace Sys2Proof.Machine

theorem getElem_set_fin {α : Type} {n : Nat} (v : Vector α n) (i j : Fin n) (a : α) :
    (v.set i.1 a)[j.1] = if j = i then a else v[j.1] := by
  rw [Vector.getElem_set]
  by_cases h : j = i
  · subst h; simp
  · have : ¬ i.1 = j.1 := fun e => h (Fin.ext e.symm)
    simp [h, this]

theorem getElem_modifyAt {α : Type} {n : Nat} (v : Vector α n) (i j : Fin n) (f : α → α) :
    (modifyAt v i f)[j.1] = if j = i then f v[j.1] else v[j.1] := by
  rw [modifyAt, getElem_set_fin]
  by_cases h : j = i
  · subst h; simp
  · simp [h]

@[simp] theorem State.modStation_station (s : State) (n m : Fin 9) (f : Station → Station) :
    (s.modStation n f).station m = if m = n then f (s.station m) else s.station m :=
  getElem_modifyAt s.stations n m f

@[simp] theorem State.modReasons_station (s : State) (n m : Fin 9) (f : Reasons → Reasons) :
    (s.modReasons n f).station m =
      if m = n then { s.station m with reasons := f (s.station m).reasons } else s.station m :=
  getElem_modifyAt s.stations n m _

@[simp] theorem State.enterState_station (s : State) (n m : Fin 9) (st : StationState) :
    (s.enterState n st).station m =
      if m = n then (s.station m).enter s.port.mode s.clocks.part st else s.station m :=
  getElem_modifyAt s.stations n m _

@[simp] theorem State.modLay_lay (s : State) (n m : Fin 8) (f : LayStation → LayStation) :
    (s.modLay n f).lay m = if m = n then f (s.lay m) else s.lay m :=
  getElem_modifyAt s.lays n m f

@[simp] theorem State.modPins_layPins (s : State) (n m : Fin 8) (f : LayPins → LayPins) :
    (s.modPins n f).layPins m = if m = n then f (s.layPins m) else s.layPins m :=
  getElem_modifyAt s.pins.lay n m f

@[simp] theorem State.setRecord_record (s : State) (i j : Fin 64) (r : Option Piece) :
    (s.setRecord i r).record j = if j = i then r else s.record j :=
  getElem_set_fin s.table.records i j r

@[simp] theorem State.modPiece_record (s : State) (i j : Fin 64) (f : Piece → Piece) :
    (s.modPiece i f).record j = if j = i then (s.record j).map f else s.record j := by
  rw [State.modPiece, State.setRecord_record]
  by_cases h : j = i
  · subst h; rfl
  · simp [h]

@[simp] theorem State.modFaults_faults (s : State) (n m : Fin 9) (f : StationFaults → StationFaults) :
    (s.modFaults n f).faults m = if m = n then f (s.faults m) else s.faults m :=
  getElem_modifyAt s.collector.stations n m f

@[simp] theorem State.setCutTimer_cutTimer (s : State) (n m : Fin 9) (t : Option Timer) :
    (s.setCutTimer n t).cutTimer m = if m = n then t else s.cutTimer m :=
  getElem_set_fin s.arbiter.cutTimers n m t

/-- A notice raises the count of its kind in its slot, and no other count (R162). -/
@[simp] theorem State.notice_noticeCount (s : State) (slot slot' : Fin 10) (k : NoticeKind) (k' : Fin 25) :
    (s.notice slot k).noticeCount slot' k' =
      if slot' = slot ∧ k' = k.index then noticed (s.noticeCount slot' k') else s.noticeCount slot' k' := by
  simp only [State.noticeCount, State.notice, getElem_modifyAt]
  by_cases h : slot' = slot
  · subst h; simp [getElem_modifyAt]
  · simp [h]

/-- The state a station stands in after it enters one. -/
@[simp] theorem Station.enter_state (x : Station) (m : Mode) (now : Word32) (st : StationState) :
    (x.enter m now st).state = st := by
  unfold Station.enter; split <;> [split; skip] <;> rfl

@[simp] theorem Station.enter_order (x : Station) (m : Mode) (now : Word32) (st : StationState) :
    (x.enter m now st).order = x.order := by
  unfold Station.enter; split <;> [split; skip] <;> rfl

@[simp] theorem Station.enter_piece (x : Station) (m : Mode) (now : Word32) (st : StationState) :
    (x.enter m now st).piece = x.piece := by
  unfold Station.enter; split <;> [split; skip] <;> rfl

@[simp] theorem Station.enter_reasons (x : Station) (m : Mode) (now : Word32) (st : StationState) :
    (x.enter m now st).reasons = x.reasons := by
  unfold Station.enter; split <;> [split; skip] <;> rfl

/-! ### Counting records -/

theorem countP_vector_set {α : Type} {n : Nat} (v : Vector α n) (i : Fin n) (a : α) (p : α → Bool) :
    (v.set i.1 a).toList.countP p + (if p v[i.1] then 1 else 0) = v.toList.countP p + (if p a then 1 else 0) := by
  rw [Vector.toList_set, List.countP_set (by simp)]
  simp only [Vector.getElem_toList]
  have : p v[i.1] = true → 0 < v.toList.countP p := fun h => List.countP_pos_iff.2 ⟨v[i.1], by simp, h⟩
  split
  · have := this ‹_›; omega
  · omega

/-- A record that is written changes the number of FREE records by that record alone (R93). -/
theorem freeCount_setRecord (s : State) (i : Fin 64) (r : Option Piece) :
    (s.setRecord i r).freeCount + (if (s.record i).isNone then 1 else 0) =
      s.freeCount + (if r.isNone then 1 else 0) :=
  countP_vector_set s.table.records i r (·.isNone)

/-- A record that is changed stays FREE or stays taken. -/
@[simp] theorem freeCount_modPiece (s : State) (i : Fin 64) (f : Piece → Piece) :
    (s.modPiece i f).freeCount = s.freeCount := by
  have h := freeCount_setRecord s i ((s.record i).map f)
  rw [Option.isNone_map] at h
  exact Nat.add_right_cancel h

@[simp] theorem freeCount_modCoil (s : State) (i : Fin 64) (f : Coil → Coil) :
    (s.modCoil i f).freeCount = s.freeCount := freeCount_modPiece s i _

@[simp] theorem freeCount_modPanel (s : State) (i : Fin 64) (f : Panel → Panel) :
    (s.modPanel i f).freeCount = s.freeCount := freeCount_modPiece s i _

/-- The lowest-numbered FREE record is FREE. -/
theorem firstFree_free {s : State} {i : Fin 64} (h : s.firstFree = some i) : s.record i = none := by
  have := List.find?_some h
  simpa using this

/-! ### The first value that is not held -/

/-- The value found is the start or comes some steps after it, every value before it is held, and it is not held itself
unless the steps ran out. -/
theorem firstUnheld_spec {α : Type} (held : α → Bool) (next : α → α) (fuel : Nat) (v : α) :
    ∃ passed ≤ fuel, firstUnheld held next fuel v = next^[passed] v ∧ (∀ m < passed, held (next^[m] v) = true) ∧
      (passed < fuel → held (next^[passed] v) = false) := by
  induction fuel generalizing v with
  | zero => exact ⟨0, Nat.le_refl 0, rfl, by simp, by simp⟩
  | succ fuel ih =>
    unfold firstUnheld
    split
    · obtain ⟨passed, hle, he, hb, hn⟩ := ih (next v)
      refine ⟨passed + 1, by omega, he, fun m hm => ?_, fun h => hn (by omega)⟩
      cases m with
      | zero => assumption
      | succ m => exact hb m (by omega)
    · rename_i hn
      exact ⟨0, by omega, rfl, by simp, fun _ => by simpa using hn⟩

/-- Where fewer values are held than there are steps, and the values of the steps differ, the value found is not
held. -/
theorem firstUnheld_free {α : Type} {held : α → Bool} {next : α → α} {fuel : Nat} {v : α} (taken : List α)
    (ht : ∀ a, held a = true → a ∈ taken) (hl : taken.length < fuel)
    (hd : ∀ i j, i < j → j < fuel → next^[i] v ≠ next^[j] v) :
    ∃ passed < fuel, firstUnheld held next fuel v = next^[passed] v ∧ (∀ m < passed, held (next^[m] v) = true) ∧
      held (next^[passed] v) = false := by
  obtain ⟨passed, hle, he, hb, hn⟩ := firstUnheld_spec held next fuel v
  by_cases h : passed < fuel
  · exact ⟨passed, h, he, hb, hn h⟩
  · exfalso
    obtain rfl : passed = fuel := by omega
    have nd : ((List.range passed).map fun m => next^[m] v).Nodup := by
      rw [List.nodup_iff_pairwise_ne, List.pairwise_map]
      refine List.Pairwise.imp_of_mem ?_ List.pairwise_lt_range
      intro i j _ hj hij
      exact hd i j hij (List.mem_range.mp hj)
    have := (nd.subperm (l₂ := taken) fun a ha => by
      obtain ⟨m, hm, rfl⟩ := List.mem_map.mp ha
      exact ht _ (hb m (List.mem_range.mp hm))).length_le
    simp at this
    omega

/-! ### Request spans (R168, R175) -/

/-- A request span that ends now is taken exactly if RESET is released and did not cut it off (R175). -/
theorem takesSpan_iff (s : State) : s.takesSpan = true ↔ s.pins.reset = false ∧ s.port.span ≠ .dropped := by
  unfold State.takesSpan
  cases s.pins.reset <;> simp

/-- A request span is taken at its end, or it has ended and nothing else has happened (R175). -/
theorem requestSpan_cases {dt : Nat} {body : State → State} {s t : State} (e : requestSpan dt body s = .next t) :
    (s.takesSpan = true ∧ t = body (s.elapse dt)) ∨
      (s.takesSpan = false ∧ t = (s.elapse dt).modPort (·.setSpan .idle)) := by
  unfold requestSpan at e
  split at e <;> cases e
  · exact .inl ⟨‹_›, rfl⟩
  · exact .inr ⟨Bool.eq_false_iff.mpr ‹_›, rfl⟩

/-- A request whose span RESET has not cut off is taken and answered (R168, R170, R175). -/
theorem hostRequest_taken {dt : Nat} {tag : Byte} {body : State → Answer} {s : State} (hr : s.pins.reset = false)
    (hs : s.port.span ≠ .dropped) : hostRequest dt tag body s = .next ((s.elapse dt).takeRequest tag body) := by
  unfold hostRequest requestSpan
  rw [if_pos ((takesSpan_iff s).mpr ⟨hr, hs⟩)]

end Sys2Proof.Machine
end

