-- ==== Sys2Proof/Laws/Steady.lean ====
section
/-!
SUPPORT. What the shared operations never touch: the clocks, the input lines, the parameters, the orders, the host port
and the queue.
-/
namespace Sys2Proof.Machine

/-- The second state has the clocks, input lines, parameters, orders, host port and queue of the first. -/
structure Steady (s t : State) : Prop where
  clocks : t.clocks = s.clocks
  pins : t.pins = s.pins
  params : t.params = s.params
  orders : t.orders = s.orders
  port : t.port = s.port
  pending : t.pending = s.pending

theorem Steady.refl (s : State) : Steady s s := ⟨rfl, rfl, rfl, rfl, rfl, rfl⟩

theorem Steady.trans {s t u : State} (h : Steady s t) (k : Steady t u) : Steady s u :=
  ⟨k.clocks.trans h.clocks, k.pins.trans h.pins, k.params.trans h.params, k.orders.trans h.orders,
   k.port.trans h.port, k.pending.trans h.pending⟩

theorem steady_ite {c : Prop} [Decidable c] {s a b : State} (h : c → Steady s a) (k : ¬ c → Steady s b) :
    Steady s (if c then a else b) := by
  split
  · exact h ‹_›
  · exact k ‹_›

theorem steady_notice (s : State) (slot : Fin 10) (k : NoticeKind) : Steady s (s.notice slot k) :=
  ⟨rfl, rfl, rfl, rfl, rfl, rfl⟩

theorem steady_modStation (s : State) (n : Fin 9) (f : Station → Station) : Steady s (s.modStation n f) :=
  ⟨rfl, rfl, rfl, rfl, rfl, rfl⟩

theorem steady_modReasons (s : State) (n : Fin 9) (f : Reasons → Reasons) : Steady s (s.modReasons n f) :=
  ⟨rfl, rfl, rfl, rfl, rfl, rfl⟩

theorem steady_enterState (s : State) (n : Fin 9) (st : StationState) : Steady s (s.enterState n st) :=
  ⟨rfl, rfl, rfl, rfl, rfl, rfl⟩

theorem steady_modLay (s : State) (n : Fin 8) (f : LayStation → LayStation) : Steady s (s.modLay n f) :=
  ⟨rfl, rfl, rfl, rfl, rfl, rfl⟩

theorem steady_setRecord (s : State) (i : Fin 64) (r : Option Piece) : Steady s (s.setRecord i r) :=
  ⟨rfl, rfl, rfl, rfl, rfl, rfl⟩

theorem steady_modPiece (s : State) (i : Fin 64) (f : Piece → Piece) : Steady s (s.modPiece i f) :=
  ⟨rfl, rfl, rfl, rfl, rfl, rfl⟩

theorem steady_modCoil (s : State) (i : Fin 64) (f : Coil → Coil) : Steady s (s.modCoil i f) :=
  ⟨rfl, rfl, rfl, rfl, rfl, rfl⟩

theorem steady_modPanel (s : State) (i : Fin 64) (f : Panel → Panel) : Steady s (s.modPanel i f) :=
  ⟨rfl, rfl, rfl, rfl, rfl, rfl⟩

theorem steady_modInspector (s : State) (f : Inspector → Inspector) : Steady s (s.modInspector f) :=
  ⟨rfl, rfl, rfl, rfl, rfl, rfl⟩

theorem steady_dropRequest (s : State) (n : Fin 9) : Steady s (s.dropRequest n) := ⟨rfl, rfl, rfl, rfl, rfl, rfl⟩

theorem steady_setCutTimer (s : State) (n : Fin 9) (t : Option Timer) : Steady s (s.setCutTimer n t) :=
  ⟨rfl, rfl, rfl, rfl, rfl, rfl⟩

theorem steady_recordFault (s : State) (n : Fin 9) (k : FaultKind) (src : Option (Fin 9)) :
    Steady s (s.recordFault n k src) := ⟨rfl, rfl, rfl, rfl, rfl, rfl⟩

theorem steady_lowTest (s : State) : Steady s s.lowTest := by
  unfold State.lowTest
  split
  · split <;> exact ⟨rfl, rfl, rfl, rfl, rfl, rfl⟩
  · exact ⟨rfl, rfl, rfl, rfl, rfl, rfl⟩

theorem steady_highTest (s : State) : Steady s s.highTest := by
  unfold State.highTest
  split
  · exact ⟨rfl, rfl, rfl, rfl, rfl, rfl⟩
  · split <;> exact ⟨rfl, rfl, rfl, rfl, rfl, rfl⟩

theorem steady_stopMachine (s : State) (n : Fin 9) : Steady s (s.stopMachine n) := by
  unfold State.stopMachine; split <;> exact ⟨rfl, rfl, rfl, rfl, rfl, rfl⟩

theorem steady_leaveFor (s : State) (n : Fin 9) (st : StationState) : Steady s (s.leaveFor n st) :=
  steady_ite (fun _ => (steady_stopMachine s n).trans (steady_enterState _ n st)) fun _ => steady_enterState s n st

theorem steady_enterRunning (s : State) (n : Fin 9) : Steady s (s.enterRunning n) := by
  unfold State.enterRunning; split <;> exact ⟨rfl, rfl, rfl, rfl, rfl, rfl⟩

theorem steady_addReason (s : State) (n : Fin 9) (f : Reasons → Reasons) : Steady s (s.addReason n f) := by
  unfold State.addReason
  split
  · exact (steady_modReasons s n f).trans (steady_leaveFor _ n _)
  all_goals first | exact steady_modReasons s n f | exact Steady.refl s

theorem steady_openInto (s : State) (n : Fin 9) (slot : Fin 16) (i : Fin 64) : Steady s (s.openInto n slot i) := by
  unfold State.openInto State.forgetRow; split <;> exact ⟨rfl, rfl, rfl, rfl, rfl, rfl⟩

theorem steady_openPiece {s t : State} {n : Fin 9} (h : s.openPiece n = some t) : Steady s t := by
  unfold State.openPiece at h
  split at h
  · cases h; exact steady_openInto s n _ _
  · cases h

theorem steady_award (s : State) (n : Fin 9) : Steady s (s.award n) := by
  unfold State.award
  refine Steady.trans ?_ (steady_leaveFor _ n _)
  exact ⟨rfl, rfl, rfl, rfl, rfl, rfl⟩

theorem steady_grant (s : State) (n : Fin 9) : Steady s (s.grant n) := (steady_award s n).trans (steady_lowTest _)

theorem steady_considerWith (fuel : Nat) (s : State) : Steady s (considerWith fuel s) := by
  induction fuel generalizing s with
  | zero => exact Steady.refl s
  | succ fuel ih =>
    unfold considerWith
    split
    · exact (steady_grant s _).trans (ih _)
    · exact Steady.refl s

theorem steady_consider (s : State) : Steady s s.consider := steady_considerWith _ s

theorem steady_setWaiting (s : State) (q : List (Fin 9)) : Steady s (s.setWaiting q) := ⟨rfl, rfl, rfl, rfl, rfl, rfl⟩

theorem steady_considerIf (s : State) (due : Bool) : Steady s (s.considerIf due) :=
  steady_ite (fun _ => steady_consider s) fun _ => Steady.refl s

theorem steady_placeRequest (s : State) (n : Fin 9) : Steady s (s.placeRequest n) := steady_setWaiting s _

theorem steady_targetTest (s : State) (n : Fin 9) : Steady s (s.targetTest n) :=
  steady_ite (fun _ => steady_placeRequest s n) fun _ => Steady.refl s

theorem steady_flagOverrun (s : State) (n : Fin 9) : Steady s (s.flagOverrun n) := by
  unfold State.flagOverrun; split <;> exact ⟨rfl, rfl, rfl, rfl, rfl, rfl⟩

theorem steady_holdRunning (s : State) (n : Fin 9) : Steady s (s.holdRunning n) :=
  steady_ite (fun _ => steady_leaveFor s n _) fun _ => Steady.refl s

theorem steady_overrunHold (s : State) (n : Fin 9) : Steady s (s.overrunHold n) :=
  (((steady_modReasons s n _).trans (steady_flagOverrun _ n)).trans (steady_holdRunning _ n)).trans (steady_notice _ _ _)

theorem steady_overrunTest (s : State) (n : Fin 9) (b : Bool) : Steady s (s.overrunTest n b) :=
  steady_ite (fun _ => steady_overrunHold s n) fun _ => Steady.refl s

theorem steady_release (s : State) : Steady s s.release := ⟨rfl, rfl, rfl, rfl, rfl, rfl⟩

theorem steady_abortCut (s : State) (n : Fin 9) : Steady s (s.abortCut n) :=
  (steady_setCutTimer s n none).trans (steady_release _)

theorem steady_tripped (s : State) (n : Fin 9) : Steady s (s.tripped n) :=
  ((steady_dropRequest s n).trans (steady_modReasons _ n _)).trans (steady_leaveFor _ n _)

theorem steady_tripStation (s : State) (n : Fin 9) : Steady s (s.tripStation n) :=
  steady_ite (fun _ => (((steady_abortCut s n).trans (steady_tripped _ n)).trans (steady_lowTest _)).trans
    (steady_consider _)) fun _ => steady_tripped s n

theorem steady_trip (s : State) (n : Fin 9) : Steady s (s.trip n) := by
  unfold State.trip
  split <;> first | exact Steady.refl s | exact steady_tripStation s n

theorem steady_peerTrip (src : Fin 9) (s : State) (m : Fin 9) : Steady s (State.peerTrip src s m) :=
  steady_ite (fun _ => (steady_recordFault s m _ _).trans (steady_trip _ m)) fun _ => Steady.refl s

theorem steady_foldl {α : Type} {f : State → α → State} (hf : ∀ s a, Steady s (f s a)) (l : List α) (s : State) :
    Steady s (l.foldl f s) := by
  induction l generalizing s with
  | nil => exact Steady.refl s
  | cons a l ih => exact (hf s a).trans (ih _)

theorem steady_react (s : State) (n : Fin 9) (k : FaultKind) : Steady s (s.react n k) := by
  unfold State.react
  refine steady_ite (fun _ => Steady.refl s) fun _ => ?_
  split
  · exact Steady.refl s
  · exact steady_addReason s n _
  · exact steady_trip s n
  · exact (steady_trip s n).trans (steady_foldl (steady_peerTrip n) _ _)

/-- A fault raised changes none of the clocks, lines, parameters, orders, the port and the queue (R150). -/
theorem steady_raise (s : State) (n : Fin 9) (k : FaultKind) : Steady s (s.raise n k) :=
  (steady_recordFault s n k none).trans (steady_react _ n k)

theorem steady_raiseAll (s : State) (n : Fin 9) (ks : List FaultKind) : Steady s (s.raiseAll n ks) :=
  steady_foldl (fun s k => steady_raise s n k) ks s

theorem steady_takeBack (s : State) (i : Fin 64) : Steady s (s.takeBack i) := ⟨rfl, rfl, rfl, rfl, rfl, rfl⟩

end Sys2Proof.Machine
end

