-- ==== Sys2Proof/Laws/Kept.lean ====
section
/-!
SUPPORT. What a command can do, said once: a property that survives each of the primitive changes below, each under
what is known where it is made, survives every command. The provers of invariants need only these changes.
-/
namespace Sys2Proof.Machine

/-- What a sense word may do to the list and the counts of the panel of the row it closes, whatever its runs: limits are
kept, the row timer is not touched, the entries that stood keep their ids, panels and order, the new ones name the
panel, ids stay apart, and the panel's unmended count follows the list (R72 to R78). -/
structure Sorting.Grows (a : AwaitRow) (x y : Sorting) : Prop where
  panel : x.panel.WithinLimits → y.panel.WithinLimits
  inspector : x.inspector.WithinLimits → y.inspector.WithinLimits
  timer : y.inspector.rowTimer = x.inspector.rowTimer
  ids : (x.inspector.mends.map (·.id)).Nodup → (y.inspector.mends.map (·.id)).Nodup
  mends : ∃ old new, y.inspector.mends = old ++ new ∧
    old.map (fun e => (e.id, e.panel)) = x.inspector.mends.map (fun e => (e.id, e.panel)) ∧
    (∀ e ∈ new, e.panel = a.panel) ∧
    (x.panel.unmended ≤ x.inspector.mends.length → y.panel.unmended = x.panel.unmended + new.length)

/-- A property that every primitive change of the part keeps. -/
structure Kept (P : State → Prop) : Prop where
  -- Time, notices, warning flags, faults, hold reasons
  elapse : ∀ s dt, P s → P (s.elapse dt)
  notice : ∀ s slot k, P s → P (s.notice slot k)
  lowFlag : ∀ (s : State) b, P s → P { s with table := { s.table with lowArmed := b } }
  highFlag : ∀ (s : State) b, P s → P { s with pack := { s.pack with highArmed := b } }
  faults : ∀ s n f, P s → P (s.modFaults n f)
  reasons : ∀ s n f,
    (s.station n).state = .cutting ∨ ((s.station n).state = .holding ∧ ∀ r, f r ≠ Reasons.empty) ∨
      ((s.station n).state = .running ∧ f Reasons.empty = Reasons.empty) → P s → P (s.modReasons n f)
  -- Changes of station state
  hold : ∀ s n f, (s.station n).state = .running → (∀ r, f r ≠ Reasons.empty) → P s →
    P ((s.modReasons n f).leaveFor n .holding)
  trip : ∀ s n, (s.station n).state.mayRequest = true → P s → P (s.tripped n)
  abortTrip : ∀ s n, (s.station n).state = .cutting → P s → P ((s.abortCut n).tripped n)
  abortHold : ∀ s n, (s.station n).state = .cutting →
    (s.station n).reasons ≠ Reasons.empty ∨ s.reaction .cutTimeout = .note → P s →
    P ((s.abortCut n).enterState n .holding)
  place : ∀ s n, (s.station n).state.mayRequest = true → n ∉ s.arbiter.waiting → P s →
    P (s.setWaiting (s.arbiter.waiting ++ [n]))
  award : ∀ s n, n ∈ s.arbiter.waiting → s.eligible n = true → P s → P (s.award n)
  bind : ∀ s n slot o,
    ((s.station n).state = .unbound ∨ ((s.station n).state = .ready ∧ (s.station n).piece = none)) →
    s.orderAt slot = some o → o.suits n = true → P s → P (s.bindStation n slot)
  unbind : ∀ s n, (s.station n).state ≠ .unbound → (s.station n).state ≠ .running →
    (s.station n).state ≠ .cutting → P s → P (s.unbindRecords n)
  untrip : ∀ s n, (s.station n).state = .tripped → P s → P (s.enterState n .ready)
  startHold : ∀ s n r, s.port.mode = .operate → (s.station n).state = .ready ∨ (s.station n).state = .holding →
    (s.station n).order = none ∨ (s.station n).piece ≠ none → r ≠ Reasons.empty → P s →
    P ((s.modReasons n fun _ => r).enterState n .holding)
  startRun : ∀ s n, s.port.mode = .operate → (s.station n).state = .ready ∨ (s.station n).state = .holding →
    (s.station n).order = none ∨ (s.station n).piece ≠ none → P s →
    P ((s.modReasons n fun _ => Reasons.empty).enterRunning n)
  opening : ∀ s n slot i, (s.station n).order = some slot → (s.station n).piece = none → s.record i = none →
    1 ≤ s.figure → (s.station n).state = .ready ∨ (s.station n).state = .holding → P s → P (s.openInto n slot i)
  complete : ∀ s n t, (s.station n).state = .cutting → s.completeCut n = some t → P s → P t
  cutTimer : ∀ s n, P s → P (s.setCutTimer n none)
  permit : ∀ s n, s.permitGiven n = true → P s → P (s.changePermit n)
  -- Lay stations, input lines, inspector
  lay : ∀ s l f, ((s.lay l).WithinLimits → (f (s.lay l)).WithinLimits) →
    ((s.station (ofLay l)).state = .running ∨ ((s.lay l).idle → (f (s.lay l)).idle)) → P s → P (s.modLay l f)
  lines : ∀ s l f, P s → P (s.modPins l f)
  resetLine : ∀ s b, P s → P (s.setReset b)
  inspector : ∀ s f, (s.inspector.WithinLimits → (f s.inspector).WithinLimits) →
    ((s.station loom).state = .running ∨ (s.inspector.rowTimer = none → (f s.inspector).rowTimer = none)) →
    (f s.inspector).mends = s.inspector.mends → P s → P (s.modInspector f)
  sense : ∀ (s : State) a q x, s.panelAt a.panel a.serial = some q → Sorting.Grows a ⟨s.inspector, q⟩ x → P s →
    P ((s.modPanel a.panel fun _ => x.panel).modInspector fun _ => x.inspector)
  mend : ∀ (s : State) e, e ∈ s.inspector.mends → P s →
    P ((s.modInspector fun i => { i with mends := i.mends.filter (·.id != e.id) }).modPanel e.panel Panel.mendOne)
  waive : ∀ s i, P s → P (s.waivePanel i)
  -- Pieces and the pack line
  coil : ∀ s i f, (∀ p c, s.record i = some p → p.body = .coil c → c.WithinLimits → (f c).WithinLimits) → P s →
    P (s.modCoil i f)
  panel : ∀ s i f, (∀ q : Panel, (f q).unmended = q.unmended) →
    (∀ p q, s.record i = some p → p.body = .panel q → q.WithinLimits → (f q).WithinLimits) → P s → P (s.modPanel i f)
  note : ∀ s i f, (∀ p : Piece, (f p).state = p.state ∧ (f p).station = p.station ∧ (f p).slot = p.slot ∧
    (f p).serial = p.serial ∧ (f p).body = p.body) → P s → P (s.modPiece i f)
  retire : ∀ s i p n, s.record i = some p → p.state = .packed ∨ p.state = .aside → n ≤ Config.countSat → P s →
    P (((s.dropEntries i).modInspector fun x => { x with discarded := n }).setRecord i none)
  toScale : ∀ s i, s.pack.scale = none → i ∈ s.pack.queue → P s → P (s.toScale i)
  takeBack : ∀ s i, s.unweighed = some i → P s → P (s.takeBack i)
  weigh : ∀ s i p w, s.record i = some p → p.state = .atScale ∨ p.state = .weighed → P s →
    P (s.modPiece i fun p => { p with state := .weighed, weighing := some w })
  leaveScale : ∀ s i p f, s.record i = some p → p.state = .atScale ∨ p.state = .weighed →
    (∀ q : Piece, ((f q).state = .packed ∨ (f q).state = .aside) ∧ (f q).station = q.station ∧ (f q).slot = q.slot ∧
      (f q).serial = q.serial ∧ (f q).body = q.body) → P s → P (s.modPiece i f).clearScale
  scaleTimer : ∀ s t, P s → P (s.setScaleTimer t)
  receiver : ∀ s r, P s → P (s.setReceiver r)
  discard : ∀ s, P s → P s.discardFrame
  answer : ∀ (s : State) a, s.pack.tx.length < Config.txSize → P s →
    P { s with pack := { s.pack with receiver := .hunting, tx := s.pack.tx ++ [a] } }
  sent : ∀ s, P s → P s.sendAnswer
  -- Grant list, lane times, link timer, notices, orders
  forgetGrant : ∀ s, P s → P s.forgetGrant
  forgetLane : ∀ s lane, P s → P (s.forgetLane lane)
  link : ∀ (s : State) t, P s → P { s with collector := { s.collector with linkTimer := t } }
  take : ∀ s slot k, P s → P (s.removeNotice slot k)
  mask : ∀ (s : State) m, P s → P { s with notices := { s.notices with mask := m } }
  order : ∀ s slot o, s.slotInUse slot = false → P s → P (s.setOrder slot o)
  -- The part as a whole
  port : ∀ s f, (∀ p : Port, (f p).mode = p.mode) → P s → P (s.modPort f)
  params : ∀ (s : State) p, s.port.mode = .config → (s.params.FloorsStand → p.FloorsStand) → P s →
    P { s with params := p }
  toConfig : ∀ s, allStations.any s.working = false → P s → P (s.setMode .config)
  operate : ∀ s, s.port.mode = .config → P s → P s.operate
  reset : ∀ s cause, s.unweighed = none → P s → P (s.resetBlocks cause)

/-! ### Shared operations -/

section
variable {P : State → Prop} (k : Kept P)
include k

theorem Kept.lowTest {s : State} (h : P s) : P s.lowTest := by
  unfold State.lowTest
  split
  · split
    · exact k.notice _ _ _ (k.lowFlag s false h)
    · exact h
  · exact k.lowFlag s true h

theorem Kept.highTest {s : State} (h : P s) : P s.highTest := by
  unfold State.highTest
  split
  · exact k.notice _ _ _ (k.highFlag s false h)
  · split
    · exact k.highFlag s true h
    · exact h

theorem Kept.considerWith (fuel : Nat) {s : State} (h : P s) : P (considerWith fuel s) := by
  induction fuel generalizing s with
  | zero => exact h
  | succ fuel ih =>
    unfold Machine.considerWith
    split
    · rename_i n hn
      exact ih (k.lowTest (k.award s n (List.mem_of_find?_eq_some hn) (List.find?_some hn) h))
    · exact h

theorem Kept.consider {s : State} (h : P s) : P s.consider := k.considerWith _ h

theorem Kept.considerIf {s : State} (due : Bool) (h : P s) : P (s.considerIf due) := by
  unfold State.considerIf
  split
  · exact k.consider h
  · exact h

omit k in
/-- A request is due of a station that may hold one and holds none (R55). -/
theorem requestDue_spec {s : State} {n : Fin 9} (h : s.requestDue n = true) :
    (s.station n).state.mayRequest = true ∧ n ∉ s.arbiter.waiting := by
  simp only [State.requestDue, Bool.and_eq_true, decide_eq_true_eq] at h
  refine ⟨h.2, fun hm => ?_⟩
  have := h.1.2
  simp only [State.cutStatus, hm] at this
  split at this <;> simp_all

theorem Kept.targetTest {s : State} (n : Fin 9) (h : P s) : P (s.targetTest n) := by
  unfold State.targetTest
  split
  · exact k.place s n (requestDue_spec ‹_›).1 (requestDue_spec ‹_›).2 h
  · exact h

theorem Kept.flagOverrun {s : State} (n : Fin 9) (h : P s) : P (s.flagOverrun n) := by
  unfold State.flagOverrun
  split
  · exact k.note s _ _ (fun _ => ⟨rfl, rfl, rfl, rfl, rfl⟩) h
  · exact h

omit k in
/-- The overrun flag and the hold reasons are written apart. -/
theorem modReasons_flagOverrun (s : State) (n : Fin 9) (f : Reasons → Reasons) :
    (s.modReasons n f).flagOverrun n = (s.flagOverrun n).modReasons n f := by
  unfold State.flagOverrun
  simp only [State.modReasons_station, if_true]
  split <;> rfl

omit k in
theorem flagOverrun_station (s : State) (n m : Fin 9) : (s.flagOverrun n).station m = s.station m := by
  unfold State.flagOverrun; split <;> rfl

/-- The overrun test of a count or a row (R57). -/
theorem Kept.overrunTest {s : State} (n : Fin 9) (h : P s) : P (s.overrunTest n false) := by
  unfold State.overrunTest
  split
  · rename_i c
    have hf : ∀ r : Reasons, ({ r with overrun := true } : Reasons) ≠ Reasons.empty := by simp [Reasons.empty]
    have hs := flagOverrun_station s n n
    refine k.notice _ _ _ ?_
    unfold State.holdRunning
    rw [modReasons_flagOverrun]
    split
    · rename_i hr
      exact k.hold _ n _ (by simpa using hr) hf (k.flagOverrun n h)
    · rename_i hr
      refine k.reasons _ n _ (.inr (.inl ⟨?_, hf⟩)) (k.flagOverrun n h)
      have := c.2.1
      cases e : (s.station n).state <;> simp_all [StationState.mayOverrun]
  · exact h

theorem Kept.tallyTests {s : State} (n : Fin 9) (h : P s) : P (s.tallyTests n) :=
  k.considerIf _ (k.overrunTest n (k.targetTest n h))

theorem Kept.addReason {s : State} (n : Fin 9) (f : Reasons → Reasons) (hf : ∀ r, f r ≠ Reasons.empty) (h : P s) :
    P (s.addReason n f) := by
  unfold State.addReason
  split
  · exact k.hold _ n f ‹_› hf h
  · exact k.reasons s n f (.inr (.inl ⟨‹_›, hf⟩)) h
  · exact k.reasons s n f (.inl ‹_›) h
  all_goals exact h

theorem Kept.tripAt {s : State} (n : Fin 9) (h : P s) : P (s.trip n) := by
  unfold State.trip State.tripStation
  split
  · exact h
  · exact h
  all_goals split
  all_goals first
    | exact k.consider (k.lowTest (k.abortTrip s n ‹_› h))
    | exact k.trip s n (by simp [StationState.mayRequest, *]) h

theorem Kept.recordFault {s : State} (n : Fin 9) (f : FaultKind) (src : Option (Fin 9)) (h : P s) :
    P (s.recordFault n f src) := k.notice _ _ _ (k.faults s n _ h)

theorem Kept.peerTrip {s : State} (src m : Fin 9) (h : P s) : P (State.peerTrip src s m) := by
  unfold State.peerTrip
  split
  · exact k.tripAt m (k.recordFault m _ _ h)
  · exact h

omit k in
theorem kept_foldl {α : Type} {f : State → α → State} (hf : ∀ s a, P s → P (f s a)) (l : List α) {s : State}
    (h : P s) : P (l.foldl f s) := by
  induction l generalizing s with
  | nil => exact h
  | cons a l ih => exact ih (hf s a h)

theorem Kept.raise {s : State} (n : Fin 9) (f : FaultKind) (h : P s) : P (s.raise n f) := by
  have h := k.recordFault n f none h
  unfold State.raise State.react
  split
  · exact h
  · split
    · exact h
    · exact k.addReason n _ (by simp [Reasons.empty]) h
    · exact k.tripAt n h
    · exact kept_foldl (fun _ m => k.peerTrip n m) _ (k.tripAt n h)

theorem Kept.raiseAll {s : State} (n : Fin 9) (fs : List FaultKind) (h : P s) : P (s.raiseAll n fs) :=
  kept_foldl (fun _ f => k.raise n f) fs h

theorem Kept.waitPart {s : State} (t : Timer) (h : P s) : P (s.waitPart t) := by
  unfold State.waitPart
  split
  · exact h
  · exact k.elapse s _ h

theorem Kept.waitMark {s : State} (t : Timer) (h : P s) : P (s.waitMark t) := k.elapse s _ h

theorem Kept.lineReset {s : State} (cause : ResetCause) (h : P s) : P (s.lineReset cause) := by
  unfold State.lineReset
  refine k.highTest (k.lowTest (k.reset _ cause ?_ ?_))
  · unfold State.takeBackUnweighed
    split
    · simp [State.unweighed, State.takeBack]
    · assumption
  · unfold State.takeBackUnweighed
    split
    · exact k.takeBack s _ ‹_› h
    · exact h

end

end Sys2Proof.Machine
end

