-- ==== Sys2Proof/Laws/KeptCommands.lean ====
section
/-!
SUPPORT. A property that every primitive change keeps is kept by every command (Kept.exec) and by every step.
-/
namespace Sys2Proof.Machine

/-! ### What the shared operations do to a station's state -/

theorem leaveFor_station (s : State) (n m : Fin 9) (st : StationState) :
    (s.leaveFor n st).station m = if m = n then (s.station m).enter s.port.mode s.clocks.part st else s.station m := by
  unfold State.leaveFor
  split
  · have hp := steady_stopMachine s n
    have hs : ∀ j, (s.stopMachine n).station j = s.station j := by
      intro j; unfold State.stopMachine; split <;> rfl
    simp [hp.port, hp.clocks, hs]
  · simp

theorem lowTest_station (s : State) (m : Fin 9) : s.lowTest.station m = s.station m := by
  unfold State.lowTest
  split
  · split <;> rfl
  · rfl

/-- A grant leaves every station as it was but the one granted, which is CUTTING (R95). -/
theorem grant_station (s : State) (n m : Fin 9) :
    (s.grant n).station m = if m = n then (s.station m).enter s.port.mode s.clocks.part .cutting else s.station m := by
  rw [State.grant, lowTest_station, State.award, leaveFor_station]; rfl

/-- A consideration leaves a station's state, or makes it CUTTING; a station with order, piece and reasons keeps them. -/
theorem considerWith_station (fuel : Nat) (s : State) (m : Fin 9) :
    (((considerWith fuel s).station m).state = (s.station m).state ∨
      ((considerWith fuel s).station m).state = .cutting) ∧
    ((considerWith fuel s).station m).order = (s.station m).order ∧
    ((considerWith fuel s).station m).piece = (s.station m).piece ∧
    ((considerWith fuel s).station m).reasons = (s.station m).reasons := by
  induction fuel generalizing s with
  | zero => simp [considerWith]
  | succ fuel ih =>
    unfold considerWith
    split
    · rename_i n _
      have h := ih (s.grant n)
      simp only [grant_station] at h
      split at h <;> simp_all
    · simp

/-- The target test changes no station; it may place a request (R55). -/
theorem targetTest_station (s : State) (n m : Fin 9) : (s.targetTest n).station m = s.station m := by
  unfold State.targetTest; split <;> rfl

/-- The overrun test leaves a station that is not RUNNING in its state. -/
theorem overrunTest_state (s : State) (n m : Fin 9) (b : Bool) (h : (s.station n).state ≠ .running) :
    ((s.overrunTest n b).station m).state = (s.station m).state := by
  unfold State.overrunTest State.overrunHold State.holdRunning
  split
  · by_cases e : m = n <;> simp [flagOverrun_station, h, e]
  · rfl

/-- A station that is neither RUNNING nor HOLDING stays through a consideration as it is (R92). -/
theorem considerWith_stopped (fuel : Nat) (s : State) (m : Fin 9) (h : (s.station m).state ≠ .running)
    (h' : (s.station m).state ≠ .holding) : (considerWith fuel s).station m = s.station m := by
  induction fuel generalizing s with
  | zero => rfl
  | succ fuel ih =>
    unfold considerWith
    split
    · rename_i n hn
      have e : (s.grant n).station m = s.station m := by
        have hne : m ≠ n := by
          rintro rfl
          have := List.find?_some hn
          simp [State.eligible, h, h'] at this
        rw [grant_station, if_neg hne]
      rw [ih _ (by rw [e]; exact h) (by rw [e]; exact h'), e]
    · rfl

theorem consider_stopped {s : State} {m : Fin 9} (h : (s.station m).state ≠ .running)
    (h' : (s.station m).state ≠ .holding) : s.consider.station m = s.station m :=
  considerWith_stopped _ s m h h'

theorem tripped_other (s : State) {n m : Fin 9} (hm : m ≠ n) : (s.tripped n).station m = s.station m := by
  unfold State.tripped
  rw [leaveFor_station, if_neg hm]
  simp [State.dropRequest, State.setWaiting, hm]
  rfl

theorem tripped_state (s : State) (n : Fin 9) : ((s.tripped n).station n).state = .tripped := by
  unfold State.tripped
  rw [leaveFor_station, if_pos rfl]
  unfold Station.enter
  split <;> [split; skip] <;> rfl

/-- A trip leaves its station TRIPPED (R152). -/
theorem tripStation_state (s : State) (n : Fin 9) : ((s.tripStation n).station n).state = .tripped := by
  unfold State.tripStation
  split
  · have a : (((s.abortCut n).tripped n).lowTest.station n).state = .tripped := by
      rw [lowTest_station, tripped_state]
    rw [consider_stopped (by rw [a]; decide) (by rw [a]; decide), a]
  · exact tripped_state s n

/-- A trip leaves every other station that is neither RUNNING nor HOLDING as it is. -/
theorem tripStation_other (s : State) {n m : Fin 9} (hm : m ≠ n) (h : (s.station m).state ≠ .running)
    (h' : (s.station m).state ≠ .holding) : (s.tripStation n).station m = s.station m := by
  unfold State.tripStation
  split
  · have a : ((s.abortCut n).tripped n).lowTest.station m = s.station m := by
      rw [lowTest_station, tripped_other _ hm]; rfl
    rw [consider_stopped (by rw [a]; exact h) (by rw [a]; exact h'), a]
  · exact tripped_other s hm

theorem trip_other (s : State) {n m : Fin 9} (hm : m ≠ n) (h : (s.station m).state ≠ .running)
    (h' : (s.station m).state ≠ .holding) : (s.trip n).station m = s.station m := by
  have e := tripStation_other s hm h h'
  unfold State.trip
  split <;> first | rfl | exact e

/-- A trip leaves no station CUTTING that it is applied at (R152). -/
theorem trip_state (s : State) (n : Fin 9) :
    ((s.trip n).station n).state = .unbound ∨ ((s.trip n).station n).state = .tripped := by
  have e := tripStation_state s n
  unfold State.trip
  split <;> first | exact .inl ‹_› | exact .inr ‹_›

/-- A fault that leaves its station CUTTING leaves a hold reason there, unless its reaction is NOTE (R151). -/
theorem raise_cutting (s : State) (n : Fin 9) (k : FaultKind) (h : ((s.raise n k).station n).state = .cutting) :
    ((s.raise n k).station n).reasons ≠ Reasons.empty ∨ s.reaction k = .note := by
  have er : (s.recordFault n k none).reaction k = s.reaction k := rfl
  unfold State.raise State.react at *
  generalize s.recordFault n k none = u at *
  rw [← er]
  split at h
  · simp_all
  · rename_i ht
    rw [if_neg ht]
    cases e : u.reaction k with
    | note => exact .inr rfl
    | hold =>
      rw [e] at h
      refine .inl ?_
      dsimp only at *
      unfold State.addReason at *
      split at h
      · exfalso
        rw [leaveFor_station, if_pos rfl] at h
        unfold Station.enter at h
        split at h <;> [split at h; skip] <;> cases h
      all_goals simp_all [Reasons.empty]
    | trip =>
      rw [e] at h
      rcases trip_state u n with a | a <;> simp_all
    | tripAll =>
      rw [e] at h
      have keep : ∀ (l : List (Fin 9)) (v : State),
          (v.station n).state = .unbound ∨ (v.station n).state = .tripped →
          (l.foldl (State.peerTrip n) v).station n = v.station n := by
        intro l
        induction l with
        | nil => intro v _; rfl
        | cons m l ih =>
          intro v hv
          have one : (State.peerTrip n v m).station n = v.station n := by
            unfold State.peerTrip
            split
            · rename_i c
              have hs : ((v.recordFault m .peerTrip (some n)).station n) = v.station n := rfl
              rw [trip_other _ (Ne.symm c.1) (by rw [hs]; rcases hv with a | a <;> simp [a])
                (by rw [hs]; rcases hv with a | a <;> simp [a]), hs]
            · rfl
          rw [List.foldl_cons, ih _ (by rw [one]; exact hv), one]
      have ht := trip_state u n
      dsimp only at h
      rw [keep _ _ ht] at h
      rcases ht with a | a <;> simp_all

theorem satSucc_le {limit n : Nat} (h : n ≤ limit) : satSucc limit n ≤ limit := by
  unfold satSucc; split <;> omega

theorem addSplice_withinLimits {c : Coil} (j : Nat) (h : c.WithinLimits) : (c.addSplice j).WithinLimits := by
  obtain ⟨a1, a2, a3, a4, a5⟩ := h
  unfold Coil.addSplice
  split
  · exact ⟨a1, a2, by simp only [List.length_append, List.length_cons, List.length_nil]; omega, a4, a5⟩
  · exact ⟨a1, a2, a3, satSucc_le a4, a5⟩

theorem addSplices_withinLimits {c : Coil} (set : BitVec 4) (h : c.WithinLimits) : (c.addSplices set).WithinLimits := by
  unfold Coil.addSplices
  generalize strandList set = l
  induction l generalizing c with
  | nil => exact h
  | cons j l ih => exact ih (addSplice_withinLimits j h)

section
variable {P : State → Prop} (k : Kept P)
include k

theorem Kept.requestSpan {dt : Nat} {body : State → State} {s t : State} (hb : ∀ s, P s → P (body s))
    (e : requestSpan dt body s = .next t) (h : P (s.elapse dt)) : P t := by
  obtain ⟨-, rfl⟩ | ⟨-, rfl⟩ := requestSpan_cases e
  · exact hb _ h
  · exact k.port _ _ (fun _ => rfl) h

theorem Kept.hostRequest {dt : Nat} {tag : Byte} {body : State → Answer} {s t : State}
    (hb : ∀ s, P s → P (body s).state) (e : hostRequest dt tag body s = .next t) (h : P (s.elapse dt)) : P t := by
  exact k.requestSpan (fun _ h => k.port _ (fun p => p.answer tag _ _ _) (fun _ => rfl) (k.link _ _ (hb _ h))) e h

theorem Kept.packRequest {dt : Nat} {kind : Byte} {body : State → Answer} {s t : State}
    (hb : ∀ s, P s → P (body s).state) (hp : ∀ s, (body s).state.pack.tx = s.pack.tx)
    (e : packRequest dt kind body s = .next t) (h : P (s.elapse dt)) : P t := by
  unfold Machine.packRequest at e
  split at e <;> cases e
  · exact h
  · unfold State.takePack
    split
    · exact k.discard _ h
    · refine k.answer _ _ ?_ (hb _ h)
      rw [hp]; exact Nat.lt_of_not_le ‹_›

omit k in
theorem lineArrival_kept {dt : Nat} {body : State → State} {s t : State} (hb : ∀ s, P s → P (body s))
    (e : lineArrival dt body s = .next t) (h : P (s.elapse dt)) : P t := by
  unfold Machine.lineArrival at e
  split at e <;> cases e
  · exact h
  · exact hb _ h

/-! ### Stations -/

theorem Kept.bindTo {s : State} {n : Fin 9} {slot : Fin 16} {o : Order}
    (hs : (s.station n).state = .unbound ∨ ((s.station n).state = .ready ∧ (s.station n).piece = none))
    (ho : s.orderAt slot = some o) (hk : o.suits n = true) (h : P s) : P (s.bindTo n slot o) := by
  have h := k.bind s n slot o hs ho hk h
  unfold State.bindTo State.bindBlock
  split
  · exact k.lay _ _ _ (fun x => x) (.inr fun x => x) h
  · exact k.inspector _ _ (fun x => x) (.inr fun _ => rfl) rfl h
  · exact h

theorem Kept.unbindStation {s : State} {n : Fin 9} (h0 : (s.station n).state ≠ .unbound)
    (h1 : (s.station n).state ≠ .running) (h2 : (s.station n).state ≠ .cutting) (h : P s) :
    P (s.unbindStation n) := by
  have h := k.unbind s n h0 h1 h2 h
  unfold State.unbindStation State.unbindBlock
  split
  · refine k.lay _ _ _ (fun _ => ?_) (.inr fun _ => ?_) h
    · exact ⟨Nat.zero_le 4, Nat.zero_le _⟩
    · exact ⟨rfl, rfl⟩
  · exact k.inspector _ _ (fun x => x) (.inr fun _ => rfl) rfl h

theorem Kept.addSplices {s : State} (n : Fin 9) (set : BitVec 4) (h : P s) : P (s.addSplices n set) := by
  unfold State.addSplices
  split
  · refine k.coil _ _ _ (fun _ c _ _ hc => ?_) h
    exact addSplices_withinLimits set hc
  · exact h

theorem Kept.recordSplices {s : State} (n : Fin 9) (h : P s) : P (s.recordSplices n) := by
  unfold State.recordSplices
  split
  · exact k.lay _ _ _ (fun x => x) (.inr fun x => x) (k.addSplices n _ h)
  · exact h

theorem Kept.ensurePiece {s : State} (n : Fin 9) (hs : (s.station n).state = .ready ∨ (s.station n).state = .holding)
    (hf : (s.station n).piece = none → 1 ≤ s.figure) (h : P s) : P (s.ensurePiece n) := by
  unfold State.ensurePiece State.openPiece
  split
  · exact h
  · rename_i hp
    split at *
    · rename_i hx t ht
      split at ht
      · rename_i slot i ho hi
        cases ht
        exact k.lowTest (k.opening s n slot i ho hp (firstFree_free hi) (hf hp) hs h)
      · cases ht
    · exact h

omit k in
theorem addSplices_station (s : State) (n m : Fin 9) (set : BitVec 4) :
    (s.addSplices n set).station m = s.station m := by
  unfold State.addSplices; split <;> rfl

omit k in
theorem recordSplices_station (s : State) (n m : Fin 9) : (s.recordSplices n).station m = s.station m := by
  unfold State.recordSplices
  split
  · exact addSplices_station s n m _
  · rfl

omit k in
theorem recordSplices_figure (s : State) (n : Fin 9) : (s.recordSplices n).figure = s.figure := by
  unfold State.recordSplices State.addSplices
  split
  · split
    · simp [State.figure]
    · rfl
  · rfl

omit k in
theorem openInto_station (s : State) (n m : Fin 9) (slot : Fin 16) (i : Fin 64) :
    (s.openInto n slot i).station m =
      if m = n then { s.station m with piece := some i } else s.station m := by
  unfold State.openInto State.forgetRow
  have : ∀ j, (s.writePiece n slot i).station j = s.station j := fun _ => rfl
  split <;> simp [State.givePiece, this]

omit k in
/-- Opening a piece leaves every station's state, order and reasons. -/
theorem ensurePiece_state (s : State) (n m : Fin 9) :
    ((s.ensurePiece n).station m).state = (s.station m).state := by
  unfold State.ensurePiece State.openPiece
  split
  · rfl
  · split at *
    · rename_i t ht
      split at ht
      · cases ht
        rw [lowTest_station, openInto_station]
        split <;> rfl
      · cases ht
    · rfl

omit k in
theorem modReasons_lowTest (s : State) (n : Fin 9) (f : Reasons → Reasons) :
    (s.modReasons n f).lowTest = s.lowTest.modReasons n f := by
  have hf : (s.modReasons n f).figure = s.figure := rfl
  unfold State.lowTest
  rw [hf, State.modReasons_params, State.modReasons_table]
  by_cases a : s.figure ≤ s.params.part.lowWater
  · rw [if_pos a, if_pos a]
    by_cases b : s.table.lowArmed = true
    · rw [if_pos b, if_pos b]; rfl
    · rw [if_neg b, if_neg b]
  · rw [if_neg a, if_neg a]; rfl

omit k in
theorem modStation_comm (s : State) (n : Fin 9) {f g : Station → Station} (h : ∀ x, f (g x) = g (f x)) :
    (s.modStation n g).modStation n f = (s.modStation n f).modStation n g := by
  simp [State.modStation, modifyAt, h]

omit k in
/-- Opening a piece and writing hold reasons touch different fields. -/
theorem modReasons_ensurePiece (s : State) (n : Fin 9) (f : Reasons → Reasons) :
    (s.modReasons n f).ensurePiece n = (s.ensurePiece n).modReasons n f := by
  have hx : (s.modReasons n f).station n = { s.station n with reasons := f (s.station n).reasons } := by
    simp
  have ho : (s.modReasons n f).openPiece n = (s.openPiece n).map (·.modReasons n f) := by
    unfold State.openPiece
    have h1 : (s.modReasons n f).firstFree = s.firstFree := rfl
    rw [hx, h1]
    dsimp only
    split
    · rename_i slot i _ _
      refine congrArg some ?_
      have c := modStation_comm (s.writePiece n slot i) n (f := fun x => { x with piece := some i })
        (g := fun x => { x with reasons := f x.reasons }) (fun _ => rfl)
      have e : ((s.modReasons n f).writePiece n slot i).givePiece n i =
          ((s.writePiece n slot i).givePiece n i).modReasons n f := c
      unfold State.openInto
      rw [e]
      unfold State.forgetRow
      split <;> rfl
    · rfl
  unfold State.ensurePiece
  rw [ho, hx]
  dsimp only
  split
  · rfl
  · cases s.openPiece n
    · rfl
    · exact modReasons_lowTest _ n f

omit k in
/-- The target test does not look at the hold reasons (R55). -/
theorem modReasons_targetTest (s : State) (n : Fin 9) (f : Reasons → Reasons) :
    (s.modReasons n f).targetTest n = (s.targetTest n).modReasons n f := by
  have h : (s.modReasons n f).requestDue n = s.requestDue n := by
    have hr : (s.modReasons n f).record = s.record := rfl
    have ho : (s.modReasons n f).orderAt = s.orderAt := rfl
    simp [State.requestDue, State.reached, State.openPiece?, State.boundOrder, State.cutStatus, hr, ho]
    rfl
  unfold State.targetTest
  rw [h]
  split <;> rfl

omit k in
theorem modReasons_const (s : State) (n : Fin 9) (f : Reasons → Reasons) :
    s.modReasons n f = s.modReasons n fun _ => f (s.station n).reasons := by
  simp [State.modReasons, State.modStation, modifyAt, State.station]

omit k in
/-- After step 3 of a START the station has a piece, if it has an order and a record was there to open (R15). -/
theorem ensurePiece_piece (s : State) (n : Fin 9) (hf : (s.station n).piece = none → 1 ≤ s.figure) :
    ((s.ensurePiece n).station n).order = none ∨ ((s.ensurePiece n).station n).piece ≠ none := by
  unfold State.ensurePiece State.openPiece
  split
  · exact .inr (by simp [*])
  · rename_i hp
    have hfree : s.firstFree ≠ none := by
      have h1 := hf hp
      have : 0 < s.freeCount := by unfold State.figure at h1; omega
      simp only [State.freeCount, List.countP_pos_iff] at this
      obtain ⟨r, hr, hn⟩ := this
      obtain ⟨i, hi, he⟩ := List.mem_iff_getElem.mp hr
      simp only [State.firstFree, ne_eq, List.find?_eq_none, not_forall]
      refine ⟨⟨i, by simpa using hi⟩, by simp [allRecords], ?_⟩
      simp only [Vector.getElem_toList] at he
      simp [State.record, he, hn]
    cases ho : (s.station n).order with
    | none => exact .inl (by simp [ho])
    | some slot =>
      obtain ⟨i, hi⟩ := Option.ne_none_iff_exists'.mp hfree
      simp only [hi, lowTest_station, openInto_station, if_true]
      exact .inr (by simp)

omit k in
/-- Steps 1 to 4 of a START leave a READY or HOLDING station in its state, order and piece as step 3 leaves them, and
write its hold reasons last (R15). -/
theorem startEffects_spec (s : State) (n : Fin 9)
    (h : (s.station n).state = .ready ∨ (s.station n).state = .holding) :
    ∃ (u : State) (r : Reasons), s.startEffects n = u.modReasons n (fun _ => r) ∧
      u.station n = ((s.recordSplices n).ensurePiece n).station n ∧
      (u = ((s.recordSplices n).ensurePiece n).targetTest n ∨
        u = ((((s.recordSplices n).ensurePiece n).targetTest n).flagOverrun n).notice (slotOfStation n)
          .overrunHold) := by
  unfold State.startEffects
  rw [modReasons_ensurePiece, modReasons_targetTest]
  have hv : ((((s.recordSplices n).ensurePiece n).targetTest n).station n).state = (s.station n).state := by
    rw [targetTest_station, ensurePiece_state, recordSplices_station]
  have hs := targetTest_station ((s.recordSplices n).ensurePiece n) n n
  generalize ((s.recordSplices n).ensurePiece n).targetTest n = v at *
  unfold State.overrunTest State.overrunHold State.holdRunning
  split
  · refine ⟨(v.flagOverrun n).notice (slotOfStation n) .overrunHold,
      ⟨false, false, true⟩, ?_, ?_, .inr rfl⟩
    · rw [modReasons_flagOverrun, modReasons_flagOverrun, if_neg]
      · simp [State.modReasons, State.modStation, modifyAt, State.notice]
      · simp only [State.modReasons_station, if_true, flagOverrun_station, hv]
        rcases h with e | e <;> simp [e]
    · rw [← hs]; exact flagOverrun_station v n n
  · exact ⟨v, _, modReasons_const v n _, hs, .inl rfl⟩

omit k in
theorem steady_addSplices (s : State) (n : Fin 9) (set : BitVec 4) : Steady s (s.addSplices n set) := by
  unfold State.addSplices; split <;> exact ⟨rfl, rfl, rfl, rfl, rfl, rfl⟩

omit k in
theorem steady_recordSplices (s : State) (n : Fin 9) : Steady s (s.recordSplices n) := by
  unfold State.recordSplices
  split
  · exact (steady_addSplices s n _).trans (steady_modLay _ _ _)
  · exact Steady.refl s

omit k in
theorem steady_ensurePiece (s : State) (n : Fin 9) : Steady s (s.ensurePiece n) := by
  unfold State.ensurePiece
  split
  · exact Steady.refl s
  · split
    · exact (steady_openPiece ‹_›).trans (steady_lowTest _)
    · exact Steady.refl s

omit k in
theorem steady_startEffects (s : State) (n : Fin 9) : Steady s (s.startEffects n) :=
  ((((steady_recordSplices s n).trans (steady_modReasons _ n _)).trans (steady_ensurePiece _ n)).trans
    (steady_targetTest _ n)).trans (steady_overrunTest _ n true)

theorem Kept.startStation {s : State} {n : Fin 9} (hm : s.port.mode = .operate)
    (hs : (s.station n).state = .ready ∨ (s.station n).state = .holding)
    (hf : (s.station n).piece = none → 1 ≤ s.figure) (h : P s) : P (s.startStation n) := by
  have hf' : ((s.recordSplices n).station n).piece = none → 1 ≤ (s.recordSplices n).figure := by
    rw [recordSplices_station, recordSplices_figure]; exact hf
  obtain ⟨u, r, e, eu, ec⟩ := startEffects_spec s n hs
  have hp : P u := by
    have hv := k.targetTest n (k.ensurePiece n (by simpa [recordSplices_station] using hs) hf' (k.recordSplices n h))
    rcases ec with rfl | rfl
    · exact hv
    · exact k.notice _ _ _ (k.flagOverrun n hv)
  have hu : (u.station n).state = .ready ∨ (u.station n).state = .holding := by
    rw [eu, ensurePiece_state, recordSplices_station]; exact hs
  have ho : (u.station n).order = none ∨ (u.station n).piece ≠ none := by
    rw [eu]; exact ensurePiece_piece _ n hf'
  have hmu : u.port.mode = .operate := by
    have := (steady_startEffects s n).port
    rw [e, State.modReasons_port] at this
    rw [this]; exact hm
  unfold State.startStation State.considerStart
  refine k.considerIf _ ?_
  rw [e]
  unfold State.startState
  simp only [State.modReasons_station, if_true]
  split
  · unfold State.leaveFor
    rw [if_neg (by simp only [State.modReasons_station, if_true]; rcases hu with e | e <;> simp [e])]
    refine k.startHold u n r hmu hu ho ?_ hp
    rintro rfl
    simp_all [Reasons.any, Reasons.empty]
  · have : r = Reasons.empty := by
      cases r; simp_all [Reasons.any, Reasons.empty]
    subst this
    exact k.startRun u n hmu hu ho hp

/-! ### Lay stations -/

omit k in
theorem pushInterval_length (ring : List Nat) (dt : Nat) (h : ring.length ≤ Config.ringSize) :
    (pushInterval ring dt).length ≤ Config.ringSize := by
  unfold pushInterval
  split
  · simp only [List.length_append, List.length_tail, List.length_cons, List.length_nil]
    simp only [Config.ringSize] at *; omega
  · simp only [List.length_append, List.length_cons, List.length_nil]
    simp only [Config.ringSize] at *; omega

omit k in
theorem pushForward_length (ring : List Nat) (dt : Nat) (h : ring.length ≤ Config.ringSize) :
    (pushForward ring dt).length ≤ Config.ringSize := by
  unfold pushForward
  split
  · exact pushInterval_length _ _ (pushInterval_length _ _ h)
  · exact pushInterval_length _ _ h

/-- The quality fields' counts stand within their limits. -/
def LayQuality.WithinLimits (q : LayQuality) : Prop :=
  q.excursions ≤ Config.countSat ∧ q.inserted ≤ Config.countSat ∧ q.reverse ≤ Config.countSat

omit k in
/-- A mark keeps the ring within its four intervals and empties the count accumulator (R26, R29). -/
theorem markArrival_limits (m : MarkFrame) (x : Tracker) (q : LayQuality) (t : Word32)
    (h : x.ring.length ≤ Config.ringSize) :
    (markArrival m x q t).tracker.ring.length ≤ Config.ringSize ∧ (markArrival m x q t).tracker.count = 0 := by
  unfold markArrival
  split
  · exact ⟨h, rfl⟩
  · dsimp only
    split
    · exact ⟨h, rfl⟩
    · split
      · exact ⟨h, rfl⟩
      · split
        · exact ⟨Nat.zero_le _, rfl⟩
        · unfold forwardInterval
          dsimp only
          split <;> exact ⟨pushForward_length _ _ h, rfl⟩

omit k in
/-- A mark keeps the counts of the coil's quality fields within their limits (R32, R36). -/
theorem markArrival_quality (m : MarkFrame) (x : Tracker) (q : LayQuality) (t : Word32) (hq : q.WithinLimits) :
    (markArrival m x q t).quality.WithinLimits := by
  unfold markArrival
  split
  · exact hq
  · dsimp only
    split
    · exact hq
    · split
      · exact ⟨hq.1, hq.2.1, satSucc_le hq.2.2⟩
      · split
        · exact hq
        · unfold forwardInterval
          dsimp only
          split
          · exact hq
          · refine ⟨?_, ?_, hq.2.2⟩
            · simp only [demandStep, LayQuality.integrate]
              split
              · exact satSucc_le hq.1
              · exact hq.1
            · simp only [demandStep, LayQuality.integrate]
              split
              · exact satSucc_le hq.2.1
              · exact hq.2.1

theorem Kept.setOpenQuality {s : State} (n : Fin 9) (q : LayQuality)
    (hq : (s.openQuality n).WithinLimits → q.WithinLimits) (h : P s) : P (s.setOpenQuality n q) := by
  unfold State.setOpenQuality
  split
  · rename_i i hi
    refine k.coil _ _ _ (fun p c hp hb hc => ⟨hc.1, hc.2.1, hc.2.2.1, hc.2.2.2.1, hc.2.2.2.2.1, hq ?_⟩) h
    have e : s.openQuality n = c.quality := by
      simp [State.openQuality, State.openPiece?, hi, hp, hb, Piece.coil?]
    rw [e]; exact hc.2.2.2.2.2
  · exact h

omit k in
theorem setDemand_tracker (x : LayStation) (f : Nat) : (x.setDemand f).tracker = x.tracker := by
  unfold LayStation.setDemand; split <;> rfl

theorem Kept.markAt {s : State} (l : Fin 8) (h : P s) : P (s.markAt l) := by
  unfold State.markAt
  split
  · rename_i hr
    split
    · rename_i m _
      unfold State.afterMark
      refine k.raiseAll _ _ (k.setOpenQuality _ _ ?_ (k.lay s l _ ?_ (.inl hr) h))
      · exact markArrival_quality m _ _ _
      · intro hx
        have := markArrival_limits m (s.lay l).tracker (s.openQuality (ofLay l)) s.clocks.mark hx.1
        unfold LayStation.afterMark
        dsimp only
        split
        · rw [LayStation.WithinLimits, setDemand_tracker]
          exact ⟨this.1, by rw [this.2]; exact Nat.zero_le _⟩
        · exact ⟨this.1, by rw [this.2]; exact Nat.zero_le _⟩
    · exact h
  · exact h

omit k in
theorem clampInt_le {lo hi v : Int} (h : lo ≤ hi) : lo ≤ clampInt lo hi v ∧ clampInt lo hi v ≤ hi := by
  unfold clampInt; omega

omit k in
theorem worseSlip_le {worst : Option Int} (slip : Int) (h : ∀ w, worst = some w → w.natAbs ≤ 2147483647) (w : Int)
    (e : worseSlip worst slip = some w) : w.natAbs ≤ 2147483647 := by
  have held := clampInt_le (lo := -Config.slipBound) (hi := Config.slipBound) (v := slip) (by decide)
  simp only [Config.slipBound] at held
  cases worst with
  | none => cases e; simp only [heldSlip, Config.slipBound]; omega
  | some z =>
    by_cases hz : z.natAbs < (heldSlip slip).natAbs
    · simp only [worseSlip, hz, if_true] at e; cases e; simp only [heldSlip, Config.slipBound]; omega
    · simp only [worseSlip, hz, if_false] at e; exact h _ e

theorem Kept.trackCount {s : State} (l : Fin 8) (d : Direction) (h : P s) : P (s.trackCount l d) := by
  unfold State.trackCount
  split
  · refine k.lay _ _ _ (fun hx => ⟨hx.1, ?_⟩) (.inr fun x => x) h
    have := clampInt_le (lo := -Config.countLimit) (hi := Config.countLimit)
      (v := (s.lay l).tracker.count + d.unit) (by decide)
    simp only [addCount, Config.countLimit] at *
    omega
  · exact h

theorem Kept.tallyCount {s : State} (l : Fin 8) (d : Direction) (h : P s) : P (s.tallyCount l d) := by
  unfold State.tallyCount
  split
  · split
    · refine k.tallyTests _ (k.coil _ _ _ (fun _ c _ _ hc => ?_) h)
      have := clampInt_le (lo := 0) (hi := Config.lengthLimit)
        (v := c.length + d.unit * ((s.layParams l).sourceScale : Int)) (by decide)
      exact ⟨this.1, this.2, hc.2.2⟩
    · exact h
  · exact h

theorem Kept.sourceCount {s : State} (l : Fin 8) (enc : Encoder) (d : Direction) (h : P s) :
    P (s.sourceCount l enc d) := by
  unfold State.sourceCount
  split
  · exact k.tallyCount l d (k.trackCount l d h)
  · exact h

theorem Kept.recordSlip {s : State} (n : Fin 9) (slip : Int) (h : P s) : P (s.recordSlip n slip) := by
  unfold State.recordSlip
  split
  · exact k.coil _ _ _ (fun _ c _ _ hc =>
      ⟨hc.1, hc.2.1, hc.2.2.1, hc.2.2.2.1, worseSlip_le slip hc.2.2.2.2.1, hc.2.2.2.2.2⟩) h
  · exact h

theorem Kept.closeSpan {s : State} (l : Fin 8) (slip : Int) (h : P s) : P (s.closeSpan l slip) := by
  have h := k.lay _ l (fun x => { x with slipCap := 0, slipMeter := 0 }) (fun x => x) (.inr fun x => x)
    (k.recordSlip (ofLay l) slip h)
  unfold State.closeSpan
  dsimp only
  split
  · exact k.raise _ _ h
  · exact h

theorem Kept.slipCount {s : State} (l : Fin 8) (enc : Encoder) (d : Direction) (h : P s) :
    P (s.slipCount l enc d) := by
  unfold State.slipCount State.spanTest
  split
  · exact h
  · have h : P (s.modLay l fun x => x.advance enc (d.unit * ((s.layParams l).scale enc : Int))) := by
      refine k.lay _ _ _ (fun hx => ?_) (.inr fun hx => ?_) h <;>
        (unfold LayStation.advance; split <;> exact hx)
    split
    · exact k.closeSpan l _ h
    · exact h

theorem Kept.countAt {s : State} (l : Fin 8) (enc : Encoder) (d : Direction) (h : P s) : P (s.countAt l enc d) := by
  unfold State.countAt
  split
  · exact k.slipCount l enc d (k.sourceCount l enc d h)
  · exact k.sourceCount l enc d h

theorem Kept.linesAt {s : State} (l : Fin 8) (enc : Encoder) (new : Pair) (h : P s) : P (s.linesAt l enc new) := by
  have h : P (s.setLines l enc new) := k.lines s l _ h
  unfold State.linesAt
  split
  · split
    · exact k.countAt l enc _ h
    · exact h
  · exact h

theorem Kept.assertStrand {s : State} (l : Fin 8) (j : Fin 4) (h : P s) : P (s.assertStrand l j) := by
  unfold State.assertStrand
  dsimp only
  generalize assertLevel (s.layParams l).strandEdge = b
  have h : P (s.setStrand l j b) := k.lines s l _ h
  split
  · exact h
  · unfold State.strandAt
    split
    · split
      · exact k.raise _ _ (k.lay _ _ _ (fun x => x) (.inr fun x => x) h)
      · exact h
    · exact h

theorem Kept.stallExpiry {s : State} (l : Fin 8) (h : P s) : P (s.stallExpiry l) := by
  unfold State.stallExpiry
  split
  · split
    · exact k.raise _ _ (k.lay _ _ _ (fun x => x) (.inl ‹_›) (k.waitMark _ h))
    · exact h
  · exact h

theorem Kept.pulse {s : State} (l : Fin 8) (h : P s) : P (s.pulse l) := by
  have e : ∀ s, P s → P (s.emitPulse l) := fun s h => k.lay s l _ (fun x => x) (.inr fun x => x) h
  unfold State.pulse
  split
  · exact h
  · split
    · exact e _ (k.waitMark _ h)
    · exact e _ h

/-! ### The loom -/

omit k in
theorem countRun_limits {q : Panel} (kind : MendKind) (h : q.WithinLimits) : (q.countRun kind).WithinLimits := by
  obtain ⟨h1, h2, h3, h4⟩ := h
  cases kind
  · exact ⟨h1, satSucc_le h2, h3, h4⟩
  · exact ⟨h1, h2, satSucc_le h3, h4⟩

omit k in
/-- While the list has room the id an entry takes is one that no entry holds (R74). -/
theorem freshId_fresh {mends : List MendEntry} (v : Word16) (h : mends.length < Config.mendSize) :
    freshId mends v ∉ mends.map (·.id) := by
  have hi : ∀ m, (fun x : Word16 => x + 1)^[m] v = v + BitVec.ofNat 16 m := by
    intro m
    induction m with
    | zero => simp
    | succ m ih => rw [Function.iterate_succ_apply', ih]; bv_omega
  obtain ⟨passed, _, he, _, hn⟩ := firstUnheld_free (held := fun v => mends.any (·.id == v)) (next := (· + 1))
    (fuel := Config.mendSize) (v := v) (mends.map (·.id)) (by simp) (by simpa using h) (by
      intro i j hij hj
      rw [hi, hi]
      simp only [Config.mendSize] at hj
      bv_omega)
  unfold freshId
  rw [he]
  simpa using hn

omit k in
theorem countRun_unmended (q : Panel) (kind : MendKind) : (q.countRun kind).unmended = q.unmended := by
  cases kind <;> rfl

omit k in
theorem Sorting.Grows.trans {a : AwaitRow} {x y z : Sorting} (h : x.Grows a y) (g : y.Grows a z) : x.Grows a z := by
  refine ⟨fun w => g.panel (h.panel w), fun w => g.inspector (h.inspector w), g.timer.trans h.timer,
    fun w => g.ids (h.ids w), ?_⟩
  obtain ⟨o1, n1, e1, m1, p1, u1⟩ := h.mends
  obtain ⟨o2, n2, e2, m2, p2, u2⟩ := g.mends
  have hl : o2.length = o1.length + n1.length := by
    have := congrArg List.length m2; simpa [e1] using this
  refine ⟨o2.take o1.length, o2.drop o1.length ++ n2, ?_, ?_, ?_, ?_⟩
  · rw [← List.append_assoc, List.take_append_drop, e2]
  · rw [List.map_take, m2, e1, List.map_append, List.take_left' (by simp), m1]
  · intro e he
    rcases List.mem_append.mp he with hd | hn
    · have : (e.id, e.panel) ∈ (o2.map fun e => (e.id, e.panel)).drop o1.length := by
        rw [← List.map_drop]; exact List.mem_map_of_mem hd
      rw [m2, e1, List.map_append, List.drop_left' (by simp)] at this
      obtain ⟨e', he', hp⟩ := List.mem_map.mp this
      rw [← (Prod.mk.inj hp).2]
      exact p1 e' he'
    · exact p2 e hn
  · intro w
    have hx : x.inspector.mends.length = o1.length := by
      have := congrArg List.length m1; simpa using this.symm
    have hu := u1 w
    rw [u2 (by rw [hu, e1, List.length_append]; omega), hu, List.length_append, List.length_drop]
    omega

omit k in
theorem addRun_grows (a : AwaitRow) (before : BitVec 64) (x : Sorting) (run : Run) :
    x.Grows a (Sorting.addRun a before x run) := by
  unfold Sorting.addRun
  dsimp only
  split
  · rename_i hroom
    refine ⟨fun h => ?_, fun h => ?_, rfl, fun h => ?_, x.inspector.mends, _, rfl, rfl, by simp, fun h => ?_⟩
    · obtain ⟨h1, h2, h3, h4, h5, h6, h7⟩ := countRun_limits (runKind before run) h
      exact ⟨h1, h2, h3, h4, h5, satSucc_le h6, h7⟩
    · exact ⟨by simp only [List.length_append, List.length_cons, List.length_nil]; omega, h.2⟩
    · have := freshId_fresh x.inspector.nextId hroom
      simp only [List.map_append, List.map_cons, List.map_nil, List.nodup_append, List.mem_singleton,
        List.nodup_cons, List.not_mem_nil, not_false_eq_true, List.nodup_nil, and_true, true_and]
      exact ⟨h, fun i hi j hj => by rintro rfl; exact this (hj ▸ hi)⟩
    · simp only [Config.mendSize] at hroom
      simp only [countRun_unmended, satSucc, Config.countSat, List.length_cons, List.length_nil]
      rw [if_pos (by omega)]
  · refine ⟨fun h => ?_, fun h => ⟨h.1, satSucc_le h.2.1, h.2.2⟩, rfl, fun h => h, x.inspector.mends, [],
      (List.append_nil _).symm, rfl, by simp, fun _ => ?_⟩
    · obtain ⟨h1, h2, h3, h4, h5⟩ := countRun_limits (runKind before run) h
      exact ⟨h1, h2, h3, satSucc_le h4, h5⟩
    · simp [countRun_unmended]

omit k in
theorem Sorting.Grows.refl (a : AwaitRow) (x : Sorting) : x.Grows a x :=
  ⟨fun h => h, fun h => h, rfl, fun h => h, _, [], (List.append_nil _).symm, rfl, by simp, fun _ => by simp⟩

omit k in
theorem addRuns_grows (a : AwaitRow) (before : BitVec 64) (runs : List Run) (x : Sorting) :
    x.Grows a (runs.foldl (Sorting.addRun a before) x) := by
  induction runs generalizing x with
  | nil => exact .refl a x
  | cons run runs ih => exact (addRun_grows a before x run).trans (ih _)

omit k in
/-- An upgrade leaves the ids and panels of the entries and their order (R76). -/
theorem upgradeEntries_keeps (prev : Option PrevRow) (missing : BitVec 64) (old : List MendEntry) {β : Type}
    (f : MendEntry → β) (hf : ∀ e : MendEntry, f { e with kind := .hole } = f e) :
    (upgradeEntries prev missing old).map f = old.map f := by
  unfold upgradeEntries
  split
  · rw [List.map_map]
    refine List.map_congr_left fun e _ => ?_
    simp only [Function.comp]
    split <;> [exact hf e; rfl]
  · rfl

omit k in
/-- Entries before a sense word, upgraded, with the entries the word appended. -/
theorem upgraded_grows (a : AwaitRow) (x y : Sorting) (h : x.Grows a y) (prev : Option PrevRow) (missing : BitVec 64)
    {β : Type} (f : MendEntry → β) (hf : ∀ e : MendEntry, f { e with kind := .hole } = f e)
    (hp : ∀ e e' : MendEntry, (e.id, e.panel) = (e'.id, e'.panel) → f e = f e') :
    (upgradeEntries prev missing x.inspector.mends ++
      y.inspector.mends.drop x.inspector.mends.length).map f = y.inspector.mends.map f := by
  obtain ⟨old, new, e, m, -, -⟩ := h.mends
  have hl : x.inspector.mends.length = old.length := by
    have := congrArg List.length m; simpa using this.symm
  have hm : old.map f = x.inspector.mends.map f := by
    clear e hl
    generalize x.inspector.mends = l at m
    induction old generalizing l with
    | nil => cases l <;> simp_all
    | cons b old ih =>
      cases l with
      | nil => simp at m
      | cons c l =>
        simp only [List.map_cons, List.cons.injEq] at m ⊢
        exact ⟨hp _ _ m.1, ih _ m.2⟩
  rw [List.map_append, upgradeEntries_keeps _ _ _ f hf, e, hl, List.drop_left, List.map_append, hm]

omit k in
/-- A sense word keeps the list and the counts in their order (R72 to R78). -/
theorem sortWord_grows (x : Sorting) (a : AwaitRow) (missing : BitVec 64) (hooks dead : Nat) :
    x.Grows a (sortWord x a missing hooks dead) := by
  have g := addRuns_grows a (beforeSet (sameRow x.inspector.previous a)) (runsOf missing) x
  unfold sortWord
  dsimp only
  generalize (runsOf missing).foldl (Sorting.addRun a (beforeSet (sameRow x.inspector.previous a))) x = y at *
  have el := congrArg List.length
    (upgraded_grows a x y g (sameRow x.inspector.previous a) missing (·.id) (fun _ => rfl) fun _ _ h =>
      (Prod.mk.inj h).1)
  have ei := upgraded_grows a x y g (sameRow x.inspector.previous a) missing (·.id) (fun _ => rfl) fun _ _ h =>
    (Prod.mk.inj h).1
  simp only [List.length_map] at el
  refine ⟨fun h => ?_, fun h => ?_, g.timer, fun h => ?_, ?_⟩
  · obtain ⟨h1, h2, h3, h4⟩ := g.panel h
    exact ⟨h1, Nat.le_trans (Nat.sub_le _ _) h2, Nat.min_le_left _ _, h4⟩
  · obtain ⟨h1, h2⟩ := g.inspector h
    exact ⟨by dsimp only; rw [el]; exact h1, h2⟩
  · rw [ei]; exact g.ids h
  · obtain ⟨old, new, e, m, hp, hu⟩ := g.mends
    have hl : x.inspector.mends.length = old.length := by
      have := congrArg List.length m; simpa using this.symm
    refine ⟨_, new, ?_, upgradeEntries_keeps (sameRow x.inspector.previous a) missing x.inspector.mends
      (fun e => (e.id, e.panel)) (fun _ => rfl), hp, hu⟩
    dsimp only
    rw [e, hl, List.drop_left]

omit k in
theorem panelAt_record {s : State} {i : Fin 64} {v : Word32} {q : Panel} (h : s.panelAt i v = some q) {p : Piece}
    {q' : Panel} (hp : s.record i = some p) (hb : p.body = .panel q') : q' = q := by
  simp only [State.panelAt, State.named, hp] at h
  split at h <;> simp_all [Piece.panel?]

theorem Kept.handOn {s : State} (a b c d : Bool) (h : P s) : P (s.handOn a b c d) := by
  have h1 : P (if a = true then s.raise loom .mendOverflow else s) := by
    split
    · exact k.raise _ _ h
    · exact h
  have h2 : P (if b = true then (if a = true then s.raise loom .mendOverflow else s).raise loom .hole
      else (if a = true then s.raise loom .mendOverflow else s)) := by
    split
    · exact k.raise _ _ h1
    · exact h1
  unfold State.handOn
  dsimp only
  generalize (if b = true then (if a = true then s.raise loom .mendOverflow else s).raise loom .hole
      else (if a = true then s.raise loom .mendOverflow else s)) = u at *
  split
  · refine k.raise _ _ ?_
    split
    · exact k.notice _ _ _ h2
    · exact h2
  · split
    · exact k.notice _ _ _ h2
    · exact h2

theorem Kept.senseAt {s : State} (word : BitVec 64) (h : P s) : P (s.senseAt word) := by
  unfold State.senseAt
  split
  · exact k.notice _ _ _ h
  · rename_i a f _ _
    dsimp only
    split
    · rename_i q hq
      exact k.handOn _ _ _ _ (k.sense s a q _ hq
        (sortWord_grows ⟨s.inspector, q⟩ a (missingSet s.params.loom.knotLevel f.hooks word) f.hooks f.deadRows) h)
    · exact k.handOn _ _ _ _ (k.inspector _ _ (fun x => x) (.inr fun x => x) rfl h)
  · exact h

theorem Kept.tallyRow {s : State} (h : P s) : P s.tallyRow := by
  unfold State.tallyRow
  split
  · split
    · refine k.tallyTests _ (k.panel _ _ _ (fun _ => rfl) (fun _ q _ _ hq => ?_) h)
      exact ⟨satSucc_le hq.1, hq.2⟩
    · exact h
  · exact h

theorem Kept.missSense {s : State} (a : AwaitRow) (h : P s) : P (s.missSense a) := by
  have h := k.inspector s (fun i => { i with awaiting := none, previous := none }) (fun x => x) (.inr fun x => x)
    rfl h
  unfold State.missSense
  dsimp only
  split
  · refine k.panel _ _ _ (fun _ => rfl) (fun _ q _ _ hq => ?_) h
    obtain ⟨h1, h2, h3, h4, h5, h6⟩ := hq
    exact ⟨h1, h2, h3, h4, satSucc_le h5, h6⟩
  · exact h

theorem Kept.nextRow {s : State} (h : P s) : P s.nextRow := by
  have h := k.inspector s (fun i => { i with awaiting := s.awaitRow }) (fun x => x) (.inr fun x => x) rfl h
  unfold State.nextRow
  dsimp only
  split
  · exact k.inspector _ _ (fun x => x) (.inl ‹_›) rfl h
  · exact h

theorem Kept.rowAt {s : State} (h : P s) : P s.rowAt := by
  unfold State.rowAt
  split
  · exact k.raise _ _ (k.nextRow (k.missSense _ (k.tallyRow h)))
  · exact k.nextRow (k.tallyRow h)

theorem Kept.rowStallExpiry {s : State} (h : P s) : P s.rowStallExpiry := by
  unfold State.rowStallExpiry
  split
  · split
    · exact k.raise _ _ (k.inspector _ _ (fun x => x) (.inr fun _ => rfl) rfl (k.waitPart _ h))
    · exact h
  · exact h

theorem Kept.mendRequest {s : State} (entry : Word16) (h : P s) : P (s.mendRequest entry).state := by
  unfold State.mendRequest
  split
  · exact h
  · rename_i e he
    obtain rfl : e.id = entry := by simpa using List.find?_some he
    exact k.mend s e (List.mem_of_find?_eq_some he) h

/-! ### Cuts -/

theorem Kept.cutDoneAt {s t : State} (n : Fin 9) (e : s.cutDoneAt n = .next t) (h : P s) : P t := by
  unfold State.cutDoneAt at e
  split at e
  case h_6 =>
    split at e
    · cases e
      unfold State.noticeCut
      dsimp only
      have h := k.notice _ (slotOfStation n) .pieceCut (k.complete s n _ ‹_› ‹_› h)
      split
      · exact k.highTest h
      · exact h
    · cases e
  all_goals cases e
  · exact h
  all_goals exact k.notice _ _ _ h

theorem Kept.cutDone {s t : State} {dt : Nat} {n : Fin 9} {edge : Edge} (e : execCutDone dt n edge s = .next t)
    (h : P (s.elapse dt)) : P t := by
  unfold execCutDone at e
  split at e
  · cases e; exact h
  · split at e
    · exact k.cutDoneAt n e h
    · cases e; exact h

theorem Kept.retest {s : State} (n : Fin 9) (h : P s) : P (s.retest n) := k.considerIf _ (k.targetTest n h)

theorem Kept.cutExpiry {s : State} (n : Fin 9) (h : P s) : P (s.cutExpiry n) := by
  unfold State.cutExpiry State.abortTimedOut
  split
  · split
    · rename_i t _ _
      have h := k.raise n .cutTimeout (k.cutTimer _ n (k.waitPart t h))
      split
      · exact k.retest _ (k.consider (k.lowTest (k.abortHold _ n ‹_› ((raise_cutting _ n .cutTimeout ‹_›).imp_right fun e => by
        rw [← e]; unfold State.reaction; rw [(steady_raise _ n .cutTimeout).params]) h)))
      · exact h
    · exact h
  · exact h

theorem Kept.ageOut {s : State} (i : Fin 8) (h : P s) : P (s.ageOut i) := by
  unfold State.ageOut; split <;> [exact k.consider (k.waitPart _ h); exact h]

theorem Kept.laneGapOver {s : State} (lane : Lane) (h : P s) : P (s.laneGapOver lane) := by
  unfold State.laneGapOver; split <;> [exact k.consider (k.waitPart _ h); exact h]

theorem Kept.anyGapOver {s : State} (h : P s) : P s.anyGapOver := by
  unfold State.anyGapOver; split <;> [exact k.consider (k.waitPart _ h); exact h]

theorem Kept.dropGrant {s : State} (h : P s) : P s.dropGrant := by
  unfold State.dropGrant; split <;> [exact k.forgetGrant _ (k.waitPart _ h); exact h]

theorem Kept.laneAbsent {s : State} (lane : Lane) (h : P s) : P (s.laneAbsent lane) := by
  unfold State.laneAbsent; split <;> [exact k.forgetLane _ _ (k.waitPart _ h); exact h]

/-! ### Requests of the host -/

theorem Kept.enterConfig {s : State} (h : P s) : P s.enterConfig.state := by
  unfold State.enterConfig
  split
  · exact h
  · split
    · exact h
    · exact k.toConfig s (by simp_all) h

theorem Kept.leaveConfig {s : State} (h : P s) : P s.leaveConfig.state := by
  unfold State.leaveConfig
  split
  · exact h
  · exact k.highTest (k.lowTest (k.operate s.crossChecked ‹_› (k.params s _ ‹_› (fun f => ⟨f.floor, f.peer⟩) h)))

omit k in
/-- What is stored of any parameter leaves every reaction at its floor or above (R148). -/
theorem store_floors {ref : ParamRef} {v : Nat} {x : Params} {r : Stored Params} (e : ref.store v x = some r)
    (h : x.FloorsStand) : r.value.FloorsStand := by
  cases ref with
  | lay n p => simp only [ParamRef.store, Option.map_eq_some_iff] at e; obtain ⟨_, _, rfl⟩ := e; exact ⟨h.floor, h.peer⟩
  | loom p => simp only [ParamRef.store, Option.map_eq_some_iff] at e; obtain ⟨_, _, rfl⟩ := e; exact ⟨h.floor, h.peer⟩
  | station n p =>
    simp only [ParamRef.store, Option.map_eq_some_iff] at e; obtain ⟨_, _, rfl⟩ := e; exact ⟨h.floor, h.peer⟩
  | part p =>
    simp only [ParamRef.store, Option.map_eq_some_iff] at e
    obtain ⟨y, hy, rfl⟩ := e
    have : y.value.reactions = x.part.reactions := by
      cases p <;> simp only [PartParam.store, storeNumber, storeNamed, Option.some.injEq, Option.map_eq_some_iff] at hy
      all_goals first
        | (subst hy; rfl)
        | (obtain ⟨_, _, rfl⟩ := hy; rfl)
        | (split at hy <;> cases hy <;> rfl)
    exact ⟨fun k => by simpa [this] using h.floor k, by simpa [this] using h.peer⟩
  | reaction k =>
    simp only [ParamRef.store, Option.map_eq_some_iff] at e
    obtain ⟨given, _, rfl⟩ := e
    have fl : ∀ (k : FaultKind) (g : Reaction), k.floor.code ≤ (floorReaction k g).code := by
      intro k g; cases k <;> cases g <;> decide
    refine ⟨fun j => ?_, ?_⟩
    · simp only [getElem_set_fin]
      split
      · rename_i e
        have : j = k := by revert e; cases j <;> cases k <;> decide
        subst this; exact fl _ _
      · exact h.floor j
    · simp only [getElem_set_fin]
      split
      · rename_i e
        have : k = .peerTrip := by revert e; cases k <;> decide
        subst this; rfl
      · exact h.peer
  | _ =>
    simp only [ParamRef.store, storeNamed, Option.map_eq_some_iff] at e
    obtain ⟨_, _, rfl⟩ := e
    exact ⟨h.floor, h.peer⟩

theorem Kept.setParameter {s : State} (a b c : Byte) (v : Word32) (h : P s) : P (s.setParameter a b c v).state := by
  unfold State.setParameter
  split
  · exact h
  · split
    · exact h
    · rename_i r hr
      obtain ⟨ref, -, hr⟩ := Option.bind_eq_some_iff.mp hr
      exact k.params s _ ‹_› (store_floors hr) h

theorem Kept.loadOrder {s : State} (b : Byte) (f : OrderFields) (h : P s) : P (s.loadOrder b f).state := by
  unfold State.loadOrder
  split
  · split
    · exact h
    · exact k.order s _ _ (by simp_all) h
  · exact h

theorem Kept.retireOrder {s : State} (b : Byte) (h : P s) : P (s.retireOrder b).state := by
  unfold State.retireOrder
  split
  · split
    · exact h
    · split
      · exact h
      · exact k.order s _ _ (by simp_all) h
  · exact h

theorem Kept.bindRequest {s : State} (b c : Byte) (h : P s) : P (s.bindRequest b c).state := by
  unfold State.bindRequest
  split
  · split
    · split
      · exact h
      · split
        · exact k.bindTo ‹_› ‹_› ‹_› h
        · exact h
    · exact h
  · exact h

theorem Kept.unbindRequest {s : State} (b : Byte) (h : P s) : P (s.unbindRequest b).state := by
  unfold State.unbindRequest
  split
  · split
    all_goals first | exact h | exact k.unbindStation (by simp [*]) (by simp [*]) (by simp [*]) h
  · exact h

theorem Kept.startAllowed {s : State} {n : Fin 9} (hm : s.port.mode = .operate)
    (hs : (s.station n).state = .ready ∨ (s.station n).state = .holding) (h : P s) : P (s.startAllowed n).state := by
  unfold State.startAllowed
  split
  · exact h
  · split
    · exact h
    · split
      · exact h
      · rename_i hf
        dsimp only
        refine k.startStation hm hs (fun hp => ?_) h
        exact Nat.le_of_not_lt fun hlt => hf ⟨hp, hlt⟩

theorem Kept.startRequest {s : State} (b : Byte) (h : P s) : P (s.startRequest b).state := by
  unfold State.startRequest
  split
  · rename_i n _
    split
    · exact h
    · have hm : s.port.mode = .operate := by
        cases e : s.port.mode <;> simp_all
      split
      · exact h
      · exact h
      · exact k.reasons s n (fun r => { r with halted := false }) (.inr (.inr ⟨‹_›, rfl⟩)) h
      · exact k.reasons s n (fun r => { r with halted := false }) (.inl ‹_›) h
      · exact k.startAllowed hm (.inl ‹_›) h
      · exact k.startAllowed hm (.inr ‹_›) h
  · exact h

theorem Kept.haltRequest {s : State} (b : Byte) (h : P s) : P (s.haltRequest b).state := by
  unfold State.haltRequest
  split
  · split
    · exact h
    · exact k.addReason _ _ (by simp [Reasons.empty]) h
  · exact h

theorem Kept.clearRequest {s : State} (b : Byte) (h : P s) : P (s.clearRequest b).state := by
  unfold State.clearRequest
  split
  · rename_i n _
    split
    · exact h
    · split
      · exact h
      · have h : P ((s.modFaults n fun _ => ⟨0, none⟩).clearHooks n) := by
          unfold State.clearHooks
          split
          · exact k.inspector _ _ (fun x => x) (.inr fun x => x) rfl (k.faults _ _ _ h)
          · exact k.faults _ _ _ h
        unfold State.clearStation State.untrip
        split
        · exact k.untrip _ n ‹_› h
        · exact h
  · exact h

omit k in
theorem amend_kind (p : Piece) (a : Amendment) :
    (p.amend a).state = p.state ∧ (p.amend a).station = p.station ∧ (p.amend a).slot = p.slot ∧
    (p.amend a).serial = p.serial ∧ (p.amend a).body = p.body := by
  unfold Piece.amend
  dsimp only
  split <;> split <;> (try split) <;> (try split) <;> exact ⟨rfl, rfl, rfl, rfl, rfl⟩

theorem Kept.amendPiece {s : State} (b : Byte) (v : Word32) (items : List AmendItem) (h : P s) :
    P (s.amendPiece b v items).state := by
  unfold State.amendPiece
  split
  · exact h
  · split
    · exact h
    · exact h
    · split
      · exact h
      · have h := k.note s ‹_› _ (fun p => amend_kind p ‹_›) h
        dsimp only
        unfold State.applyAmendment
        dsimp only
        split
        · exact k.waive _ _ h
        · exact h

theorem Kept.retirePiece {s : State} (b : Byte) (v : Word32) (h : P s) : P (s.retirePiece b v).state := by
  unfold State.retirePiece
  split
  · exact h
  · rename_i i _
    split
    · exact h
    · rename_i p hp
      split
      · rename_i hst
        have hr : s.record i = some p := by
          unfold State.named at hp
          split at hp
          · split at hp <;> simp_all
          · cases hp
        exact k.consider (k.lowTest (k.retire s i p _ hr hst (Nat.min_le_left _ _) h))
      · exact h

theorem Kept.takeRequested {s : State} (b : Byte) (h : P s) : P (s.takeRequested b).state := by
  unfold State.takeRequested
  split
  · exact h
  · split
    · exact h
    · exact k.take s _ _ h

/-! ### The pack port -/

omit k in
theorem named_record {s : State} {i : Fin 64} {v : Word32} {p : Piece} (h : s.named i v = some p) :
    s.record i = some p := by
  unfold State.named at h
  split at h
  · split at h <;> simp_all
  · cases h

theorem Kept.nextPiece {s : State} (h : P s) : P s.nextPiece.state := by
  unfold State.nextPiece
  split
  · exact h
  · split
    · exact h
    · exact k.highTest (k.toScale s _ (by simp_all) (List.mem_of_find?_eq_some ‹_›) h)

theorem Kept.disarmScale {s : State} (p : Piece) (h : P s) : P (s.disarmScale p) := by
  unfold State.disarmScale; split <;> [exact k.scaleTimer s _ h; exact h]

omit k in
theorem disarmScale_record (s : State) (p : Piece) (i : Fin 64) : (s.disarmScale p).record i = s.record i := by
  unfold State.disarmScale; split <;> rfl

theorem Kept.weighRequest {s : State} (b : Byte) (v w : Word32) (h : P s) : P (s.weighRequest b v w).state := by
  unfold State.weighRequest State.onPiece
  split
  · exact h
  · rename_i i _
    split
    · exact h
    · rename_i p hp
      have hr := named_record hp
      dsimp only
      split
      all_goals first
        | exact h
        | (split
           · exact h
           · exact k.notice _ _ _ (k.weigh _ i p _ (by rw [disarmScale_record]; exact hr) (by simp [*])
               (k.disarmScale p h)))

theorem Kept.packedRequest {s : State} (b : Byte) (v w : Word32) (h : P s) : P (s.packedRequest b v w).state := by
  unfold State.packedRequest State.onPiece
  split
  · exact h
  · rename_i i _
    split
    · exact h
    · rename_i p hp
      have hr := named_record hp
      dsimp only
      split
      all_goals first
        | exact h
        | (split
           · exact h
           · exact k.consider (k.leaveScale s i p _ hr (by simp [*]) (fun _ => ⟨.inl rfl, rfl, rfl, rfl, rfl⟩) h))

theorem Kept.asideRequest {s : State} (b : Byte) (v : Word32) (h : P s) : P (s.asideRequest b v).state := by
  unfold State.asideRequest State.onPiece
  split
  · exact h
  · rename_i i _
    split
    · exact h
    · rename_i p hp
      have hr := named_record hp
      dsimp only
      split
      all_goals first
        | exact h
        | exact k.consider (k.leaveScale _ i p _ (by rw [disarmScale_record]; exact hr) (by simp [*])
            (fun _ => ⟨.inr rfl, rfl, rfl, rfl, rfl⟩) (k.disarmScale p h))

omit k in
theorem queryRequest_kept {s : State} (b : Byte) (v : Option Word32) (h : P s) : P (s.queryRequest b v).state := by
  unfold State.queryRequest State.onPiece
  split
  · split
    · exact h
    · split <;> exact h
  · split <;> exact h

omit k in
theorem lowTest_pack (s : State) : s.lowTest.pack = s.pack := by
  unfold State.lowTest; split <;> [split; skip] <;> rfl

omit k in
theorem highTest_tx (s : State) : s.highTest.pack.tx = s.pack.tx := by
  unfold State.highTest; split <;> [skip; split] <;> rfl

omit k in
theorem leaveFor_pack (s : State) (n : Fin 9) (st : StationState) : (s.leaveFor n st).pack = s.pack := by
  unfold State.leaveFor State.stopMachine; split <;> [split; skip] <;> rfl

omit k in
/-- A consideration of grants does not touch the pack line. -/
theorem considerWith_pack (fuel : Nat) (s : State) : (considerWith fuel s).pack = s.pack := by
  induction fuel generalizing s with
  | zero => rfl
  | succ fuel ih =>
    unfold considerWith
    split
    · rw [ih, State.grant, lowTest_pack, State.award, leaveFor_pack]
    · rfl

omit k in
theorem consider_pack (s : State) : s.consider.pack = s.pack := considerWith_pack _ s

omit k in
theorem nextPiece_tx (s : State) : s.nextPiece.state.pack.tx = s.pack.tx := by
  unfold State.nextPiece; split <;> [rfl; (split <;> [rfl; exact highTest_tx _])]

omit k in
theorem disarmScale_tx (s : State) (p : Piece) : (s.disarmScale p).pack.tx = s.pack.tx := by
  unfold State.disarmScale; split <;> rfl

omit k in
theorem onPiece_tx (s : State) (b : Byte) (v : Word32) (body : Fin 64 → Piece → Answer)
    (hb : ∀ i p, (body i p).state.pack.tx = s.pack.tx) : (s.onPiece b v body).state.pack.tx = s.pack.tx := by
  unfold State.onPiece; split <;> [rfl; (split <;> [rfl; exact hb _ _])]

omit k in
theorem weighRequest_tx (s : State) (b : Byte) (v w : Word32) :
    (s.weighRequest b v w).state.pack.tx = s.pack.tx := by
  refine onPiece_tx s b v _ fun i p => ?_
  split
  all_goals first | rfl | (split <;> [rfl; exact disarmScale_tx s p])

omit k in
theorem packedRequest_tx (s : State) (b : Byte) (v w : Word32) :
    (s.packedRequest b v w).state.pack.tx = s.pack.tx := by
  refine onPiece_tx s b v _ fun i p => ?_
  split
  all_goals first | rfl | (split <;> [rfl; (simp only [State.packPiece, consider_pack]; rfl)])

omit k in
theorem asideRequest_tx (s : State) (b : Byte) (v : Word32) : (s.asideRequest b v).state.pack.tx = s.pack.tx := by
  refine onPiece_tx s b v _ fun i p => ?_
  split
  all_goals first | rfl | (simp only [State.asidePiece, consider_pack]; exact disarmScale_tx s p)

omit k in
theorem queryRequest_tx (s : State) (b : Byte) (v : Option Word32) :
    (s.queryRequest b v).state.pack.tx = s.pack.tx := by
  unfold State.queryRequest
  split
  · exact onPiece_tx s b _ _ fun _ _ => rfl
  · split <;> rfl

theorem Kept.takeChar {s : State} (c : PackChar) (h : P s) : P (s.takeChar c) := by
  unfold State.takeChar
  split
  · exact k.receiver s _ h
  · exact k.discard s h
  · split
    · exact k.receiver s _ h
    · exact k.discard s h

theorem Kept.scaleExpiry {s : State} (h : P s) : P s.scaleExpiry := by
  unfold State.scaleExpiry
  split
  · rename_i t i _ hi
    refine k.highTest (k.notice _ _ _ (k.scaleTimer _ _ (k.takeBack _ i ?_ (k.waitPart t h))))
    rw [← hi]
    unfold State.waitPart
    split <;> rfl
  · exact h

/-! ### The part as a whole -/

omit k in
theorem readSpan_mode (p : Port) (n : Nat) : (p.readSpan n).mode = p.mode := by
  unfold Port.readSpan; split <;> [split; skip] <;> rfl

omit k in
theorem malformed_mode (p : Port) (bytes : List Byte) : (p.malformed bytes).mode = p.mode := by
  unfold Port.malformed; split <;> rfl

theorem Kept.linkExpiry {s : State} (h : P s) : P s.linkExpiry := by
  unfold State.linkExpiry
  split
  · exact k.notice _ _ _ (kept_foldl (fun _ n h => k.raise n .linkLost h) _ (k.link _ _ (k.waitPart _ h)))
  · exact h

theorem Kept.assertReset {s : State} (h : P s) : P s.assertReset := by
  unfold State.assertReset
  split
  · exact h
  · exact k.resetLine _ _ (k.port _ _ (fun _ => rfl) (k.lineReset _ h))

theorem Kept.togglePermit {s : State} (n : Fin 9) (h : P s) : P (s.togglePermit n) := by
  unfold State.togglePermit
  split
  · rename_i c
    refine k.permit _ n ?_ (k.waitPart _ h)
    rw [← c.2]
    unfold State.waitPart
    split <;> rfl
  · exact h

/-- A property that every primitive change keeps is kept by every command, once the time that the command carries has
passed; POWER_ON asks for more. -/
theorem Kept.exec {c : Instr} {s t : State} (hp : ∀ dt, c = .powerOn dt → ∀ s, P s → P s.powerUp)
    (e : exec c s = .next t) (h : P (s.elapse c.time)) : P t := by
  cases c with
  | identify dt _ => exact k.hostRequest (fun _ h => h) e h
  | enterConfig dt _ => exact k.hostRequest (fun _ h => k.enterConfig h) e h
  | leaveConfig dt _ => exact k.hostRequest (fun _ h => k.leaveConfig h) e h
  | setParameter dt _ _ _ _ _ => exact k.hostRequest (fun _ h => k.setParameter _ _ _ _ h) e h
  | getParameter dt _ _ _ _ => exact k.hostRequest (fun s h => by unfold State.getParameter; split <;> exact h) e h
  | partClear dt _ => exact k.hostRequest (fun _ h => k.lineReset _ h) e h
  | loadOrder dt _ _ _ => exact k.hostRequest (fun _ h => k.loadOrder _ _ h) e h
  | readOrder dt _ _ => exact k.hostRequest (fun s h => by unfold State.readOrder; split <;> exact h) e h
  | retireOrder dt _ _ => exact k.hostRequest (fun _ h => k.retireOrder _ h) e h
  | bind dt _ _ _ => exact k.hostRequest (fun _ h => k.bindRequest _ _ h) e h
  | unbind dt _ _ => exact k.hostRequest (fun _ h => k.unbindRequest _ h) e h
  | start dt _ _ => exact k.hostRequest (fun _ h => k.startRequest _ h) e h
  | halt dt _ _ => exact k.hostRequest (fun _ h => k.haltRequest _ h) e h
  | clearFault dt _ _ => exact k.hostRequest (fun _ h => k.clearRequest _ h) e h
  | readStation dt _ _ => exact k.hostRequest (fun s h => by unfold State.readStation; split <;> exact h) e h
  | readPiece dt _ _ _ =>
    refine k.hostRequest (fun s hs => ?_) e h
    unfold State.readPiece; split <;> [exact hs; exact hs; (split <;> exact hs)]
  | findPieces dt _ _ _ _ _ =>
    refine k.hostRequest (fun s hs => ?_) e h
    unfold State.findPieces State.search; split <;> [(dsimp only; split <;> exact hs); exact hs]
  | amendPiece dt _ _ _ _ => exact k.hostRequest (fun _ h => k.amendPiece _ _ _ h) e h
  | retirePiece dt _ _ _ => exact k.hostRequest (fun _ h => k.retirePiece _ _ h) e h
  | readMends dt _ _ => exact k.hostRequest (fun s h => by unfold State.readMends; dsimp only; split <;> exact h) e h
  | mend dt _ _ => exact k.hostRequest (fun _ h => k.mendRequest _ h) e h
  | poll dt _ => exact k.hostRequest (fun _ h => h) e h
  | takeNotice dt _ _ => exact k.hostRequest (fun _ h => k.takeRequested _ h) e h
  | setMask dt _ _ => exact k.hostRequest (fun s h => k.mask s _ h) e h
  | readSpan dt _ => cases e; exact k.port _ _ (fun p => by split <;> [rfl; exact readSpan_mode p _]) h
  | malformedFrame dt _ => exact k.requestSpan (fun _ h => k.port _ _ (malformed_mode · _) h) e h
  | packNext dt => exact k.packRequest (fun _ h => k.nextPiece h) (fun s => nextPiece_tx s) e h
  | packWeigh dt _ _ _ => exact k.packRequest (fun _ h => k.weighRequest _ _ _ h) (fun s => weighRequest_tx s _ _ _) e h
  | packPacked dt _ _ _ => exact k.packRequest (fun _ h => k.packedRequest _ _ _ h) (fun s => packedRequest_tx s _ _ _) e h
  | packAside dt _ _ => exact k.packRequest (fun _ h => k.asideRequest _ _ h) (fun s => asideRequest_tx s _ _) e h
  | packQuery dt _ _ => exact k.packRequest (fun _ h => queryRequest_kept _ _ h) (fun s => queryRequest_tx s _ _) e h
  | packFrameDiscard dt chars =>
    exact lineArrival_kept (body := fun s => s.takeChars chars)
      (fun _ h => kept_foldl (fun _ c h => k.takeChar c h) chars h) e h
  | flyerMark dt l edge =>
    refine lineArrival_kept (body := fun s => if edge = (s.layParams l).markEdge then s.markAt l else s) ?_ e h
    intro u hu
    split <;> [exact k.markAt _ hu; exact hu]
  | countArrival dt _ _ _ _ => cases e; exact k.linesAt _ _ _ h
  | strandOutAssertion dt _ _ => cases e; exact k.assertStrand _ _ h
  | strandOutRelease dt _ _ => cases e; exact k.lines _ _ _ h
  | rowIndex dt edge =>
    refine lineArrival_kept
      (body := fun s => if edge = s.params.loom.rowEdge ∧ s.bound loom = true then s.rowAt else s) ?_ e h
    intro u hu
    split <;> [exact k.rowAt hu; exact hu]
  | senseWord dt levels =>
    refine lineArrival_kept (body := fun s => if s.bound loom then s.senseAt levels else s) ?_ e h
    intro u hu
    split <;> [exact k.senseAt _ hu; exact hu]
  | cutDone dt _ _ => exact k.cutDone e h
  | resetAssert dt => cases e; exact k.assertReset h
  | resetRelease dt => cases e; exact k.resetLine _ _ h
  | powerOn dt => cases e; exact hp _ rfl _ h
  | stallTimerExpiry dt _ => cases e; exact k.stallExpiry _ h
  | rowStallTimerExpiry dt => cases e; exact k.rowStallExpiry h
  | cutTimerExpiry dt _ => cases e; exact k.cutExpiry _ h
  | scaleTimerExpiry dt => cases e; exact k.scaleExpiry h
  | linkSilenceExpiry dt => cases e; exact k.linkExpiry h
  | ageingOut dt _ => cases e; exact k.ageOut _ h
  | laneGapExpiry dt _ => cases e; exact k.laneGapOver _ h
  | anyGapExpiry dt => cases e; exact k.anyGapOver h
  | grantListDrop dt => cases e; exact k.dropGrant h
  | laneTimeAbsent dt _ => cases e; exact k.laneAbsent _ h
  | demandPulse dt _ => cases e; exact k.pulse _ h
  | permitPulseToggle dt _ => cases e; exact k.togglePermit _ h
  | packAnswerSent dt => cases e; exact k.sent _ h
  | spanFirstByte dt => cases e; exact k.port _ _ (fun p => by split <;> rfl) h

/-- A property that every primitive change keeps, and that does not look at the queue, is kept by every step. -/
theorem Kept.step {s t : State} (hp : ∀ s, P s → P s.powerUp) (hq : ∀ (s : State) q, P s → P { s with pending := q })
    (e : step s = .next t) (h : P s) : P t := by
  unfold Machine.step at e
  split at e
  · cases e; exact k.elapse s 1 h
  · exact k.exec (fun _ _ => hp) e (k.elapse _ _ (hq s _ h))

end

end Sys2Proof.Machine
end

