-- ==== Sys2Proof/Laws/Operations.lean ====
section
/-!
SUPPORT. What each shared operation on stations, reservations and records does to every field it may touch, one lemma
for each, to be cited in place of the operation's body.
-/
namespace Sys2Proof.Machine

/-! ### Station numbers -/

theorem layOf_ofLay (l : Fin 8) : layOf (ofLay l) = some l := by
  unfold layOf ofLay
  rw [dif_pos l.2]

theorem layOf_eq_some {n : Fin 9} {l : Fin 8} : layOf n = some l ↔ n = ofLay l := by
  constructor
  · intro h
    unfold layOf at h
    split at h
    · cases h; rfl
    · cases h
  · rintro rfl; exact layOf_ofLay l

theorem layOf_eq_none {n : Fin 9} : layOf n = none ↔ n = loom := by
  constructor
  · intro h
    unfold layOf at h
    split at h
    · cases h
    · exact Fin.ext (by have := n.2; simp only [loom]; omega)
  · rintro rfl; rfl

theorem ofLay_ne_loom (l : Fin 8) : ofLay l ≠ loom := by
  intro h
  have := layOf_ofLay l
  rw [h] at this; cases this

theorem ofLay_inj {l m : Fin 8} : ofLay l = ofLay m ↔ l = m :=
  ⟨fun h => Fin.ext (congrArg (fun x : Fin 9 => x.1) h), fun h => h ▸ rfl⟩

/-! ### leaveFor, enterRunning (R17, R29) -/

theorem stopMachine_lay (s : State) (n : Fin 9) (l : Fin 8) :
    (s.stopMachine n).lay l = if n = ofLay l then (s.lay l).stop else s.lay l := by
  unfold State.stopMachine
  split
  · rename_i m hm
    rw [layOf_eq_some] at hm
    subst hm
    simp [ofLay_inj, eq_comm]
  · rename_i hm
    rw [layOf_eq_none] at hm
    subst hm
    simp [(ofLay_ne_loom l).symm]

theorem stopMachine_inspector (s : State) (n : Fin 9) :
    (s.stopMachine n).inspector = if n = loom then { s.inspector with rowTimer := none } else s.inspector := by
  unfold State.stopMachine
  split
  · rename_i m hm
    rw [layOf_eq_some] at hm
    subst hm
    simp [ofLay_ne_loom]
  · rename_i hm
    rw [layOf_eq_none] at hm
    subst hm
    simp [State.modInspector]

theorem leaveFor_lay (s : State) (n : Fin 9) (st : StationState) (l : Fin 8) :
    (s.leaveFor n st).lay l =
      if (s.station n).state = .running ∧ n = ofLay l then (s.lay l).stop else s.lay l := by
  unfold State.leaveFor
  split
  · simp [stopMachine_lay, *]
  · simp [*]

theorem leaveFor_inspector (s : State) (n : Fin 9) (st : StationState) :
    (s.leaveFor n st).inspector =
      if (s.station n).state = .running ∧ n = loom then { s.inspector with rowTimer := none } else s.inspector := by
  unfold State.leaveFor
  split
  · simp [stopMachine_inspector, *]
  · simp [*]

theorem leaveFor_arbiter (s : State) (n : Fin 9) (st : StationState) : (s.leaveFor n st).arbiter = s.arbiter := by
  unfold State.leaveFor State.stopMachine; split <;> [split; skip] <;> rfl

theorem leaveFor_table (s : State) (n : Fin 9) (st : StationState) : (s.leaveFor n st).table = s.table := by
  unfold State.leaveFor State.stopMachine; split <;> [split; skip] <;> rfl

theorem leaveFor_notices (s : State) (n : Fin 9) (st : StationState) : (s.leaveFor n st).notices = s.notices := by
  unfold State.leaveFor State.stopMachine; split <;> [split; skip] <;> rfl

theorem leaveFor_collector (s : State) (n : Fin 9) (st : StationState) :
    (s.leaveFor n st).collector = s.collector := by
  unfold State.leaveFor State.stopMachine; split <;> [split; skip] <;> rfl

/-- The tracker of a station that enters RUNNING: reset, at f_start, its stall timer armed for T_max (R17, R29). -/
def State.freshLay (s : State) (l : Fin 8) : LayStation :=
  { (s.lay l).trackerReset.setDemand (s.layParams l).fStart with stall := some (s.markTimer (s.layParams l).tMax) }

theorem enterRunning_station (s : State) (n m : Fin 9) :
    (s.enterRunning n).station m =
      if m = n then (s.station m).enter s.port.mode s.clocks.part .running else s.station m := by
  unfold State.enterRunning; split <;> simp

theorem enterRunning_lay (s : State) (n : Fin 9) (l : Fin 8) :
    (s.enterRunning n).lay l = if n = ofLay l then s.freshLay l else s.lay l := by
  unfold State.enterRunning
  split
  · rename_i m hm
    rw [layOf_eq_some] at hm
    subst hm
    simp only [State.modLay_lay, State.enterState_lay, ofLay_inj, eq_comm (a := m)]
    split
    · rename_i e; subst e; rfl
    · rfl
  · rename_i hm
    rw [layOf_eq_none] at hm
    subst hm
    simp [(ofLay_ne_loom l).symm]

theorem enterRunning_inspector (s : State) (n : Fin 9) :
    (s.enterRunning n).inspector =
      if n = loom then { s.inspector with rowTimer := some (s.partTimer s.params.loom.rowTime) } else s.inspector := by
  unfold State.enterRunning
  split
  · rename_i m hm
    rw [layOf_eq_some] at hm
    subst hm
    simp [ofLay_ne_loom]
  · rename_i hm
    rw [layOf_eq_none] at hm
    subst hm
    simp [State.modInspector]

theorem enterRunning_arbiter (s : State) (n : Fin 9) : (s.enterRunning n).arbiter = s.arbiter := by
  unfold State.enterRunning; split <;> rfl

theorem enterRunning_table (s : State) (n : Fin 9) : (s.enterRunning n).table = s.table := by
  unfold State.enterRunning; split <;> rfl

theorem enterRunning_pack (s : State) (n : Fin 9) : (s.enterRunning n).pack = s.pack := by
  unfold State.enterRunning; split <;> rfl

theorem enterRunning_notices (s : State) (n : Fin 9) : (s.enterRunning n).notices = s.notices := by
  unfold State.enterRunning; split <;> rfl

/-! ### Openings (R114) -/

theorem openInto_record (s : State) (n : Fin 9) (slot : Fin 16) (i j : Fin 64) :
    (s.openInto n slot i).record j =
      if j = i then some (s.newPiece n slot (s.orderTag slot) s.openSerial) else s.record j := by
  have h : (s.openInto n slot i).record j = (s.setRecord i (some
      (s.newPiece n slot (s.orderTag slot) s.openSerial))).record j := by
    unfold State.openInto State.forgetRow; split <;> rfl
  rw [h, State.setRecord_record]

theorem openInto_lay (s : State) (n : Fin 9) (slot : Fin 16) (i : Fin 64) (l : Fin 8) :
    (s.openInto n slot i).lay l = s.lay l := by
  unfold State.openInto State.forgetRow; split <;> rfl

theorem openInto_arbiter (s : State) (n : Fin 9) (slot : Fin 16) (i : Fin 64) :
    (s.openInto n slot i).arbiter = s.arbiter := by
  unfold State.openInto State.forgetRow; split <;> rfl

theorem openInto_pack (s : State) (n : Fin 9) (slot : Fin 16) (i : Fin 64) :
    (s.openInto n slot i).pack = s.pack := by
  unfold State.openInto State.forgetRow; split <;> rfl

theorem openInto_notices (s : State) (n : Fin 9) (slot : Fin 16) (i : Fin 64) :
    (s.openInto n slot i).notices = s.notices := by
  unfold State.openInto State.forgetRow; split <;> rfl

theorem openInto_inspector (s : State) (n : Fin 9) (slot : Fin 16) (i : Fin 64) :
    (s.openInto n slot i).inspector = if n = loom then { s.inspector with previous := none } else s.inspector := by
  unfold State.openInto State.forgetRow; split <;> rfl

/-- An opening takes one FREE record. -/
theorem openInto_freeCount {s : State} {n : Fin 9} {slot : Fin 16} {i : Fin 64} (h : s.record i = none) :
    (s.openInto n slot i).freeCount + 1 = s.freeCount := by
  have e : (s.openInto n slot i).freeCount = (s.setRecord i (some
      (s.newPiece n slot (s.orderTag slot) s.openSerial))).freeCount := by
    unfold State.openInto State.forgetRow; split <;> rfl
  have := freeCount_setRecord s i (some (s.newPiece n slot (s.orderTag slot) s.openSerial))
  rw [e]
  simpa [h] using this

/-! ### Aborts and trips (R102, R152) -/

theorem abortCut_station (s : State) (n m : Fin 9) : (s.abortCut n).station m = s.station m := rfl
theorem abortCut_lay (s : State) (n : Fin 9) (l : Fin 8) : (s.abortCut n).lay l = s.lay l := rfl
theorem abortCut_record (s : State) (n : Fin 9) (i : Fin 64) : (s.abortCut n).record i = s.record i := rfl
theorem abortCut_waiting (s : State) (n : Fin 9) : (s.abortCut n).arbiter.waiting = s.arbiter.waiting := rfl

theorem abortCut_reservedRecords (s : State) (n : Fin 9) :
    (s.abortCut n).arbiter.reservedRecords = s.arbiter.reservedRecords - 1 := rfl

theorem abortCut_reservedPlaces (s : State) (n : Fin 9) :
    (s.abortCut n).arbiter.reservedPlaces = s.arbiter.reservedPlaces - 1 := rfl

theorem tripped_station (s : State) (n m : Fin 9) :
    (s.tripped n).station m =
      if m = n then
        { s.station m with reasons := Reasons.empty }.enter s.port.mode s.clocks.part .tripped
      else s.station m := by
  unfold State.tripped
  rw [leaveFor_station]
  by_cases h : m = n <;> simp [h]

theorem tripped_lay (s : State) (n : Fin 9) (l : Fin 8) :
    (s.tripped n).lay l = if (s.station n).state = .running ∧ n = ofLay l then (s.lay l).stop else s.lay l := by
  unfold State.tripped
  rw [leaveFor_lay]
  simp

theorem tripped_waiting (s : State) (n : Fin 9) :
    (s.tripped n).arbiter.waiting = s.arbiter.waiting.filter (· != n) := by
  unfold State.tripped
  rw [leaveFor_arbiter]; rfl

theorem tripped_reservedRecords (s : State) (n : Fin 9) :
    (s.tripped n).arbiter.reservedRecords = s.arbiter.reservedRecords := by
  unfold State.tripped
  rw [leaveFor_arbiter]; rfl

theorem tripped_reservedPlaces (s : State) (n : Fin 9) :
    (s.tripped n).arbiter.reservedPlaces = s.arbiter.reservedPlaces := by
  unfold State.tripped
  rw [leaveFor_arbiter]; rfl

theorem tripped_table (s : State) (n : Fin 9) : (s.tripped n).table = s.table := by
  unfold State.tripped
  rw [leaveFor_table]; rfl

theorem tripped_inspector (s : State) (n : Fin 9) :
    (s.tripped n).inspector =
      if (s.station n).state = .running ∧ n = loom then { s.inspector with rowTimer := none } else s.inspector := by
  unfold State.tripped
  rw [leaveFor_inspector]
  by_cases h : n = loom
  · subst h; simp
  · simp [h]

/-! ### Grants (R95) -/

theorem award_station (s : State) (n m : Fin 9) :
    (s.award n).station m =
      if m = n then (s.station m).enter s.port.mode s.clocks.part .cutting else s.station m := by
  unfold State.award
  rw [leaveFor_station]; rfl

theorem award_arbiter (s : State) (n : Fin 9) :
    (s.award n).arbiter = s.arbiter.grant n (s.stationParams n).lane s.clocks.part
      (s.partTimer (s.params.part.cutTimeout * 1000)) := by
  unfold State.award
  rw [leaveFor_arbiter]

theorem award_lay (s : State) (n : Fin 9) (l : Fin 8) :
    (s.award n).lay l = if (s.station n).state = .running ∧ n = ofLay l then (s.lay l).stop else s.lay l := by
  unfold State.award
  rw [leaveFor_lay]; rfl

theorem award_table (s : State) (n : Fin 9) : (s.award n).table = s.table := by
  unfold State.award
  rw [leaveFor_table]

theorem award_inspector (s : State) (n : Fin 9) :
    (s.award n).inspector =
      if (s.station n).state = .running ∧ n = loom then { s.inspector with rowTimer := none } else s.inspector := by
  unfold State.award
  rw [leaveFor_inspector]; rfl

/-! ### Target and overrun tests (R55, R57) -/

/-- The target test places a request exactly where the open piece stands at its target, no request waits, and the
station is READY, RUNNING or HOLDING. -/
theorem requestDue_iff (s : State) (n : Fin 9) :
    s.requestDue n = true ↔
      s.reached n Order.target = true ∧ n ∉ s.arbiter.waiting ∧
        ((s.station n).state = .ready ∨ (s.station n).state = .running ∨ (s.station n).state = .holding) := by
  cases h : (s.station n).state <;> by_cases hw : n ∈ s.arbiter.waiting <;>
    simp [State.requestDue, State.cutStatus, StationState.mayRequest, h, hw]

theorem targetTest_eq (s : State) (n : Fin 9) :
    s.targetTest n = if s.requestDue n then s.setWaiting (s.arbiter.waiting ++ [n]) else s := rfl

/-- Where the overrun test takes effect its station holds with OVERRUN; it reads every other station as it was. -/
theorem overrunHold_station (s : State) (n m : Fin 9) :
    (s.overrunHold n).station m =
      if m = n then
        let x := { s.station n with reasons := { (s.station n).reasons with overrun := true } }
        if (s.station n).state = .running then x.enter s.port.mode s.clocks.part .holding else x
      else s.station m := by
  have hp := (steady_modReasons s n fun r => { r with overrun := true }).trans (steady_flagOverrun _ n)
  have hs : ∀ j, ((s.modReasons n fun r => { r with overrun := true }).flagOverrun n).station j =
      if j = n then { s.station n with reasons := { (s.station n).reasons with overrun := true } }
      else s.station j := by
    intro j
    rw [flagOverrun_station]
    by_cases h : j = n
    · subst h; simp [State.modReasons]
    · simp [State.modReasons, h]
  unfold State.overrunHold State.holdRunning
  simp only [State.notice_station, hs, if_true]
  by_cases h : m = n
  · subst h
    by_cases hr : (s.station m).state = .running
    · simp only [hr, if_true, leaveFor_station, hs, hp.port, hp.clocks]
    · simp only [hr, if_false, if_true, hs]
  · by_cases hr : (s.station n).state = .running <;> simp [hr, h, leaveFor_station, hs]

theorem flagOverrun_arbiter (s : State) (n : Fin 9) : (s.flagOverrun n).arbiter = s.arbiter := by
  unfold State.flagOverrun; split <;> rfl

theorem overrunHold_arbiter (s : State) (n : Fin 9) : (s.overrunHold n).arbiter = s.arbiter := by
  unfold State.overrunHold State.holdRunning
  split
  · exact (leaveFor_arbiter _ _ _).trans (flagOverrun_arbiter _ _)
  · exact flagOverrun_arbiter _ _

theorem flagOverrun_lay (s : State) (n : Fin 9) (l : Fin 8) : (s.flagOverrun n).lay l = s.lay l := by
  unfold State.flagOverrun; split <;> rfl

/-- The overrun test stops the machine of a station that was RUNNING. -/
theorem overrunHold_lay (s : State) (n : Fin 9) (l : Fin 8) :
    (s.overrunHold n).lay l = if (s.station n).state = .running ∧ n = ofLay l then (s.lay l).stop else s.lay l := by
  have hl : ((s.modReasons n fun r => { r with overrun := true }).flagOverrun n).lay l = s.lay l := flagOverrun_lay _ _ _
  have hs : (((s.modReasons n fun r => { r with overrun := true }).flagOverrun n).station n).state =
      (s.station n).state := by rw [flagOverrun_station]; simp [State.modReasons]
  unfold State.overrunHold State.holdRunning
  simp only [State.notice_lay, hs]
  by_cases hr : (s.station n).state = .running
  · simp only [hr, if_true, true_and, leaveFor_lay, hl, hs]
  · simp only [hr, if_false, false_and, hl]

/-! ### Considerations (R94) -/

/-- A consideration changes no record, no piece's place and no fault. -/
theorem considerWith_records (fuel : Nat) (s : State) :
    (considerWith fuel s).table.records = s.table.records ∧ (considerWith fuel s).pack = s.pack ∧
      (considerWith fuel s).collector = s.collector := by
  induction fuel generalizing s with
  | zero => exact ⟨rfl, rfl, rfl⟩
  | succ fuel ih =>
    unfold considerWith
    split
    · rename_i n _
      obtain ⟨h1, h2, h3⟩ := ih (s.grant n)
      have ha : (s.award n).table.records = s.table.records := congrArg PieceTable.records (award_table s n)
      have ht : (s.grant n).table.records = s.table.records := by
        rw [State.grant]; unfold State.lowTest
        split <;> [split; skip] <;> exact ha
      have hk : (s.award n).pack = s.pack ∧ (s.award n).collector = s.collector := by
        unfold State.award State.leaveFor State.stopMachine
        split <;> [split; skip] <;> exact ⟨rfl, rfl⟩
      have hg : (s.grant n).pack = s.pack ∧ (s.grant n).collector = s.collector := by
        rw [State.grant]; unfold State.lowTest
        split <;> [split; skip] <;> exact hk
      exact ⟨h1.trans ht, h2.trans hg.1, h3.trans hg.2⟩
    · exact ⟨rfl, rfl, rfl⟩

theorem consider_records (s : State) :
    s.consider.table.records = s.table.records ∧ s.consider.pack = s.pack ∧ s.consider.collector = s.collector :=
  considerWith_records _ s

/-! ### The completion of a cut (R98) -/

theorem closeOld_station (s : State) (n m : Fin 9) :
    (s.closeOld n).station m = if m = n then { s.station m with piece := none } else s.station m := by
  unfold State.closeOld
  split
  · rename_i i _
    have : ∀ j, (s.closeCut i).station j = s.station j := fun _ => rfl
    simp [State.dropPiece, this]
  · by_cases h : m = n
    · subst h; simp only [if_true]; rw [← ‹(s.station m).piece = none›]
    · simp [h]

theorem closeOld_lay (s : State) (n : Fin 9) (l : Fin 8) : (s.closeOld n).lay l = s.lay l := by
  unfold State.closeOld; split <;> rfl

theorem closeOld_arbiter (s : State) (n : Fin 9) : (s.closeOld n).arbiter = s.arbiter := by
  unfold State.closeOld; split <;> rfl

theorem closeOld_inspector (s : State) (n : Fin 9) : (s.closeOld n).inspector = s.inspector := by
  unfold State.closeOld; split <;> rfl

theorem closeOld_notices (s : State) (n : Fin 9) : (s.closeOld n).notices = s.notices := by
  unfold State.closeOld; split <;> rfl

theorem closeOld_freeCount (s : State) (n : Fin 9) : (s.closeOld n).freeCount = s.freeCount := by
  unfold State.closeOld
  split
  · exact freeCount_modPiece s _ _
  · rfl

/-- The piece as a completion closes it: QUEUED, with the closed time (R98, R115). -/
def Piece.closeQueued (p : Piece) (now : Word32) : Piece := { p with state := .queued, closedAt := some now }

theorem closeOld_record (s : State) (n : Fin 9) (j : Fin 64) :
    (s.closeOld n).record j =
      if (s.station n).piece = some j then (s.record j).map (·.closeQueued s.clocks.part) else s.record j := by
  unfold State.closeOld
  split
  · rename_i i hi
    have : ((s.closeCut i).dropPiece n).record j = (s.modPiece i fun p => p.closeQueued s.clocks.part).record j := rfl
    rw [this, State.modPiece_record, hi]
    by_cases h : j = i
    · subst h; simp
    · simp [h, Ne.symm h]
  · rename_i hi
    simp [hi]

theorem closeOld_queue (s : State) (n : Fin 9) :
    (s.closeOld n).pack.queue = s.pack.queue ++ (s.station n).piece.toList := by
  unfold State.closeOld
  split
  · rename_i hi; simp [hi, State.closeCut, State.dropPiece]
  · rename_i hi; simp [hi]

theorem closeOld_scale (s : State) (n : Fin 9) : (s.closeOld n).pack.scale = s.pack.scale := by
  unfold State.closeOld; split <;> rfl

theorem finishCut_station (s : State) (n m : Fin 9) :
    (s.finishCut n).station m =
      if m = n then
        { s.station m with reasons := { (s.station m).reasons with overrun := false } }.enter s.port.mode
          s.clocks.part
          (if ({ (s.station n).reasons with overrun := false } : Reasons).any then .holding else .running)
      else s.station m := by
  unfold State.finishCut State.resume
  have : ∀ j, s.release.station j = s.station j := fun _ => rfl
  split
  · by_cases h : m = n
    · subst h; simp_all
    · simp_all
  · rw [enterRunning_station]
    by_cases h : m = n
    · subst h; simp_all
    · simp_all

theorem finishCut_arbiter (s : State) (n : Fin 9) : (s.finishCut n).arbiter = s.release.arbiter := by
  unfold State.finishCut State.resume
  split
  · rfl
  · rw [enterRunning_arbiter]; rfl

theorem finishCut_table (s : State) (n : Fin 9) : (s.finishCut n).table = s.table := by
  unfold State.finishCut State.resume
  split
  · rfl
  · rw [enterRunning_table]; rfl

theorem finishCut_pack (s : State) (n : Fin 9) : (s.finishCut n).pack = s.pack := by
  unfold State.finishCut State.resume
  split
  · rfl
  · rw [enterRunning_pack]; rfl

theorem finishCut_notices (s : State) (n : Fin 9) : (s.finishCut n).notices = s.notices := by
  unfold State.finishCut State.resume
  split
  · rfl
  · rw [enterRunning_notices]; rfl

theorem finishCut_lay (s : State) (n : Fin 9) (l : Fin 8) :
    (s.finishCut n).lay l = s.lay l ∨ (n = ofLay l ∧ ((s.finishCut n).station n).state = .running) := by
  rw [finishCut_station]
  unfold State.finishCut State.resume
  split
  · exact .inl rfl
  · rename_i h
    rw [enterRunning_lay]
    split
    · refine .inr ⟨‹_›, ?_⟩
      simp_all
    · exact .inl rfl

theorem finishCut_inspector (s : State) (n : Fin 9) :
    (s.finishCut n).inspector = s.inspector ∨
      (n = loom ∧ ((s.finishCut n).station n).state = .running ∧
        ∃ t, (s.finishCut n).inspector = { s.inspector with rowTimer := some t }) := by
  rw [finishCut_station]
  unfold State.finishCut State.resume
  split
  · exact .inl rfl
  · rename_i h
    rw [enterRunning_inspector]
    split
    · refine .inr ⟨‹_›, ?_, _, rfl⟩
      simp_all
    · exact .inl rfl

/-- The completion of a cut, cut up: the old piece closes, the lowest FREE record opens under the station's order, the
station resumes. -/
theorem completeCut_cases {s t : State} {n : Fin 9} (h : s.completeCut n = some t) :
    ∃ slot i, (s.station n).order = some slot ∧ s.record i = none ∧
      t = (((s.setCutTimer n none).closeOld n).openInto n slot i).finishCut n := by
  unfold State.completeCut State.openPiece at h
  rw [Option.map_eq_some_iff] at h
  obtain ⟨u, hu, rfl⟩ := h
  split at hu
  · rename_i slot i ho hi
    cases hu
    refine ⟨slot, i, ?_, ?_, rfl⟩
    · simpa [closeOld_station] using ho
    · have := firstFree_free hi
      rw [closeOld_record] at this
      split at this
      · simpa using this
      · exact this
  · cases hu

/-! ### Stations at BIND, UNBIND and a line reset -/

/-- BIND writes the record of its own station alone (R12). -/
theorem bindStation_station (s : State) (n m : Fin 9) (slot : Fin 16) :
    (s.bindStation n slot).station m =
      if m = n then
        { (s.station m).enter s.port.mode s.clocks.part .ready with
          order := some slot, reasons := Reasons.empty, piece := none }
      else s.station m := by
  show (s.modStation n _).station m = _
  rw [State.modStation_station]

/-- UNBIND writes the record of its own station alone (R13). -/
theorem unbindRecords_station (s : State) (n m : Fin 9) :
    (s.unbindRecords n).station m =
      if m = n then
        { (s.station m).enter s.port.mode s.clocks.part .unbound with
          order := none, reasons := Reasons.empty, piece := none }
      else s.station m := by
  unfold State.unbindRecords
  cases (s.station n).piece <;> exact State.modStation_station _ n m _

/-- A line reset treats every station alike (R20). -/
theorem resetBlocks_station (s : State) (cause : ResetCause) (n : Fin 9) :
    (s.resetBlocks cause).station n = (s.station n).lineReset :=
  Vector.getElem_map ..

/-! ### Serials (R113) -/

/-- So many serials on, the counter has wrapped past 0 or not at all. -/
theorem nextSerial_iterate (v : Word32) (m : Nat) (h : m < 4294967295) :
    (nextSerial^[m] v).toNat =
      if v.toNat + m < 4294967296 then v.toNat + m else v.toNat + m - 4294967295 := by
  induction m with
  | zero => simp [v.isLt]
  | succ m ih =>
    have hv := v.isLt
    rw [Function.iterate_succ_apply']
    have ih := ih (by omega)
    generalize nextSerial^[m] v = w at *
    have hw : w = BitVec.allOnes 32 ↔ w.toNat = 4294967295 := by
      rw [← BitVec.toNat_inj]; rfl
    unfold nextSerial
    split
    · rename_i e
      rw [hw.mp e] at ih
      rw [show (1 : Word32).toNat = 1 from rfl]
      split at ih <;> split <;> omega
    · rename_i e
      rw [hw] at e
      rw [BitVec.toNat_add, show (1 : Word32).toNat = 1 from rfl]
      split at ih <;> split <;> omega

/-- While a record is FREE the serial of the next opening names no record, and it is the counter's value or the first
after it that names none (R113). -/
theorem openSerial_spec {s : State} (h : 1 ≤ s.freeCount) :
    s.serialInUse s.openSerial = false ∧
    ∃ passed < 64, s.openSerial = nextSerial^[passed] s.table.nextSerial ∧
      ∀ m < passed, s.serialInUse (nextSerial^[m] s.table.nextSerial) = true := by
  obtain ⟨passed, hp, he, hb, hn⟩ := firstUnheld_free (held := s.serialInUse) (next := nextSerial) (fuel := 64)
    (v := s.table.nextSerial) (s.table.records.toList.filterMap fun r => r.map (·.serial)) (by
      intro v hv
      simp only [State.serialInUse, List.any_eq_true] at hv
      obtain ⟨r, hr, hv⟩ := hv
      cases r with
      | none => simp at hv
      | some p => exact List.mem_filterMap.mpr ⟨some p, hr, by simpa using hv⟩) (by
      have hc : (s.table.records.toList.filterMap fun r => r.map (·.serial)).length + s.freeCount = 64 := by
        have hl : s.table.records.toList.length = 64 := by simp
        refine Eq.trans ?_ hl
        unfold State.freeCount
        generalize s.table.records.toList = l
        clear hl h
        induction l with
        | nil => rfl
        | cons r l ih => cases r <;> simp <;> omega
      omega) (by
      intro i j hij hj e
      have e := congrArg BitVec.toNat e
      have hv := s.table.nextSerial.isLt
      rw [nextSerial_iterate _ _ (by omega), nextSerial_iterate _ _ (by omega)] at e
      split at e <;> split at e <;> omega)
  unfold State.openSerial
  rw [he]
  exact ⟨hn, passed, hp, rfl, hb⟩

/-! ### The check of a pack port frame (11-3) -/

theorem byte_shiftLeft_append (x : Byte) : ((x ++ 0#8 : Word16) <<< 1) = ((x <<< 1) ++ 0#8 : Word16) := by
  apply BitVec.eq_of_getLsbD_eq
  intro i hi
  simp only [BitVec.getLsbD_shiftLeft, BitVec.getLsbD_append]
  rcases i with _ | i
  · simp
  · simp only [Nat.add_sub_cancel]
    by_cases h : i + 1 < 8
    · have : i < 8 := by omega
      simp [h, this]
    · by_cases h7 : i < 8
      · have : i = 7 := by omega
        subst this; simp
      · have e : i + 1 - 8 = (i - 8) + 1 := by omega
        simp [h, h7, hi, e]
        omega

/-- A byte added at the head of the register gives up its most significant bit at each step. -/
theorem crcBit_feed (c : Word16) (x : Byte) :
    crcBit (c ^^^ (x ++ 0#8)) =
      (if c.msb != x.msb then (c <<< 1) ^^^ 0x1021#16 else c <<< 1) ^^^ ((x <<< 1) ++ 0#8) := by
  have hm : (c ^^^ (x ++ 0#8 : Word16)).msb = (c.msb != x.msb) := by
    rw [BitVec.msb_xor, BitVec.msb_append]; simp
  unfold crcBit
  rw [hm, BitVec.shiftLeft_xor_distrib, byte_shiftLeft_append]
  split
  · rw [BitVec.xor_assoc, BitVec.xor_comm _ 0x1021#16, ← BitVec.xor_assoc]
  · rfl

/-- The check takes a byte one bit at a time, the most significant bit first (11-3). -/
theorem crcByte_bits (c : Word16) (b : Byte) :
    crcByte c b = ([7, 6, 5, 4, 3, 2, 1, 0] : List Nat).foldl
      (fun (c : Word16) j => if c.msb != b.getLsbD j then (c <<< 1) ^^^ 0x1021#16 else c <<< 1) c := by
  have hs : ∀ k < 8, (b <<< k).msb = b.getLsbD (7 - k) := by
    intro k hk; rw [BitVec.msb_eq_getLsbD_last, BitVec.getLsbD_shiftLeft]; simp; omega
  have h0 := hs 0 (by omega)
  have h1 := hs 1 (by omega)
  have h2 := hs 2 (by omega)
  have h3 := hs 3 (by omega)
  have h4 := hs 4 (by omega)
  have h5 := hs 5 (by omega)
  have h6 := hs 6 (by omega)
  have h7 := hs 7 (by omega)
  have h8 : b <<< 8 = 0#8 := by simp
  simp only [BitVec.shiftLeft_zero, Nat.sub_zero, Nat.reduceSub] at *
  unfold crcByte
  simp only [crcBit_feed, ← BitVec.shiftLeft_add, Nat.reduceAdd, List.foldl, h0, h1, h2, h3, h4, h5, h6, h7, h8]
  simp

end Sys2Proof.Machine
end

