-- ==== Sys2Proof/Laws/KeptStations.lean ====
section
/-!
SUPPORT. What a command can do to the record of a station, said once: a property of a station's record, under one of the
parameters, that survives each of the changes below survives every command.
-/
namespace Sys2Proof.Machine

/-- A property F of the parameters and a property Q of a station's record that every change of a station's record
keeps. -/
structure Stationwise (F : Params → Prop) (Q : Station → Prop) : Prop where
  params : ∀ p p' : Params, (p.FloorsStand → p'.FloorsStand) → F p → F p'
  reasons : ∀ (x : Station) (f : Reasons → Reasons),
    x.state = .cutting ∨ (x.state = .holding ∧ ∀ r, f r ≠ Reasons.empty) ∨
      (x.state = .running ∧ f Reasons.empty = Reasons.empty) → Q x → Q { x with reasons := f x.reasons }
  hold : ∀ (x : Station) (f : Reasons → Reasons) m now, x.state = .running → (∀ r, f r ≠ Reasons.empty) → Q x →
    Q ({ x with reasons := f x.reasons }.enter m now .holding)
  trip : ∀ (x : Station) m now, x.state ≠ .unbound → x.state ≠ .tripped → Q x →
    Q ({ x with reasons := Reasons.empty }.enter m now .tripped)
  abortHold : ∀ (p : Params) (x : Station) m now, F p → x.state = .cutting →
    x.reasons ≠ Reasons.empty ∨ p.part.reactions[FaultKind.cutTimeout.index.1] = .note → Q x →
    Q (x.enter m now .holding)
  award : ∀ (x : Station) m now, x.state = .running ∨ x.state = .holding → Q x → Q (x.enter m now .cutting)
  bind : ∀ (x : Station) m now slot, Q x →
    Q { x.enter m now .ready with order := some slot, reasons := Reasons.empty, piece := none }
  unbind : ∀ (x : Station) m now, Q x →
    Q { x.enter m now .unbound with order := none, reasons := Reasons.empty, piece := none }
  untrip : ∀ (x : Station) m now, x.state = .tripped → Q x → Q (x.enter m now .ready)
  startHold : ∀ (x : Station) r m now, x.state = .ready ∨ x.state = .holding → x.order = none ∨ x.piece ≠ none →
    r ≠ Reasons.empty → Q x → Q ({ x with reasons := r }.enter m now .holding)
  startRun : ∀ (x : Station) m now, x.state = .ready ∨ x.state = .holding → x.order = none ∨ x.piece ≠ none → Q x →
    Q ({ x with reasons := Reasons.empty }.enter m now .running)
  opening : ∀ (x : Station) i slot, x.order = some slot → x.state = .ready ∨ x.state = .holding → Q x →
    Q { x with piece := some i }
  complete : ∀ (x : Station) i m now, x.state = .cutting → x.order ≠ none → Q x →
    Q ({ x with piece := some i, reasons := { x.reasons with overrun := false } }.enter m now
      (if ({ x.reasons with overrun := false } : Reasons).any then .holding else .running))
  permit : ∀ (x : Station) high at_, Q x → Q { x with pulseHigh := high, pulseAt := at_ }
  reset : ∀ x : Station, Q x → Q x.lineReset

theorem steady_unbindRecords (s : State) (n : Fin 9) : Steady s (s.unbindRecords n) := by
  unfold State.unbindRecords
  cases (s.station n).piece <;> exact ⟨rfl, rfl, rfl, rfl, rfl, rfl⟩

theorem steady_closeOld (s : State) (n : Fin 9) : Steady s (s.closeOld n) := by
  unfold State.closeOld
  split <;> exact ⟨rfl, rfl, rfl, rfl, rfl, rfl⟩

theorem steady_finishCut (s : State) (n : Fin 9) : Steady s (s.finishCut n) :=
  ((steady_release s).trans (steady_modReasons _ n _)).trans
    (steady_ite (fun _ => steady_enterState _ n _) fun _ => steady_enterRunning _ n)

theorem steady_completeCut {s t : State} {n : Fin 9} (e : s.completeCut n = some t) : Steady s t := by
  obtain ⟨slot, i, -, -, rfl⟩ := completeCut_cases e
  exact (((steady_setCutTimer s n none).trans (steady_closeOld _ n)).trans (steady_openInto _ n slot i)).trans
    (steady_finishCut _ n)

/-- The property of the parameters holds, and that of the station's record at every station. -/
def State.All (F : Params → Prop) (Q : Station → Prop) (s : State) : Prop := F s.params ∧ ∀ n, Q (s.station n)

section
variable {F : Params → Prop} {Q : Station → Prop}

theorem State.All.same {s t : State} (h : s.All F Q) (hp : t.params = s.params) (hs : t.stations = s.stations) :
    t.All F Q := ⟨by rw [hp]; exact h.1, fun n => by unfold State.station; simp only [hs]; exact h.2 n⟩

theorem State.All.upd {s t : State} (n : Fin 9) (h : s.All F Q) (hp : t.params = s.params)
    (ho : ∀ m, m ≠ n → t.station m = s.station m) (hn : Q (t.station n)) : t.All F Q := by
  refine ⟨by rw [hp]; exact h.1, fun m => ?_⟩
  by_cases e : m = n
  · subst e; exact hn
  · rw [ho m e]; exact h.2 m

variable (k : Stationwise F Q)
include k

theorem Stationwise.hold' {s : State} {n : Fin 9} {f : Reasons → Reasons} (hr : (s.station n).state = .running)
    (hf : ∀ r, f r ≠ Reasons.empty) (h : s.All F Q) : ((s.modReasons n f).leaveFor n .holding).All F Q :=
  h.upd n ((steady_leaveFor _ _ _).params) (fun m hm => by rw [leaveFor_station, if_neg hm]; simp [hm]) (by
    rw [leaveFor_station, if_pos rfl]
    simpa using k.hold _ f _ _ hr hf (h.2 n))

theorem Stationwise.trip' {s : State} {n : Fin 9} (h0 : (s.station n).state ≠ .unbound)
    (h1 : (s.station n).state ≠ .tripped) (h : s.All F Q) : (s.tripped n).All F Q :=
  h.upd n ((steady_tripped s n).params) (fun m hm => tripped_other s hm) (by
    rw [tripped_station, if_pos rfl]; exact k.trip _ _ _ h0 h1 (h.2 n))

theorem Stationwise.award' {s : State} {n : Fin 9} (he : s.eligible n = true) (h : s.All F Q) :
    (s.award n).All F Q := by
  have hs : (s.station n).state = .running ∨ (s.station n).state = .holding := by
    simp [State.eligible] at he; exact he.1.1.1.1.1
  refine h.upd n ((steady_award s n).params) (fun m hm => by rw [award_station, if_neg hm]) ?_
  rw [award_station, if_pos rfl]
  exact k.award _ _ _ hs (h.2 n)

theorem Stationwise.complete' {s t : State} {n : Fin 9} (hc : (s.station n).state = .cutting)
    (e : s.completeCut n = some t) (h : s.All F Q) : t.All F Q := by
  have hp := (steady_completeCut e).params
  obtain ⟨slot, j, ho, hj, rfl⟩ := completeCut_cases e
  have hs : (((s.setCutTimer n none).closeOld n).openInto n slot j).station n =
      { s.station n with piece := some j } := by
    rw [openInto_station, if_pos rfl, closeOld_station, if_pos rfl]; rfl
  refine h.upd n hp (fun m hm => ?_) ?_
  · rw [finishCut_station, if_neg hm, openInto_station, if_neg hm, closeOld_station, if_neg hm]; rfl
  · rw [finishCut_station, if_pos rfl, hs]
    exact k.complete (s.station n) j _ _ hc (by simp [ho]) (h.2 n)

/-- Such a property is kept by every primitive change, and so by every command and every step. -/
theorem Stationwise.kept : Kept (State.All F Q) where
  elapse s dt h := h.same rfl rfl
  notice s slot k h := h.same rfl rfl
  lowFlag s b h := h.same rfl rfl
  highFlag s b h := h.same rfl rfl
  faults s n f h := h.same rfl rfl
  reasons s n f hc h := h.upd n rfl (fun m hm => by simp [hm]) (by simpa using k.reasons _ f hc (h.2 n))
  hold s n f hr hf h := k.hold' hr hf h
  trip s n hm h := k.trip' (by rintro e; simp [e, StationState.mayRequest] at hm)
    (by rintro e; simp [e, StationState.mayRequest] at hm) h
  abortTrip s n hm h := k.trip' (s := s.abortCut n) (by rw [abortCut_station, hm]; decide)
    (by rw [abortCut_station, hm]; decide) (h.same rfl rfl)
  abortHold s n hm hr h := h.upd n rfl (fun m hm => by simp [State.enterState, hm, abortCut_station]) (by
    simp only [State.enterState, State.modStation_station, if_true]
    exact k.abortHold s.params _ _ _ h.1 hm hr (h.2 n))
  place s n _ _ h := h.same rfl rfl
  award s n _ he h := k.award' he h
  bind s n slot o _ _ _ h := h.upd n rfl (fun m hm => by rw [bindStation_station, if_neg hm]) (by
    rw [bindStation_station, if_pos rfl]; exact k.bind _ _ _ _ (h.2 n))
  unbind s n h0 h1 h2 h := h.upd n (steady_unbindRecords s n).params
    (fun m hm => by rw [unbindRecords_station, if_neg hm]) (by
      rw [unbindRecords_station, if_pos rfl]; exact k.unbind _ _ _ (h.2 n))
  untrip s n hs h := h.upd n rfl (fun m hm => by simp [State.enterState, hm]) (by
    simp only [State.enterState, State.modStation_station, if_true]
    exact k.untrip _ _ _ hs (h.2 n))
  startHold s n r _ hs ho hr h := h.upd n rfl (fun m hm => by simp [State.enterState, hm]) (by
    simp only [State.enterState, State.modStation_station, State.modReasons_station, if_true]
    exact k.startHold _ r _ _ hs ho hr (h.2 n))
  startRun s n _ hs ho h := h.upd n (steady_enterRunning _ n).params
    (fun m hm => by rw [enterRunning_station]; simp [hm]) (by
      rw [enterRunning_station]
      simp only [if_true, State.modReasons_station]
      exact k.startRun _ _ _ hs ho (h.2 n))
  opening s n slot i ho hp _ _ hs h := h.upd n (steady_openInto s n slot i).params
    (fun m hm => by rw [openInto_station, if_neg hm]) (by
      rw [openInto_station, if_pos rfl]; exact k.opening _ _ slot ho hs (h.2 n))
  complete s n t hc e h := k.complete' hc e h
  cutTimer s n h := h.same rfl rfl
  permit s n _ h := h.upd n rfl (fun m hm => by simp [State.changePermit, hm]) (by
    simp only [State.changePermit, State.modStation_station, if_true]; exact k.permit _ _ _ (h.2 n))
  lay s l f _ _ h := h.same rfl rfl
  lines s l f h := h.same rfl rfl
  resetLine s b h := h.same rfl rfl
  inspector s f _ _ _ h := h.same rfl rfl
  sense s a q x _ _ h := h.same rfl rfl
  mend s e _ h := h.same rfl rfl
  waive s i h := h.same rfl rfl
  coil s i f _ h := h.same rfl rfl
  panel s i f _ _ h := h.same rfl rfl
  note s i f _ h := h.same rfl rfl
  retire s i p n _ _ _ h := h.same rfl rfl
  toScale s i _ _ h := h.same rfl rfl
  takeBack s i _ h := h.same rfl rfl
  weigh s i p w _ _ h := h.same rfl rfl
  leaveScale s i p f _ _ _ h := h.same rfl rfl
  scaleTimer s t h := h.same rfl rfl
  receiver s r h := h.same rfl rfl
  discard s h := h.same rfl rfl
  answer s a _ h := h.same rfl rfl
  sent s h := by unfold State.sendAnswer; split <;> exact h.same rfl rfl
  forgetGrant s h := h.same rfl rfl
  forgetLane s l h := h.same rfl rfl
  link s t h := h.same rfl rfl
  take s slot k h := h.same rfl rfl
  mask s m h := h.same rfl rfl
  order s slot o _ h := h.same rfl rfl
  port s f _ h := h.same rfl rfl
  params s p _ hp h := ⟨k.params _ _ hp h.1, h.2⟩
  toConfig s _ h := h.same rfl rfl
  operate s _ h := h.same rfl rfl
  reset s c _ h := ⟨h.1, fun m => by rw [resetBlocks_station]; exact k.reset _ (h.2 m)⟩

end

end Sys2Proof.Machine
end

