-- ==== Sys2Proof/Laws/PerInstr.lean ====
section
/-!
SUPPORT. A family of statements made once for each command: the frame of a host request is never taken for a read span,
and it is long enough to be judged past its length byte (R168, R170).
-/
namespace Sys2Proof.Laws.Span

/-- A command that the host sends as a request span starts with a code other than the read code, and has at least the
three bytes of code, tag and length. A command that is no request has no such frame. -/
def Statement (i : Instr) : Prop :=
  ∀ bytes, encodeRequest i = some bytes → bytes.head? ≠ some Config.readCode ∧ 3 ≤ bytes.length

theorem of_parts {i : Instr} {code tag : Byte} {fields : List Byte} (h : requestParts i = some (code, tag, fields))
    (hc : code ≠ Config.readCode) : Statement i := by
  intro bytes hb
  unfold encodeRequest at hb
  rw [h] at hb
  cases hb
  exact ⟨fun e => hc (Option.some.inj e), Nat.le_add_left 3 _⟩

theorem of_none {i : Instr} (h : requestParts i = none) : Statement i := by
  intro bytes hb
  unfold encodeRequest at hb
  rw [h] at hb
  cases hb

theorem identify (dt : Nat) (tag : Byte) : Statement (.identify dt tag) := of_parts rfl (by decide)

theorem enterConfig (dt : Nat) (tag : Byte) : Statement (.enterConfig dt tag) := of_parts rfl (by decide)

theorem leaveConfig (dt : Nat) (tag : Byte) : Statement (.leaveConfig dt tag) := of_parts rfl (by decide)

theorem setParameter (dt : Nat) (tag : Byte) (ident station kind : Byte) (value : Word32) :
    Statement (.setParameter dt tag ident station kind value) := of_parts rfl (by decide)

theorem getParameter (dt : Nat) (tag : Byte) (ident station kind : Byte) :
    Statement (.getParameter dt tag ident station kind) := of_parts rfl (by decide)

theorem partClear (dt : Nat) (tag : Byte) : Statement (.partClear dt tag) := of_parts rfl (by decide)

theorem loadOrder (dt : Nat) (tag : Byte) (slot : Byte) (fields : OrderFields) :
    Statement (.loadOrder dt tag slot fields) := of_parts rfl (by decide)

theorem readOrder (dt : Nat) (tag : Byte) (slot : Byte) :
    Statement (.readOrder dt tag slot) := of_parts rfl (by decide)

theorem retireOrder (dt : Nat) (tag : Byte) (slot : Byte) :
    Statement (.retireOrder dt tag slot) := of_parts rfl (by decide)

theorem bind (dt : Nat) (tag : Byte) (station slot : Byte) :
    Statement (.bind dt tag station slot) := of_parts rfl (by decide)

theorem unbind (dt : Nat) (tag : Byte) (station : Byte) :
    Statement (.unbind dt tag station) := of_parts rfl (by decide)

theorem start (dt : Nat) (tag : Byte) (station : Byte) : Statement (.start dt tag station) := of_parts rfl (by decide)

theorem halt (dt : Nat) (tag : Byte) (station : Byte) : Statement (.halt dt tag station) := of_parts rfl (by decide)

theorem clearFault (dt : Nat) (tag : Byte) (station : Byte) :
    Statement (.clearFault dt tag station) := of_parts rfl (by decide)

theorem readStation (dt : Nat) (tag : Byte) (station : Byte) :
    Statement (.readStation dt tag station) := of_parts rfl (by decide)

theorem readPiece (dt : Nat) (tag : Byte) (number : Byte) (serial : Option Word32) : Statement (.readPiece dt tag number serial) := by
  cases serial <;> exact of_parts rfl (by decide)

theorem findPieces (dt : Nat) (tag : Byte) (states station slot first : Byte) :
    Statement (.findPieces dt tag states station slot first) := of_parts rfl (by decide)

theorem amendPiece (dt : Nat) (tag : Byte) (number : Byte) (serial : Word32) (items : List AmendItem) :
    Statement (.amendPiece dt tag number serial items) := of_parts rfl (by decide)

theorem retirePiece (dt : Nat) (tag : Byte) (number : Byte) (serial : Word32) :
    Statement (.retirePiece dt tag number serial) := of_parts rfl (by decide)

theorem readMends (dt : Nat) (tag : Byte) (first : Byte) :
    Statement (.readMends dt tag first) := of_parts rfl (by decide)

theorem mend (dt : Nat) (tag : Byte) (entry : Word16) : Statement (.mend dt tag entry) := of_parts rfl (by decide)

theorem poll (dt : Nat) (tag : Byte) : Statement (.poll dt tag) := of_parts rfl (by decide)

theorem takeNotice (dt : Nat) (tag : Byte) (slot : Byte) :
    Statement (.takeNotice dt tag slot) := of_parts rfl (by decide)

theorem setMask (dt : Nat) (tag : Byte) (mask : Word32) : Statement (.setMask dt tag mask) := of_parts rfl (by decide)

theorem readSpan (dt : Nat) (shifted : Nat) : Statement (.readSpan dt shifted) := of_none rfl

theorem malformedFrame (dt : Nat) (bytes : List Byte) : Statement (.malformedFrame dt bytes) := of_none rfl

theorem packNext (dt : Nat) : Statement (.packNext dt) := of_none rfl

theorem packWeigh (dt : Nat) (number : Byte) (serial : Word32) (weight : Word32) :
    Statement (.packWeigh dt number serial weight) := of_none rfl

theorem packPacked (dt : Nat) (number : Byte) (serial : Word32) (label : Word32) :
    Statement (.packPacked dt number serial label) := of_none rfl

theorem packAside (dt : Nat) (number : Byte) (serial : Word32) :
    Statement (.packAside dt number serial) := of_none rfl

theorem packQuery (dt : Nat) (number : Byte) (serial : Option Word32) :
    Statement (.packQuery dt number serial) := of_none rfl

theorem packFrameDiscard (dt : Nat) (chars : List PackChar) : Statement (.packFrameDiscard dt chars) := of_none rfl

theorem flyerMark (dt : Nat) (station : Fin 8) (edge : Edge) : Statement (.flyerMark dt station edge) := of_none rfl

theorem countArrival (dt : Nat) (station : Fin 8) (encoder : Encoder) (first second : Bool) :
    Statement (.countArrival dt station encoder first second) := of_none rfl

theorem strandOutAssertion (dt : Nat) (station : Fin 8) (strand : Fin 4) :
    Statement (.strandOutAssertion dt station strand) := of_none rfl

theorem strandOutRelease (dt : Nat) (station : Fin 8) (strand : Fin 4) :
    Statement (.strandOutRelease dt station strand) := of_none rfl

theorem rowIndex (dt : Nat) (edge : Edge) : Statement (.rowIndex dt edge) := of_none rfl

theorem senseWord (dt : Nat) (levels : BitVec 64) : Statement (.senseWord dt levels) := of_none rfl

theorem cutDone (dt : Nat) (station : Fin 9) (edge : Edge) : Statement (.cutDone dt station edge) := of_none rfl

theorem resetAssert (dt : Nat) : Statement (.resetAssert dt) := of_none rfl

theorem resetRelease (dt : Nat) : Statement (.resetRelease dt) := of_none rfl

theorem powerOn (dt : Nat) : Statement (.powerOn dt) := of_none rfl

theorem stallTimerExpiry (dt : Nat) (station : Fin 8) : Statement (.stallTimerExpiry dt station) := of_none rfl

theorem rowStallTimerExpiry (dt : Nat) : Statement (.rowStallTimerExpiry dt) := of_none rfl

theorem cutTimerExpiry (dt : Nat) (station : Fin 9) : Statement (.cutTimerExpiry dt station) := of_none rfl

theorem scaleTimerExpiry (dt : Nat) : Statement (.scaleTimerExpiry dt) := of_none rfl

theorem linkSilenceExpiry (dt : Nat) : Statement (.linkSilenceExpiry dt) := of_none rfl

theorem ageingOut (dt : Nat) (reading : Fin 8) : Statement (.ageingOut dt reading) := of_none rfl

theorem laneGapExpiry (dt : Nat) (lane : Lane) : Statement (.laneGapExpiry dt lane) := of_none rfl

theorem anyGapExpiry (dt : Nat) : Statement (.anyGapExpiry dt) := of_none rfl

theorem grantListDrop (dt : Nat) : Statement (.grantListDrop dt) := of_none rfl

theorem laneTimeAbsent (dt : Nat) (lane : Lane) : Statement (.laneTimeAbsent dt lane) := of_none rfl

theorem demandPulse (dt : Nat) (station : Fin 8) : Statement (.demandPulse dt station) := of_none rfl

theorem permitPulseToggle (dt : Nat) (station : Fin 9) : Statement (.permitPulseToggle dt station) := of_none rfl

theorem packAnswerSent (dt : Nat) : Statement (.packAnswerSent dt) := of_none rfl

theorem spanFirstByte (dt : Nat) : Statement (.spanFirstByte dt) := of_none rfl

end Sys2Proof.Laws.Span
end

