-- ==== Sys2Proof/Tests/Slice0.lean ====
section
/-!
SUPPORT. Tests of the model. Their expected results are the worked cases of the spec, named by their section, and the
witnesses show concrete states that meet the hypotheses of the statements in Certificates/Slice0.
-/
namespace Sys2Proof.Tests

open Sys2Proof.Machine

set_option Elab.async false

/-! ### States the tests start from -/

/-- The ROPE order of the bring-up (1-9, steps 3 and 4). -/
def rope : RopeOrder where
  lay := 84000
  strands := 3
  target := 220000
  allowance := 2000
  density := 310000
  band := 1000
  drift := 5000
  persistence := 8
  excA := 5
  excB := 20
  spliceA := 1
  spliceB := 3
  tolA := 15
  tolB := 40

/-- The NET order of the worked row case (4-10) with the grading figures of 7-5.1. -/
def net : NetOrder where
  hooks := 16
  rowTarget := 603
  overrunRows := 20
  rowMass := 95000
  knotsA := 3
  knotsB := 10
  holesB := 4
  tolA := 20
  tolB := 40
  deadRows := 4

/-- A coil of a length in nm with nothing else in it. -/
def coil (length : Int) : Coil := ⟨length, [], 0, ⟨0, 0, 0, 0⟩, none⟩

/-- A panel of some rows with no defect. -/
def panel (rows : Nat) : Panel := ⟨rows, 0, 0, 0, 0, 0, 0, 0⟩

/-- A piece of station 3 or of the loom. -/
def piece (state : PieceState) (serial : Word32) (body : PieceBody) : Piece where
  state := state
  serial := serial
  station := match body with
    | .coil _ => 3
    | .panel _ => 8
  slot := match body with
    | .coil _ => 2
    | .panel _ => 5
  tag := 7301
  openedAt := 0
  closedAt := none
  short := false
  overrun := false
  label := none
  cap := none
  hold := false
  body := body
  weighing := none
  packLabel := none
  aside := none

/-- The parameters of station 3 in the worked lay case (2-8.1). -/
def layParams : LayParams := { LayParams.default with marks := 4, capScale := 20000, fStart := 16000 }

/-- The tracker of station 3 after mark 6 of the worked lay case (2-8.3), with the counts of the interval given. -/
def tracker (prev : Word32) (count pos : Int) (reacquire : Bool) : Tracker :=
  ⟨some prev, [125000, 125000, 125000, 125000], count, pos, reacquire, 0, 0, false⟩

/-- The part in OPERATE with orders 2 and 5 loaded, station 3 bound to 2 with record 0 open and the loom bound to 5 with
record 12 open, in the states given; every other station UNBOUND. A station in CUTTING holds its reservations. -/
def bay (lay net' : StationState) : State :=
  let cuts := [lay, net'].countP (· == .cutting)
  { State.reset with
    clocks := ⟨40000000, 40000, 0⟩
    params := { Params.default with lay := Params.default.lay.set 3 layParams }
    orders := (State.reset.orders.set 2 (some ⟨7301, .rope rope⟩)).set 5 (some ⟨7301, .net net⟩)
    stations := (State.reset.stations.set 3 ⟨lay, some 2, Reasons.empty, some 0, false, 40000⟩).set 8
      ⟨net', some 5, Reasons.empty, some 12, false, 40000⟩
    lays := State.reset.lays.set 3 ⟨some ⟨21000000, 336000000⟩, Tracker.initial,
      if lay = .running then 16000 else 0, if lay = .running then some ⟨40000000, 2000000⟩ else none, none, 0, 0, 0⟩
    inspector := { Inspector.initial with
      rowTimer := if net' = .running then some ⟨40000, 5000⟩ else none, nextId := 310 }
    arbiter := { Arbiter.initial with
      reservedRecords := cuts
      reservedPlaces := cuts
      cutTimers := (Arbiter.initial.cutTimers.set 3 (if lay = .cutting then some ⟨40000, 30000⟩ else none)).set 8
        (if net' = .cutting then some ⟨40000, 30000⟩ else none) }
    table := { PieceTable.initial with
      records := (PieceTable.initial.records.set 0 (some (piece .opened 1 (.coil (coil 0))))).set 12
        (some (piece .opened 4117 (.panel (panel 119))))
      nextSerial := 4118 }
    port := { Port.initial with mode := .operate } }

/-- The part in OPERATE with the pieces given, which stand in no station: record 9 on, in the order given. -/
def packing (pieces : List Piece) (queue : List (Fin 64)) (scale : Option (Fin 64)) : State :=
  { bay .ready .ready with
    stations := State.reset.stations
    table := { PieceTable.initial with
      records := (pieces.zipIdx).foldl (fun v p => if h : 9 + p.2 < 64 then v.set (9 + p.2) (some p.1) else v)
        PieceTable.initial.records }
    pack := { PackLine.initial with
      queue := queue, scale := scale, scaleTimer := scale.map fun _ => ⟨40000, 120000⟩ } }

/-- The state a command leaves, if it leaves one. -/
def after (o : Host.Outcome State Fault Refusal) : Option State :=
  match o with
  | .next t => some t
  | .fault _ => none
  | .refused _ => none

/-- Status and fields of the response that a command leaves pending. -/
def answered (o : Host.Outcome State Fault Refusal) : Option (Status × List Byte) :=
  (after o).bind fun t => t.port.response.map fun r => (r.status, r.fields)

/-- A figure of the state a command leaves. -/
def left {α : Type} (o : Host.Outcome State Fault Refusal) (f : State → α) : Option α := (after o).map f

/-! ### Which terms spell a command (WellFormed) -/

/-- An order of unknown kind that is no length of LOAD ORDER (R176) cannot be framed, nor one that spells a known kind. -/
theorem test_ill_formed_order :
    Instr.wellFormed (.loadOrder 0 0 2 (.unknown 3 [0])) = false ∧
    Instr.wellFormed (.loadOrder 0 0 2 (.unknown 1 (List.replicate 38 0))) = false := by decide +kernel

/-- Items beyond 15 field bytes cannot be framed (11-1.1). -/
theorem test_ill_formed_items :
    Instr.wellFormed (.amendPiece 0 0 0 1 [.label 0, .label 0, .waive]) = false := by decide +kernel

/-- A request that passes both steps of R170, a read span and an empty span are no malformed frames. -/
theorem test_ill_formed_malformed :
    Instr.wellFormed (.malformedFrame 0 [0x30, 9, 0]) = false ∧ Instr.wellFormed (.malformedFrame 0 [0xFF]) = false ∧
    Instr.wellFormed (.malformedFrame 0 []) = false := by decide +kernel

/-- Characters that end no frame, and characters after the one that ends it, are no discard of one frame. -/
theorem test_ill_formed_discard :
    Instr.wellFormed (.packFrameDiscard 0 [.whole 0xA5]) = false ∧
    Instr.wellFormed (.packFrameDiscard 0 [.whole 0xA5, .whole 0, .whole 0xA5]) = false := by decide +kernel

/-! ### Frames (11-1, 11-3) -/

/-- Frames written out from 11-1.1: IDENTIFY, SET PARAMETER of T_max at station 3, UNBIND of the loom, AMEND PIECE with a
label and a waive, MEND 310. -/
theorem test_request_frames :
    judgeSpan 0 [0x01, 0x07, 0x00] = .request (.identify 0 0x07) ∧
    judgeSpan 0 [0x04, 0x03, 0x07, 0x0D, 0x03, 0x00, 0x00, 0x00, 0x05, 0xDC] =
      .request (.setParameter 0 0x03 0x0D 3 0 1500) ∧
    judgeSpan 0 [0x14, 0x01, 0x01, 0x08] = .request (.unbind 0 0x01 8) ∧
    judgeSpan 0 [0x22, 0x02, 0x0B, 0x0C, 0x00, 0x00, 0x10, 0x15, 0x01, 0x00, 0x54, 0xB0, 0x81, 0x05] =
      .request (.amendPiece 0 0x02 12 4117 [.label 5550209, .waive]) ∧
    judgeSpan 0 [0x29, 0x02, 0x02, 0x01, 0x36] = .request (.mend 0 0x02 310) := by decide +kernel

/-- Two frames of R170: an unknown code, and a NET order without its dead-hook rows and one byte short of that. -/
theorem test_malformed_frames :
    judgeSpan 0 [0x07, 0x05, 0x00] = .malformed 0x05 .badRequest ∧
    judgeSpan 0 (0x10 :: 0x05 :: 24 :: 0x05 :: 0x02 :: List.replicate 22 0) = .malformed 0x05 .badLength ∧
    judgeSpan 0 (0x10 :: 0x05 :: 25 :: 0x05 :: 0x02 :: List.replicate 23 0) =
      .request (.loadOrder 0 0x05 5 (.net 0 ⟨0, 0, 0, 0, 0, 0, 0, 0, 0, none⟩)) := by decide +kernel

/-- 11-3: the CRC over the nine characters 1 to 9. -/
theorem test_crc_check_figure :
    crc [0x31, 0x32, 0x33, 0x34, 0x35, 0x36, 0x37, 0x38, 0x39] = 0x29B1 := by decide +kernel

/-- The table gives no row any bits, so no word spells a command. -/
theorem test_no_word_spells_a_command : decodeTableWord 32 0 = none := rfl

/-! ### The host port (Chapter 10) -/

/-- 10-8, step 2: IDENTIFY of a part just powered on. -/
theorem test_identify :
    answered (exec (.identify 0 1) State.reset) =
      some (.ok, [0x3A, 0x61, 0x01, 0, 0, 0, 0, 0, 1, 0, 0, 0, 0, 0, 0]) := by decide +kernel

/-- 10-8, step 3: a link silence time of 30 ms is stored as 50, and the timer runs for it at once. -/
theorem test_set_parameter :
    answered (exec (.setParameter 0 2 0x23 0 0 30) State.reset) = some (.clamped, [0, 0, 0, 50]) ∧
    left (exec (.setParameter 0 2 0x23 0 0 30) State.reset) (·.collector.linkTimer) = some (some ⟨0, 50⟩) := by
  decide +kernel

/-- 10-8, step 6: T_max below T_min is stored as given. -/
theorem test_set_parameter_without_cross_check :
    answered (exec (.setParameter 0 3 0x0D 3 0 1500) State.reset) = some (.ok, [0, 0, 0x05, 0xDC]) := by decide +kernel

/-- R173: GET PARAMETER of the capstan scale of station 3, and of a lay station's parameter at the loom. -/
theorem test_get_parameter :
    answered (exec (.getParameter 0 3 0x04 3 0) (bay .ready .ready)) = some (.ok, [0, 0, 0x4E, 0x20]) ∧
    answered (exec (.getParameter 0 3 0x04 8 0) (bay .ready .ready)) = some (.badRequest, []) := by decide +kernel

/-- 10-8, step 8: LEAVE CONFIG raises a T_max of 1,500 us under a T_min of 2,000 us to 3,000 us. -/
theorem test_leave_config :
    let s := { State.reset with
      params := { Params.default with lay := Params.default.lay.set 3 { LayParams.default with tMax := 1500 } } }
    answered (exec (.leaveConfig 0 4) s) = some (.clamped, []) ∧
    left (exec (.leaveConfig 0 4) s) (fun t => (t.port.mode, (t.layParams 3).tMax)) = some (.operate, 3000) := by
  decide +kernel

/-- R171: ENTER CONFIG is BUSY while a station is HOLDING, and is taken while all are READY, TRIPPED or UNBOUND. -/
theorem test_enter_config :
    answered (exec (.enterConfig 0 4) (bay .holding .ready)) = some (.busy, []) ∧
    left (exec (.enterConfig 0 4) (bay .tripped .ready)) (·.port.mode) = some .config := by decide +kernel

/-- R169: a response is read by its last byte, and kept by a span that ends before. -/
theorem test_read_span :
    let s := { State.reset with port := { Port.initial with response := some ⟨7, .ok, true, [1]⟩, ready := true } }
    left (exec (.readSpan 0 4) s) (fun t => (t.port.response, t.port.shifted)) = some (none, [7, 0x80, 1, 1]) ∧
    left (exec (.readSpan 0 3) s) (fun t => (t.port.ready, t.port.shifted)) = some (true, [7, 0x80, 1]) := by
  decide +kernel

/-- R170: the answer to a malformed frame echoes its tag, and the link silence timer is not restarted. -/
theorem test_malformed_frame :
    let s := { State.reset with
      params := { Params.default with part := { PartParams.default with linkTime := 50 } } }
    answered (exec (.malformedFrame 0 [0x13, 6, 2, 3]) s) = some (.badLength, []) ∧
    left (exec (.malformedFrame 0 [0x13, 6, 2, 3]) s) (·.collector.linkTimer) = some none := by decide +kernel

/-- R168: READY falls at the first byte of a request span. -/
theorem test_span_first_byte :
    let s := { State.reset with port := { Port.initial with response := some ⟨7, .ok, false, []⟩, ready := true } }
    left (exec (.spanFirstByte 0) s) (fun t => (t.port.ready, t.port.response.isSome)) = some (false, true) := by
  decide +kernel

/-- R175: PART CLEAR drops the pending response and says so in its own. -/
theorem test_part_clear :
    let s := { bay .cutting .running with
      port := { mode := .operate, cause := .powerOn, response := some ⟨7, .ok, false, []⟩, ready := true, span := .idle, shifted := [] } }
    left (exec (.partClear 0 9) s) (fun t => (t.port.response, t.port.cause, (t.station 3).state, t.figure)) =
      some (some ⟨9, .ok, true, []⟩, .clear, .ready, 62) := by decide +kernel

/-- R20, R132, R175: the RESET input keeps the open piece and takes the piece AT_SCALE back to the head. -/
theorem test_reset_assert :
    let s := packing [piece .atScale 5 (.coil (coil 0)), piece .queued 6 (.coil (coil 0))] [10] (some 9)
    left (exec (.resetAssert 0) s) (fun t => (t.pack.queue, t.pack.scale, t.port.cause)) =
      some ([9, 10], none, .pin) ∧
    left (exec (.resetAssert 0) (bay .tripped .running)) (fun t =>
      ((t.station 3).state, (t.station 3).piece, (t.station 8).state)) = some (.ready, some 0, .ready) := by
  decide +kernel

/-- R175: while RESET is held a request is dropped, and after its release it is taken. -/
theorem test_reset_release :
    let held := { State.reset with pins := { Pins.initial with reset := true } }
    answered (exec (.poll 0 1) held) = none ∧
    ((after (exec (.resetRelease 0) held)).bind fun t => answered (exec (.poll 0 1) t)) =
      some (.ok, [0, 0, 0, 0]) := by decide +kernel

/-- R175: power-on empties the orders and the table. -/
theorem test_power_on :
    left (exec (.powerOn 5) (bay .running .running)) (fun t => (t.orderAt 2, t.freeCount, t.clocks.mark)) =
      some (none, 64, 0) := by decide +kernel

/-- R157: link silence holds a RUNNING station, and the part slot is noticed. -/
theorem test_link_silence_expiry :
    let s := { bay .running .tripped with collector := { Collector.initial with linkTimer := some ⟨40000, 50⟩ } }
    left (exec (.linkSilenceExpiry 0) s) (fun t =>
      ((t.station 3).state, (t.faults 8).set, t.noticeCount 9 14, t.clocks.part)) =
      some (.holding, 0, 1, 40050) := by decide +kernel

/-! ### Orders and stations (Chapter 1) -/

/-- The fields that the host sends in 1-9, step 3. -/
def ropeFields : RopeFields := ⟨84000, 3, 220000, 2000, 310000, 1000, 5000, 8, 5, 20, 1, 3, 15, 10⟩

/-- 1-9, step 3: tol_B 10 below tol_A 15 is raised to it, and the answer is CLAMPED. -/
theorem test_load_order :
    answered (exec (.loadOrder 0 1 2 (.rope 7301 ropeFields)) State.reset) = some (.clamped, []) ∧
    left (exec (.loadOrder 0 1 2 (.rope 7301 ropeFields)) State.reset) (·.orderAt 2) =
      some (some ⟨7301, .rope { rope with tolB := 15 }⟩) := by decide +kernel

/-- 1-9, step 10: a slot that a station is bound to is in use. -/
theorem test_load_order_in_use :
    answered (exec (.loadOrder 0 1 2 (.rope 7301 ropeFields)) (bay .running .ready)) = some (.orderInUse, []) := by
  decide +kernel

/-- R7: an EMPTY slot has 5 bytes, and a slot whose bound set is station 3 with one piece says so. -/
theorem test_read_order :
    answered (exec (.readOrder 0 1 7) (bay .running .ready)) = some (.ok, [7, 0, 0, 0, 0]) ∧
    (answered (exec (.readOrder 0 1 2) (bay .running .ready))).map (fun r => (r.2.length, r.2.take 10)) =
      some (44, [2, 1, 0, 8, 1, 1, 0, 0, 0x1C, 0x85]) := by decide +kernel

/-- R8: an EMPTY slot, a slot in use, and one that is free. -/
theorem test_retire_order :
    answered (exec (.retireOrder 0 1 7) (bay .running .ready)) = some (.noSuchOrder, []) ∧
    answered (exec (.retireOrder 0 1 5) (bay .running .ready)) = some (.orderInUse, []) ∧
    answered (exec (.retireOrder 0 1 2) (packing [] [] none)) = some (.ok, []) := by decide +kernel

/-- 1-9, step 5: BIND fixes A and Pmax, and strand 2, in use and asserted, is in the strand-out set. -/
theorem test_bind :
    let s := ({ packing [] [] none with port := Port.initial }).modPins 3 fun p => { p with strands := 0b1010 }
    left (exec (.bind 0 1 3 2) s) (fun t => ((t.station 3).state, (t.lay 3).consts, (t.lay 3).strandOut, (t.faults 3).set)) =
      some (.ready, some ⟨21000000, 336000000⟩, 0b0010, 0) := by decide +kernel

/-- R12: a NET order at a lay station, a station that is RUNNING, and a slot that is EMPTY. -/
theorem test_bind_refusals :
    answered (exec (.bind 0 1 4 5) (bay .running .ready)) = some (.wrongKind, []) ∧
    answered (exec (.bind 0 1 3 2) (bay .running .ready)) = some (.busy, []) ∧
    answered (exec (.bind 0 1 4 7) (bay .running .ready)) = some (.noSuchOrder, []) := by decide +kernel

/-- R124: UNBIND of a READY station closes its piece SHORT. -/
theorem test_unbind :
    left (exec (.unbind 2000 1 3) (bay .ready .ready)) (fun t => t.record 0) =
      some (some { piece .aside 1 (.coil (coil 0)) with short := true, aside := some .short, closedAt := some 40002 }) ∧
    left (exec (.unbind 2000 1 3) (bay .ready .ready)) (fun t => (t.lay 3).consts) = some none := by decide +kernel

/-- R13: UNBIND is BUSY at a CUTTING station and NOT_BOUND at an UNBOUND one. -/
theorem test_unbind_refusals :
    answered (exec (.unbind 0 1 3) (bay .cutting .ready)) = some (.busy, []) ∧
    answered (exec (.unbind 0 1 4) (bay .cutting .ready)) = some (.notBound, []) := by decide +kernel

/-- 3-8.3: START with strands 1 and 3 in the set and five entries in the list. -/
theorem test_start :
    let five : List Splice := List.replicate 5 ⟨1000, 2⟩
    let s := ((bay .holding .ready).modCoil 0 fun _ => { coil 61262000000 with splices := five }).modLay 3 fun x =>
      { x with strandOut := 0b0101 }
    left (exec (.start 0 1 3) s) (fun t => ((t.station 3).state, (t.lay 3).demand, (t.lay 3).strandOut)) =
      some (.running, 16000, 0) ∧
    left (exec (.start 0 1 3) s) (fun t => (t.record 0).bind Piece.coil?) =
      some (some { coil 61262000000 with splices := five ++ [⟨61262, 1⟩], spliceOverflow := 1 }) := by decide +kernel

/-- 1-9, steps 6 and 8: START in CONFIG, and with a strand of the set still asserted. -/
theorem test_start_refusals :
    answered (exec (.start 0 1 3) { bay .ready .ready with port := Port.initial }) = some (.wrongMode, []) ∧
    answered (exec (.start 0 1 3) (((bay .ready .ready).modLay 3 fun x => { x with strandOut := 0b0010 }).modPins 3
      fun p => { p with strands := 0b0010 })) = some (.conditionPresent, []) := by decide +kernel

/-- 1-9, step 11: HALT holds station 3, its demand at 0 and its timer disarmed, its permit still given. -/
theorem test_halt :
    left (exec (.halt 0 1 3) (bay .running .ready)) (fun t => ((t.station 3).state, (t.station 3).reasons)) =
      some (.holding, ⟨true, false, false⟩) ∧
    left (exec (.halt 0 1 3) (bay .running .ready)) (fun t =>
      ((t.lay 3).demand, (t.lay 3).stall, t.permitGiven 3, t.holdOn 3)) = some (0, none, true, true) := by decide +kernel

/-- R155: CLEAR FAULT of the loom returns the hook counters to 0 and a TRIPPED loom to READY. -/
theorem test_clear_fault :
    let s := ((bay .cutting .tripped).modFaults 8 fun _ => ⟨0b1000000000, none⟩).modInspector fun x =>
      { x with hookMiss := Vector.replicate 64 2 }
    left (exec (.clearFault 0 1 8) s) (fun t =>
      ((t.faults 8).set, (t.station 8).state, t.inspector.hookMiss[5], (t.station 8).piece)) =
      some (0, .ready, 0, some 12) ∧
    answered (exec (.clearFault 0 1 3) s) = some (.conditionPresent, []) := by decide +kernel

/-- 11-2.2: READ STATION of a RUNNING station has 50 bytes; permit given, order 2, piece 0 with serial 1. -/
theorem test_read_station :
    (answered (exec (.readStation 0 1 3) (bay .running .ready))).map (fun r => (r.2.length, r.2.take 16)) =
      some (50, [3, 2, 3, 1, 0, 0, 2, 0, 0, 0x1C, 0x85, 0, 0, 0, 0, 1]) ∧
    (answered (exec (.readStation 0 1 8) (bay .running .ready))).map (·.2.length) = some 38 := by decide +kernel

/-- R158: a pulsed permit changes level 5 ms after its last change; a static one does not. -/
theorem test_permit_pulse_toggle :
    let s := bay .running .ready
    let pulsed := { s with params := { s.params with part := { s.params.part with permitMode := .pulsed } } }
    left (exec (.permitPulseToggle 0 3) pulsed) (fun t => (t.permitLevel 3, t.clocks.part)) = some (true, 40005) ∧
    left (exec (.permitPulseToggle 0 3) s) (fun t => (t.permitLevel 3, t.clocks.part)) = some (true, 40000) := by
  decide +kernel

/-! ### Lay tracking, length and splices (Chapters 2 and 3) -/

/-- Station 3 RUNNING with a tracker. -/
def laying (k : Tracker) : State := (bay .running .ready).modLay 3 fun x => { x with tracker := k, demand := 16840 }

/-- 2-8.3, mark 7: one mark was missed, and 2,105 counts came. -/
theorem test_flyer_mark :
    left (exec (.flyerMark 0 3 .rising) (laying (tracker 39750000 2105 200000 false))) (fun t =>
      ((t.lay 3).tracker, (t.lay 3).demand, (t.openQuality 3))) =
      some (⟨some 40000000, [125000, 125000, 125000, 125000], 0, 100000, false, 0, 0, false⟩, 16820, ⟨100, 0, 1, 0⟩) := by
  decide +kernel

/-- 2-8.3, mark 11: two marks were missed together; MARK_LOSS holds the station. -/
theorem test_flyer_mark_loss :
    left (exec (.flyerMark 0 3 .rising) (laying (tracker 39660000 2850 180000 false))) (fun t =>
      ((t.lay 3).tracker, (t.lay 3).demand, (t.station 3).state, (t.faults 3).set)) =
      some (⟨some 40000000, [], 0, 180000, true, 0, 0, false⟩, 0, .holding, 0b100) := by decide +kernel

/-- 2-8.4: the raw demand for five values of P with a ring mean of 125,000 us. -/
theorem test_demand_at_the_edges :
    [-12345, 6000000, -90000000, 166000000, 336000000].map (rawDemand ⟨layParams, rope, ⟨21000000, 336000000⟩⟩ 125000) =
      [16798, 18000, -1200, 50000, 84000] := by decide +kernel

/-- 3-8.1: the forward count that brings the coil to its target places a request, while no place is free. -/
theorem test_count_arrival :
    let s := (bay .running .ready).modCoil 0 fun _ => coil 219999990000
    let full := { s with arbiter := { s.arbiter with reservedPlaces := 8 } }
    left (exec (.countArrival 0 3 .capstan true false) full) (fun t =>
      (t.cutStatus 3, (t.record 0).map Piece.extent, (t.lay 3).tracker.count, (t.station 3).state)) =
      some (.waiting, some 220000, 1, .running) := by decide +kernel

/-- R57: with an allowance of 0 the count that places the request adds OVERRUN too, also where it is granted at once. -/
theorem test_count_arrival_overrun :
    let s := { (bay .running .ready).modCoil 0 fun _ => coil 219999990000 with
      orders := State.reset.orders.set 2 (some ⟨7301, .rope { rope with allowance := 0 }⟩) }
    left (exec (.countArrival 0 3 .capstan true false) s) (fun t =>
      ((t.station 3).state, (t.station 3).reasons.overrun, (t.record 0).map (·.overrun),
        t.noticeCount 3 NoticeKind.overrunHold.index, t.arbiter.reservedRecords)) =
      some (.cutting, true, some true, 1, 1) := by decide +kernel

/-- 3-8.2: the slip of the span, and of one that SLIP would be raised at. -/
theorem test_slip_of_span :
    slipOf 10180000000 10000000000 = 18 ∧ slipOf 10310000000 10000000000 = 31 := by decide +kernel

/-- 3-8.3: strand 1 asserted while in use, and strand 4 while not. -/
theorem test_strand_out_assertion :
    left (exec (.strandOutAssertion 0 3 0) (bay .running .ready)) (fun t =>
      ((t.lay 3).strandOut, (t.faults 3).set, (t.station 3).state)) = some (1, 0b1000000, .holding) ∧
    left (exec (.strandOutAssertion 0 3 3) (bay .running .ready)) (fun t =>
      ((t.lay 3).strandOut, (t.faults 3).set, (t.station 3).state)) = some (0, 0, .running) := by decide +kernel

/-- R62: a release leaves the strand-out set. -/
theorem test_strand_out_release :
    let s := ((bay .holding .ready).modLay 3 fun x => { x with strandOut := 1 }).modPins 3 fun p =>
      { p with strands := 1 }
    left (exec (.strandOutRelease 0 3 0) s) (fun t => ((t.lay 3).strandOut, (t.layPins 3).strands)) = some (1, 0) := by
  decide +kernel

/-- R44: FLYER_STALL trips the station 2,000,000 us after the timer was armed. -/
theorem test_stall_timer_expiry :
    left (exec (.stallTimerExpiry 0 3) (bay .running .ready)) (fun t =>
      (t.clocks.mark, (t.station 3).state, (t.faults 3).set, (t.lay 3).stall)) = some (42000000, .tripped, 1, none) := by
  decide +kernel

/-- R42: at 16,840 Hz the next pulse follows the last by 59 us; one whose time has passed goes out at once. -/
theorem test_demand_pulse :
    let s := (laying (tracker 39750000 0 0 false)).modLay 3 fun x => { x with lastPulse := some 39999990 }
    left (exec (.demandPulse 0 3) s) (·.clocks.mark) = some 40000049 ∧
    left (exec (.demandPulse 100 3) s) (·.clocks.mark) = some 40000100 := by decide +kernel

/-! ### The loom (Chapter 4) -/

/-- The loom in the worked row case (4-10) with a row awaiting sense and the previous row's misses. -/
def rows (row : Nat) (before : BitVec 64) (mends : List MendEntry) (q : Panel) : State :=
  ((bay .ready .running).modPanel 12 fun _ => q).modInspector fun x => { x with
    awaiting := some ⟨12, 4117, row⟩, previous := some ⟨12, 4117, row - 1, before⟩, mends := mends
    nextId := BitVec.ofNat 16 (308 + mends.length) }

/-- The list before row 121 (4-10). -/
def threeEntries : List MendEntry := [⟨287, 9, 311, 2, 1, .knot⟩, ⟨301, 9, 402, 14, 1, .knot⟩, ⟨310, 12, 120, 5, 1, .knot⟩]

/-- 4-10, row 121: hooks 5 and 6 missed; entry 310 is upgraded, entry 311 is a HOLE, and HOLE holds the loom. -/
theorem test_sense_word :
    let s := rows 121 0x20 threeEntries { panel 121 with knots := 1, unmended := 1 }
    left (exec (.senseWord 0 (~~~0x60)) s) (·.inspector.mends) =
      some [⟨287, 9, 311, 2, 1, .knot⟩, ⟨301, 9, 402, 14, 1, .knot⟩, ⟨310, 12, 120, 5, 1, .hole⟩,
        ⟨311, 12, 121, 5, 2, .hole⟩] ∧
    left (exec (.senseWord 0 (~~~0x60)) s) (fun t => (t.record 12).bind Piece.panel?) =
      some (some { panel 121 with holes := 2, unmended := 2 }) ∧
    left (exec (.senseWord 0 (~~~0x60)) s) (fun t => ((t.station 8).state, (t.faults 8).set, t.noticeCount 8 18)) =
      some (.holding, 0b1000000000, 1) := by decide +kernel

/-- R72: three runs of a missing set, the edges of the net not adjacent. -/
theorem test_runs : runsOf 0x8061 = [⟨0, 1⟩, ⟨5, 2⟩, ⟨15, 1⟩] := by decide +kernel

/-- 4-10, row 124: the word of row 123 was lost. -/
theorem test_row_index :
    let s := rows 123 0x800 [] (panel 123)
    left (exec (.rowIndex 0 .rising) s) (fun t => (t.inspector.awaiting, t.inspector.previous)) =
      some (some ⟨12, 4117, 124⟩, none) ∧
    left (exec (.rowIndex 0 .rising) s) (fun t => (t.record 12).bind Piece.panel?) =
      some (some { panel 124 with unsensed := 1 }) ∧
    left (exec (.rowIndex 0 .rising) s) (fun t => ((t.station 8).state, (t.faults 8).set)) =
      some (.holding, 0b1000000000000) := by decide +kernel

/-- R79: ROW_STALL trips the loom 5,000 ms after the timer was armed. -/
theorem test_row_stall_timer_expiry :
    left (exec (.rowStallTimerExpiry 0) (bay .ready .running)) (fun t =>
      (t.clocks.part, (t.station 8).state, (t.faults 8).set, t.inspector.rowTimer)) =
      some (45000, .tripped, 0b10000000000000, none) := by decide +kernel

/-- 4-11, steps 1 and 4: MEND 310 leaves 3 of the panel's entries, and a second one finds none. -/
theorem test_mend :
    let s := rows 125 0 (threeEntries ++ [⟨311, 12, 121, 5, 2, .hole⟩]) { panel 124 with unmended := 4 }
    answered (exec (.mend 0 1 310) s) = some (.ok, [12, 0, 0, 0x10, 0x15, 0, 3]) ∧
    answered (exec (.mend 0 1 312) s) = some (.notFound, []) := by decide +kernel

/-- R82, 11-2.4: the list from position 2, and a start beyond its end. -/
theorem test_read_mends :
    let s := rows 121 0 threeEntries (panel 120)
    answered (exec (.readMends 0 1 2) s) = some (.ok, [3, 1, 0x37, 0, 0, 0, 1, 0x36, 12, 0, 120, 5, 1, 0]) ∧
    answered (exec (.readMends 0 1 3) s) = some (.empty, [3, 1, 0x37, 0, 0, 0]) := by decide +kernel

/-! ### Cuts (Chapter 5) -/

/-- 3-8.1, cut-done: the piece is queued, the lowest FREE record is the new one, and OVERRUN is gone. -/
theorem test_cut_done :
    let s := (bay .cutting .ready).modReasons 3 fun r => { r with overrun := true }
    left (exec (.cutDone 0 3 .rising) s) (fun t =>
      ((t.station 3).state, (t.station 3).piece, t.pack.queue, t.noticeCount 3 16)) = some (.running, some 1, [0], 1) ∧
    left (exec (.cutDone 0 3 .rising) s) (fun t => (t.record 1).map fun p => (p.state, p.serial)) =
      some (some (.opened, 4118)) ∧
    left (exec (.cutDone 0 3 .rising) s) (fun t => ((t.station 3).reasons.any, t.arbiter.reservedRecords)) =
      some (false, 0) := by decide +kernel

/-- R100: a cut-done at a RUNNING station is a stray, and one at an UNBOUND station nothing. -/
theorem test_cut_done_stray :
    left (exec (.cutDone 0 3 .rising) (bay .running .ready)) (·.noticeCount 3 19) = some 1 ∧
    left (exec (.cutDone 0 4 .rising) (bay .running .ready)) (·.noticeCount 4 19) = some 0 := by decide +kernel

/-- 5-11, 50 s: the cut timer expires under TRIP; reservations fall, and the piece stays OPEN. -/
theorem test_cut_timer_expiry :
    left (exec (.cutTimerExpiry 0 3) (bay .cutting .ready)) (fun t =>
      (t.clocks.part, (t.station 3).state, (t.station 3).piece, t.arbiter.reservedRecords)) =
      some (70000, .tripped, some 0, 0) := by decide +kernel

/-- Station 3 on lane B and the loom on lane A, each with a request, the loom's first, after a grant on lane A. -/
def waitingBay : State :=
  let s := bay .running .running
  { s with
    params := { s.params with station := s.params.station.set 3 ⟨.b, .rising⟩ }
    arbiter := { s.arbiter with waiting := [8, 3], grants := [39000], laneA := some 39000 } }

/-- 5-11, 5 s: at the any-gap expiry the second request, on the other lane, overtakes the first. -/
theorem test_any_gap_expiry :
    left (exec (.anyGapExpiry 0) waitingBay) (fun t =>
      (t.clocks.part, t.arbiter.waiting, t.arbiter.grants, t.arbiter.laneB)) =
      some (44000, [8], [39000, 44000], some 44000) ∧
    left (exec (.anyGapExpiry 0) waitingBay) (fun t => ((t.station 3).state, t.figure, t.placesInUse)) =
      some (.cutting, 61, 1) := by decide +kernel

/-- 5-11, 20 s: the lane gap of the grant at 0 s ends 20 s later. -/
theorem test_lane_gap_expiry :
    let s := { waitingBay with arbiter := { waitingBay.arbiter with waiting := [8] } }
    left (exec (.laneGapExpiry 0 .a) s) (fun t => (t.clocks.part, (t.station 8).state)) = some (59000, .cutting) := by
  decide +kernel

/-- 5-11, 60 s: a reading is outside the window at the age of 60,000 ms, and stays in the list. -/
theorem test_ageing_out :
    let s := { waitingBay with
      params := { waitingBay.params with part := { waitingBay.params.part with kWin := 1 } } }
    left (exec (.ageingOut 0 0) s) (fun t => (t.clocks.part, t.arbiter.grants, (t.station 8).state)) =
      some (99000, [39000, 99000], .cutting) := by decide +kernel

/-- R90: a reading leaves the list at 600,000 ms, and a lane time is absent at 120,000 ms. -/
theorem test_grant_list_drop :
    left (exec (.grantListDrop 0) waitingBay) (fun t => (t.clocks.part, t.arbiter.grants)) = some (639000, []) := by
  decide +kernel

theorem test_lane_time_absent :
    left (exec (.laneTimeAbsent 0 .a) waitingBay) (fun t => (t.clocks.part, t.arbiter.laneA)) = some (159000, none) := by
  decide +kernel

/-! ### Pieces and the packing line (Chapters 6 and 7) -/

/-- 11-2.3: a FREE record, and an OPEN panel of 28 and 16 bytes; a serial that is not its own. -/
theorem test_read_piece :
    answered (exec (.readPiece 0 1 40 none) (bay .ready .ready)) = some (.ok, [40, 0]) ∧
    (answered (exec (.readPiece 0 1 12 (some 4117)) (bay .ready .ready))).map (fun r => (r.2.length, r.2.take 9)) =
      some (44, [12, 1, 0, 0, 0x10, 0x15, 1, 8, 5]) ∧
    answered (exec (.readPiece 0 1 12 (some 4118)) (bay .ready .ready)) = some (.stalePiece, []) := by decide +kernel

/-- R119: the OPEN pieces of station 8, and the FREE records in two answers of 32 at most. -/
theorem test_find_pieces :
    answered (exec (.findPieces 0 1 0b10 8 0xFF 0) (bay .ready .ready)) =
      some (.ok, [1, 1, 0xFF, 12, 0, 0, 0x10, 0x15, 1]) ∧
    (answered (exec (.findPieces 0 1 1 0xFF 0xFF 0) (bay .ready .ready))).map (fun r => r.2.take 3) =
      some [62, 32, 34] := by decide +kernel

/-- 6-10: cap B on a WEIGHED coil graded A forms the grade again; NONE is above it and CLAMPED. -/
theorem test_amend_piece :
    let p := { piece .weighed 1 (.coil (coil 222040000000)) with
      weighing := some ⟨69500, 68832, some 9, .a, .a⟩, cap := none }
    let capped := { p with cap := some .b }
    answered (exec (.amendPiece 0 1 9 1 [.cap 1]) (packing [p] [] (some 9))) =
      some (.ok, [0, 0, 0, 0, 0, 1, 0, 1, 0, 0, 0, 0, 0, 0]) ∧
    (answered (exec (.amendPiece 0 1 9 1 [.cap 0]) (packing [capped] [] (some 9)))).map (·.1) = some .clamped := by
  decide +kernel

/-- R120: a hold and a waive on a QUEUED coil are answered WRONG_KIND; a cap AT_SCALE is WRONG_STATE (6-10). -/
theorem test_amend_piece_refusals :
    let s := packing [piece .queued 1 (.coil (coil 0)), piece .atScale 2 (.coil (coil 0))] [9] (some 10)
    answered (exec (.amendPiece 0 1 9 1 [.hold 1, .waive]) s) = some (.wrongKind, []) ∧
    answered (exec (.amendPiece 0 1 10 2 [.cap 1]) s) = some (.wrongState, []) ∧
    answered (exec (.amendPiece 0 1 9 1 [.label 1, .labelNone]) s) = some (.badRequest, []) ∧
    answered (exec (.amendPiece 0 1 9 7 [.waive, .waive]) s) = some (.stalePiece, []) := by decide +kernel

/-- R123: an ASIDE panel is retired with its entries; an OPEN piece is not. -/
theorem test_retire_piece :
    let s := (packing [piece .aside 5 (.panel (panel 600))] [] none).modInspector fun x => { x with mends := threeEntries }
    answered (exec (.retirePiece 0 1 9 5) s) = some (.ok, [2]) ∧
    left (exec (.retirePiece 0 1 9 5) s) (fun t => (t.freeCount, t.inspector.discarded, t.inspector.mends.length)) =
      some (64, 2, 1) ∧
    answered (exec (.retirePiece 0 1 0 1) (bay .running .ready)) = some (.wrongState, []) := by decide +kernel

/-- 7-10, before step 1: record 9 is held, record 10 is a waived panel, record 11 a coil. -/
def round : State :=
  packing [{ piece .queued 30 (.coil (coil 0)) with hold := true },
    piece .queued 9 (.panel { panel 600 with waived := 1 }), piece .queued 31 (.coil (coil 0))] [9, 10, 11] none

/-- The answer that waits last at the pack port's transmitter. -/
def packAnswered (o : Host.Outcome State Fault Refusal) : Option (List Byte) := (after o).bind fun t => t.pack.tx.getLast?

/-- 7-10, step 1: NEXT passes the held piece over and arms the timer for 120 s; step 2: the scale is occupied. -/
theorem test_next :
    left (exec (.packNext 0) round) (fun t => (t.pack.queue, t.pack.scale, t.pack.scaleTimer)) =
      some ([9, 11], some 10, some ⟨40000, 120000⟩) ∧
    packAnswered (exec (.packNext 0) (packing [piece .atScale 5 (.coil (coil 0))] [] (some 9))) =
      some (packFrame [1, 0x13]) := by decide +kernel

/-- 7-5.1: the coil of 220,000 mm weighs 69,100 g, then 67,100 g. -/
theorem test_weigh_coil :
    let c : Coil := { coil 220000000000 with splices := [⟨91400, 2⟩], quality := ⟨0, 3, 0, 0⟩ }
    let s := packing [piece .atScale 5 (.coil c)] [] (some 9)
    left (exec (.packWeigh 0 9 5 69100) s) (fun t => (t.record 9).bind (·.weighing)) =
      some (some ⟨69100, 68200, some 13, .a, .a⟩) ∧
    left (exec (.packWeigh 0 9 5 67100) s) (fun t => (t.record 9).bind (·.weighing)) =
      some (some ⟨67100, 68200, some (-16), .b, .b⟩) := by decide +kernel

/-- 7-5.1: the panel of 603 rows weighs 58,400 g; the three roundings. -/
theorem test_weigh_panel :
    let q : Panel := { panel 603 with knots := 2, holes := 2, unsensed := 1, mended := 4 }
    let s := packing [piece .atScale 5 (.panel q)] [] (some 9)
    packAnswered (exec (.packWeigh 0 9 5 58400) s) =
      some (packFrame [2, 0, 0, 0, 0xE4, 0x20, 0, 0, 0xDF, 0xC5, 1, 0, 0, 0, 19, 1, 1]) ∧
    roundDiv 10500 1000 = 11 ∧ roundDiv 4500 1000 = 5 ∧ roundDiv 400000 1000000 = 0 := by decide +kernel

/-- A panel at the scale that was waived, weighed and graded REJECT (7-10, step 3). -/
def rejected : Piece :=
  { piece .weighed 9 (.panel { panel 600 with waived := 1 }) with weighing := some ⟨57300, 57000, some 5, .reject, .reject⟩ }

/-- 7-10, step 4: PACKED of a REJECT piece is refused; step 12: one graded B is packed. -/
theorem test_packed :
    packAnswered (exec (.packPacked 0 9 9 40200) (packing [rejected] [] (some 9))) = some (packFrame [3, 0x14]) ∧
    left (exec (.packPacked 0 9 9 40200) (packing [{ rejected with weighing := some ⟨58400, 57285, some 19, .b, .b⟩ }] []
      (some 9))) (fun t => ((t.record 9).map fun p => (p.state, p.packLabel), t.pack.scale)) =
      some (some (.packed, some 40200), none) := by decide +kernel

/-- 7-10, step 5: ASIDE of the REJECT piece gives the reason REJECT. -/
theorem test_aside :
    packAnswered (exec (.packAside 0 9 9) (packing [rejected] [] (some 9))) = some (packFrame [4, 0, 2]) ∧
    packAnswered (exec (.packAside 0 10 9) round) = some (packFrame [4, 0x12]) := by decide +kernel

/-- R141, R177: QUERY of a FREE record, and of a QUEUED coil that is held at the head of the queue. -/
theorem test_query :
    packAnswered (exec (.packQuery 0 40 none) round) = some (packFrame [5, 0, 0]) ∧
    packAnswered (exec (.packQuery 0 9 (some 30)) round) =
      some (packFrame [5, 0, 2, 0, 0, 0, 30, 0, 3, 0, 0, 0x1C, 0x85, 0, 0, 0, 0, 0, 0, 0, 0, 0, 0, 0, 0, 0, 0, 0, 0, 0]) := by
  decide +kernel

/-- 7-10, step 7: the timer takes record 12 back to the head. -/
theorem test_scale_timer_expiry :
    let s := packing [piece .queued 30 (.coil (coil 0)), piece .atScale 12 (.panel (panel 603))] [9] (some 10)
    left (exec (.scaleTimerExpiry 0) s) (fun t => (t.clocks.part, t.pack.queue, t.pack.scale, t.noticeCount 9 21)) =
      some (160000, [10, 9], none, 1) := by decide +kernel

/-- R143, R144: a frame with a bad check and one with a break are discarded and counted. -/
theorem test_pack_frame_discard :
    left (exec (.packFrameDiscard 0 [.whole 0xA5, .whole 1, .whole 1, .whole 0, .whole 0]) round) (fun t =>
      (t.pack.framing, t.noticeCount 9 24)) = some (1, 1) ∧
    left (exec (.packFrameDiscard 0 [.whole 0xA5, .whole 1, .lineBreak]) round) (·.pack.framing) = some 1 := by
  decide +kernel

/-- R144: answers go out oldest first. -/
theorem test_pack_answer_sent :
    left (exec (.packAnswerSent 0) { round with pack := { round.pack with tx := [[1], [2]] } }) (fun t =>
      (t.pack.tx, t.pack.lastSent)) = some ([[2]], [1]) := by decide +kernel

/-! ### Faults and notices (Chapters 8 and 9) -/

/-- 8-11: FLYER_STALL as TRIP_ALL at station 3 trips the RUNNING loom too, whose record names station 3. -/
theorem test_trip_all :
    let s := bay .running .running
    let bayWide := { s with params := { s.params with part := { s.params.part with
      reactions := s.params.part.reactions.set 0 .tripAll } } }
    left (exec (.stallTimerExpiry 0 3) bayWide) (fun t =>
      ((t.station 3).state, (t.station 8).state, (t.faults 8).set, (t.faults 8).first.bind (·.source))) =
      some (.tripped, .tripped, 0x8000, some 3) := by decide +kernel

/-- 9-7: STRAND_OUT 1 and PIECE_CUT 2 in slot 3, PIECE_GRADED 3 and PACK_FRAMING 2, masked, in slot 9. -/
def noticed3 : State :=
  let s := [NoticeKind.fault .strandOut, .pieceCut, .pieceCut].foldl (fun s k => s.notice 3 k) (bay .ready .ready)
  let t := [NoticeKind.pieceGraded, .pieceGraded, .pieceGraded, .packFraming, .packFraming].foldl
    (fun s k => s.notice 9 k) s
  { t with notices := { t.notices with mask := 0x1000000 } }

/-- 9-7: the answer to POLL, and the notice output. -/
theorem test_poll :
    answered (exec (.poll 0 1) noticed3) = some (.ok, [2, 8, 0, 8]) ∧ noticed3.noticeOutput = true := by decide +kernel

/-- 9-7: the first TAKE NOTICE of slot 3, and the one of slot 9. -/
theorem test_take_notice :
    answered (exec (.takeNotice 0 1 3) noticed3) = some (.ok, [3, 7, 0, 1, 1]) ∧
    answered (exec (.takeNotice 0 1 9) noticed3) = some (.ok, [9, 21, 1, 3, 0]) := by decide +kernel

/-- 9-7: PACK_FRAMING taken out of the mask shows again; positions beyond kind 25 are CLAMPED (R163). -/
theorem test_set_mask :
    left (exec (.setMask 0 1 0) noticed3) (·.noticeShown 9 24) = some true ∧
    answered (exec (.setMask 0 1 0x3000000) noticed3) = some (.clamped, [1, 0, 0, 0]) := by decide +kernel

/-! ### Witnesses: queue, reset, host port -/

theorem witness_StepTakesFrontCommand :
    ({ State.reset with pending := [.poll 0 1, .halt 0 2 3] } : State).pending = .poll 0 1 :: [.halt 0 2 3] := rfl

/-- The phase at 998 and at 999, the last microsecond before the part clock ticks. -/
theorem witness_EveryStepLetsTimePass :
    let at_ (p : Nat) : State := { State.reset with clocks := ⟨998, 0, p⟩ }
    ((at_ 998).pending = [] ∧ (at_ 998).clocks.phase < 1000) ∧ ((at_ 999).pending = [] ∧ (at_ 999).clocks.phase < 1000) ∧
    (after (exec (.poll 5 1) (at_ 999))).isSome = true ∧ Instr.poll 5 1 ≠ .powerOn 5 ∧
    (after (exec (.resetAssert 5) (at_ 999))).isSome = true := by decide +kernel

/-- The FREE records at the low water and one above it, and the queue at the high mark and one below it. -/
theorem witness_LineResetKeepsTheWork :
    let low (w : Nat) : State :=
      let s := bay .cutting .running
      { s with params := { s.params with part := { s.params.part with lowWater := w } } }
    let queued (k : Nat) : State := { bay .cutting .running with pack := { PackLine.initial with
      queue := (List.finRange 64).take k } }
    (bay .cutting .running).pins.reset = false ∧ (bay .cutting .running).port.span ≠ .dropped ∧
    (left (exec (.resetAssert 0) (low 62)) (·.table.lowArmed) = some false ∧
      left (exec (.resetAssert 0) (low 61)) (·.table.lowArmed) = some true) ∧
    left (exec (.partClear 0 1) (queued 6)) (·.pack.highArmed) = some false ∧
    left (exec (.partClear 0 1) (queued 5)) (·.pack.highArmed) = some true := by decide +kernel

/-- The part held in reset. -/
def held : State := { bay .running .running with pins := { Pins.initial with reset := true } }

/-- The part with a request span in progress that RESET has not met, or has cut off. -/
def spanning (x : SpanProgress) : State := (bay .running .ready).modPort (·.setSpan x)

/-- R175: the span that RESET cuts off is not answered, and the one after it is. -/
theorem test_span_cut_off :
    let cut := (after (exec (.spanFirstByte 0) (bay .running .ready))).bind fun s =>
      (after (exec (.resetAssert 0) s)).bind fun s => after (exec (.resetRelease 0) s)
    (cut.bind fun s => left (exec (.halt 0 1 3) s) (·.port.response)) = some none ∧
    (cut.bind fun s => (after (exec (.halt 0 1 3) s)).bind fun s => answered (exec (.halt 0 2 3) s)) =
      some (.ok, []) := by decide +kernel

theorem witness_HeldResetTakesNothing :
    held.pins.reset = true ∧ Instr.endsRequestSpan (.poll 0 1) = true ∧ Instr.dropsInReset (.packNext 0) = true ∧
    Instr.dropsInReset (.cutDone 0 3 .rising) = true ∧
    (Instr.endsRequestSpan (.malformedFrame 0 [0]) = true ∧ (spanning .begun).pins.reset = false ∧
      (spanning .begun).port.span = .begun) ∧ (spanning .dropped).port.span = .dropped := by decide +kernel

/-- A part with a response of one field pending, which a span of 4 bytes reads and one of 3 does not. -/
def unreadPart : State :=
  { bay .ready .ready with port :=
    { mode := .operate, cause := .powerOn, response := some ⟨7, .ok, false, [1]⟩, ready := true, span := .idle, shifted := [] } }

theorem witness_ResponsesAreReadOnce :
    unreadPart.pins.reset = false ∧ unreadPart.port.response = some ⟨7, .ok, false, [1]⟩ ∧
    ([1] : List Byte).length + 3 ≤ 4 ∧ 3 < ([1] : List Byte).length + 3 ∧
    (bay .ready .ready).pins.reset = false ∧ (bay .ready .ready).port.response = none := by decide +kernel

/-- An unknown code, a length that does not match, a span of two bytes, lengths beside those of 11-1.1, and the three ends
of an AMEND PIECE walk. -/
theorem witness_MalformedFrameTouchesPortOnly :
    State.reset.pins.reset = false ∧ State.reset.port.span ≠ .dropped ∧
    (malformedSpan [0x00, 9, 0] = true ∧ (0x00 : Byte) ∉ requestCodes) ∧
    (malformedSpan [0x13, 9, 2, 3] = true ∧ (0x13 : Byte) ∈ requestCodes ∧ ([3] : List Byte).length ≠ (2 : Byte).toNat) ∧
    (malformedSpan [0x30, 9] = true ∧ (0x30 : Byte) ∈ requestCodes ∧ ([0x30, 9] : List Byte).length < 3) ∧
    (List.replicate 255 (0 : Byte)).length ≤ 255 ∧ (List.replicate 255 (0 : Byte)).length ∉ [5] ∧
    (List.replicate 24 (0 : Byte)).length ∈ [23, 24] ∧ (List.replicate 38 (0 : Byte)).length = 38 ∧
    (0 :: (bytes32 1 ++ (itemsBytes [.label 5] ++ [0x06, 0, 0, 0, 0])) : List Byte).length ≤ 15 ∧
    (0x06 : Byte) ∉ ([0x01, 0x02, 0x03, 0x04, 0x05] : List Byte) ∧ ([0, 0, 0] : List Byte).length < 4 := by
  decide +kernel

/-- An EMPTY slot, a FREE record, a record with its serial and with one off it, and the loom as the last station; orders
of both kinds; and a QUEUED panel behind a coil, and pieces that are not in the queue. -/
theorem witness_ReadingRequestsChangeNothing :
    let s := bay .running .running
    s.pins.reset = false ∧ s.port.span ≠ .dropped ∧
    (s.orderAt 15 = none ∧ s.slotInUse 15 = false) ∧ s.record 63 = none ∧
    s.record 0 = some (piece .opened 1 (.coil (coil 0))) ∧
    (∀ p, s.record 63 = some p → p.serial ≠ 1) ∧ loom = 8 ∧
    (s.orderAt 2 = some ⟨7301, .rope rope⟩ ∧ s.orderAt 5 = some ⟨7301, .net net⟩ ∧
      s.record 12 = some (piece .opened 4117 (.panel (panel 119)))) ∧
    (let t := packing [piece .queued 5 (.coil (coil 0)), piece .queued 6 (.panel (panel 1))] [9, 10] none
     (t.record 10).map (·.state) = some .queued ∧ t.pack.queue = [9] ++ 10 :: [] ∧ (10 : Fin 64) ∉ [(9 : Fin 64)] ∧
       (piece .opened 1 (.coil (coil 0))).state ≠ .queued) := by
  refine ⟨by decide +kernel, by decide +kernel, by decide +kernel, by decide +kernel, by decide +kernel, ?_, rfl, by decide +kernel,
    by decide +kernel⟩
  intro p h
  rw [show (bay .running .running).record 63 = none from by decide +kernel] at h
  cases h

theorem witness_ModeRequestsChangeMode :
    (State.reset.pins.reset = false ∧ State.reset.port.span ≠ .dropped ∧ State.reset.port.mode = .config) ∧
    ((bay .cutting .ready).port.mode = .operate ∧ ((bay .cutting .ready).station 3).state = .cutting) ∧
    ((bay .tripped .ready).port.mode = .operate ∧ ∀ n, ((bay .tripped .ready).station n).state = .unbound ∨
      ((bay .tripped .ready).station n).state = .ready ∨ ((bay .tripped .ready).station n).state = .tripped) := by
  decide +kernel

/-- OPERATE; identifiers, stations and kinds just beyond the table; a named value beyond its codes; numbers at and beyond
a limit; METER without a wheel; and a metering scale of 0 that leaves the other parameters but the source. -/
theorem witness_ParametersReadBackAsStored :
    ((bay .ready .ready).pins.reset = false ∧ (bay .ready .ready).port.span ≠ .dropped ∧
     (bay .ready .ready).port.mode = .operate) ∧
    State.reset.port.mode = .config ∧ paramRef 0x25 0 0 = none ∧ paramRef 0x01 8 0 = none ∧
    paramRef 0x02 7 0 = some (.lay 7 .markEdge) ∧ (ParamRef.lay 7 .markEdge).store 2 Params.default = none ∧
    ((ParamRef.lay 7 .marks).store 16 Params.default).map (fun r => (r.number, r.clamped)) = some (16, false) ∧
    ((ParamRef.lay 7 .marks).store 17 Params.default).map (fun r => (r.number, r.clamped)) = some (16, true) ∧
    ((ParamRef.lay 7 .source).store 1 Params.default).map (fun r => (r.number, r.clamped)) = some (0, true) ∧
    (ParamRef.lay 7 .source ≠ .lay 7 .marks ∧ ParamRef.lay 6 .source ≠ .lay 7 .source) ∧
    [paramRef 0x11 8 0, paramRef 0x14 7 0, paramRef 0x16 9 0, paramRef 0x21 0 17, paramRef 0x24 0 26] =
      List.replicate 5 none := by
  decide +kernel

/-! ### Witnesses: orders and stations -/

/-- Slot byte 16; a slot in use by a station, one in use by a piece alone, and one that is free and LOADED. -/
theorem witness_OrdersAreLoadedAndRetired :
    let s := bay .running .running
    let t := packing [piece .queued 5 (.coil (coil 0))] [9] none
    s.pins.reset = false ∧ s.port.span ≠ .dropped ∧
    16 ≤ (16 : Byte).toNat ∧ s.slotInUse 2 = true ∧ s.slotInUse 15 = false ∧
    s.orderAt 15 = none ∧ (s.orderAt 2 ≠ none ∧ ∃ n, (s.station n).order = some 2) ∧
    (t.orderAt 2 ≠ none ∧ t.record 9 = some (piece .queued 5 (.coil (coil 0))) ∧
      (piece .queued 5 (.coil (coil 0))).slot = 2) ∧
    (t.orderAt 5 ≠ none ∧ (∀ n, (t.station n).order ≠ some 5) ∧ t.slotInUse 5 = false) := by decide +kernel

/-- An UNBOUND lay station, a READY one without a piece, and the loom. -/
theorem witness_BindReadiesStation :
    let s := packing [] [] none
    let t := s.modStation 7 fun x => { x with state := .ready, order := some 2 }
    (s.pins.reset = false ∧ s.port.span ≠ .dropped ∧ (s.station 0).state = .unbound ∧ (s.station 8).state = .unbound) ∧
    ((t.station 7).state = .ready ∧ (t.station 7).piece = none) ∧
    s.orderAt 2 = some ⟨7301, .rope rope⟩ ∧ Order.suits ⟨7301, .rope rope⟩ 0 = true ∧
    Order.suits ⟨7301, .rope rope⟩ 7 = true ∧ s.orderAt 5 = some ⟨7301, .net net⟩ ∧
    Order.suits ⟨7301, .net net⟩ 8 = true := by decide +kernel

theorem witness_UnbindClosesPieceShort :
    (bay .ready .holding).pins.reset = false ∧ (bay .ready .holding).port.span ≠ .dropped ∧
    ((bay .ready .holding).station 3).state = .ready ∧
    ((bay .ready .holding).station 8).state = .holding ∧ ((bay .tripped .ready).station 3).state = .tripped := by
  decide +kernel

/-- Station byte 9, slot byte 16, and each refusal in its turn. -/
theorem witness_StationRefusalsChangeNothing :
    let s := bay .running .ready
    let set (k : FaultKind) (t : State) : State := t.modFaults 8 fun _ => ⟨addToSet 0 k, none⟩
    let out := ((bay .ready .ready).modLay 3 fun x => { x with strandOut := 1 }).modPins 3 fun p => { p with strands := 1 }
    let full : State := { bay .ready .ready with arbiter := { Arbiter.initial with reservedRecords := 62 } }
    let empty := full.modStation 3 fun x => { x with piece := none }
    s.pins.reset = false ∧ s.port.span ≠ .dropped ∧ 9 ≤ (9 : Byte).toNat ∧ 16 ≤ (16 : Byte).toNat ∧
    ¬ ((s.station 3).state = .unbound ∨ ((s.station 3).state = .ready ∧ (s.station 3).piece = none)) ∧
    ((s.station 0).state = .unbound ∧ s.orderAt 15 = none) ∧
    ((s.station 0).state = .unbound ∧ s.orderAt 5 = some ⟨7301, .net net⟩) ∧
    ((bay .ready .unbound).station 8).state = .unbound ∧ (bay .ready .unbound).orderAt 2 = some ⟨7301, .rope rope⟩ ∧
    (s.station 3).state = .running ∧ ((bay .cutting .ready).station 3).state = .cutting ∧
    State.reset.port.mode = .config ∧ s.port.mode = .operate ∧ ((bay .tripped .ready).station 3).state = .tripped ∧
    (((set .hole (bay .ready .ready)).station 8).state = .ready ∧
      inSet ((set .hole (bay .ready .ready)).faults 8).set .hole = true ∧
      (set .hole (bay .ready .ready)).reaction .hole ≠ .note) ∧
    ((out.station 3).state = .ready ∧ (∀ k ∈ FaultKind.all, inSet (out.faults 3).set k = false) ∧
      (out.lay 3).strandOut &&& assertedStrands (out.layParams 3).strandEdge (out.layPins 3).strands ≠ 0) ∧
    ((empty.station 3).state = .ready ∧ (empty.station 3).piece = none ∧ empty.figure < 1 ∧
      (empty.lay 3).strandOut = 0) ∧
    (inSet (((set .strandOut out).modFaults 3 fun _ => ⟨addToSet 0 .strandOut, none⟩).faults 3).set .strandOut = true ∧
      out.strandPresent 3 = true) := by decide +kernel

/-- Station 3 holding with its coil, and the loom ready with its panel; both with pieces at target and allowance, the
loom's request waiting already; and one a row short of its allowance. -/
theorem witness_StartCarriesPieceOn :
    let s := (bay .holding .ready).modReasons 3 fun _ => ⟨true, true, false⟩
    let long := ((s.modCoil 0 fun _ => coil 222000000000).modPanel 12 fun _ => panel 623).setWaiting [8]
    let short := (long.modPanel 12 fun _ => panel 622)
    s.pins.reset = false ∧ s.port.span ≠ .dropped ∧ s.port.mode = .operate ∧
    ((s.station 3).state = .holding ∧ s.faultForbidsStart 3 = false ∧ s.strandPresent 3 = false ∧
      (s.station 3).piece = some 0 ∧ s.record 0 = some (piece .opened 1 (.coil (coil 0))) ∧
      s.boundOrder 3 = some ⟨7301, .rope rope⟩) ∧
    ((s.station 8).state = .ready ∧ s.faultForbidsStart 8 = false ∧ s.strandPresent 8 = false ∧
      (s.station 8).piece = some 12 ∧ s.record 12 = some (piece .opened 4117 (.panel (panel 119))) ∧
      s.boundOrder 8 = some ⟨7301, .net net⟩) ∧
    ((long.record 0).map Piece.extent = some (Order.limit ⟨7301, .rope rope⟩) ∧ (3 : Fin 9) ∉ long.arbiter.waiting) ∧
    ((long.record 12).map Piece.extent = some (Order.limit ⟨7301, .net net⟩) ∧ (8 : Fin 9) ∈ long.arbiter.waiting) ∧
    (short.record 12).map (·.extent + 1) = some (Order.limit ⟨7301, .net net⟩) := by decide +kernel

/-- Station 3 and the loom ready without a piece, with the last unreserved record, and with all of them; and a serial
counter whose value names a piece, and one whose value and the serial after its wrap both do. -/
theorem witness_StartOpensLowestFreeRecord :
    let bound := ((packing [] [] none).modStation 3 fun x => { x with state := .ready, order := some 2 }).modStation 8
      fun x => { x with state := .ready, order := some 5 }
    let last := { bound with arbiter := { bound.arbiter with reservedRecords := 63 } }
    let counter (v : Word32) : State :=
      let s := packing [piece .queued 4294967295 (.coil (coil 0)), piece .queued 1 (.coil (coil 0))] [9, 10] none
      { s with table := { s.table with nextSerial := v } }
    ((counter 1).record 63 = none ∧ (counter 1).openSerial = 2 ∧ (counter 4294967295).openSerial = 2) ∧
    bound.pins.reset = false ∧ bound.port.span ≠ .dropped ∧
    bound.port.mode = .operate ∧ bound.figure = 64 ∧ 1 ≤ last.figure ∧ last.figure = 1 ∧
    ((bound.station 3).state = .ready ∧ bound.faultForbidsStart 3 = false ∧ bound.strandPresent 3 = false ∧
      (bound.station 3).piece = none ∧ (bound.station 3).order = some 2 ∧
      bound.orderAt 2 = some ⟨7301, .rope rope⟩ ∧ 0 < Order.target ⟨7301, .rope rope⟩ ∧
      (3 : Fin 9) ∉ bound.arbiter.waiting ∧ (bound.station 3).reasons.overrun = false) ∧
    ((last.station 8).state = .ready ∧ last.faultForbidsStart 8 = false ∧ last.strandPresent 8 = false ∧
      (last.station 8).piece = none ∧ (last.station 8).order = some 5 ∧ last.orderAt 5 = some ⟨7301, .net net⟩ ∧
      0 < Order.target ⟨7301, .net net⟩ ∧ (8 : Fin 9) ∉ last.arbiter.waiting ∧
      (last.station 8).reasons.overrun = false) := by decide +kernel

theorem witness_SpliceEntriesThenOverflow :
    ({ coil 61262000000 with spliceOverflow := 65535 } : Coil).spliceOverflow ≤ 65535 := by decide +kernel

theorem witness_HaltHoldsWithoutEndingPiece :
    (bay .running .holding).pins.reset = false ∧ (bay .running .holding).port.span ≠ .dropped ∧
    ((bay .running .holding).station 3).state = .running ∧
    ((bay .running .holding).station 8).state = .holding ∧ ((bay .running .holding).station 0).state = .unbound ∧
    ((bay .cutting .tripped).station 3).state = .cutting ∧ ((bay .cutting .tripped).station 8).state = .tripped ∧
    ((bay .ready .ready).station 3).state = .ready ∧
    (left (exec (.halt 0 1 3) (bay .cutting .ready)) fun u =>
      (after (exec (.cutDone 0 3 (u.stationParams 3).cutEdge) u)).isSome) = some true := by decide +kernel

theorem witness_ClearFaultEmptiesSet :
    let s := (bay .tripped .running).modFaults 3 fun _ => ⟨0b1000001, none⟩
    s.pins.reset = false ∧ s.port.span ≠ .dropped ∧ (s.station 3).state ≠ .cutting ∧
    ¬ (inSet (s.faults 3).set .strandOut = true ∧ s.strandPresent 3 = true) ∧ (s.station 8).state ≠ .cutting ∧
    ¬ (inSet (s.faults 8).set .strandOut = true ∧ s.strandPresent 8 = true) := by decide +kernel

theorem witness_PermitFollowsStateAndMode :
    let s := bay .running .ready
    let pulsed : State := { s with params := { s.params with part := { s.params.part with permitMode := .pulsed } } }
    s.permitGiven 8 = false ∧ s.params.part.permitMode = .static ∧ pulsed.params.part.permitMode = .pulsed ∧
    pulsed.permitGiven 3 = true := by decide +kernel

/-! ### Witnesses: lay stations -/

/-- What the statements on marks ask of station 3: RUNNING, with its order, its constants and its open coil. -/
def markReady (s : State) : Bool :=
  decide (s.pins.reset = false ∧ (s.station (ofLay 3)).state = .running ∧ s.rope (ofLay 3) = some rope ∧
    (s.lay 3).consts = some ⟨21000000, 336000000⟩ ∧ (s.station (ofLay 3)).piece = some 0 ∧
    s.record 0 = some (piece .opened 1 (.coil (coil 0))))

theorem witness_FirstMarkBeginsTiming :
    markReady (bay .running .ready) = true ∧ ((bay .running .ready).lay 3).tracker.tPrev = none := by decide +kernel

/-- An interval one below T_min, a reverse one at T_min, one just beyond 5 Ts / 2; a station not RUNNING. -/
theorem witness_UnusableIntervalsAreNotIntegrated :
    let fast := laying (tracker 39998001 0 0 false)
    let back := laying (tracker 39998000 (-1) 0 false)
    let lost := laying (tracker 39687499 0 0 false)
    ((bay .holding .ready).pins.reset = false ∧ ((bay .holding .ready).station (ofLay 3)).state ≠ .running) ∧
    Edge.falling ≠ ((bay .running .ready).layParams 3).markEdge ∧
    (markReady fast = true ∧ (fast.lay 3).tracker.tPrev = some 39998001 ∧
      (fast.clocks.mark - 39998001#32).toNat < (fast.layParams 3).tMin) ∧
    (markReady back = true ∧ (back.lay 3).tracker.tPrev = some 39998000 ∧
      (back.layParams 3).tMin ≤ (back.clocks.mark - 39998000#32).toNat ∧ (back.lay 3).tracker.count < 0) ∧
    (markReady lost = true ∧ (lost.lay 3).tracker.tPrev = some 39687499 ∧
      (lost.layParams 3).tMin ≤ (lost.clocks.mark - 39687499#32).toNat ∧ 0 ≤ (lost.lay 3).tracker.count ∧
      2 ≤ (lost.lay 3).tracker.ring.length ∧
      5 * ((lost.lay 3).tracker.ring.sum / (lost.lay 3).tracker.ring.length) <
        2 * (lost.clocks.mark - 39687499#32).toNat) := by decide +kernel

/-- An interval at 5 Ts / 2, a count of 0, a ring that is full. -/
theorem witness_ForwardIntervalSetsDemand :
    let s := laying (tracker 39687500 0 0 false)
    markReady s = true ∧ (s.lay 3).tracker.tPrev = some 39687500 ∧
    (s.layParams 3).tMin ≤ (s.clocks.mark - 39687500#32).toNat ∧ 0 ≤ (s.lay 3).tracker.count ∧
    ¬ (2 ≤ (s.lay 3).tracker.ring.length ∧
      5 * ((s.lay 3).tracker.ring.sum / (s.lay 3).tracker.ring.length) < 2 * (s.clocks.mark - 39687500#32).toNat) ∧
    (s.lay 3).tracker.ring.length ≤ 4 := by decide +kernel

/-- Station 3 with a metering wheel as its length source. -/
def metered (s : State) (source : Source) : State :=
  { s with params := { s.params with lay := s.params.lay.set 3 { layParams with source := source, meterScale := 50000 } } }

/-- A forward count below the target, at a HOLDING station, at a RUNNING one, of the encoder not selected, and of each
encoder under METER; coils a count below the target and below target and allowance; and stations without a coil. -/
theorem witness_CountMovesLengthAndAccumulators :
    let s := bay .holding .ready
    let r := bay .running .ready
    let m := metered r .meter
    let bare (u : State) : State := u.modStation 3 fun x => { x with piece := none }
    ((bare r).pins.reset = false ∧ ((bare r).station (ofLay 3)).state = .running ∧
      ((bare r).station (ofLay 3)).piece = none ∧ ((bare s).station (ofLay 3)).state = .holding ∧
      ((bare s).station (ofLay 3)).piece = none) ∧
    (s.pins.reset = false ∧ (s.station (ofLay 3)).state ≠ .unbound ∧ (s.station (ofLay 3)).piece = some 0 ∧
      s.record 0 = some (piece .opened 1 (.coil (coil 0))) ∧ s.boundOrder (ofLay 3) = some ⟨7301, .rope rope⟩ ∧
      s.decodeCount 3 .capstan ((s.layPins 3).pair .capstan) ⟨true, false⟩ = some .forward ∧
      s.decodeCount 3 .meter ((s.layPins 3).pair .meter) ⟨true, false⟩ = some .forward ∧
      Coil.mm (coil 20000) < Order.target ⟨7301, .rope rope⟩ ∧ ofLay 3 ∉ s.arbiter.waiting) ∧
    (Encoder.capstan = (s.layParams 3).source.encoder ∧ (s.station (ofLay 3)).state ≠ .running) ∧
    (Encoder.capstan = (r.layParams 3).source.encoder ∧ (r.station (ofLay 3)).state = .running ∧
      (r.layParams 3).meterScale = 0) ∧
    Encoder.meter ≠ (s.layParams 3).source.encoder ∧
    ((m.layParams 3).source = .meter ∧ (m.station (ofLay 3)).state = .running ∧ (m.layParams 3).meterScale ≠ 0 ∧
      m.decodeCount 3 .capstan ((m.layPins 3).pair .capstan) ⟨true, false⟩ = some .forward ∧
      m.decodeCount 3 .meter ((m.layPins 3).pair .meter) ⟨true, false⟩ = some .forward ∧
      (m.lay 3).slipMeter + 50000 < ((m.layParams 3).slipSpan : Int) * 1000000000) ∧
    (r.port.mode = .operate ∧ Coil.mm (coil (219999980000 + 20000)) = Order.target ⟨7301, .rope rope⟩ ∧
      Coil.mm (coil (221999980000 + 20000)) = Order.limit ⟨7301, .rope rope⟩) := by decide +kernel

/-- A metering count that fills the span, one that leaves it a count short, a slip at the limit and one beyond, and METER
as the source of a coil below its target. -/
theorem witness_SlipSpanClosesAtMeteringCount :
    let at_ (cap meter : Int) : State :=
      (metered (bay .running .ready) .capstan).modLay 3 fun x => { x with slipCap := cap, slipMeter := meter }
    let s := at_ 10300000000 9999950000
    (s.pins.reset = false ∧ (s.station (ofLay 3)).state = .running ∧ (s.station (ofLay 3)).piece = some 0 ∧
      s.record 0 = some (piece .opened 1 (.coil (coil 0))) ∧
      s.decodeCount 3 .meter (s.layPins 3).meter ⟨true, false⟩ = some .forward ∧
      (s.layParams 3).source = .capstan ∧ (s.layParams 3).meterScale ≠ 0) ∧
    (s.lay 3).slipMeter + 50000 = ((s.layParams 3).slipSpan : Int) * 1000000000 ∧
    ((at_ 0 9999900000).lay 3).slipMeter + 50000 < ((s.layParams 3).slipSpan : Int) * 1000000000 ∧
    ((10300000000 - 10000000000) * 1000 : Int).tdiv 10000000000 = (s.layParams 3).slipLimit ∧
    ((10310000000 - 10000000000) * 1000 : Int).tdiv 10000000000 = (s.layParams 3).slipLimit + 1 ∧
    (let m := metered (bay .running .ready) .meter
     (m.layParams 3).source = .meter ∧ ofLay 3 ∉ m.arbiter.waiting ∧
       m.boundOrder (ofLay 3) = some ⟨7301, .rope rope⟩ ∧
       Coil.mm (coil 50000) < Order.target ⟨7301, .rope rope⟩) := by decide +kernel

theorem witness_QuadratureDecodesOneLineAtATime :
    quadrature ⟨false, false⟩ ⟨true, false⟩ = some .forward ∧
    ((bay .ready .ready).station (ofLay 0)).state = .unbound ∧
    quadrature (((bay .ready .ready).layPins 3).pair .capstan) ⟨true, true⟩ = none := by decide +kernel

/-- Strand 3 of an order of three strands, and strand 4. -/
theorem witness_StrandOutJoinsSetAndRaises :
    let s := bay .tripped .ready
    s.pins.reset = false ∧ ((s.station (ofLay 3)).state ≠ .unbound ∧ s.rope (ofLay 3) = some rope ∧
      (2 : Fin 4).1 < rope.strands) ∧ rope.strands ≤ (3 : Fin 4).1 ∧ (s.station (ofLay 0)).state = .unbound := by
  decide +kernel

theorem witness_DemandPulsesFollowTheDemand :
    ((bay .ready .ready).lay 3).demand = 0 ∧
    (((bay .running .ready).lay 3).demand ≠ 0 ∧ ((bay .running .ready).lay 3).lastPulse = none) ∧
    ((((bay .running .ready).modLay 3 fun x => { x with lastPulse := some 5 }).lay 3).demand ≠ 0 ∧
      (((bay .running .ready).modLay 3 fun x => { x with lastPulse := some 5 }).lay 3).lastPulse = some 5) := by
  decide +kernel

theorem witness_StallTimersRaiseTheirFaults :
    (((bay .running .running).lay 3).stall = some ⟨40000000, 2000000⟩ ∧
      ((bay .running .running).station (ofLay 3)).state = .running) ∧ ((bay .ready .ready).lay 3).stall = none ∧
    ((bay .running .running).inspector.rowTimer = some ⟨40000, 5000⟩ ∧
      ((bay .running .running).station loom).state = .running) ∧ (bay .ready .ready).inspector.rowTimer = none := by
  decide +kernel

/-- A timer that has just run out and one with a tick left, across the wrap of the clocks. -/
theorem witness_ExpiryWaitsUntilTimerRunsOut :
    let s : State := { State.reset with clocks := ⟨4, 4, 999⟩ }
    let t : Timer := ⟨4294967295, 5⟩
    let u : Timer := ⟨4294967295, 6⟩
    t.span < 4294967296 ∧ t.span ≤ (s.clocks.mark - t.start).toNat ∧ t.span ≤ (s.clocks.part - t.start).toNat ∧
    u.span < 4294967296 ∧ (s.clocks.mark - u.start).toNat < u.span ∧ (s.clocks.part - u.start).toNat < u.span ∧
    s.clocks.phase < 1000 := by decide +kernel

/-! ### Witnesses: the loom -/

/-- Rows that stay below the target, reach it, and reach target and overrun rows, of a RUNNING loom; with no row awaiting
sense and with one. -/
theorem witness_RowIndexCountsRowAndAwaitsSense :
    let s := (bay .ready .running).modPanel 12 fun _ => panel 601
    s.pins.reset = false ∧ (s.station loom).state ≠ .unbound ∧ (s.station loom).piece = some 12 ∧
    s.record 12 = some (piece .opened 4117 (.panel (panel 601))) ∧ s.boundOrder loom = some ⟨7301, .net net⟩ ∧
    loom ∉ s.arbiter.waiting ∧ (panel 601).rows + 1 < Order.target ⟨7301, .net net⟩ ∧ s.port.mode = .operate ∧
    (panel 602).rows + 1 = Order.target ⟨7301, .net net⟩ ∧ (panel 622).rows + 1 = Order.limit ⟨7301, .net net⟩ ∧
    s.inspector.awaiting = none ∧ (rows 123 0 [] (panel 601)).inspector.awaiting = some ⟨12, 4117, 123⟩ := by
  decide +kernel

/-- An UNBOUND loom, the other edge, a loom without a panel, no row awaiting, and a panel that has left the table. -/
theorem witness_LoomArrivalsWithoutARow :
    let bare := (bay .ready .ready).modStation 8 fun x => { x with piece := none }
    let gone := (rows 121 0 [] (panel 121)).setRecord 12 none
    (State.reset.pins.reset = false ∧ (State.reset.station loom).state = .unbound) ∧
    Edge.falling ≠ State.reset.params.loom.rowEdge ∧
    ((bare.station loom).state ≠ .unbound ∧ (bare.station loom).state ≠ .running ∧ (bare.station loom).piece = none ∧
      bare.inspector.awaiting = none) ∧
    (gone.pins.reset = false ∧ (gone.station loom).state ≠ .unbound ∧
      gone.inspector.awaiting = some ⟨12, 4117, 121⟩ ∧ gone.net loom = some net ∧ gone.panelAt 12 4117 = none) := by
  decide +kernel

/-- 64 hooks, and a word of 16 hooks that reports no miss, whose awaiting row the table holds. -/
theorem witness_RunsAreMaximalGroups :
    let s := rows 121 0x20 [] (panel 121)
    64 ≤ 64 ∧ s.pins.reset = false ∧ (s.station loom).state ≠ .unbound ∧
    s.inspector.awaiting = some ⟨12, 4117, 121⟩ ∧ s.net loom = some net ∧ s.panelAt 12 4117 = some (panel 121) ∧
    missingSet s.params.loom.knotLevel net.hooks 0xFFFF = 0 := by decide +kernel

/-- A word at a list with its last place left. -/
theorem witness_SenseWordSortsItsRow :
    let s := rows 121 0x20 ((List.range 47).map fun i => ⟨BitVec.ofNat 16 i, 9, 1, 2, 1, .knot⟩) (panel 121)
    s.pins.reset = false ∧ (s.station loom).state ≠ .unbound ∧ s.inspector.awaiting = some ⟨12, 4117, 121⟩ ∧
    s.net loom = some net ∧ s.panelAt 12 4117 = some (panel 121) ∧ net.hooks ≤ 64 ∧ (panel 121).knots + 64 ≤ 65535 ∧
    (panel 121).holes + 112 ≤ 65535 ∧ (panel 121).unmended + 64 ≤ 65535 ∧ (panel 121).unlisted + 64 ≤ 65535 ∧
    s.inspector.mends.length ≤ 48 ∧ s.inspector.overflow + 64 ≤ 255 := by decide +kernel

/-- An id of no entry, and an entry of a panel; start positions at and below the end of the list. -/
theorem witness_MendRemovesItsEntry :
    let s := rows 125 0 threeEntries { panel 124 with unmended := 1, mended := 65534 }
    s.pins.reset = false ∧ s.port.span ≠ .dropped ∧ (∀ e ∈ s.inspector.mends, e.id ≠ 300) ∧
    ((⟨310, 12, 120, 5, 1, .knot⟩ : MendEntry) ∈ s.inspector.mends ∧
      (∀ e' ∈ s.inspector.mends, e'.id = 310 → e' = ⟨310, 12, 120, 5, 1, .knot⟩) ∧
      s.record 12 = some (piece .opened 4117 (.panel { panel 124 with unmended := 1, mended := 65534 })) ∧
      ({ panel 124 with unmended := 1, mended := 65534 } : Panel).mended < 65535) ∧
    s.inspector.mends.length ≤ (3 : Byte).toNat ∧ (2 : Byte).toNat < s.inspector.mends.length := by decide +kernel

/-! ### Witnesses: cuts -/

theorem witness_CutDoneExchangesPieces :
    let s := bay .cutting .cutting
    s.pins.reset = false ∧ ((s.station 3).state = .cutting ∧ (s.station 3).piece = some 0 ∧
      s.record 0 = some (piece .opened 1 (.coil (coil 0))) ∧ (s.station 3).order = some 2) ∧
    ((s.station 8).state = .cutting ∧ (s.station 8).piece = some 12 ∧
      s.record 12 = some (piece .opened 4117 (.panel (panel 119))) ∧ (s.station 8).order = some 5) ∧
    (∃ k, s.record k = none) ∧ Edge.falling ≠ (s.stationParams 3).cutEdge := by decide +kernel

theorem witness_StrayCutDoneIsNoticedOnly :
    let s := bay .running .tripped
    s.pins.reset = false ∧ ((s.station 3).state ≠ .unbound ∧ (s.station 3).state ≠ .cutting) ∧
    ((s.station 8).state ≠ .unbound ∧ (s.station 8).state ≠ .cutting) ∧ (s.station 0).state = .unbound := by
  decide +kernel

/-- The part with a reaction in place of the one the table holds for a kind. -/
def reacting (s : State) (k : FaultKind) (r : Reaction) : State :=
  { s with params := { s.params with part := { s.params.part with
    reactions := s.params.part.reactions.set k.index.1 r } } }

/-- CUT_TIMEOUT under each reaction; under HOLD with a piece at its target, which gives a request anew, and below it. -/
theorem witness_CutTimerExpiryAbortsTheCut :
    let s := bay .cutting .ready
    let held := reacting s .cutTimeout .hold
    let long := held.modCoil 0 fun _ => coil 220000000000
    (left (exec (.cutTimerExpiry 0 3) held) (·.cutStatus 3) = some .none ∧
      left (exec (.cutTimerExpiry 0 3) long) (·.cutStatus 3) = some .granted) ∧
    (s.cutTimer 3 = some ⟨40000, 30000⟩ ∧ (s.station 3).state = .cutting ∧ s.reaction .cutTimeout = .trip) ∧
    (held.cutTimer 3 = some ⟨40000, 30000⟩ ∧ (held.station 3).state = .cutting ∧
      held.reaction .cutTimeout = .hold) ∧
    (reacting s .cutTimeout .tripAll).reaction .cutTimeout = .tripAll ∧ s.cutTimer 8 = none := by decide +kernel

/-- One reading in the list and one lane time; both lane times; none. -/
theorem witness_GrantReadingsAge :
    let s := waitingBay
    let both : State := { s with arbiter := { s.arbiter with laneB := some 39500 } }
    let none_ := bay .ready .ready
    s.arbiter.grants[(0 : Fin 8).1]? = some 39000 ∧ s.arbiter.grants[(1 : Fin 8).1]? = none ∧
    s.arbiter.laneTime .a = some 39000 ∧ s.arbiter.laneTime .b = none ∧
    (none_.arbiter.laneA = none ∧ none_.arbiter.laneB = none) ∧ (s.arbiter.laneA = some 39000 ∧ s.arbiter.laneB = none) ∧
    (both.arbiter.laneA = some 39000 ∧ both.arbiter.laneB = some 39500) ∧ none_.arbiter.grants = [] ∧
    s.arbiter.grants = [39000] := by decide +kernel

/-- A consideration that takes a request: station 3's, at the end of the any-lane gap. -/
theorem witness_ConsiderationLeavesNoEligibleRequest :
    let s := waitingBay.elapse 4000000
    (8 : Fin 9) ∈ s.consider.arbiter.waiting ∧ (3 : Fin 9) ∈ s.arbiter.waiting ∧
    (3 : Fin 9) ∉ s.consider.arbiter.waiting ∧ (0 : Fin 9) ∉ s.arbiter.waiting := by decide +kernel

/-- No request eligible; the second of the queue eligible; and an any-lane gap of 0 under which both are granted, with the
figure after the first grant at the low water and one above it. -/
theorem witness_ConsiderationGrantsFirstEligible :
    let s := waitingBay.elapse 4000000
    let free (low : Nat) : State := { s with
      params := { s.params with part := { s.params.part with laneGap := 0, anyGap := 0, lowWater := low } } }
    (∀ n ∈ waitingBay.arbiter.waiting, waitingBay.eligible n = false) ∧
    ((free 61).arbiter.waiting = [] ++ 8 :: [3] ∧ (free 61).eligible 8 = true ∧ (8 : Fin 9) ∉ [(3 : Fin 9)] ∧
      (free 61).consider.arbiter.waiting = [] ∧ (free 61).figure - 1 = 61 ∧ ¬ (free 61).figure - 1 ≤ 60 ∧
      (free 61).table.lowArmed = true) ∧
    s.arbiter.waiting = [8] ++ 3 :: [] ∧ (∀ m ∈ [(8 : Fin 9)], s.eligible m = false) ∧ s.eligible 3 = true ∧
    (3 : Fin 9) ∉ [(8 : Fin 9)] ∧ (3 : Fin 9) ∉ ([] : List (Fin 9)) ∧ 0 < s.params.part.anyGap ∧
    s.arbiter.grants.length ≤ 8 := by decide +kernel

/-! ### Witnesses: pieces and the packing terminal -/

/-- A serial that is not the record's, number 64, and pieces in the states that each clause names. -/
theorem witness_AmendPieceAppliesItems :
    let s := packing [piece .queued 5 (.coil (coil 0)), piece .atScale 6 (.panel (panel 1)),
      piece .aside 7 (.panel (panel 1))] [9] (some 10)
    s.pins.reset = false ∧ s.port.span ≠ .dropped ∧ s.record 9 = some (piece .queued 5 (.coil (coil 0))) ∧
    s.record 10 = some (piece .atScale 6 (.panel (panel 1))) ∧ s.record 11 = some (piece .aside 7 (.panel (panel 1))) ∧
    (6 : Word32) ≠ (piece .queued 5 (.coil (coil 0))).serial ∧ 64 ≤ (64 : Byte).toNat := by decide +kernel

theorem witness_RetirePieceFreesRecord :
    let s := packing [piece .packed 5 (.coil (coil 0)), piece .aside 6 (.panel (panel 1)),
      piece .weighed 7 (.panel (panel 1))] [] (some 11)
    s.pins.reset = false ∧ s.port.span ≠ .dropped ∧ s.record 9 = some (piece .packed 5 (.coil (coil 0))) ∧
    s.record 10 = some (piece .aside 6 (.panel (panel 1))) ∧ s.record 11 = some (piece .weighed 7 (.panel (panel 1))) ∧
    s.record 63 = none ∧ 64 ≤ (64 : Byte).toNat := by decide +kernel

/-- The high-queue test armed at the mark, armed below it, and disarmed at the low mark and above it; three answers
waiting leave room for one; the scale occupied, no piece ready, one ready behind a held one, and an
armed timer with its piece AT_SCALE. -/
theorem witness_ScaleTakesFirstReadyPiece :
    let busy := packing [piece .atScale 5 (.coil (coil 0))] [] (some 9)
    let heldOnly := packing [{ piece .queued 30 (.coil (coil 0)) with hold := true }] [9] none
    let three : State := { round with pack := { round.pack with tx := [[1], [2], [3]] } }
    let queued (armed : Bool) (k : Nat) : State := { busy with pack := { busy.pack with
      highArmed := armed, queue := List.replicate k 10 } }
    ((queued true 6).pack.highArmed = true ∧ (queued true 6).params.part.queueHigh ≤ (queued true 6).pack.queue.length ∧
      (queued true 5).pack.queue.length < (queued true 5).params.part.queueHigh ∧
      (queued false 3).highTest.pack.highArmed = true ∧ (queued false 4).highTest.pack.highArmed = false) ∧
    (busy.pins.reset = false ∧ busy.pack.tx.length < 4 ∧ busy.pack.scale ≠ none) ∧
    (heldOnly.pack.scale = none ∧ ∀ i ∈ heldOnly.pack.queue, heldOnly.readyAt i = false) ∧
    (three.pins.reset = false ∧ three.pack.tx.length < 4 ∧ three.pack.scale = none ∧
      three.pack.queue = [9] ++ 10 :: [11] ∧ (∀ j ∈ [(9 : Fin 64)], three.readyAt j = false) ∧
      (10 : Fin 64) ∉ [(11 : Fin 64)] ∧
      three.record 10 = some (piece .queued 9 (.panel { panel 600 with waived := 1 })) ∧
      (piece .queued 9 (.panel { panel 600 with waived := 1 })).ready = true) ∧
    (busy.pack.scaleTimer = some ⟨40000, 120000⟩ ∧ busy.pack.scale = some 9 ∧
      busy.record 9 = some (piece .atScale 5 (.coil (coil 0)))) ∧ round.pack.scaleTimer = none := by decide +kernel

theorem witness_WeighGradesTheOccupant :
    let s := packing [piece .atScale 5 (.coil (coil 0))] [] (some 9)
    let t := packing [rejected] [] (some 9)
    (s.pins.reset = false ∧ s.pack.tx.length < 4 ∧ s.record 9 = some (piece .atScale 5 (.coil (coil 0))) ∧
      s.orderAt 2 = some ⟨7301, .rope rope⟩) ∧
    (t.record 9 = some rejected ∧ rejected.state = .weighed ∧ t.orderAt rejected.slot = some ⟨7301, .net net⟩) := by
  decide +kernel

theorem witness_PackedAndAsideFreeTheScale :
    let b : Weighing := ⟨58400, 57285, some 19, .b, .b⟩
    let s := packing [{ rejected with weighing := some b }] [] (some 9)
    let t := packing [rejected] [] (some 9)
    (s.pins.reset = false ∧ s.pack.tx.length < 4 ∧ s.record 9 = some { rejected with weighing := some b } ∧
      b.grade ≠ .reject) ∧
    (t.pins.reset = false ∧ t.pack.tx.length < 4 ∧ t.record 9 = some rejected ∧ rejected.state = .weighed ∧
      rejected.weighing.map (·.grade) = some .reject) := by decide +kernel

/-- Number 64, a FREE record, and pieces OPEN, QUEUED and AT_SCALE. -/
theorem witness_TerminalRequestsAreJudgedByRecord :
    let s := packing [piece .opened 5 (.coil (coil 0)), piece .queued 6 (.coil (coil 0)),
      piece .atScale 7 (.coil (coil 0))] [10] (some 11)
    s.pins.reset = false ∧ s.pack.tx.length < 4 ∧ 64 ≤ (64 : Byte).toNat ∧ s.record 63 = none ∧
    s.record 9 = some (piece .opened 5 (.coil (coil 0))) ∧ s.record 10 = some (piece .queued 6 (.coil (coil 0))) ∧
    s.record 11 = some (piece .atScale 7 (.coil (coil 0))) ∧ (4 : Word32) ≠ 5 := by decide +kernel

/-- Length bytes 0, 1, 40 and 41; a whole frame with a bad check; frames with a wrong CRC, and with the right one and
kind 00h or 06h, or a length one beside its kind's; a byte that is not the start byte; the transmitter full; and an
answer that waits. -/
theorem witness_PackFramesAreDiscardedAndAnswersSent :
    let full : State := { round with pack := { round.pack with tx := [[1], [2], [3], [4]] } }
    round.pins.reset = false ∧ round.pack.receiver = .hunting ∧
    ((0 : Byte) = 0 ∨ 40 < (0 : Byte).toNat) ∧ ((41 : Byte) = 0 ∨ 40 < (41 : Byte).toNat) ∧
    ((1 : Byte) ≠ 0 ∧ (1 : Byte).toNat ≤ 40 ∧ ([1, 0, 0] : List Byte).length = (1 : Byte).toNat + 2 ∧
      judgePackFrame 0 [1, 1, 0, 0] = none) ∧
    ((1 : Byte).toNat ≤ 40 ∧ (1 : Byte).toNat = ([] : List Byte).length + 1 ∧
      judgePackFrame 0 ([1, 1] ++ bytes16 (crc [1, 1])) = some (.packNext 0) ∧
      judgePackFrame 0 ([1, 1] ++ bytes16 (crc [1, 1] ^^^ 1)) = none) ∧
    (judgePackFrame 0 ([1, 0] ++ bytes16 (crc [1, 0])) = none ∧
      judgePackFrame 0 ([1, 6] ++ bytes16 (crc [1, 6])) = none) ∧
    ((2 : Byte).toNat = [(0 : Byte)].length + 1 ∧ judgePackFrame 0 ([2, 1, 0] ++ bytes16 (crc [2, 1, 0])) = none ∧
      judgePackFrame 0 ([2, 5, 0] ++ bytes16 (crc [2, 5, 0])) = some (.packQuery 0 0 none)) ∧
    ((40 : Byte) ≠ 0 ∧ (40 : Byte).toNat ≤ 40 ∧ (List.replicate 41 (0 : Byte)).length < (40 : Byte).toNat + 2) ∧
    (0 : Byte) ≠ 0xA5#8 ∧ (full.pins.reset = false ∧ ¬ full.pack.tx.length < 4) ∧ full.pack.tx = [1] :: [[2], [3], [4]] ∧
    round.pack.tx = [] := by decide +kernel

/-! ### Witnesses: faults and notices -/

/-- Station 3 and the loom as each clause asks: a first-fault record and none, a piece and none, and each reaction. -/
theorem witness_FaultIsRecordedNoticedAndAnswered :
    let s := bay .running .ready
    let f : FirstFault := ⟨.layDrift, 1, none, none, none⟩
    s.reaction .layDrift ≠ .tripAll ∧ (s.faults 3).first = none ∧
    ((s.modFaults 3 fun _ => ⟨0b1000, some f⟩).faults 3).first = some f ∧
    ((s.station 0).piece = none ∧ (s.station 3).piece = some 0 ∧
      s.record 0 = some (piece .opened 1 (.coil (coil 0)))) ∧
    s.reaction .laySaturated = .note ∧ (s.station 0).state = .unbound ∧ ((bay .tripped .ready).station 3).state = .tripped ∧
    (s.reaction .layDrift = .hold ∧ (s.station 3).state = .running) ∧ (s.reaction .hole = .hold ∧ (s.station 8).state = .ready) ∧
    (s.reaction .flyerStall = .trip ∧ (s.station 3).state ≠ .tripped ∧ (s.station 3).state ≠ .unbound) ∧
    (s.reaction .cutTimeout = .trip ∧ ((bay .cutting .ready).station 3).state = .cutting) := by decide +kernel

theorem witness_TripAllTripsEveryBoundStation :
    let s := reacting (bay .running .cutting) .flyerStall .tripAll
    s.reaction .flyerStall = .tripAll ∧ s.reaction .peerTrip = .trip ∧ (s.station 3).state ≠ .unbound ∧
    (s.station 3).state ≠ .tripped ∧ (s.station 8).state ≠ .unbound ∧ (s.station 8).state ≠ .tripped ∧
    (s.faults 8).first = none ∧ (s.station 0).state = .unbound := by decide +kernel

theorem witness_LinkSilenceExpiryRaisesLinkLost :
    let s : State := { bay .running .tripped with
      collector := { Collector.initial with linkTimer := some ⟨40000, 10000⟩ } }
    s.collector.linkTimer = some ⟨40000, 10000⟩ ∧ ((s.station 3).state ≠ .unbound ∧ (s.station 3).state ≠ .tripped) ∧
    (s.reaction .linkLost = .hold ∧ (s.station 3).state = .running) ∧ (s.station 8).state = .tripped ∧
    (s.station 0).state = .unbound ∧ (bay .ready .ready).collector.linkTimer = none := by decide +kernel

/-- Counts 0, 13, 14 and 15, and a TAKE NOTICE that removes the kind. -/
theorem witness_NoticeRaisesItsCount :
    let many (n : Nat) : State := (List.range n).foldl (fun s _ => s.notice 3 .pieceCut) State.reset
    (many 0).noticeCount 3 NoticeKind.pieceCut.index = 0 ∧ (many 13).noticeCount 3 NoticeKind.pieceCut.index < 14 ∧
    (many 14).noticeCount 3 NoticeKind.pieceCut.index = 14 ∧ (many 16).noticeCount 3 NoticeKind.pieceCut.index = 15 ∧
    (many 14).pins.reset = false ∧ (many 14).port.span ≠ .dropped ∧
    left (exec (.takeNotice 0 1 3) (many 14)) (fun t => t.port.response) =
      some (some ⟨1, .ok, false, [3, 17, 1, 14, 0]⟩) := by decide +kernel

/-- The first kind of slot 3 that is shown, a slot that shows none, and slot byte 10. -/
theorem witness_NoticesAreTakenUrgentFirst :
    let s := noticed3
    let k : Fin 25 := 6
    s.pins.reset = false ∧ s.port.span ≠ .dropped ∧
    (s.noticeShown 3 k = true ∧ (∀ j, s.noticeShown 3 j = true → s.classOf k = .routine → s.classOf j = .routine) ∧
      ∀ j : Fin 25, j.1 < k.1 → s.noticeShown 3 j = true → s.classOf j ≠ s.classOf k) ∧
    (∀ k, s.noticeShown 0 k = false) ∧ 10 ≤ (10 : Byte).toNat := by decide +kernel

/-! ### Witnesses: frames and laws -/

theorem witness_FramesSpellTheirRequests :
    let i := Instr.loadOrder 5 1 2 (.unknown 3 (List.replicate 38 0))
    (i.wellFormed = true ∧ (encodeRequest i).map List.length = some 43) ∧
    judgeSpan 5 [0x14, 1, 1, 8] = .request (.unbind 5 1 8) ∧
    (encodePack (.packWeigh 0 9 5 58400)).map List.length = some 14 ∧ round.pack.receiver = .hunting ∧
    judgePackFrame 7 ([6, 4, 9, 0, 0, 0, 5] ++ bytes16 (crc [6, 4, 9, 0, 0, 0, 5])) = some (.packAside 7 9 5) := by
  decide +kernel

/-- Two cuts in flight with their reservations. -/
theorem witness_ReservationsCoverEveryCut : (bay .cutting .cutting).Reserved where
  records := by decide +kernel
  places := by decide +kernel
  free := by decide +kernel
  ordered := by decide +kernel

theorem inState_iff (s : State) (i : Fin 64) (st : PieceState) :
    s.inState i st ↔ (s.record i).map (·.state) = some st := by
  unfold State.inState
  cases s.record i <;> simp

theorem open_iff (s : State) (n : Fin 9) (i : Fin 64) :
    (∃ p, s.record i = some p ∧ p.state = .opened ∧ p.station = n) ↔
      (s.record i).map (fun p => (p.state, p.station)) = some (.opened, n) := by
  cases s.record i <;> simp

/-- A panel QUEUED behind a coil, a coil at the scale, and a coil and a panel open at their stations. -/
def custodyBay : State :=
  let s := bay .cutting .running
  { s with
    table := { s.table with
      records := ((s.table.records.set 20 (some (piece .queued 20 (.coil (coil 0))))).set 21
        (some (piece .queued 21 (.panel (panel 1))))).set 22 (some (piece .atScale 22 (.coil (coil 0)))) }
    pack := { s.pack with queue := [20, 21], scale := some 22, scaleTimer := some ⟨40000, 120000⟩ } }

theorem witness_PiecesStayInCustody :
    custodyBay.Reserved ∧ custodyBay.Custody ∧ custodyBay.placesInUse ≤ 8 ∧
    (after (step { custodyBay with pending := [.packNext 0] })).isSome = true := by
  refine ⟨⟨by decide +kernel, by decide +kernel, by decide +kernel, by decide +kernel⟩,
    ⟨by decide +kernel, ?_, ?_, ?_, by decide +kernel⟩, by decide +kernel, by decide +kernel⟩
  · simp only [inState_iff]
    decide +kernel
  · simp only [inState_iff]
    decide +kernel
  · simp only [open_iff]
    decide +kernel

theorem custodyBay_workHasPiece : custodyBay.WorkHasPiece := by
  unfold State.WorkHasPiece; decide +kernel

theorem custodyBay_serialsDiffer : custodyBay.SerialsDiffer := by
  have h : ∀ i j, (custodyBay.record i).isSome = true → (custodyBay.record j).isSome = true →
      (custodyBay.record i).map (·.serial) = (custodyBay.record j).map (·.serial) → i = j := by decide +kernel
  intro i j p q hp hq e
  exact h i j (by rw [hp]; rfl) (by rw [hq]; rfl) (by rw [hp, hq]; exact congrArg some e)

theorem witness_NamedOrdersStayLoaded : custodyBay.OrdersStand := by
  refine ⟨?_, by decide +kernel, by decide +kernel⟩
  have h : ∀ i, (custodyBay.record i).all (fun p => (custodyBay.orderAt p.slot).isSome) = true := by decide +kernel
  intro i p hp
  have := h i
  rw [hp] at this
  exact Option.isSome_iff_ne_none.mp this

theorem witness_StoppedMachinesStayStopped :
    waitingBay.QueueStands ∧ custodyBay.StoppedStand ∧ custodyBay.PermitsStand ∧ custodyBay.QueueStands := by
  refine ⟨⟨by decide +kernel, by decide +kernel⟩, ⟨?_, by decide +kernel⟩, ⟨by decide +kernel, by decide +kernel⟩,
    ⟨by decide +kernel, by decide +kernel⟩⟩
  have h : ∀ l, (custodyBay.station (ofLay l)).state ≠ .running →
      (custodyBay.lay l).demand = 0 ∧ (custodyBay.lay l).stall = none := by decide +kernel
  exact h

/-- Station 3 holds for HALTED and FAULT, and the loom cuts with FAULT, under the reactions at their defaults. -/
theorem reasons_stand :
    let s := ((bay .holding .cutting).modReasons 3 fun _ => ⟨true, true, false⟩).modReasons 8 fun _ => ⟨false, true, false⟩
    s.params.FloorsStand ∧ s.ReasonsStand :=
  ⟨⟨fun k => by cases k <;> decide +kernel, by decide +kernel⟩, ⟨by decide +kernel, by decide +kernel⟩⟩

/-- Three entries: two of the panel of record 9, which is QUEUED, and one of the loom's open panel. -/
def mendBay : State :=
  (rows 125 0 threeEntries { panel 124 with unmended := 1 }).setRecord 9
    (some (piece .queued 9 (.panel { panel 600 with unmended := 2 })))

theorem mends_stand : mendBay.MendsStand := by
  have hc : ∀ i, (mendBay.record i).all (fun p => match p.body with
      | .coil _ => true
      | .panel q => q.unmended == mendBay.inspector.mends.countP (·.panel == i)) = true := by decide +kernel
  have hn : ∀ e ∈ mendBay.inspector.mends, (mendBay.record e.panel).any (fun p => match p.body with
      | .coil _ => false
      | .panel _ => true) = true := by decide +kernel
  refine ⟨by decide +kernel, fun e he => ?_, fun i p q hp hq => ?_⟩
  · have := hn e he
    cases hr : mendBay.record e.panel with
    | none => simp [hr] at this
    | some p => cases hb : p.body with
      | coil c => simp [hr, hb] at this
      | panel q => exact ⟨p, q, rfl, hb⟩
  · have := hc i
    rw [hp] at this
    simpa [hq] using this

theorem witness_ListsAndCountsStayWithinLimits : State.reset.WithinLimits := by
  refine ⟨?_, ?_, ?_, by decide +kernel, by decide +kernel, by decide +kernel, by decide +kernel⟩
  · have h : ∀ l, (State.reset.lay l).tracker.ring.length ≤ Config.ringSize ∧
        (State.reset.lay l).tracker.count.natAbs ≤ 2147483647 := by decide +kernel
    exact h
  · have h : ∀ i, State.reset.record i = none := by decide +kernel
    intro i p hp
    rw [h i] at hp
    cases hp
  · exact ⟨by decide +kernel, by decide +kernel, by decide +kernel⟩

end Sys2Proof.Tests
end

