-- ==== Sys2Proof/Proofs/Halt.lean ====
section
/-!
PROOF. HALT (R18): what a hold reason does at a station in each state, what a machine that holds leaves alone, and where
a cut leaves a station that was halted during it.
-/
namespace Sys2Proof.Machine

/-! ### Station numbers and commands -/

/-- The byte of a station number names that station (R9). -/
@[simp] theorem stationOf_ofNat (n : Fin 9) : stationOf (BitVec.ofNat 8 n.1) = some n := by
  have e : (BitVec.ofNat 8 n.1).toNat = n.1 := by
    rw [BitVec.toNat_ofNat]
    exact Nat.mod_eq_of_lt (by omega)
  unfold stationOf
  simp [e]

theorem exec_halt (dt : Nat) (tag b : Byte) (s : State) :
    exec (.halt dt tag b) s = hostRequest dt tag (fun u => u.haltRequest b) s := rfl

theorem exec_cutDone (dt : Nat) (n : Fin 9) (edge : Edge) (s : State) :
    exec (.cutDone dt n edge) s = execCutDone dt n edge s := rfl

theorem haltRequest_of_bound {s : State} {n : Fin 9} (h : (s.station n).state ≠ .unbound) :
    s.haltRequest (BitVec.ofNat 8 n.1) = ⟨s.addReason n fun r => { r with halted := true }, .ok, []⟩ := by
  simp [State.haltRequest, h]

theorem haltRequest_of_unbound {s : State} {n : Fin 9} (h : (s.station n).state = .unbound) :
    s.haltRequest (BitVec.ofNat 8 n.1) = s.refuse .notBound := by
  simp [State.haltRequest, h]

/-- HALT of a bound station adds HALTED, as far as the station's state takes a reason, and is answered OK. -/
theorem exec_halt_of_bound {s : State} {n : Fin 9} (dt : Nat) (tag : Byte) (hr : s.pins.reset = false)
    (hs : s.port.span ≠ .dropped) (h : (s.station n).state ≠ .unbound) :
    exec (.halt dt tag (BitVec.ofNat 8 n.1)) s =
      .next (((s.elapse dt).addReason n fun r => { r with halted := true }).responded tag s.unread .ok []) := by
  have e : (s.elapse dt).haltRequest (BitVec.ofNat 8 n.1) = _ := haltRequest_of_bound h
  rw [exec_halt, hostRequest_taken hr hs, State.takeRequest, e]
  rfl

theorem exec_halt_of_unbound {s : State} {n : Fin 9} (dt : Nat) (tag : Byte) (hr : s.pins.reset = false)
    (hs : s.port.span ≠ .dropped) (h : (s.station n).state = .unbound) :
    exec (.halt dt tag (BitVec.ofNat 8 n.1)) s = .next (s.answeredOnly dt tag .notBound []) := by
  have e : (s.elapse dt).haltRequest (BitVec.ofNat 8 n.1) = _ := haltRequest_of_unbound h
  rw [exec_halt, hostRequest_taken hr hs, State.takeRequest, e]
  rfl

/-! ### A hold reason by the state of its station (R11) -/

section
variable {s : State} {n : Fin 9} (f : Reasons → Reasons)

theorem addReason_of_running (h : (s.station n).state = .running) :
    s.addReason n f = (s.modReasons n f).leaveFor n .holding := by
  simp [State.addReason, h]

theorem addReason_of_held (h : (s.station n).state = .holding ∨ (s.station n).state = .cutting) :
    s.addReason n f = s.modReasons n f := by
  rcases h with h | h <;> simp [State.addReason, h]

theorem addReason_of_stopped (h : (s.station n).state = .ready ∨ (s.station n).state = .tripped) :
    s.addReason n f = s := by
  rcases h with h | h <;> simp [State.addReason, h]

end

/-! ### A machine that stops (R17) -/

theorem LayStation.stop_eq (l : LayStation) : l.stop = { l with demand := 0, stall := none, lastPulse := none } := rfl

/-- A change of station state reaches the stations, the lay stations' records and the inspector alone. -/
theorem leaveFor_frame (s : State) (n : Fin 9) (st : StationState) :
    s.leaveFor n st = { s with
      stations := (s.leaveFor n st).stations, lays := (s.leaveFor n st).lays
      inspector := (s.leaveFor n st).inspector } := by
  unfold State.leaveFor State.stopMachine
  split <;> [split; skip] <;> rfl

/-- The six conditions of R92 tell RUNNING and HOLDING apart from the other states, and not from each other; beside the
station's state they read the clocks, the parameters, the arbiter and the piece table. -/
theorem eligible_congr {s t : State} {n : Fin 9}
    (hs : (s.station n).state = .running ∨ (s.station n).state = .holding)
    (ht : (t.station n).state = .running ∨ (t.station n).state = .holding) (hc : t.clocks = s.clocks)
    (hp : t.params = s.params) (ha : t.arbiter = s.arbiter) (hr : t.table = s.table) :
    t.eligible n = s.eligible n := by
  have may {u : State} (h : (u.station n).state = .running ∨ (u.station n).state = .holding) :
      ((u.station n).state == .running || (u.station n).state == .holding) = true := by simpa using h
  have window : t.windowCount = s.windowCount := by unfold State.windowCount State.ageOf; rw [hc, hp, ha]
  have younger : t.younger = s.younger := by funext time seconds; unfold State.younger State.ageOf; rw [hc]
  have lane : t.laneBlocked = s.laneBlocked := by funext l; unfold State.laneBlocked; rw [younger, hp, ha]
  have gap : t.anyBlocked = s.anyBlocked := by unfold State.anyBlocked; rw [younger, hp, ha]
  have places : t.placesInUse = s.placesInUse := by unfold State.placesInUse State.countIn; rw [ha, hr]
  have figure : t.figure = s.figure := by unfold State.figure State.freeCount; rw [ha, hr]
  have ofLane : t.stationParams n = s.stationParams n := by unfold State.stationParams; rw [hp]
  unfold State.eligible
  rw [may hs, may ht, window, lane, gap, places, figure, ofLane, hp]

section
variable {s : State} {n : Fin 9} (f : Reasons → Reasons)

/-- A RUNNING station that gains a hold reason holds with it, its order and piece as they were (R11). -/
theorem addReason_running_station (h : (s.station n).state = .running) :
    (((s.addReason n f).station n).state = .holding ∧ ((s.addReason n f).station n).order = (s.station n).order ∧
      ((s.addReason n f).station n).piece = (s.station n).piece ∧
      ((s.addReason n f).station n).reasons = f (s.station n).reasons) ∧
    ∀ m, m ≠ n → (s.addReason n f).station m = s.station m := by
  rw [addReason_of_running f h]
  refine ⟨?_, fun m hm => ?_⟩
  · simp [leaveFor_station]
  · simp [leaveFor_station, hm]

theorem addReason_running_lay (h : (s.station n).state = .running) (l : Fin 8) :
    (s.addReason n f).lay l =
      if n = ofLay l then { s.lay l with demand := 0, stall := none, lastPulse := none } else s.lay l := by
  rw [addReason_of_running f h, leaveFor_lay, ← LayStation.stop_eq]
  simp [h]

theorem addReason_running_inspector (h : (s.station n).state = .running) :
    (s.addReason n f).inspector = if n = loom then { s.inspector with rowTimer := none } else s.inspector := by
  rw [addReason_of_running f h, leaveFor_inspector]
  simp [h]

theorem addReason_running_frame (h : (s.station n).state = .running) :
    s.addReason n f = { s with
      stations := (s.addReason n f).stations, lays := (s.addReason n f).lays
      inspector := (s.addReason n f).inspector } := by
  rw [addReason_of_running f h]
  exact leaveFor_frame (s.modReasons n f) n .holding

/-- A machine that holds keeps its place with the arbiter (R92). -/
theorem addReason_running_eligible (h : (s.station n).state = .running) :
    (s.addReason n f).eligible n = s.eligible n := by
  obtain ⟨⟨holds, -⟩, -⟩ := addReason_running_station f h
  have kept := steady_addReason s n f
  have frame := addReason_running_frame f h
  exact eligible_congr (.inl h) (.inr holds) kept.clocks kept.params (by rw [frame]) (by rw [frame])

/-- RUNNING and HOLDING both give a permit (R10, R158). -/
theorem addReason_running_permitGiven (h : (s.station n).state = .running) :
    (s.addReason n f).permitGiven n = s.permitGiven n := by
  obtain ⟨⟨holds, -⟩, -⟩ := addReason_running_station f h
  simp [State.permitGiven, (steady_addReason s n f).port, holds, h, StationState.permitted]

/-- A HOLDING or CUTTING station gains the reason and nothing else (R11). -/
theorem addReason_held_station (h : (s.station n).state = .holding ∨ (s.station n).state = .cutting) :
    (s.addReason n f).station n = { s.station n with reasons := f (s.station n).reasons } ∧
    ∀ m, m ≠ n → (s.addReason n f).station m = s.station m := by
  rw [addReason_of_held f h]
  refine ⟨?_, fun m hm => ?_⟩
  · simp
  · simp [hm]

theorem addReason_held_frame (h : (s.station n).state = .holding ∨ (s.station n).state = .cutting) :
    s.addReason n f = { s with stations := (s.addReason n f).stations } := by
  rw [addReason_of_held f h]
  rfl

end

/-! ### The cut of a halted station (R98) -/

theorem highTest_station (s : State) (m : Fin 9) : s.highTest.station m = s.station m := by
  unfold State.highTest
  split <;> [skip; split] <;> rfl

theorem noticeCut_station (s : State) (n m : Fin 9) (joined : Bool) :
    (s.noticeCut n joined).station m = s.station m := by
  unfold State.noticeCut
  split
  · rw [highTest_station, State.notice_station]
  · rw [State.notice_station]

/-- A completed cut leaves its station in HOLDING where HALTED stands among the reasons: step 4 of R98 takes OVERRUN
alone. -/
theorem completeCut_holds_of_halted {s t : State} {n : Fin 9} (e : s.completeCut n = some t)
    (hh : (s.station n).reasons.halted = true) : (t.station n).state = .holding := by
  obtain ⟨slot, i, -, -, rfl⟩ := completeCut_cases e
  simp [finishCut_station, openInto_station, closeOld_station, Reasons.any, hh]

/-- A cut done at a CUTTING station with HALTED leaves it in HOLDING. -/
theorem cutDone_holds_of_halted {s v : State} {n : Fin 9} {dt : Nat} (hr : s.pins.reset = false)
    (hc : (s.station n).state = .cutting) (hh : (s.station n).reasons.halted = true)
    (e : exec (.cutDone dt n (s.stationParams n).cutEdge) s = .next v) : (v.station n).state = .holding := by
  have arrives : exec (.cutDone dt n (s.stationParams n).cutEdge) s = (s.elapse dt).cutDoneAt n := by
    simp [exec_cutDone, execCutDone, hr]
  rw [arrives, State.cutDoneAt, State.elapse_station, hc] at e
  dsimp only at e
  split at e
  · rename_i t ht
    cases e
    rw [noticeCut_station]
    exact completeCut_holds_of_halted ht hh
  · cases e

/-! ### The statement -/

/-- Settles O18. A bound station's HALT is a hold reason added (R11), so each clause is the rule of a reason at a
station in that state; the clause on the cut adds that HALTED outlasts it. -/
theorem haltHoldsWithoutEndingPiece : Obligations.HaltHoldsWithoutEndingPiece := by
  intro s dt tag n hr hs
  refine ⟨fun running => ?running, fun held => ?held, fun stopped => ?stopped, fun cutting u v dt' hu hv => ?cut,
    exec_halt_of_unbound dt tag hr hs⟩
  case running =>
    have h : ((s.elapse dt).station n).state = .running := running
    obtain ⟨⟨holds, order, piece, reasons⟩, others⟩ :=
      addReason_running_station (fun r => { r with halted := true }) h
    exact ⟨_, exec_halt_of_bound dt tag hr hs (by simp [running]), holds, order, piece, reasons,
      by simp [State.holdOn, holds], addReason_running_permitGiven _ h, addReason_running_eligible _ h, others,
      addReason_running_lay _ h, addReason_running_inspector _ h, addReason_running_frame _ h⟩
  case held =>
    have h : ((s.elapse dt).station n).state = .holding ∨ ((s.elapse dt).station n).state = .cutting := held
    obtain ⟨own, others⟩ := addReason_held_station (fun r => { r with halted := true }) h
    exact ⟨_, exec_halt_of_bound dt tag hr hs (by rcases held with e | e <;> simp [e]), own, others,
      addReason_held_frame _ h⟩
  case stopped =>
    rw [exec_halt_of_bound dt tag hr hs (by rcases stopped with e | e <;> simp [e]),
      addReason_of_stopped (s := s.elapse dt) _ stopped]
    rfl
  case cut =>
    have h : ((s.elapse dt).station n).state = .holding ∨ ((s.elapse dt).station n).state = .cutting := .inr cutting
    obtain ⟨own, -⟩ := addReason_held_station (fun r => { r with halted := true }) h
    rw [exec_halt_of_bound dt tag hr hs (by simp [cutting])] at hu
    cases hu
    refine cutDone_holds_of_halted ?_ ?_ ?_ hv
    · exact (congrArg Pins.reset (steady_addReason (s.elapse dt) n _).pins).trans hr
    · exact (congrArg Station.state own).trans cutting
    · exact congrArg (·.reasons.halted) own

end Sys2Proof.Machine
end

