-- ==== Sys2Proof/Proofs/FirstMark.lean ====
section
/-!
PROOF. The first mark in RUNNING (R30): a write that gives a record what it held, a mark that leaves the coil's quality
fields as they stand, and the arrival of a mark that is processed.
-/
namespace Sys2Proof.Machine

/-! ### Writes that change nothing -/

theorem setRecord_record_self (s : State) (i : Fin 64) : s.setRecord i (s.record i) = s := by
  have e : s.table.records.set i.1 (s.record i) = s.table.records := Vector.set_getElem_self i.2
  rw [State.setRecord, e]

theorem modPiece_eq_self {s : State} {i : Fin 64} {f : Piece → Piece} (h : ∀ p, s.record i = some p → f p = p) :
    s.modPiece i f = s := by
  have e : (s.record i).map f = s.record i := (Option.map_congr h).trans Option.map_id'
  rw [State.modPiece, e, setRecord_record_self]

theorem modCoil_eq_self {s : State} {i : Fin 64} {f : Coil → Coil}
    (h : ∀ p c, s.record i = some p → p.body = .coil c → f c = c) : s.modCoil i f = s := by
  refine modPiece_eq_self fun p hp => ?_
  split
  · rename_i c hb
    rw [h p c hp hb, ← hb]
  · rfl

/-- A station without an open coil has no quality fields to write, whatever is written. -/
theorem setOpenQuality_openQuality (s : State) (n : Fin 9) : s.setOpenQuality n (s.openQuality n) = s := by
  unfold State.setOpenQuality
  split
  · rename_i i hi
    refine modCoil_eq_self fun p c hp hb => ?_
    have e : s.openQuality n = c.quality := by
      simp [State.openQuality, State.openPiece?, hi, hp, hb, Piece.coil?]
    rw [e]
  · rfl

/-! ### A mark that is processed (R27, R30) -/

theorem exec_flyerMark_markEdge {s : State} (dt : Nat) (l : Fin 8) (hr : s.pins.reset = false) :
    exec (.flyerMark dt l (s.layParams l).markEdge) s = .next ((s.elapse dt).markAt l) := by
  have arm : exec (.flyerMark dt l (s.layParams l).markEdge) s = execFlyerMark dt l (s.layParams l).markEdge s := rfl
  simp [arm, execFlyerMark, lineArrival, hr]

theorem markAt_of_running {s : State} {l : Fin 8} {f : RopeOrder} {c : LayConsts}
    (hs : (s.station (ofLay l)).state = .running) (hf : s.rope (ofLay l) = some f) (hc : (s.lay l).consts = some c) :
    s.markAt l = s.afterMark l ⟨s.layParams l, f, c⟩
      (markArrival ⟨s.layParams l, f, c⟩ (s.lay l).tracker (s.openQuality (ofLay l)) s.clocks.mark) := by
  simp [State.markAt, State.markFrame, hs, hf, hc]

theorem markArrival_first {k : Tracker} (m : MarkFrame) (q : LayQuality) (t : Word32) (h : k.tPrev = none) :
    markArrival m k q t = ⟨k.close t, q, none, []⟩ := by
  simp [markArrival, h]

/-- A mark that computes no demand and leaves the quality fields writes the tracker and the stall timer alone, and then
its faults are taken. -/
theorem afterMark_of_unintegrated (s : State) (l : Fin 8) (m : MarkFrame) (k : Tracker) (faults : List FaultKind) :
    s.afterMark l m ⟨k, s.openQuality (ofLay l), none, faults⟩ =
      (s.modLay l fun x => { x with tracker := k, stall := some (s.markTimer m.params.tMax) }).raiseAll
        (ofLay l) faults := by
  exact congrArg (fun u => u.raiseAll (ofLay l) faults) (setOpenQuality_openQuality (s.modLay l _) (ofLay l))

/-- A first mark is only closed at its reading, which writes neither the coil's quality fields nor the demand and raises
nothing (R30, R38). -/
theorem markAt_first {s : State} {l : Fin 8} {f : RopeOrder} {c : LayConsts}
    (hs : (s.station (ofLay l)).state = .running) (hf : s.rope (ofLay l) = some f) (hc : (s.lay l).consts = some c)
    (first : (s.lay l).tracker.tPrev = none) :
    s.markAt l = s.modLay l fun x => { x with
      tracker := (s.lay l).tracker.close s.clocks.mark, stall := some (s.markTimer (s.layParams l).tMax) } := by
  rw [markAt_of_running hs hf hc, markArrival_first _ _ _ first, afterMark_of_unintegrated]
  rfl

/-! ### The statement -/

/-- Settles O21. An edge in the direction of the mark edge parameter is a mark (R27), and at a RUNNING station whose
t_prev is absent the first one, at the reading to which the clock has come. -/
theorem firstMarkBeginsTiming : Obligations.FirstMarkBeginsTiming := by
  intro s dt l f c hr hs hf hc first
  have processed := markAt_first (s := s.elapse dt) hs hf hc first
  rw [exec_flyerMark_markEdge dt l hr, processed]
  rfl

end Sys2Proof.Machine
end

