-- ==== Sys2Proof/Proofs/SensedRow.lean ====
section
/-!
PROOF. The runs of a sensed row (R72): the hooks of a missing set, its runs built up from the last hook downwards, and a
sense word that misses no hook.
-/
namespace Sys2Proof.Machine

/-! ### The missing set (R67, R72) -/

/-- Of 64 hooks, the mask of the hooks in use keeps those below their number. -/
theorem hooksInUse_getLsbD {hooks : Nat} (hh : hooks ≤ 64) (h : Nat) :
    (BitVec.ofNat 64 (2 ^ hooks - 1)).getLsbD h = decide (h < hooks) := by
  rw [BitVec.getLsbD_ofNat, Nat.testBit_two_pow_sub_one, ← Bool.decide_and]
  exact decide_eq_decide.mpr ⟨And.right, fun below => ⟨by omega, below⟩⟩

theorem missingSet_getLsbD (level : KnotLevel) {hooks : Nat} (word : BitVec 64) (h : Nat) (hh : hooks ≤ 64) :
    (missingSet level hooks word).getLsbD h = true ↔ h < hooks ∧ word.getLsbD h = decide (level = .low) := by
  unfold missingSet
  rw [BitVec.getLsbD_and, hooksInUse_getLsbD hh]
  cases level with
  | low => simp [and_comm]
  | high =>
    rw [BitVec.getLsbD_not]
    simp only [Bool.and_eq_true, decide_eq_true_eq, Bool.not_eq_true', reduceCtorEq, decide_false]
    exact ⟨fun ⟨⟨_, miss⟩, below⟩ => ⟨below, miss⟩, fun ⟨below, miss⟩ => ⟨⟨by omega, miss⟩, below⟩⟩

/-! ### One hook more (R72) -/

theorem addHook_of_knotted {missing : BitVec 64} {h : Nat} (knot : missing.getLsbD h = false) (runs : List Run) :
    addHook missing h runs = runs := by
  simp [addHook, knot]

theorem addHook_extends {missing : BitVec 64} {h : Nat} (miss : missing.getLsbD h = true) {run : Run}
    (next : run.first = h + 1) (rest : List Run) :
    addHook missing h (run :: rest) = ⟨h, run.span + 1⟩ :: rest := by
  simp [addHook, miss, next]

/-- A missing hook that no run follows at once is a run of its own. -/
theorem addHook_starts {missing : BitVec 64} {h : Nat} (miss : missing.getLsbD h = true) {runs : List Run}
    (clear : ∀ r ∈ runs, r.first ≠ h + 1) : addHook missing h runs = ⟨h, 1⟩ :: runs := by
  cases runs with
  | nil => simp [addHook, miss]
  | cons run rest => simp [addHook, miss, clear run List.mem_cons_self]

/-! ### Maximal groups of adjacent hooks (R72) -/

/-- Hook h is one of the run's. -/
def Run.Holds (r : Run) (h : Nat) : Prop := r.first ≤ h ∧ h < r.first + r.span

/-- The runs are the maximal groups of adjacent hooks among the missing hooks from lo up, in ascending order. -/
structure MaximalFrom (missing : BitVec 64) (lo : Nat) (runs : List Run) : Prop where
  apart : runs.Pairwise fun a b => a.first + a.span < b.first
  within : ∀ r ∈ runs, lo ≤ r.first ∧ 1 ≤ r.span ∧ r.first + r.span ≤ 64
  covers : ∀ h, lo ≤ h → (missing.getLsbD h = true ↔ ∃ r ∈ runs, r.Holds h)

namespace MaximalFrom
variable {missing : BitVec 64} {h : Nat}

/-- No hook stands past the 64th. -/
theorem none_left (missing : BitVec 64) : MaximalFrom missing 64 [] where
  apart := .nil
  within := by simp
  covers h past := by simp [BitVec.getLsbD_of_ge missing h past]

theorem skip {runs : List Run} (m : MaximalFrom missing (h + 1) runs) (knot : missing.getLsbD h = false) :
    MaximalFrom missing h runs where
  apart := m.apart
  within r hr := by
    obtain ⟨start, size⟩ := m.within r hr
    exact ⟨by omega, size⟩
  covers j hj := by
    obtain rfl | above := Nat.eq_or_lt_of_le hj
    · simp only [knot, Bool.false_eq_true, false_iff, not_exists, not_and]
      intro r hr held
      have := m.within r hr
      unfold Run.Holds at held
      omega
    · exact m.covers j above

/-- A run that starts at a missing hook, put first: above that hook, it and the rest must hold the hooks that the runs
before them held. -/
theorem prepend {old rest : List Run} {new : Run} (m : MaximalFrom missing (h + 1) old)
    (miss : missing.getLsbD h = true) (first : new.first = h) (size : 1 ≤ new.span ∧ h + new.span ≤ 64)
    (kept : ∀ r ∈ rest, r ∈ old) (ordered : rest.Pairwise fun a b => a.first + a.span < b.first)
    (clear : ∀ r ∈ rest, h + new.span < r.first)
    (same : ∀ j, h + 1 ≤ j → ((∃ r ∈ old, r.Holds j) ↔ new.Holds j ∨ ∃ r ∈ rest, r.Holds j)) :
    MaximalFrom missing h (new :: rest) where
  apart := List.pairwise_cons.mpr ⟨fun r hr => first ▸ clear r hr, ordered⟩
  within r hr := by
    obtain rfl | hr := List.mem_cons.mp hr
    · omega
    · have := m.within r (kept r hr)
      omega
  covers j hj := by
    rw [List.exists_mem_cons_iff]
    obtain rfl | above := Nat.eq_or_lt_of_le hj
    · exact iff_of_true miss (.inl ⟨by omega, by omega⟩)
    · exact (m.covers j above).trans (same j above)

theorem start {runs : List Run} (m : MaximalFrom missing (h + 1) runs) (hh : h < 64)
    (miss : missing.getLsbD h = true) (clear : ∀ r ∈ runs, r.first ≠ h + 1) :
    MaximalFrom missing h (⟨h, 1⟩ :: runs) := by
  refine m.prepend miss rfl ⟨Nat.le_refl 1, hh⟩ (fun _ hr => hr) m.apart (fun r hr => ?_) fun j above => ?_
  · have := m.within r hr
    have := clear r hr
    show h + 1 < r.first
    omega
  · have alone : ¬ (⟨h, 1⟩ : Run).Holds j := fun ⟨_, last⟩ => absurd last (by dsimp only; omega)
    simp [alone]

theorem extend {run : Run} {rest : List Run} (m : MaximalFrom missing (h + 1) (run :: rest))
    (miss : missing.getLsbD h = true) (next : run.first = h + 1) :
    MaximalFrom missing h (⟨h, run.span + 1⟩ :: rest) := by
  obtain ⟨apart, ordered⟩ := List.pairwise_cons.mp m.apart
  have size := m.within run List.mem_cons_self
  refine m.prepend miss rfl ⟨by dsimp only; omega, by dsimp only; omega⟩ (fun _ => List.mem_cons_of_mem run) ordered
    (fun r hr => ?_) fun j above => ?_
  · have := apart r hr
    dsimp only
    omega
  · have grown : run.Holds j ↔ (⟨h, run.span + 1⟩ : Run).Holds j := by
      unfold Run.Holds
      dsimp only
      omega
    rw [List.exists_mem_cons_iff, grown]

/-- The runs come in ascending order, so only the first of them can start right after the hook. -/
theorem addHook {runs : List Run} (m : MaximalFrom missing (h + 1) runs) (hh : h < 64) :
    MaximalFrom missing h (addHook missing h runs) := by
  cases miss : missing.getLsbD h with
  | false =>
    rw [addHook_of_knotted miss]
    exact m.skip miss
  | true =>
    by_cases clear : ∀ r ∈ runs, r.first ≠ h + 1
    · rw [addHook_starts miss clear]
      exact m.start hh miss clear
    · cases runs with
      | nil => simp at clear
      | cons run rest =>
        have next : run.first = h + 1 := by
          by_contra later
          refine clear (List.forall_mem_cons.mpr ⟨later, fun r hr => ?_⟩)
          have := List.rel_of_pairwise_cons m.apart hr
          have := m.within run List.mem_cons_self
          omega
        rw [addHook_extends miss next]
        exact m.extend miss next

theorem foldr_addHook (missing : BitVec 64) (n : Nat) :
    ∀ lo, lo + n = 64 → MaximalFrom missing lo ((List.range' lo n).foldr (Machine.addHook missing) []) := by
  induction n with
  | zero =>
    intro lo e
    obtain rfl : lo = 64 := e
    exact none_left missing
  | succ n ih =>
    intro lo e
    exact (ih (lo + 1) (by omega)).addHook (by omega)

end MaximalFrom

theorem runsOf_maximal (missing : BitVec 64) : MaximalFrom missing 0 (runsOf missing) := by
  rw [runsOf, List.range_eq_range']
  exact .foldr_addHook missing 64 0 rfl

/-- A run would hold its first hook, which is not missing. -/
@[simp] theorem runsOf_zero : runsOf 0#64 = [] := by
  refine List.eq_nil_iff_forall_not_mem.mpr fun r hr => ?_
  have m := runsOf_maximal 0#64
  obtain ⟨-, size, -⟩ := m.within r hr
  have missed := (m.covers r.first (Nat.zero_le _)).mpr ⟨r, hr, Nat.le_refl _, by omega⟩
  simp at missed

/-! ### A word that misses no hook (R72 to R78) -/

@[simp] theorem touches_zero (first span : Nat) : touches 0#64 first span = false := by
  simp [touches]

@[simp] theorem upgrades_zero (prev : PrevRow) (e : MendEntry) : upgrades prev 0#64 e = false := by
  simp [upgrades]

@[simp] theorem upgradeEntries_zero (prev : Option PrevRow) (old : List MendEntry) :
    upgradeEntries prev 0#64 old = old := by
  cases prev <;> simp [upgradeEntries]

@[simp] theorem upgradeCount_zero (prev : Option PrevRow) (old : List MendEntry) : upgradeCount prev 0#64 old = 0 := by
  cases prev <;> simp [upgradeCount]

@[simp] theorem raisesHole_zero (x : Inspector) (a : AwaitRow) : raisesHole x a 0#64 = false := by
  simp [raisesHole]

@[simp] theorem hookDies_zero (hooks dead : Nat) (counts : Vector Nat 64) :
    hookDies 0#64 hooks dead counts = false := by
  simp [hookDies]

theorem hookCounts_zero {hooks : Nat} (dead : Nat) (counts : Vector Nat 64) {h : Fin 64} (used : h.1 < hooks) :
    (hookCounts 0#64 hooks dead counts)[h] = 0 := by
  simp [hookCounts, used]

/-- The row closes and the counters are taken; no entry is made or upgraded. -/
theorem sortWord_zero_inspector (x : Sorting) (a : AwaitRow) (hooks dead : Nat) :
    (sortWord x a 0#64 hooks dead).inspector = { x.inspector with
      hookMiss := hookCounts 0#64 hooks dead x.inspector.hookMiss
      previous := some ⟨a.panel, a.serial, a.row, 0#64⟩, awaiting := none } := by
  simp [sortWord]

theorem handOn_nothing (s : State) : s.handOn false false false false = s := rfl

/-- A word without a miss raises nothing and notices nothing (R77, R78). -/
theorem senseRow_zero_inspector (s : State) (a : AwaitRow) (q : Panel) (hooks dead : Nat) :
    (s.senseRow a q 0#64 hooks dead).inspector = { s.inspector with
      hookMiss := hookCounts 0#64 hooks dead s.inspector.hookMiss
      previous := some ⟨a.panel, a.serial, a.row, 0#64⟩, awaiting := none } := by
  rw [← sortWord_zero_inspector ⟨s.inspector, q⟩]
  simp [State.senseRow, handOn_nothing, State.modInspector]

section
variable {s : State} (word : BitVec 64) {a : AwaitRow} {f : NetOrder} {q : Panel}

/-- A sense word against an awaiting row whose panel the table holds (R71). -/
theorem senseAt_row (ha : s.inspector.awaiting = some a) (hf : s.net loom = some f)
    (hq : s.panelAt a.panel a.serial = some q) :
    s.senseAt word = s.senseRow a q (missingSet s.params.loom.knotLevel f.hooks word) f.hooks f.deadRows := by
  simp [State.senseAt, ha, hf, hq]

theorem exec_senseWord_row (dt : Nat) (hr : s.pins.reset = false) (hs : (s.station loom).state ≠ .unbound)
    (ha : s.inspector.awaiting = some a) (hf : s.net loom = some f) (hq : s.panelAt a.panel a.serial = some q) :
    exec (.senseWord dt word) s =
      .next ((s.elapse dt).senseRow a q (missingSet s.params.loom.knotLevel f.hooks word) f.hooks f.deadRows) := by
  have arm : exec (.senseWord dt word) s = execSenseWord dt word s := rfl
  have taken : exec (.senseWord dt word) s = .next ((s.elapse dt).senseAt word) := by
    simp [arm, execSenseWord, lineArrival, hr, State.bound, hs]
  rw [taken, senseAt_row (s := s.elapse dt) word ha hf hq]
  rfl

end

/-! ### The statement -/

/-- Settles O33. The runs of the hooks from h up are maximal if those from h + 1 up were, by induction from the 64th
hook down; an empty set has no run, so the sort of its word only closes the row and takes the counters. -/
theorem runsAreMaximalGroups : Obligations.RunsAreMaximalGroups := by
  refine ⟨fun level hooks word h => missingSet_getLsbD level word h, fun missing => ?runs, runsOf_zero,
    fun s dt word a f q hr hs ha hf hq empty => ?emptyRow⟩
  case runs =>
    have m := runsOf_maximal missing
    exact ⟨m.apart, fun r hr => (m.within r hr).2, fun h => m.covers h (Nat.zero_le h)⟩
  case emptyRow =>
    have noMiss : missingSet s.params.loom.knotLevel f.hooks word = 0#64 := empty
    have sensed := exec_senseWord_row word dt hr hs ha hf hq
    rw [noMiss] at sensed
    refine ⟨_, sensed, ?_⟩
    rw [senseRow_zero_inspector]
    exact ⟨rfl, rfl, rfl, fun h used => hookCounts_zero f.deadRows _ used⟩

end Sys2Proof.Machine
end

