-- ==== Sys2Proof/Proofs/StrayCutDone.lean ====
section
/-!
PROOF. The stray cut-done (R100): what an arrival in the direction of the station's cut-done edge does at a station with
no cut to complete.
-/
namespace Sys2Proof.Machine

/-! ### A cut-done arrival by the state of its station (R98, R100) -/

theorem cutDoneAt_of_unbound {s : State} {n : Fin 9} (h : (s.station n).state = .unbound) :
    s.cutDoneAt n = .next s := by
  simp [State.cutDoneAt, h]

theorem cutDoneAt_of_stray {s : State} {n : Fin 9} (bound : (s.station n).state ≠ .unbound)
    (uncut : (s.station n).state ≠ .cutting) :
    s.cutDoneAt n = .next (s.notice (slotOfStation n) .strayInput) := by
  cases h : (s.station n).state with
  | unbound => exact absurd h bound
  | cutting => exact absurd h uncut
  | ready | running | holding | tripped => simp [State.cutDoneAt, h]

/-- Outside a line reset, an edge in the direction of the cut-done edge parameter is a cut-done arrival (R98). -/
theorem exec_cutDone_cutEdge {s : State} (dt : Nat) (n : Fin 9) (hr : s.pins.reset = false) :
    exec (.cutDone dt n (s.stationParams n).cutEdge) s = (s.elapse dt).cutDoneAt n := by
  simp [exec_cutDone, execCutDone, hr]

/-! ### The statement -/

/-- Settles O37. The edge is an arrival at the station as it stands, for time alone changes no station's state. -/
theorem strayCutDoneIsNoticedOnly : Obligations.StrayCutDoneIsNoticedOnly := by
  intro s dt n hr
  rw [exec_cutDone_cutEdge dt n hr]
  exact ⟨cutDoneAt_of_stray (s := s.elapse dt), cutDoneAt_of_unbound (s := s.elapse dt)⟩

end Sys2Proof.Machine
end

