-- ==== Sys2Proof/Proofs/NoticeCounts.lean ====
section
/-!
PROOF. The counts of the notices (R162): how often a kind can be noticed before its count stands still, notices in
different slots, and a notice before or after the TAKE NOTICE that removes its kind (R166).
-/
namespace Sys2Proof.Machine

/-! ### A count noticed once more (R162) -/

theorem noticed_of_lt {count : Nat} (h : count < 15) : noticed count = count + 1 := if_pos h

theorem noticed_of_full : noticed 15 = 15 := rfl

theorem noticed_pos {count : Nat} (h : 0 < count) : 0 < noticed count := by
  unfold noticed satSucc
  split <;> omega

theorem notice_noticeCount_self (s : State) (slot : Fin 10) (k : NoticeKind) :
    (s.notice slot k).noticeCount slot k.index = noticed (s.noticeCount slot k.index) := by
  rw [State.notice_noticeCount, if_pos ⟨rfl, rfl⟩]

theorem notice_noticeCount_other (s : State) {slot slot' : Fin 10} {k : NoticeKind} {k' : Fin 25}
    (h : slot' ≠ slot ∨ k' ≠ k.index) : (s.notice slot k).noticeCount slot' k' = s.noticeCount slot' k' := by
  rw [State.notice_noticeCount, if_neg (by tauto)]

/-! ### Notices in different slots (R162) -/

theorem modifyAt_comm {α : Type} {n : Nat} (v : Vector α n) {i j : Fin n} (f g : α → α) (h : i ≠ j) :
    modifyAt (modifyAt v i f) j g = modifyAt (modifyAt v j g) i f := by
  have apart : i.1 ≠ j.1 := Fin.val_ne_of_ne h
  simp only [modifyAt, Vector.getElem_set_ne _ _ apart, Vector.getElem_set_ne _ _ apart.symm]
  exact Vector.set_comm _ _ apart

theorem notice_comm (s : State) {slot slot' : Fin 10} (k k' : NoticeKind) (h : slot' ≠ slot) :
    (s.notice slot k).notice slot' k' = (s.notice slot' k').notice slot k := by
  unfold State.notice
  rw [modifyAt_comm s.notices.slots _ _ h]

/-! ### A kind removed (R166) -/

theorem removeNotice_noticeCount_self (s : State) (slot : Fin 10) (k : Fin 25) :
    (s.removeNotice slot k).noticeCount slot k = 0 := by
  simp [State.noticeCount, State.removeNotice, modifyAt]

/-- What a notice added is removed with its kind. -/
theorem removeNotice_notice (s : State) (slot : Fin 10) (k : NoticeKind) :
    (s.notice slot k).removeNotice slot k.index = s.removeNotice slot k.index := by
  simp [State.removeNotice, State.notice, modifyAt]

/-! ### The kind that TAKE NOTICE chooses (R166) -/

theorem noticeShown_of_urgentShown {s : State} {slot : Fin 10} {k : Fin 25} (h : s.urgentShown slot k = true) :
    s.noticeShown slot k = true := (Bool.and_eq_true_iff.mp h).1

theorem chooseNotice_shown {s : State} {slot : Fin 10} {k : Fin 25} (h : s.chooseNotice slot = some k) :
    s.noticeShown slot k = true := by
  unfold State.chooseNotice at h
  split at h
  · rename_i urgent found
    cases h
    exact noticeShown_of_urgentShown (List.find?_some found)
  · exact List.find?_some h

/-- A kind that is shown already is only counted once more, so the slots show what they showed. -/
theorem noticeShown_notice {s : State} {slot : Fin 10} {k : NoticeKind} (h : s.noticeShown slot k.index = true) :
    (s.notice slot k).noticeShown = s.noticeShown := by
  obtain ⟨counted, -⟩ := Bool.and_eq_true_iff.mp h
  have pending : 0 < s.noticeCount slot k.index := of_decide_eq_true counted
  funext slot' k'
  have same : 0 < (s.notice slot k).noticeCount slot' k' ↔ 0 < s.noticeCount slot' k' := by
    rw [State.notice_noticeCount]
    split
    · rename_i own
      obtain ⟨rfl, rfl⟩ := own
      exact iff_of_true (noticed_pos pending) pending
    · rfl
  simp only [State.noticeShown, same, State.notice_notices_mask]

theorem chooseNotice_notice {s : State} {slot : Fin 10} {k : NoticeKind} (h : s.chooseNotice slot = some k.index) :
    (s.notice slot k).chooseNotice slot = some k.index := by
  have shown := noticeShown_notice (chooseNotice_shown h)
  have urgent : (s.notice slot k).urgentShown slot = s.urgentShown slot := by
    funext j
    simp only [State.urgentShown, shown]
    rfl
  rw [State.chooseNotice, shown, urgent]
  exact h

/-! ### The answer of TAKE NOTICE (R166) -/

@[simp] theorem noticeSlotOf_ofNat (slot : Fin 10) : noticeSlotOf (BitVec.ofNat 8 slot.1) = some slot := by
  have e : (BitVec.ofNat 8 slot.1).toNat = slot.1 := by
    rw [BitVec.toNat_ofNat]
    exact Nat.mod_eq_of_lt (by omega)
  unfold noticeSlotOf
  simp [e]

theorem takeRequested_of_choice {s : State} {slot : Fin 10} {k : Fin 25} (h : s.chooseNotice slot = some k) :
    s.takeRequested (BitVec.ofNat 8 slot.1) = ⟨s.removeNotice slot k, .ok,
      [byteOf slot.1, byteOf (k.1 + 1), byteOf (s.classOf k).code, byteOf (s.noticeCount slot k),
        byteOf ((s.removeNotice slot k).shownCount slot)]⟩ := by
  simp [State.takeRequested, h]

/-- The codes of two kinds are different bytes (R161). -/
theorem kindByte_injective {j k : Fin 25} (h : byteOf (j.1 + 1) = byteOf (k.1 + 1)) : j = k := by
  have e := congrArg BitVec.toNat h
  simp only [byteOf, BitVec.toNat_ofNat] at e
  omega

/-- A TAKE NOTICE that is answered OK with the code of a kind has chosen that kind. -/
theorem chooseNotice_of_answer {s : State} {slot : Fin 10} {k : Fin 25} {b : Byte} {rest : List Byte}
    (ok : (s.takeRequested (BitVec.ofNat 8 slot.1)).status = .ok)
    (fields : (s.takeRequested (BitVec.ofNat 8 slot.1)).fields = b :: byteOf (k.1 + 1) :: rest) :
    s.chooseNotice slot = some k := by
  cases chosen : s.chooseNotice slot with
  | none => simp [State.takeRequested, chosen] at ok
  | some j =>
    rw [takeRequested_of_choice chosen] at fields
    injection fields with _ fields
    injection fields with code _
    rw [kindByte_injective code]

/-- TAKE NOTICE outside a line reset is judged and answered as the part stands when the time has passed. -/
theorem exec_takeNotice {s : State} (dt : Nat) (tag b : Byte) (hr : s.pins.reset = false)
    (hs : s.port.span ≠ .dropped) :
    exec (.takeNotice dt tag b) s = .next (((s.elapse dt).takeRequested b).state.responded tag s.unread
      ((s.elapse dt).takeRequested b).status ((s.elapse dt).takeRequested b).fields) :=
  hostRequest_taken hr hs

/-- The response to a request is its status and its fields, and answering moves no notice. -/
theorem responded_inj {t u : State} {tag : Byte} {prior : Bool} {st st' : Status} {fields fields' : List Byte}
    (h : t.responded tag prior st fields = u.responded tag prior st' fields') :
    t.notices = u.notices ∧ st = st' ∧ fields = fields' := by
  have answer : (⟨tag, st, prior, fields⟩ : Response) = ⟨tag, st', prior, fields'⟩ :=
    Option.some.inj (congrArg (·.port.response) h)
  injection answer with _ status _ bytes
  exact ⟨congrArg (·.notices) h, status, bytes⟩

/-- TAKE NOTICE where it chooses the kind that is noticed just before: the answer counts that notice too, and the kind
is removed with it. -/
theorem takeRequested_notice {s : State} {slot : Fin 10} {k : NoticeKind} (h : s.chooseNotice slot = some k.index) :
    (s.notice slot k).takeRequested (BitVec.ofNat 8 slot.1) = ⟨s.removeNotice slot k.index, .ok,
      [byteOf slot.1, byteOf (k.index.1 + 1), byteOf (s.classOf k.index).code,
        byteOf (noticed (s.noticeCount slot k.index)), byteOf ((s.removeNotice slot k.index).shownCount slot)]⟩ := by
  rw [takeRequested_of_choice (chooseNotice_notice h), removeNotice_notice, notice_noticeCount_self]
  rfl

/-! ### The statement -/

/-- Settles O52. A notice counts once more in one place, which gives the clauses on one notice and on two. A TAKE NOTICE
that removes the kind has chosen it; it is shown then, so one more notice before changes neither the choice nor what is
left, and one after finds a count of 0. -/
theorem noticeRaisesItsCount : Obligations.NoticeRaisesItsCount := by
  intro s slot k
  have raised := notice_noticeCount_self s slot k
  refine ⟨fun absent => ?absent, fun below => raised.trans (noticed_of_lt below), fun full => ?full,
    fun slot' k' other => notice_noticeCount_other s other, rfl, fun mask => rfl,
    fun slot' k' other => notice_comm s k k' other, fun below => ?twice, fun dt tag t c left hr hs => ?taken⟩
  case absent => rw [raised, absent, noticed_of_lt (by decide)]
  case full => rw [raised, full, noticed_of_full]
  case twice =>
    have once := raised.trans (noticed_of_lt (by omega))
    rw [notice_noticeCount_self, once, noticed_of_lt (by omega)]
  case taken =>
    intro taken count answered
    rw [exec_takeNotice dt tag _ hr hs] at answered
    injection answered with response
    obtain ⟨notices, ok, fields⟩ := responded_inj response
    have chosen : (s.elapse dt).chooseNotice slot = some k.index := chooseNotice_of_answer ok fields
    have cleared := removeNotice_noticeCount_self (s.elapse dt) slot k.index
    rw [takeRequested_of_choice chosen] at notices fields
    refine ⟨?after, (s.elapse dt).removeNotice slot k.index, ?before, cleared⟩
    case after =>
      have gone : t.noticeCount slot k.index = 0 := by
        rw [State.noticeCount, ← notices]
        exact cleared
      rw [notice_noticeCount_self, gone, noticed_of_lt (by decide)]
    case before =>
      have both : ((s.notice slot k).elapse dt).takeRequested (BitVec.ofNat 8 slot.1) = _ :=
        takeRequested_notice chosen
      simp only [taken, List.cons.injEq] at fields
      obtain ⟨-, -, classByte, -, leftByte, -⟩ := fields
      rw [exec_takeNotice (s := s.notice slot k) dt tag _ hr hs, both, classByte, leftByte]
      rfl

end Sys2Proof.Machine
end

