-- ==== Sys2Proof/Proofs/NamedOrders.lean ====
section
/-!
PROOF. R8: an order that a bound station or a piece names stays LOADED. What the law reads is the orders, the slots of
the pieces and the stations' states and orders; every primitive change is judged by what it does to these.
-/
namespace Sys2Proof.Machine

theorem record_of_table {s t : State} (h : t.table = s.table) (i : Fin 64) : t.record i = s.record i := by
  unfold State.record; rw [h]

theorem station_of_stations {s t : State} (h : t.stations = s.stations) (n : Fin 9) : t.station n = s.station n := by
  unfold State.station; simp only [h]

/-! ### What a change may do to orders, pieces and stations -/

/-- The piece's slot was named before: by the same record, or by a station (R8). -/
def State.namedSlot (s : State) (i : Fin 64) (slot : Fin 16) : Prop :=
  (∃ q, s.record i = some q ∧ q.slot = slot) ∨ ∃ n, (s.station n).order = some slot

/-- A station's record after a change, as R8 allows it: order and boundness as before, bound afresh to a LOADED slot, or
UNBOUND without an order. -/
def State.orderly (s : State) (x y : Station) : Prop :=
  (y.order = x.order ∧ (y.state = .unbound ↔ x.state = .unbound)) ∨
  (∃ slot, y.order = some slot ∧ y.state ≠ .unbound ∧ s.orderAt slot ≠ none) ∨ (y.order = none ∧ y.state = .unbound)

theorem State.OrdersStand.change {s t : State} (h : s.OrdersStand) (orders : t.orders = s.orders)
    (records : ∀ i p, t.record i = some p → s.namedSlot i p.slot)
    (stations : ∀ n, s.orderly (s.station n) (t.station n)) : t.OrdersStand := by
  have at_ : t.orderAt = s.orderAt := by funext k; unfold State.orderAt; simp only [orders]
  refine ⟨fun i p hp => ?piece, fun n k hk => ?station, fun n => ?bound⟩
  case piece =>
    rw [at_]
    rcases records i p hp with ⟨q, hq, e⟩ | ⟨n, hn⟩
    · rw [← e]; exact h.piece i q hq
    · exact h.station n _ hn
  case station =>
    rw [at_]
    rcases stations n with ⟨e, -⟩ | ⟨slot, e, -, loaded⟩ | ⟨e, -⟩
    · exact h.station n k (e ▸ hk)
    · rw [e] at hk; cases hk; exact loaded
    · rw [e] at hk; cases hk
  case bound =>
    rcases stations n with ⟨e, b⟩ | ⟨slot, e, b, -⟩ | ⟨e, b⟩
    · rw [b, e]; exact h.bound n
    · simp [e, b]
    · simp [e, b]

theorem State.OrdersStand.same {s t : State} (h : s.OrdersStand) (orders : t.orders = s.orders)
    (records : t.table.records = s.table.records) (stations : t.stations = s.stations) : t.OrdersStand :=
  h.change orders (fun i p hp => .inl ⟨p, by unfold State.record at *; rwa [← records], rfl⟩)
    fun n => .inl (by rw [station_of_stations stations]; exact ⟨rfl, Iff.rfl⟩)

/-- Records that keep their slots leave the law standing. -/
theorem State.OrdersStand.modPiece {s t : State} {i : Fin 64} {f : Piece → Piece} (h : s.OrdersStand)
    (hf : ∀ p, (f p).slot = p.slot) (orders : t.orders = s.orders)
    (records : t.table.records = (s.modPiece i f).table.records) (stations : t.stations = s.stations) :
    t.OrdersStand := by
  refine State.OrdersStand.same (s := s.modPiece i f) (h.change rfl (fun j p hp => .inl ?_) fun n => ?_) orders
    records stations
  · rw [State.modPiece_record] at hp
    split at hp
    · obtain ⟨q, hq, rfl⟩ := Option.map_eq_some_iff.mp hp
      exact ⟨q, hq, (hf q).symm⟩
    · exact ⟨p, hp, rfl⟩
  · exact .inl ⟨rfl, Iff.rfl⟩

/-- A change at one station that leaves its order and its being bound. -/
theorem State.OrdersStand.atStation {s t : State} (n : Fin 9) (h : s.OrdersStand) (orders : t.orders = s.orders)
    (records : t.table.records = s.table.records) (others : ∀ m, m ≠ n → t.station m = s.station m)
    (own : s.orderly (s.station n) (t.station n)) : t.OrdersStand :=
  h.change orders (fun i p hp => .inl ⟨p, by unfold State.record at *; rwa [← records], rfl⟩) fun m => by
    by_cases e : m = n
    · subst e; exact own
    · rw [others m e]; exact .inl ⟨rfl, Iff.rfl⟩

/-- A bound station that enters another state than UNBOUND stays bound to its order. -/
theorem orderly_enter {s : State} {x : Station} (y : Station) (m : Mode) (now : Word32) (st : StationState)
    (bound : x.state ≠ .unbound) (st_bound : st ≠ .unbound) (order : y.order = x.order) :
    s.orderly x (y.enter m now st) :=
  .inl ⟨by simp [order], by simp [bound, st_bound]⟩

theorem slotInUse_eq_false {s : State} {slot : Fin 16} (h : s.slotInUse slot = false) :
    (∀ n, (s.station n).order ≠ some slot) ∧ ∀ i p, s.record i = some p → p.slot ≠ slot := by
  simp only [State.slotInUse, Bool.or_eq_false_iff, decide_eq_false_iff_not, List.any_eq_false] at h
  refine ⟨fun n => ?_, fun i p hp e => h.2 ?_⟩
  · have all : n ∈ allStations := by revert n; decide
    simpa [State.boundTo] using h.1 n all
  · refine List.countP_pos_iff.mpr ⟨some p, ?_, by simp [e]⟩
    rw [← hp]; unfold State.record; simp

/-! ### The law is kept -/

theorem State.OrdersStand.openInto {s : State} {n : Fin 9} {slot : Fin 16} {i : Fin 64} (h : s.OrdersStand)
    (order : (s.station n).order = some slot) : (s.openInto n slot i).OrdersStand := by
  refine h.change (steady_openInto s n slot i).orders (fun j p hp => ?_) fun m => .inl ?_
  · rw [openInto_record] at hp
    split at hp
    · cases hp; exact .inr ⟨n, order⟩
    · exact .inl ⟨p, hp, rfl⟩
  · rw [openInto_station]
    split <;> exact ⟨rfl, Iff.rfl⟩

theorem State.OrdersStand.closeOld {s : State} (n : Fin 9) (h : s.OrdersStand) : (s.closeOld n).OrdersStand := by
  refine h.change (steady_closeOld s n).orders (fun j p hp => .inl ?_) fun m => .inl ?_
  · rw [closeOld_record] at hp
    split at hp
    · obtain ⟨q, hq, rfl⟩ := Option.map_eq_some_iff.mp hp
      exact ⟨q, hq, rfl⟩
    · exact ⟨p, hp, rfl⟩
  · rw [closeOld_station]
    split <;> exact ⟨rfl, Iff.rfl⟩

theorem State.OrdersStand.completeCut {s t : State} {n : Fin 9} (h : s.OrdersStand)
    (cutting : (s.station n).state = .cutting) (e : s.completeCut n = some t) : t.OrdersStand := by
  obtain ⟨slot, i, order, -, rfl⟩ := completeCut_cases e
  have old : ((s.setCutTimer n none).closeOld n).OrdersStand :=
    State.OrdersStand.closeOld n (h.same (t := s.setCutTimer n none) rfl rfl rfl)
  have hs : ((s.setCutTimer n none).closeOld n).station n = { s.station n with piece := none } := by
    rw [closeOld_station, if_pos rfl]; rfl
  have new := old.openInto (i := i) (by rw [hs]; exact order)
  refine new.atStation n (steady_finishCut _ n).orders (congrArg _ (finishCut_table _ n))
    (fun m hm => by rw [finishCut_station, if_neg hm]) ?_
  rw [finishCut_station, if_pos rfl]
  exact orderly_enter _ _ _ _ (by rw [openInto_station, if_pos rfl, hs]; simp [cutting]) (by split <;> decide) rfl

theorem unbindRecords_record (s : State) (n : Fin 9) (i : Fin 64) :
    (s.unbindRecords n).record i =
      if (s.station n).piece = some i then (s.record i).map fun p => p.closeShort s.clocks.part else s.record i := by
  unfold State.unbindRecords
  cases e : (s.station n).piece with
  | none => rfl
  | some j =>
    show (s.modPiece j _).record i = _
    rw [State.modPiece_record]
    by_cases h : i = j
    · subst h; simp
    · simp [h, Ne.symm h]

theorem State.OrdersStand.unbindRecords {s : State} (n : Fin 9) (h : s.OrdersStand) :
    (s.unbindRecords n).OrdersStand := by
  refine h.change (steady_unbindRecords s n).orders (fun j p hp => .inl ?_) fun m => ?_
  · rw [unbindRecords_record] at hp
    split at hp
    · obtain ⟨q, hq, rfl⟩ := Option.map_eq_some_iff.mp hp
      exact ⟨q, hq, rfl⟩
    · exact ⟨p, hp, rfl⟩
  · rw [unbindRecords_station]
    split
    · exact .inr (.inr ⟨rfl, Station.enter_state _ _ _ _⟩)
    · exact .inl ⟨rfl, Iff.rfl⟩

theorem State.OrdersStand.setOrder {s : State} {slot : Fin 16} (o : Option Order) (h : s.OrdersStand)
    (unused : s.slotInUse slot = false) : (s.setOrder slot o).OrdersStand := by
  obtain ⟨noStation, noPiece⟩ := slotInUse_eq_false unused
  have at_ : ∀ k, k ≠ slot → (s.setOrder slot o).orderAt k = s.orderAt k := fun k hk => by
    unfold State.orderAt State.setOrder
    rw [getElem_set_fin, if_neg hk]
  refine ⟨fun i p hp => ?_, fun n k hk => ?_, h.bound⟩
  · rw [at_ _ (noPiece i p hp)]; exact h.piece i p hp
  · rw [at_ _ fun e => noStation n (e ▸ hk)]; exact h.station n k hk

/-- Every primitive change keeps the orders that are named LOADED (R8). -/
theorem kept_ordersStand : Kept State.OrdersStand where
  elapse s dt h := h.same rfl rfl rfl
  notice s slot k h := h.same rfl rfl rfl
  lowFlag s b h := h.same rfl rfl rfl
  highFlag s b h := h.same rfl rfl rfl
  faults s n f h := h.same rfl rfl rfl
  reasons s n f _ h := h.atStation n rfl rfl (fun m hm => by simp [hm]) (by simp [State.orderly])
  hold s n f running _ h := by
    refine h.atStation n (steady_leaveFor _ n _).orders (congrArg _ (leaveFor_table _ n _))
      (fun m hm => by simp [leaveFor_station, hm]) ?_
    rw [leaveFor_station, if_pos rfl]
    exact orderly_enter _ _ _ _ (by simp [running]) (by decide) (by simp)
  trip s n may h := by
    refine h.atStation n (steady_tripped s n).orders (congrArg _ (tripped_table s n)) (fun m => tripped_other s) ?_
    rw [tripped_station, if_pos rfl]
    exact orderly_enter _ _ _ _ (by rintro e; simp [e, StationState.mayRequest] at may) (by decide) rfl
  abortTrip s n cutting h := by
    refine h.atStation n (steady_tripped (s.abortCut n) n).orders (congrArg _ (tripped_table _ n))
      (fun m hm => tripped_other _ hm) ?_
    rw [tripped_station, if_pos rfl]
    exact orderly_enter _ _ _ _ (by simp [cutting]) (by decide) rfl
  abortHold s n cutting _ h := by
    refine h.atStation n rfl rfl (fun m hm => by simp [hm, abortCut_station]) ?_
    rw [State.enterState_station, if_pos rfl]
    exact orderly_enter _ _ _ _ (by simp [cutting]) (by decide) rfl
  place s n _ _ h := h.same rfl rfl rfl
  award s n _ eligible h := by
    have work : (s.station n).state = .running ∨ (s.station n).state = .holding := by
      simp [State.eligible] at eligible; exact eligible.1.1.1.1.1
    refine h.atStation n (steady_award s n).orders (congrArg _ (award_table s n))
      (fun m hm => by rw [award_station, if_neg hm]) ?_
    rw [award_station, if_pos rfl]
    exact orderly_enter _ _ _ _ (by rcases work with e | e <;> simp [e]) (by decide) rfl
  bind s n slot o _ loaded _ h := by
    refine h.atStation n rfl rfl (fun m hm => by rw [bindStation_station, if_neg hm]) ?_
    rw [bindStation_station, if_pos rfl]
    exact .inr (.inl ⟨slot, rfl, by simp, by simp [loaded]⟩)
  unbind s n _ _ _ h := h.unbindRecords n
  untrip s n tripped h := by
    refine h.atStation n rfl rfl (fun m hm => by simp [hm]) ?_
    rw [State.enterState_station, if_pos rfl]
    exact orderly_enter _ _ _ _ (by simp [tripped]) (by decide) rfl
  startHold s n r _ ready _ _ h := by
    refine h.atStation n rfl rfl (fun m hm => by simp [hm]) ?_
    rw [State.enterState_station, if_pos rfl]
    exact orderly_enter _ _ _ _ (by rcases ready with e | e <;> simp [e]) (by decide) (by simp)
  startRun s n _ ready _ h := by
    refine h.atStation n (steady_enterRunning _ n).orders (congrArg _ (enterRunning_table _ n))
      (fun m hm => by simp [enterRunning_station, hm]) ?_
    rw [enterRunning_station, if_pos rfl]
    exact orderly_enter _ _ _ _ (by rcases ready with e | e <;> simp [e]) (by decide) (by simp)
  opening s n slot i order _ _ _ _ h := h.openInto order
  complete s n t cutting e h := h.completeCut cutting e
  cutTimer s n h := h.same rfl rfl rfl
  permit s n _ h := h.atStation n rfl rfl (fun m hm => by simp [State.changePermit, hm])
    (by simp [State.changePermit, State.orderly])
  lay s l f _ _ h := h.same rfl rfl rfl
  lines s l f h := h.same rfl rfl rfl
  resetLine s b h := h.same rfl rfl rfl
  inspector s f _ _ _ h := h.same rfl rfl rfl
  sense s a q x _ _ h := h.modPiece (fun p => by split <;> rfl) rfl rfl rfl
  mend s e _ h := h.modPiece (fun p => by split <;> rfl) rfl rfl rfl
  waive s i h := h.modPiece (fun p => by split <;> rfl) rfl rfl rfl
  coil s i f _ h := h.modPiece (fun p => by split <;> rfl) rfl rfl rfl
  panel s i f _ _ h := h.modPiece (fun p => by split <;> rfl) rfl rfl rfl
  note s i f same h := h.modPiece (fun p => (same p).2.2.1) rfl rfl rfl
  retire s i p n _ _ _ h := by
    refine h.change rfl (fun j q hq => .inl ⟨q, ?_, rfl⟩) fun m => .inl ⟨rfl, Iff.rfl⟩
    rw [State.setRecord_record] at hq
    split at hq
    · cases hq
    · exact hq
  toScale s i _ _ h := h.modPiece (f := fun p => { p with state := .atScale }) (fun _ => rfl) rfl rfl rfl
  takeBack s i _ h := h.modPiece (f := fun p => { p with state := .queued }) (fun _ => rfl) rfl rfl rfl
  weigh s i p w _ _ h :=
    h.modPiece (f := fun p => { p with state := .weighed, weighing := some w }) (fun _ => rfl) rfl rfl rfl
  leaveScale s i p f _ _ last h := h.modPiece (fun p => (last p).2.2.1) rfl rfl rfl
  scaleTimer s t h := h.same rfl rfl rfl
  receiver s r h := h.same rfl rfl rfl
  discard s h := h.same rfl rfl rfl
  answer s a _ h := h.same rfl rfl rfl
  sent s h := by unfold State.sendAnswer; split <;> exact h.same rfl rfl rfl
  forgetGrant s h := h.same rfl rfl rfl
  forgetLane s l h := h.same rfl rfl rfl
  link s t h := h.same rfl rfl rfl
  take s slot k h := h.same rfl rfl rfl
  mask s m h := h.same rfl rfl rfl
  order s slot o unused h := h.setOrder o unused
  port s f _ h := h.same rfl rfl rfl
  params s p _ _ h := h.same rfl rfl rfl
  toConfig s _ h := h.same rfl rfl rfl
  operate s _ h := h.same rfl rfl rfl
  reset s c _ h := h.change rfl (fun i p hp => .inl ⟨p, hp, rfl⟩) fun n => by
    rw [resetBlocks_station]
    refine .inl ⟨rfl, ?_⟩
    simp [Station.lineReset]

/-- After power-on no order is named (R1, R9). -/
theorem powerUp_ordersStand (s : State) : s.powerUp.OrdersStand :=
  have reset : State.reset.OrdersStand := by
    have free : ∀ i, State.reset.record i = none := by decide +kernel
    have idle : ∀ n, State.reset.station n = Station.initial := by decide +kernel
    refine ⟨fun i p hp => ?_, fun n k hk => ?_, fun n => ?_⟩
    · rw [free] at hp; cases hp
    · rw [idle] at hk; cases hk
    · rw [idle]; decide
  reset.same rfl rfl rfl

/-- Settles O57. The law is kept by every primitive change, and so by every step. -/
theorem namedOrdersStayLoaded : Obligations.NamedOrdersStayLoaded := fun _ _ h e =>
  kept_ordersStand.step (fun s _ => powerUp_ordersStand s) (fun _ _ h => h.same rfl rfl rfl) e h

end Sys2Proof.Machine
end

