-- ==== Sys2Proof/Proofs/Reservations.lean ====
section
/-!
PROOF. R96, with R9: the reservations are as many as the cuts in flight and covered by FREE records. A change that leaves
every station's being CUTTING leaves the count of cuts; a grant raises it and an end of a cut lowers it by one. From the
law follows that a cut-done arrival always finds a record to open.
-/
namespace Sys2Proof.Machine

/-! ### Counting the cuts in flight -/

/-- Two predicates that agree but at one entry of a list without repetition count alike but for that entry. -/
theorem countP_change {α : Type} {p q : α → Bool} {a : α} (l : List α) (nodup : l.Nodup) (mem : a ∈ l)
    (agree : ∀ b, b ≠ a → p b = q b) :
    l.countP p + (if q a then 1 else 0) = l.countP q + (if p a then 1 else 0) := by
  induction l with
  | nil => cases mem
  | cons b l ih =>
    obtain ⟨fresh, nodup⟩ := List.nodup_cons.mp nodup
    by_cases e : b = a
    · subst e
      have rest : l.countP p = l.countP q := List.countP_congr fun c hc => by
        rw [agree c fun e => fresh (e ▸ hc)]
      simp only [List.countP_cons, rest]
      omega
    · have step := ih nodup ((List.mem_cons.mp mem).resolve_left (Ne.symm e))
      simp only [List.countP_cons, agree b e]
      omega

theorem mem_allStations (n : Fin 9) : n ∈ allStations := by revert n; decide

theorem cuttingCount_change {s t : State} {n : Fin 9}
    (others : ∀ m, m ≠ n → (t.station m).state = (s.station m).state) :
    t.cuttingCount + (if (s.station n).state = .cutting then 1 else 0) =
      s.cuttingCount + (if (t.station n).state = .cutting then 1 else 0) := by
  unfold State.cuttingCount
  have := countP_change (p := fun n => decide ((t.station n).state = .cutting))
    (q := fun n => decide ((s.station n).state = .cutting)) allStations (by decide) (mem_allStations n)
    fun m hm => by rw [others m hm]
  simpa only [decide_eq_true_eq] using this

theorem cuttingCount_same {s t : State}
    (same : ∀ n, (t.station n).state = .cutting ↔ (s.station n).state = .cutting) :
    t.cuttingCount = s.cuttingCount :=
  List.countP_congr fun n _ => by simp [same n]

theorem cuttingCount_pos {s : State} {n : Fin 9} (h : (s.station n).state = .cutting) : 0 < s.cuttingCount :=
  List.countP_pos_iff.mpr ⟨n, mem_allStations n, by simp [h]⟩

/-! ### What a change may do to the reservations -/

theorem freeCount_of_records {s t : State} (h : t.table.records = s.table.records) : t.freeCount = s.freeCount := by
  unfold State.freeCount; rw [h]

/-- Two states with the same reservations. -/
structure SameReserves (s t : State) : Prop where
  records : t.arbiter.reservedRecords = s.arbiter.reservedRecords
  places : t.arbiter.reservedPlaces = s.arbiter.reservedPlaces

theorem SameReserves.of_arbiter {s t : State} (h : t.arbiter = s.arbiter) : SameReserves s t := by
  constructor <;> rw [h]

theorem State.Reserved.same {s t : State} (h : s.Reserved) (reserves : SameReserves s t)
    (free : s.freeCount ≤ t.freeCount) (stations : t.stations = s.stations) : t.Reserved := by
  have count : t.cuttingCount = s.cuttingCount := cuttingCount_same fun n => by rw [station_of_stations stations]
  refine ⟨?_, ?_, ?_, fun n => ?_⟩
  · rw [reserves.records, count, h.records]
  · rw [reserves.places, count, h.places]
  · rw [reserves.records]; exact h.free.trans free
  · rw [station_of_stations stations]; exact h.ordered n

/-- A change at one station that is neither a grant nor the end of a cut. -/
theorem State.Reserved.atStation {s t : State} (n : Fin 9) (h : s.Reserved) (reserves : SameReserves s t)
    (free : t.freeCount = s.freeCount) (others : ∀ m, m ≠ n → t.station m = s.station m)
    (uncut : (t.station n).state = .cutting ↔ (s.station n).state = .cutting)
    (ordered : (t.station n).state ≠ .unbound → (t.station n).order ≠ none) : t.Reserved := by
  have count : t.cuttingCount = s.cuttingCount := by
    have := cuttingCount_change fun m hm => congrArg Station.state (others m hm)
    simp only [uncut] at this
    omega
  refine ⟨?_, ?_, ?_, fun m => ?_⟩
  · rw [reserves.records, count, h.records]
  · rw [reserves.places, count, h.places]
  · rw [reserves.records, free]; exact h.free
  · by_cases e : m = n
    · subst e; exact ordered
    · rw [others m e]; exact h.ordered m

/-- The end of the cut of one station, which takes one FREE record at most. -/
theorem State.Reserved.endCut {s t : State} (n : Fin 9) (h : s.Reserved)
    (records : t.arbiter.reservedRecords = s.arbiter.reservedRecords - 1)
    (places : t.arbiter.reservedPlaces = s.arbiter.reservedPlaces - 1) (free : s.freeCount ≤ t.freeCount + 1)
    (others : ∀ m, m ≠ n → t.station m = s.station m) (cutting : (s.station n).state = .cutting)
    (ended : (t.station n).state ≠ .cutting) (order : (t.station n).order = (s.station n).order) : t.Reserved := by
  have count : t.cuttingCount + 1 = s.cuttingCount := by
    simpa [cutting, ended] using cuttingCount_change fun m hm => congrArg Station.state (others m hm)
  obtain ⟨hr, hp, hf, ho⟩ := h
  refine ⟨by omega, by omega, by omega, fun m => ?_⟩
  by_cases e : m = n
  · subst e; rw [order]; exact fun _ => ho m (by simp [cutting])
  · rw [others m e]; exact ho m

theorem award_reserves (s : State) (n : Fin 9) :
    (s.award n).arbiter.reservedRecords = s.arbiter.reservedRecords + 1 ∧
      (s.award n).arbiter.reservedPlaces = s.arbiter.reservedPlaces + 1 := by
  rw [award_arbiter]; exact ⟨rfl, rfl⟩

theorem State.Reserved.award {s : State} {n : Fin 9} (h : s.Reserved)
    (work : (s.station n).state = .running ∨ (s.station n).state = .holding) (figure : 1 ≤ s.figure) :
    (s.award n).Reserved := by
  have bound : (s.station n).state ≠ .unbound ∧ (s.station n).state ≠ .cutting := by
    rcases work with e | e <;> simp [e]
  have others : ∀ m, m ≠ n → (s.award n).station m = s.station m := fun m hm => by rw [award_station, if_neg hm]
  have count : (s.award n).cuttingCount = s.cuttingCount + 1 := by
    simpa [award_station, bound.2] using cuttingCount_change fun m hm => congrArg Station.state (others m hm)
  have free : (s.award n).freeCount = s.freeCount := freeCount_of_records (congrArg _ (award_table s n))
  obtain ⟨records, places⟩ := award_reserves s n
  unfold State.figure at figure
  obtain ⟨hr, hp, hf, ho⟩ := h
  refine ⟨by omega, by omega, by omega, fun m => ?_⟩
  by_cases e : m = n
  · subst e; simpa [award_station] using ho m bound.1
  · rw [others m e]; exact ho m

theorem State.Reserved.openInto {s : State} {n : Fin 9} {slot : Fin 16} {i : Fin 64} (h : s.Reserved)
    (isFree : s.record i = none) (figure : 1 ≤ s.figure) : (s.openInto n slot i).Reserved := by
  have station : ∀ m, ((s.openInto n slot i).station m).state = (s.station m).state ∧
      ((s.openInto n slot i).station m).order = (s.station m).order := fun m => by
    rw [openInto_station]; split <;> exact ⟨rfl, rfl⟩
  have count : (s.openInto n slot i).cuttingCount = s.cuttingCount := cuttingCount_same fun m => by rw [(station m).1]
  have taken := openInto_freeCount (n := n) (slot := slot) isFree
  have arbiter := openInto_arbiter s n slot i
  unfold State.figure at figure
  refine ⟨?_, ?_, ?_, fun m => ?_⟩
  · rw [arbiter, count, h.records]
  · rw [arbiter, count, h.places]
  · rw [arbiter]; omega
  · rw [(station m).1, (station m).2]; exact h.ordered m

theorem finishCut_reserves (s : State) (n : Fin 9) :
    (s.finishCut n).arbiter.reservedRecords = s.arbiter.reservedRecords - 1 ∧
      (s.finishCut n).arbiter.reservedPlaces = s.arbiter.reservedPlaces - 1 := by
  rw [finishCut_arbiter]; exact ⟨rfl, rfl⟩

theorem State.Reserved.completeCut {s t : State} {n : Fin 9} (h : s.Reserved)
    (cutting : (s.station n).state = .cutting) (e : s.completeCut n = some t) : t.Reserved := by
  obtain ⟨slot, i, order, isFree, rfl⟩ := completeCut_cases e
  have openFree : ((s.setCutTimer n none).closeOld n).record i = none := by
    rw [closeOld_record]
    split <;> simp [isFree]
  have taken := openInto_freeCount (n := n) (slot := slot) openFree
  rw [closeOld_freeCount, State.setCutTimer_freeCount] at taken
  have free (u : State) : (u.finishCut n).freeCount = u.freeCount :=
    freeCount_of_records (congrArg _ (finishCut_table u n))
  have arbiter : (((s.setCutTimer n none).closeOld n).openInto n slot i).arbiter = (s.setCutTimer n none).arbiter := by
    rw [openInto_arbiter, closeOld_arbiter]
  obtain ⟨records, places⟩ := finishCut_reserves (((s.setCutTimer n none).closeOld n).openInto n slot i) n
  rw [arbiter] at records places
  refine h.endCut n records places (by rw [free]; omega) (fun m hm => ?_) cutting ?_ ?_
  · rw [finishCut_station, if_neg hm, openInto_station, if_neg hm, closeOld_station, if_neg hm]; rfl
  · rw [finishCut_station, if_pos rfl, Station.enter_state]
    split <;> decide
  · rw [finishCut_station, if_pos rfl, Station.enter_order, openInto_station, if_pos rfl, closeOld_station, if_pos rfl]
    rfl

theorem unbindRecords_arbiter (s : State) (n : Fin 9) :
    (s.unbindRecords n).arbiter = { s.arbiter with waiting := s.arbiter.waiting.filter (· != n) } := by
  unfold State.unbindRecords
  cases (s.station n).piece <;> rfl

theorem unbindRecords_freeCount (s : State) (n : Fin 9) : (s.unbindRecords n).freeCount = s.freeCount := by
  unfold State.unbindRecords
  cases (s.station n).piece with
  | none => rfl
  | some i => exact freeCount_modPiece s i _

/-! ### The law is kept -/

theorem eligible_iff (s : State) (n : Fin 9) :
    s.eligible n = true ↔
      ((s.station n).state = .running ∨ (s.station n).state = .holding) ∧ s.windowCount < s.params.part.kWin ∧
        s.laneBlocked (s.stationParams n).lane = false ∧ s.anyBlocked = false ∧
        s.placesInUse < Config.packPlaces ∧ 1 ≤ s.figure := by
  simp [State.eligible, and_assoc]

/-- Every primitive change keeps the reservations as many as the cuts, and covered (R96). -/
theorem kept_reserved : Kept State.Reserved where
  elapse s dt h := h.same ⟨rfl, rfl⟩ le_rfl rfl
  notice s slot k h := h.same ⟨rfl, rfl⟩ le_rfl rfl
  lowFlag s b h := h.same ⟨rfl, rfl⟩ le_rfl rfl
  highFlag s b h := h.same ⟨rfl, rfl⟩ le_rfl rfl
  faults s n f h := h.same ⟨rfl, rfl⟩ le_rfl rfl
  reasons s n f _ h := h.atStation n ⟨rfl, rfl⟩ rfl (fun m hm => by simp [hm]) (by simp) (by simpa using h.ordered n)
  hold s n f running _ h := by
    refine h.atStation n (.of_arbiter (leaveFor_arbiter _ n _))
      (freeCount_of_records (congrArg _ (leaveFor_table _ n _))) (fun m hm => by simp [leaveFor_station, hm]) ?_ ?_
    · simp [leaveFor_station, running]
    · simpa [leaveFor_station] using h.ordered n (by simp [running])
  trip s n may h := by
    have state : (s.station n).state ≠ .unbound ∧ (s.station n).state ≠ .cutting := by
      constructor <;> rintro e <;> simp [e, StationState.mayRequest] at may
    refine h.atStation n ⟨tripped_reservedRecords s n, tripped_reservedPlaces s n⟩
      (freeCount_of_records (congrArg _ (tripped_table s n))) (fun m => tripped_other s) ?_ ?_
    · simp [tripped_state, state.2]
    · simpa [tripped_station] using h.ordered n state.1
  abortTrip s n cutting h := by
    refine h.endCut n (tripped_reservedRecords _ n) (tripped_reservedPlaces _ n)
      (Nat.le_succ_of_le (freeCount_of_records (congrArg _ (tripped_table (s.abortCut n) n))).ge)
      (fun m hm => tripped_other _ hm) cutting ?_ ?_
    · simp [tripped_state]
    · simp [tripped_station, abortCut_station]
  abortHold s n cutting _ h := by
    refine h.endCut n rfl rfl (Nat.le_succ _) (fun m hm => by simp [hm, abortCut_station]) cutting ?_ ?_
    · simp
    · simp [abortCut_station]
  place s n _ _ h := h.same ⟨rfl, rfl⟩ le_rfl rfl
  award s n _ eligible h := by
    obtain ⟨work, -, -, -, -, figure⟩ := (eligible_iff s n).mp eligible
    exact h.award work figure
  bind s n slot o unbound _ _ h := by
    refine h.atStation n ⟨rfl, rfl⟩ rfl (fun m hm => by rw [bindStation_station, if_neg hm]) ?_ ?_
    · rcases unbound with e | e <;> simp [bindStation_station, e]
    · simp [bindStation_station]
  unbind s n _ _ cutting h := by
    refine h.atStation n (by constructor <;> rw [unbindRecords_arbiter]) (unbindRecords_freeCount s n)
      (fun m hm => by rw [unbindRecords_station, if_neg hm]) ?_ ?_
    · simp [unbindRecords_station, cutting]
    · simp [unbindRecords_station]
  untrip s n tripped h := by
    refine h.atStation n ⟨rfl, rfl⟩ rfl (fun m hm => by simp [hm]) (by simp [tripped]) ?_
    simpa using h.ordered n (by simp [tripped])
  startHold s n r _ ready _ _ h := by
    refine h.atStation n ⟨rfl, rfl⟩ rfl (fun m hm => by simp [hm]) ?_ ?_
    · rcases ready with e | e <;> simp [e]
    · simpa using h.ordered n (by rcases ready with e | e <;> simp [e])
  startRun s n _ ready _ h := by
    refine h.atStation n (.of_arbiter (enterRunning_arbiter _ n))
      (freeCount_of_records (congrArg _ (enterRunning_table _ n)))
      (fun m hm => by simp [enterRunning_station, hm]) ?_ ?_
    · rcases ready with e | e <;> simp [enterRunning_station, e]
    · simpa [enterRunning_station] using h.ordered n (by rcases ready with e | e <;> simp [e])
  opening s n slot i _ _ free figure _ h := h.openInto free figure
  complete s n t cutting e h := h.completeCut cutting e
  cutTimer s n h := h.same ⟨rfl, rfl⟩ le_rfl rfl
  permit s n _ h := h.atStation n ⟨rfl, rfl⟩ rfl (fun m hm => by simp [State.changePermit, hm])
    (by simp [State.changePermit]) (by simpa [State.changePermit] using h.ordered n)
  lay s l f _ _ h := h.same ⟨rfl, rfl⟩ le_rfl rfl
  lines s l f h := h.same ⟨rfl, rfl⟩ le_rfl rfl
  resetLine s b h := h.same ⟨rfl, rfl⟩ le_rfl rfl
  inspector s f _ _ _ h := h.same ⟨rfl, rfl⟩ le_rfl rfl
  sense s a q x _ _ h := h.same ⟨rfl, rfl⟩ (freeCount_modPanel s _ _).ge rfl
  mend s e _ h := h.same ⟨rfl, rfl⟩ (freeCount_modPanel s _ _).ge rfl
  waive s i h := h.same ⟨rfl, rfl⟩ (freeCount_modPanel s _ _).ge rfl
  coil s i f _ h := h.same ⟨rfl, rfl⟩ (freeCount_modCoil s _ _).ge rfl
  panel s i f _ _ h := h.same ⟨rfl, rfl⟩ (freeCount_modPanel s _ _).ge rfl
  note s i f _ h := h.same ⟨rfl, rfl⟩ (freeCount_modPiece s _ _).ge rfl
  retire s i p n held _ _ h := by
    refine h.same ⟨rfl, rfl⟩ ?_ rfl
    have := freeCount_setRecord s i none
    simp only [held] at this
    exact Nat.le.intro this.symm
  toScale s i _ _ h := h.same ⟨rfl, rfl⟩ (freeCount_modPiece s _ _).ge rfl
  takeBack s i _ h := h.same ⟨rfl, rfl⟩ (freeCount_modPiece s _ _).ge rfl
  weigh s i p w _ _ h := h.same ⟨rfl, rfl⟩ (freeCount_modPiece s _ _).ge rfl
  leaveScale s i p f _ _ _ h := h.same ⟨rfl, rfl⟩ (freeCount_modPiece s _ _).ge rfl
  scaleTimer s t h := h.same ⟨rfl, rfl⟩ le_rfl rfl
  receiver s r h := h.same ⟨rfl, rfl⟩ le_rfl rfl
  discard s h := h.same ⟨rfl, rfl⟩ le_rfl rfl
  answer s a _ h := h.same ⟨rfl, rfl⟩ le_rfl rfl
  sent s h := by unfold State.sendAnswer; split <;> exact h.same ⟨rfl, rfl⟩ le_rfl rfl
  forgetGrant s h := h.same ⟨rfl, rfl⟩ le_rfl rfl
  forgetLane s l h := by cases l <;> exact h.same ⟨rfl, rfl⟩ le_rfl rfl
  link s t h := h.same ⟨rfl, rfl⟩ le_rfl rfl
  take s slot k h := h.same ⟨rfl, rfl⟩ le_rfl rfl
  mask s m h := h.same ⟨rfl, rfl⟩ le_rfl rfl
  order s slot o _ h := h.same ⟨rfl, rfl⟩ le_rfl rfl
  port s f _ h := h.same ⟨rfl, rfl⟩ le_rfl rfl
  params s p _ _ h := h.same ⟨rfl, rfl⟩ le_rfl rfl
  toConfig s _ h := h.same ⟨rfl, rfl⟩ le_rfl rfl
  operate s _ h := h.same ⟨rfl, rfl⟩ le_rfl rfl
  reset s c _ h := by
    have station (n : Fin 9) : ((s.resetBlocks c).station n).state ≠ .cutting := by
      rw [resetBlocks_station]
      unfold Station.lineReset
      dsimp only
      split <;> decide
    have none_ : (s.resetBlocks c).cuttingCount = 0 := List.countP_eq_zero.mpr fun n _ => by simp [station n]
    refine ⟨none_.symm, none_.symm, Nat.zero_le _, fun n bound => ?_⟩
    rw [resetBlocks_station] at *
    exact h.ordered n fun e => bound (by simp [Station.lineReset, e])

/-- After power-on no cut is in flight (R89). -/
theorem powerUp_reserved (s : State) : s.powerUp.Reserved :=
  have reset : State.reset.Reserved :=
    ⟨by decide +kernel, by decide +kernel, by decide +kernel, by decide +kernel⟩
  reset.same ⟨rfl, rfl⟩ le_rfl rfl

/-! ### No command stops the part -/

theorem firstFree_of_freeCount {s : State} (h : 1 ≤ s.freeCount) : ∃ i, s.firstFree = some i := by
  obtain ⟨r, mem, free⟩ := List.countP_pos_iff.mp h
  obtain ⟨i, hi, e⟩ := List.mem_iff_getElem.mp mem
  have bound : i < 64 := by simpa using hi
  refine Option.isSome_iff_exists.mp (List.find?_isSome.mpr ⟨⟨i, bound⟩, List.mem_finRange _, ?_⟩)
  rw [Vector.getElem_toList] at e
  simp [State.record, e, free]

/-- Under the law a completion finds its record (R96, R98). -/
theorem State.Reserved.completes {s : State} {n : Fin 9} (h : s.Reserved) (cutting : (s.station n).state = .cutting) :
    ∃ t, s.completeCut n = some t := by
  have cuts := cuttingCount_pos cutting
  obtain ⟨i, free⟩ := firstFree_of_freeCount (s := (s.setCutTimer n none).closeOld n) (by
    rw [closeOld_freeCount, State.setCutTimer_freeCount]
    have := h.records
    have := h.free
    omega)
  obtain ⟨slot, order⟩ := Option.ne_none_iff_exists'.mp (h.ordered n (by simp [cutting]))
  have order' : (((s.setCutTimer n none).closeOld n).station n).order = some slot := by
    rw [closeOld_station, if_pos rfl]; exact order
  simp [State.completeCut, State.openPiece, free, order']

theorem cutDoneAt_next {s : State} (n : Fin 9) (h : s.Reserved) : ∃ t, s.cutDoneAt n = .next t := by
  cases e : (s.station n).state with
  | cutting =>
    obtain ⟨t, ht⟩ := h.completes e
    simp [State.cutDoneAt, e, ht]
  | unbound | ready | running | holding | tripped => simp [State.cutDoneAt, e]

theorem requestSpan_next (dt : Nat) (body : State → State) (s : State) : ∃ t, requestSpan dt body s = .next t := by
  unfold requestSpan; split <;> exact ⟨_, rfl⟩

/-- What a command that ends a request span makes of the state, if its span is taken (R168, R170). -/
def spanBody : Instr → State → State
  | .identify _ tag => fun s => s.takeRequest tag fun s => s.identify
  | .enterConfig _ tag => fun s => s.takeRequest tag fun s => s.enterConfig
  | .leaveConfig _ tag => fun s => s.takeRequest tag fun s => s.leaveConfig
  | .setParameter _ tag ident station kind value =>
    fun s => s.takeRequest tag fun s => s.setParameter ident station kind value
  | .getParameter _ tag ident station kind => fun s => s.takeRequest tag fun s => s.getParameter ident station kind
  | .partClear _ tag => fun s => s.takeRequest tag fun s => ⟨s.lineReset .clear, .ok, []⟩
  | .loadOrder _ tag slot fields => fun s => s.takeRequest tag fun s => s.loadOrder slot fields
  | .readOrder _ tag slot => fun s => s.takeRequest tag fun s => s.readOrder slot
  | .retireOrder _ tag slot => fun s => s.takeRequest tag fun s => s.retireOrder slot
  | .bind _ tag station slot => fun s => s.takeRequest tag fun s => s.bindRequest station slot
  | .unbind _ tag station => fun s => s.takeRequest tag fun s => s.unbindRequest station
  | .start _ tag station => fun s => s.takeRequest tag fun s => s.startRequest station
  | .halt _ tag station => fun s => s.takeRequest tag fun s => s.haltRequest station
  | .clearFault _ tag station => fun s => s.takeRequest tag fun s => s.clearRequest station
  | .readStation _ tag station => fun s => s.takeRequest tag fun s => s.readStation station
  | .readPiece _ tag number serial => fun s => s.takeRequest tag fun s => s.readPiece number serial
  | .findPieces _ tag states station slot first =>
    fun s => s.takeRequest tag fun s => s.findPieces states station slot first
  | .amendPiece _ tag number serial items => fun s => s.takeRequest tag fun s => s.amendPiece number serial items
  | .retirePiece _ tag number serial => fun s => s.takeRequest tag fun s => s.retirePiece number serial
  | .readMends _ tag first => fun s => s.takeRequest tag fun s => s.readMends first
  | .mend _ tag entry => fun s => s.takeRequest tag fun s => s.mendRequest entry
  | .poll _ tag => fun s => s.takeRequest tag fun s => s.pollRequest
  | .takeNotice _ tag slot => fun s => s.takeRequest tag fun s => s.takeRequested slot
  | .setMask _ tag mask => fun s => s.takeRequest tag fun s => s.maskRequest mask
  | .malformedFrame _ bytes => fun s => s.modPort fun p => p.malformed bytes
  | _ => id

theorem exec_requestSpan {c : Instr} (h : c.endsRequestSpan = true) (s : State) :
    exec c s = requestSpan c.time (spanBody c) s := by
  cases c with
  | identify | enterConfig | leaveConfig | setParameter | getParameter | partClear | loadOrder | readOrder | retireOrder
  | bind | unbind | start | halt | clearFault | readStation | readPiece | findPieces | amendPiece | retirePiece
  | readMends | mend | poll | takeNotice | setMask | malformedFrame => rfl
  | _ => cases h

theorem packRequest_next (dt : Nat) (kind : Byte) (body : State → Answer) (s : State) :
    ∃ t, packRequest dt kind body s = .next t := by
  unfold packRequest; split <;> exact ⟨_, rfl⟩

theorem lineArrival_next (dt : Nat) (body : State → State) (s : State) : ∃ t, lineArrival dt body s = .next t := by
  unfold lineArrival; split <;> exact ⟨_, rfl⟩

/-- The cut-done arrival is the one command that could stop the part (R96). -/
theorem exec_next {s : State} (h : s.Reserved) (c : Instr) : ∃ t, exec c s = .next t := by
  cases c with
  | cutDone dt n edge =>
    rw [exec_cutDone, execCutDone]
    have elapsed := kept_reserved.elapse s dt h
    split <;> [skip; split]
    · exact ⟨_, rfl⟩
    · exact cutDoneAt_next n elapsed
    · exact ⟨_, rfl⟩
  | identify | enterConfig | leaveConfig | setParameter | getParameter | partClear | loadOrder | readOrder | retireOrder
  | bind | unbind | start | halt | clearFault | readStation | readPiece | findPieces | amendPiece | retirePiece
  | readMends | mend | poll | takeNotice | setMask | malformedFrame => 
    rw [exec_requestSpan rfl]; exact requestSpan_next _ _ _
  | packNext dt => exact packRequest_next dt _ (fun s => s.nextPiece) s
  | packWeigh dt number serial weight => exact packRequest_next dt _ (fun s => s.weighRequest number serial weight) s
  | packPacked dt number serial label => exact packRequest_next dt _ (fun s => s.packedRequest number serial label) s
  | packAside dt number serial => exact packRequest_next dt _ (fun s => s.asideRequest number serial) s
  | packQuery dt number serial => exact packRequest_next dt _ (fun s => s.queryRequest number serial) s
  | packFrameDiscard dt chars => exact lineArrival_next dt (fun s => s.takeChars chars) s
  | flyerMark dt l edge =>
    exact lineArrival_next dt (fun s => if edge = (s.layParams l).markEdge then s.markAt l else s) s
  | rowIndex dt edge =>
    exact lineArrival_next dt (fun s => if edge = s.params.loom.rowEdge ∧ s.bound loom = true then s.rowAt else s) s
  | senseWord dt levels => exact lineArrival_next dt (fun s => if s.bound loom then s.senseAt levels else s) s
  | readSpan | countArrival | strandOutAssertion | strandOutRelease | resetAssert | resetRelease | powerOn
  | stallTimerExpiry | rowStallTimerExpiry | cutTimerExpiry | scaleTimerExpiry | linkSilenceExpiry | ageingOut
  | laneGapExpiry | anyGapExpiry | grantListDrop | laneTimeAbsent | demandPulse | permitPulseToggle | packAnswerSent
  | spanFirstByte => exact ⟨_, rfl⟩

theorem step_next {s : State} (h : s.Reserved) : ∃ t, step s = .next t := by
  unfold step
  split
  · exact ⟨_, rfl⟩
  · rename_i c rest _
    exact exec_next (s := { s with pending := rest }) (h.same ⟨rfl, rfl⟩ le_rfl rfl) c

/-- The law outlives every step. -/
theorem step_reserved {s t : State} (h : s.Reserved) (e : step s = .next t) : t.Reserved :=
  kept_reserved.step (fun s _ => powerUp_reserved s) (fun _ _ h => h.same ⟨rfl, rfl⟩ le_rfl rfl) e h

/-- Settles O55. The record that a completion opens is there, so the step has a next state, and the law is kept by every
primitive change. -/
theorem reservationsCoverEveryCut : Obligations.ReservationsCoverEveryCut := fun _ h => by
  obtain ⟨t, e⟩ := step_next h
  exact ⟨t, e, step_reserved h e⟩

end Sys2Proof.Machine
end

