-- ==== Sys2Proof/Proofs/WorkAndSerials.lean ====
section
/-!
PROOF. Custody of the pieces (R108, R115, R129), the open piece of a working station (R10), and the serials (R113).
Custody is judged record by record: a change that moves one piece has to be looked at for that record alone.
-/
namespace Sys2Proof.Machine

/-! ### A working station has its open piece (R10) -/

/-- A bound station has an order, and one in RUNNING, HOLDING or CUTTING an open piece. -/
def Station.equipped (x : Station) : Prop :=
  (x.state ≠ .unbound → x.order ≠ none) ∧
    (x.state = .running ∨ x.state = .holding ∨ x.state = .cutting → x.piece ≠ none)

theorem equipped_of_working {x : Station} (working : x.state = .running ∨ x.state = .holding ∨ x.state = .cutting)
    (h : x.equipped) : x.order ≠ none ∧ x.piece ≠ none :=
  ⟨h.1 (by rcases working with e | e | e <;> simp [e]), h.2 working⟩

theorem equipped_of_full {x : Station} (order : x.order ≠ none) (piece : x.piece ≠ none) : x.equipped :=
  ⟨fun _ => order, fun _ => piece⟩

theorem equipped_of_ready {x : Station} (order : x.state ≠ .unbound → x.order ≠ none)
    (idle : x.state = .unbound ∨ x.state = .ready ∨ x.state = .tripped) : x.equipped :=
  ⟨order, fun working => by rcases idle with e | e | e <;> simp [e] at working⟩

/-- A READY or HOLDING station that is to work has its piece if it has an order, which it has. -/
theorem equipped_of_start {x : Station} (ready : x.state = .ready ∨ x.state = .holding)
    (supplied : x.order = none ∨ x.piece ≠ none) (h : x.equipped) : x.order ≠ none ∧ x.piece ≠ none := by
  have order : x.order ≠ none := h.1 (by rcases ready with e | e <;> simp [e])
  exact ⟨order, supplied.resolve_left order⟩

theorem stationwise_equipped : Stationwise (fun _ => True) Station.equipped where
  params _ _ _ h := h
  reasons _ _ _ h := h
  hold x f m now running _ h := by
    obtain ⟨order, piece⟩ := equipped_of_working (.inl running) h
    exact equipped_of_full (by simpa) (by simpa)
  trip x m now bound _ h := equipped_of_ready (by simpa using h.1 bound) (by simp)
  abortHold _ x m now _ cutting _ h := by
    obtain ⟨order, piece⟩ := equipped_of_working (.inr (.inr cutting)) h
    exact equipped_of_full (by simpa) (by simpa)
  award x m now work h := by
    obtain ⟨order, piece⟩ := equipped_of_working (work.imp_right .inl) h
    exact equipped_of_full (by simpa) (by simpa)
  bind x m now slot _ := equipped_of_ready (by simp) (by simp)
  unbind x m now _ := equipped_of_ready (by simp) (by simp)
  untrip x m now tripped h := equipped_of_ready (by simpa using h.1 (by simp [tripped])) (by simp)
  startHold x r m now ready supplied _ h := by
    obtain ⟨order, piece⟩ := equipped_of_start ready supplied h
    exact equipped_of_full (by simpa) (by simpa)
  startRun x m now ready supplied h := by
    obtain ⟨order, piece⟩ := equipped_of_start ready supplied h
    exact equipped_of_full (by simpa) (by simpa)
  opening x i slot order _ _ := equipped_of_full (by simp [order]) (by simp)
  complete x i m now _ order _ := equipped_of_full (by simpa) (by simp)
  permit _ _ _ h := h
  reset x h := by
    refine equipped_of_ready (fun bound => h.1 fun e => bound (by simp [Station.lineReset, e])) ?_
    by_cases e : x.state = .unbound <;> simp [Station.lineReset, e]

theorem step_workHasPiece {s t : State} (reserved : s.Reserved) (h : s.WorkHasPiece) (e : step s = .next t) :
    t.WorkHasPiece := by
  have all : s.All (fun _ => True) Station.equipped := ⟨trivial, fun n => ⟨reserved.ordered n, h n⟩⟩
  have kept := stationwise_equipped.kept.step (fun s h => ?_) (fun _ _ h => h.same rfl rfl) e all
  · exact fun n => (kept.2 n).2
  · have reset : ∀ n, State.reset.station n = Station.initial := by decide +kernel
    refine ⟨trivial, fun n => ?_⟩
    show (State.reset.station n).equipped
    rw [reset]
    exact equipped_of_ready (fun bound => absurd rfl bound) (.inl rfl)

/-! ### Serials (R113) -/

/-- Records that keep their serials, or become FREE. -/
theorem State.SerialsDiffer.kept {s t : State} (h : s.SerialsDiffer)
    (records : ∀ i p, t.record i = some p → ∃ q, s.record i = some q ∧ q.serial = p.serial) : t.SerialsDiffer := by
  intro i j p q hp hq e
  obtain ⟨p', hp', ep⟩ := records i p hp
  obtain ⟨q', hq', eq⟩ := records j q hq
  exact h i j p' q' hp' hq' (by rw [ep, eq, e])

theorem State.SerialsDiffer.same {s t : State} (h : s.SerialsDiffer) (records : t.table.records = s.table.records) :
    t.SerialsDiffer :=
  h.kept fun i p hp => ⟨p, by unfold State.record at *; rwa [← records], rfl⟩

theorem State.SerialsDiffer.modPiece {s t : State} {i : Fin 64} {f : Piece → Piece} (h : s.SerialsDiffer)
    (hf : ∀ p, (f p).serial = p.serial) (records : t.table.records = (s.modPiece i f).table.records) :
    t.SerialsDiffer := by
  refine State.SerialsDiffer.same (s := s.modPiece i f) (h.kept fun j p hp => ?_) records
  rw [State.modPiece_record] at hp
  split at hp
  · obtain ⟨q, hq, rfl⟩ := Option.map_eq_some_iff.mp hp
    exact ⟨q, hq, (hf q).symm⟩
  · exact ⟨p, hp, rfl⟩

theorem serialInUse_of_record {s : State} {i : Fin 64} {p : Piece} (h : s.record i = some p) :
    s.serialInUse p.serial = true := by
  refine List.any_eq_true.mpr ⟨some p, ?_, by simp⟩
  rw [← h]; unfold State.record; simp

theorem freeCount_pos {s : State} {i : Fin 64} (h : s.record i = none) : 1 ≤ s.freeCount := by
  refine List.countP_pos_iff.mpr ⟨none, ?_, rfl⟩
  rw [← h]; unfold State.record; simp

/-- An opening takes a serial that no record bears. -/
theorem State.SerialsDiffer.openInto {s : State} {n : Fin 9} {slot : Fin 16} {i : Fin 64} (h : s.SerialsDiffer)
    (isFree : s.record i = none) : (s.openInto n slot i).SerialsDiffer := by
  have fresh : ∀ j p, s.record j = some p → p.serial ≠ s.openSerial := fun j p hp e => by
    have := serialInUse_of_record hp
    rw [e, (openSerial_spec (freeCount_pos isFree)).1] at this
    cases this
  intro j k p q hp hq e
  rw [openInto_record] at hp hq
  split at hp <;> split at hq
  · simp [*]
  · cases hp; exact absurd e.symm (fresh k q hq)
  · cases hq; exact absurd e (fresh j p hp)
  · exact h j k p q hp hq e

theorem State.SerialsDiffer.completeCut {s t : State} {n : Fin 9} (h : s.SerialsDiffer)
    (e : s.completeCut n = some t) : t.SerialsDiffer := by
  obtain ⟨slot, i, -, isFree, rfl⟩ := completeCut_cases e
  have old : ((s.setCutTimer n none).closeOld n).SerialsDiffer := h.kept fun j p hp => by
    rw [closeOld_record] at hp
    split at hp
    · obtain ⟨q, hq, rfl⟩ := Option.map_eq_some_iff.mp hp
      exact ⟨q, hq, rfl⟩
    · exact ⟨p, hp, rfl⟩
  have openFree : ((s.setCutTimer n none).closeOld n).record i = none := by
    rw [closeOld_record]
    split <;> simp [isFree]
  exact (old.openInto openFree).same (congrArg _ (finishCut_table _ n))

theorem unbindRecords_serials {s : State} (n : Fin 9) (h : s.SerialsDiffer) : (s.unbindRecords n).SerialsDiffer :=
  h.kept fun j p hp => by
    rw [unbindRecords_record] at hp
    split at hp
    · obtain ⟨q, hq, rfl⟩ := Option.map_eq_some_iff.mp hp
      exact ⟨q, hq, rfl⟩
    · exact ⟨p, hp, rfl⟩

/-- Every primitive change keeps the serials apart (R113). -/
theorem kept_serialsDiffer : Kept State.SerialsDiffer where
  elapse s dt h := h.same rfl
  notice s slot k h := h.same rfl
  lowFlag s b h := h.same rfl
  highFlag s b h := h.same rfl
  faults s n f h := h.same rfl
  reasons s n f _ h := h.same rfl
  hold s n f _ _ h := h.same (congrArg _ (leaveFor_table _ n _))
  trip s n _ h := h.same (congrArg _ (tripped_table s n))
  abortTrip s n _ h := h.same (congrArg _ (tripped_table _ n))
  abortHold s n _ _ h := h.same rfl
  place s n _ _ h := h.same rfl
  award s n _ _ h := h.same (congrArg _ (award_table s n))
  bind s n slot o _ _ _ h := h.same rfl
  unbind s n _ _ _ h := unbindRecords_serials n h
  untrip s n _ h := h.same rfl
  startHold s n r _ _ _ _ h := h.same rfl
  startRun s n _ _ _ h := h.same (congrArg _ (enterRunning_table _ n))
  opening s n slot i _ _ free _ _ h := h.openInto free
  complete s n t _ e h := h.completeCut e
  cutTimer s n h := h.same rfl
  permit s n _ h := h.same rfl
  lay s l f _ _ h := h.same rfl
  lines s l f h := h.same rfl
  resetLine s b h := h.same rfl
  inspector s f _ _ _ h := h.same rfl
  sense s a q x _ _ h := h.modPiece (fun p => by split <;> rfl) rfl
  mend s e _ h := h.modPiece (fun p => by split <;> rfl) rfl
  waive s i h := h.modPiece (fun p => by split <;> rfl) rfl
  coil s i f _ h := h.modPiece (fun p => by split <;> rfl) rfl
  panel s i f _ _ h := h.modPiece (fun p => by split <;> rfl) rfl
  note s i f same h := h.modPiece (fun p => (same p).2.2.2.1) rfl
  retire s i p n _ _ _ h := h.kept fun j q hq => by
    rw [State.setRecord_record] at hq
    split at hq
    · cases hq
    · exact ⟨q, hq, rfl⟩
  toScale s i _ _ h := h.modPiece (f := fun p => { p with state := .atScale }) (fun _ => rfl) rfl
  takeBack s i _ h := h.modPiece (f := fun p => { p with state := .queued }) (fun _ => rfl) rfl
  weigh s i p w _ _ h := h.modPiece (f := fun p => { p with state := .weighed, weighing := some w }) (fun _ => rfl) rfl
  leaveScale s i p f _ _ last h := h.modPiece (fun p => (last p).2.2.2.1) rfl
  scaleTimer s t h := h.same rfl
  receiver s r h := h.same rfl
  discard s h := h.same rfl
  answer s a _ h := h.same rfl
  sent s h := by unfold State.sendAnswer; split <;> exact h.same rfl
  forgetGrant s h := h.same rfl
  forgetLane s l h := h.same rfl
  link s t h := h.same rfl
  take s slot k h := h.same rfl
  mask s m h := h.same rfl
  order s slot o _ h := h.same rfl
  port s f _ h := h.same rfl
  params s p _ _ h := h.same rfl
  toConfig s _ h := h.same rfl
  operate s _ h := h.same rfl
  reset s c _ h := h.same rfl

theorem step_serialsDiffer {s t : State} (h : s.SerialsDiffer) (e : step s = .next t) : t.SerialsDiffer := by
  refine kept_serialsDiffer.step (fun s _ => ?_) (fun _ _ h => h.same rfl) e h
  have free : ∀ i, State.reset.record i = none := by decide +kernel
  intro i j p q hp
  have hp : State.reset.record i = some p := hp
  rw [free] at hp
  cases hp

end Sys2Proof.Machine
end

