-- ==== Sys2Proof/Proofs/Custody.lean ====
section
/-!
PROOF. Custody of the pieces (R108, R115, R129). Custody is judged record by record: a change that moves one piece has
to be looked at for that record alone.
-/
namespace Sys2Proof.Machine

/-! ### Custody of one record -/

/-- State and station of a piece that the pack queue, the scale or a station may hold; none for a FREE, PACKED or ASIDE
record. -/
def custodyOf : Option Piece → Option (PieceState × Fin 9)
  | none => none
  | some p =>
    match p.state with
    | .packed | .aside => none
    | .opened | .queued | .atScale | .weighed => some (p.state, p.station)

theorem custodyOf_eq_some {r : Option Piece} {st : PieceState} {n : Fin 9} :
    custodyOf r = some (st, n) ↔
      (∃ p, r = some p ∧ p.state = st ∧ p.station = n) ∧ st ≠ .packed ∧ st ≠ .aside := by
  cases r with
  | none => simp [custodyOf]
  | some p => cases e : p.state <;> cases st <;> simp [custodyOf, e]

theorem inState_iff {s : State} {i : Fin 64} {st : PieceState} (packed : st ≠ .packed) (aside : st ≠ .aside) :
    s.inState i st ↔ ∃ n, custodyOf (s.record i) = some (st, n) := by
  simp [State.inState, custodyOf_eq_some, packed, aside]

/-- R129 for one record. -/
structure State.CustodyAt (s : State) (i : Fin 64) : Prop where
  queue : i ∈ s.pack.queue ↔ ∃ n, custodyOf (s.record i) = some (.queued, n)
  scale : s.pack.scale = some i ↔
    ∃ n, custodyOf (s.record i) = some (.atScale, n) ∨ custodyOf (s.record i) = some (.weighed, n)
  station : ∀ n, (s.station n).piece = some i ↔ custodyOf (s.record i) = some (.opened, n)

theorem custody_iff (s : State) : s.Custody ↔
    s.pack.queue.Nodup ∧ (∀ i, s.CustodyAt i) ∧
      ∀ n, (s.station n).state = .unbound → (s.station n).piece = none := by
  have opened (i : Fin 64) (n : Fin 9) : custodyOf (s.record i) = some (.opened, n) ↔
      ∃ p, s.record i = some p ∧ p.state = .opened ∧ p.station = n := by simp [custodyOf_eq_some]
  have queued (i : Fin 64) := inState_iff (s := s) (i := i) (st := .queued) (by decide) (by decide)
  have scaled (i : Fin 64) : (∃ n, custodyOf (s.record i) = some (.atScale, n) ∨
      custodyOf (s.record i) = some (.weighed, n)) ↔ s.inState i .atScale ∨ s.inState i .weighed := by
    rw [inState_iff (by decide) (by decide), inState_iff (by decide) (by decide), exists_or]
  constructor
  · rintro ⟨nodup, queue, scale, station, unbound⟩
    exact ⟨nodup, fun i => ⟨(queue i).trans (queued i), (scale i).trans (scaled i).symm,
      fun n => (station n i).trans (opened i n).symm⟩, unbound⟩
  · rintro ⟨nodup, records, unbound⟩
    exact ⟨nodup, fun i => (records i).queue.trans (queued i).symm, fun i => (records i).scale.trans (scaled i),
      fun n i => ((records i).station n).trans (opened i n), unbound⟩

section
variable {s t : State} {i : Fin 64}

theorem State.CustodyAt.congr (h : s.CustodyAt i) (record : custodyOf (t.record i) = custodyOf (s.record i))
    (queue : i ∈ t.pack.queue ↔ i ∈ s.pack.queue) (scale : t.pack.scale = some i ↔ s.pack.scale = some i)
    (station : ∀ n, (t.station n).piece = some i ↔ (s.station n).piece = some i) : t.CustodyAt i :=
  ⟨by rw [record, queue]; exact h.queue, by rw [record, scale]; exact h.scale,
   fun n => by rw [record, station]; exact h.station n⟩

/-- A record whose piece is in one of the queue's, the scale's and the stations' custody, or in none. -/
theorem custodyAt_queued {n : Fin 9} (record : custodyOf (t.record i) = some (.queued, n)) (queue : i ∈ t.pack.queue)
    (scale : t.pack.scale ≠ some i) (station : ∀ m, (t.station m).piece ≠ some i) : t.CustodyAt i :=
  ⟨by simp [record, queue], by simp [record, scale], fun m => by simp [record, station m]⟩

theorem custodyAt_scale {n : Fin 9} (record : custodyOf (t.record i) = some (.atScale, n) ∨
      custodyOf (t.record i) = some (.weighed, n)) (queue : i ∉ t.pack.queue)
    (scale : t.pack.scale = some i) (station : ∀ m, (t.station m).piece ≠ some i) : t.CustodyAt i := by
  rcases record with record | record <;>
    exact ⟨by simp [record, queue], by simp [record, scale], fun m => by simp [record, station m]⟩

theorem custodyAt_opened {n : Fin 9} (record : custodyOf (t.record i) = some (.opened, n)) (queue : i ∉ t.pack.queue)
    (scale : t.pack.scale ≠ some i) (station : ∀ m, (t.station m).piece = some i ↔ m = n) : t.CustodyAt i :=
  ⟨by simp [record, queue], by simp [record, scale], fun m => by simp [record, station m, eq_comm]⟩

theorem custodyAt_none (record : custodyOf (t.record i) = none) (queue : i ∉ t.pack.queue)
    (scale : t.pack.scale ≠ some i) (station : ∀ m, (t.station m).piece ≠ some i) : t.CustodyAt i :=
  ⟨by simp [record, queue], by simp [record, scale], fun m => by simp [record, station m]⟩

/-- What custody says of a record in one state. -/
theorem State.CustodyAt.of_queued {n : Fin 9} (h : s.CustodyAt i) (record : custodyOf (s.record i) = some (.queued, n)) :
    i ∈ s.pack.queue ∧ s.pack.scale ≠ some i ∧ ∀ m, (s.station m).piece ≠ some i := by
  refine ⟨h.queue.mpr ⟨n, record⟩, ?_, fun m => ?_⟩
  · rw [Ne, h.scale, record]; simp
  · rw [Ne, h.station, record]; simp

theorem State.CustodyAt.of_scale {n : Fin 9} (h : s.CustodyAt i)
    (record : custodyOf (s.record i) = some (.atScale, n) ∨ custodyOf (s.record i) = some (.weighed, n)) :
    i ∉ s.pack.queue ∧ s.pack.scale = some i ∧ ∀ m, (s.station m).piece ≠ some i := by
  refine ⟨?_, h.scale.mpr ⟨n, record⟩, fun m => ?_⟩
  · rw [h.queue]; rcases record with record | record <;> simp [record]
  · rw [Ne, h.station]; rcases record with record | record <;> simp [record]

theorem State.CustodyAt.of_opened {n : Fin 9} (h : s.CustodyAt i) (record : custodyOf (s.record i) = some (.opened, n)) :
    i ∉ s.pack.queue ∧ s.pack.scale ≠ some i ∧ ∀ m, (s.station m).piece = some i ↔ m = n := by
  refine ⟨?_, ?_, fun m => ?_⟩
  · rw [h.queue, record]; simp
  · rw [Ne, h.scale, record]; simp
  · rw [h.station, record]; simp [eq_comm]

theorem State.CustodyAt.of_none (h : s.CustodyAt i) (record : custodyOf (s.record i) = none) :
    i ∉ s.pack.queue ∧ s.pack.scale ≠ some i ∧ ∀ m, (s.station m).piece ≠ some i := by
  refine ⟨?_, ?_, fun m => ?_⟩
  · rw [h.queue, record]; simp
  · rw [Ne, h.scale, record]; simp
  · rw [Ne, h.station, record]; simp

end

/-! ### Pack places in use (R129) -/

/-- The record's piece is in the queue's or the scale's custody. -/
def holdsPlace (r : Option Piece) : Bool :=
  match custodyOf r with
  | some (.queued, _) | some (.atScale, _) | some (.weighed, _) => true
  | _ => false

/-- Records whose piece has a pack place. -/
def State.placed (s : State) : Nat := allRecords.countP fun i => holdsPlace (s.record i)

theorem records_toList (s : State) : s.table.records.toList = allRecords.map s.record :=
  List.ext_getElem (by simp [allRecords]) fun i _ _ => by simp [allRecords, State.record]

theorem countIn_eq (s : State) (st : PieceState) :
    s.countIn st = allRecords.countP fun i => (s.record i).any (·.state == st) := by
  unfold State.countIn
  rw [records_toList, List.countP_map]
  refine List.countP_congr fun i _ => ?_
  rw [Function.comp]
  cases s.record i <;> rfl

theorem holdsPlace_sum (r : Option Piece) :
    ((if r.any (·.state == .queued) then 1 else 0) + ((if r.any (·.state == .atScale) then 1 else 0) +
      if r.any (·.state == .weighed) then 1 else 0)) = if holdsPlace r then 1 else 0 := by
  cases r with
  | none => rfl
  | some p => cases e : p.state <;> simp [holdsPlace, custodyOf, e]

/-- The pack places in use are the placed pieces and the reserved places (R93, R129). -/
theorem placesInUse_eq (s : State) : s.placesInUse = s.placed + s.arbiter.reservedPlaces := by
  unfold State.placesInUse State.placed
  simp only [countIn_eq]
  congr 1
  generalize allRecords = l
  induction l with
  | nil => rfl
  | cons i l ih =>
    have own := holdsPlace_sum (s.record i)
    simp only [List.countP_cons]
    omega

theorem placed_same {s t : State} (records : ∀ i, custodyOf (t.record i) = custodyOf (s.record i)) :
    t.placed = s.placed :=
  List.countP_congr fun i _ => by simp [holdsPlace, records i]

theorem placed_change {s t : State} (i : Fin 64)
    (others : ∀ j, j ≠ i → custodyOf (t.record j) = custodyOf (s.record j)) :
    t.placed + (if holdsPlace (s.record i) then 1 else 0) = s.placed + (if holdsPlace (t.record i) then 1 else 0) :=
  countP_change (p := fun j => holdsPlace (t.record j)) (q := fun j => holdsPlace (s.record j)) allRecords
    (List.nodup_finRange 64) (List.mem_finRange i) fun j hj => by
    simp [holdsPlace, others j hj]

/-! ### Changes of custody -/

/-- No record changes custody. -/
structure SameCustody (s t : State) : Prop where
  records : ∀ i, custodyOf (t.record i) = custodyOf (s.record i)
  queue : t.pack.queue = s.pack.queue
  scale : t.pack.scale = s.pack.scale
  pieces : ∀ n, (t.station n).piece = (s.station n).piece
  unbound : ∀ n, (t.station n).state = .unbound → (s.station n).state = .unbound ∨ (s.station n).piece = none

theorem State.Custody.same {s t : State} (h : s.Custody) (k : SameCustody s t) : t.Custody := by
  rw [custody_iff] at *
  obtain ⟨nodup, records, unbound⟩ := h
  refine ⟨by rw [k.queue]; exact nodup, fun i => (records i).congr (k.records i) (by rw [k.queue]) (by rw [k.scale])
    fun n => by rw [k.pieces], fun n hn => ?_⟩
  rw [k.pieces]
  exact (k.unbound n hn).elim (unbound n) id

/-- One record changes custody. -/
theorem State.Custody.move {s t : State} (i : Fin 64) (h : s.Custody) (nodup : t.pack.queue.Nodup)
    (others : ∀ j, j ≠ i → custodyOf (t.record j) = custodyOf (s.record j) ∧
      (j ∈ t.pack.queue ↔ j ∈ s.pack.queue) ∧ (t.pack.scale = some j ↔ s.pack.scale = some j) ∧
      ∀ n, (t.station n).piece = some j ↔ (s.station n).piece = some j)
    (own : t.CustodyAt i) (unbound : ∀ n, (t.station n).state = .unbound → (t.station n).piece = none) : t.Custody := by
  refine (custody_iff t).mpr ⟨nodup, fun j => ?_, unbound⟩
  by_cases e : j = i
  · subst e; exact own
  · obtain ⟨record, queue, scale, station⟩ := others j e
    exact (((custody_iff s).mp h).2.1 j).congr record queue scale station

theorem State.Custody.at_ {s : State} (h : s.Custody) (i : Fin 64) : s.CustodyAt i := ((custody_iff s).mp h).2.1 i

theorem custodyOf_map {r : Option Piece} {f : Piece → Piece}
    (hf : ∀ p, (f p).state = p.state ∧ (f p).station = p.station) : custodyOf (r.map f) = custodyOf r := by
  cases r with
  | none => rfl
  | some p => simp [custodyOf, hf p]

theorem custodyOf_modPiece (s : State) {f : Piece → Piece} (i j : Fin 64)
    (hf : ∀ p, (f p).state = p.state ∧ (f p).station = p.station) :
    custodyOf ((s.modPiece i f).record j) = custodyOf (s.record j) := by
  rw [State.modPiece_record]
  split
  · exact custodyOf_map hf
  · rfl

/-- The open piece of a station (R115). -/
theorem State.Custody.opened {s : State} {n : Fin 9} {i : Fin 64} (h : s.Custody)
    (piece : (s.station n).piece = some i) : custodyOf (s.record i) = some (.opened, n) := ((h.at_ i).station n).mp piece

/-- The old piece of a cut goes from its station to the tail of the queue (R98, R115). -/
theorem State.Custody.closeOld {s : State} (n : Fin 9) (h : s.Custody) : (s.closeOld n).Custody := by
  cases piece : (s.station n).piece with
  | none => rw [State.closeOld, piece]; exact h
  | some i =>
    have opened := h.opened piece
    obtain ⟨unqueued, unscaled, held⟩ := (h.at_ i).of_opened opened
    obtain ⟨⟨p, record, -, station⟩, -⟩ := custodyOf_eq_some.mp opened
    have queue : (s.closeOld n).pack.queue = s.pack.queue ++ [i] := by rw [closeOld_queue, piece]; rfl
    have pieces (m : Fin 9) : ((s.closeOld n).station m).piece = if m = n then none else (s.station m).piece := by
      rw [closeOld_station]; split <;> rfl
    refine h.move i ?nodup (fun j hj => ⟨?_, ?_, ?_, fun m => ?_⟩) (custodyAt_queued (n := p.station) ?_ ?_ ?_ fun m => ?_)
      fun m hm => ?_
    case nodup =>
      rw [queue]
      exact List.nodup_append.mpr ⟨h.nodup, List.nodup_singleton i, fun a ha b hb e =>
        unqueued (by rwa [e, List.mem_singleton.mp hb] at ha)⟩
    · rw [closeOld_record, if_neg (by simp [piece, Ne.symm hj])]
    · simp [queue, hj]
    · rw [closeOld_scale]
    · rw [pieces]
      split
      · rename_i e; subst e; simp [piece, Ne.symm hj]
      · rfl
    · rw [closeOld_record, if_pos piece, record]; simp [custodyOf, Piece.closeQueued]
    · simp [queue]
    · rw [closeOld_scale]; exact unscaled
    · rw [pieces]
      split
      · simp
      · rw [Ne, held]; assumption
    · rw [pieces]
      rw [closeOld_station] at hm
      split
      · rfl
      · rw [if_neg ‹_›] at hm; exact h.unbound m hm

/-- A record that opens goes into its station's custody (R16, R114). -/
theorem State.Custody.openInto {s : State} {n : Fin 9} {slot : Fin 16} {i : Fin 64} (h : s.Custody)
    (isFree : s.record i = none) (piece : (s.station n).piece = none) (bound : (s.station n).state ≠ .unbound) :
    (s.openInto n slot i).Custody := by
  obtain ⟨unqueued, unscaled, unheld⟩ := (h.at_ i).of_none (by simp [isFree, custodyOf])
  have pieces (m : Fin 9) : ((s.openInto n slot i).station m).piece = if m = n then some i else (s.station m).piece := by
    rw [openInto_station]; split <;> rfl
  have pack := openInto_pack s n slot i
  refine h.move i (by rw [pack]; exact h.nodup) (fun j hj => ⟨?_, by rw [pack], by rw [pack], fun m => ?_⟩)
    (custodyAt_opened (n := n) ?_ (by rw [pack]; exact unqueued) (by rw [pack]; exact unscaled) fun m => ?_) fun m hm => ?_
  · rw [openInto_record, if_neg hj]
  · rw [pieces]
    split
    · rename_i e; subst e; simp [piece, Ne.symm hj]
    · rfl
  · rw [openInto_record, if_pos rfl]; rfl
  · rw [pieces]
    split
    · simp [*]
    · rename_i e; simp [unheld m, e]
  · rw [openInto_station] at *
    split at hm
    · subst m; exact absurd hm bound
    · rw [if_neg ‹_›]; exact h.unbound m hm

/-- UNBIND takes the open piece out of custody (R13, R124). -/
theorem State.Custody.unbindRecords {s : State} (n : Fin 9) (h : s.Custody) : (s.unbindRecords n).Custody := by
  have pack : (s.unbindRecords n).pack = s.pack := by
    unfold State.unbindRecords
    cases (s.station n).piece <;> rfl
  have pieces (m : Fin 9) : ((s.unbindRecords n).station m).piece = if m = n then none else (s.station m).piece := by
    rw [unbindRecords_station]; split <;> rfl
  have unbound (m : Fin 9) (hm : ((s.unbindRecords n).station m).state = .unbound) :
      ((s.unbindRecords n).station m).piece = none := by
    rw [unbindRecords_station] at *
    split
    · rfl
    · rw [if_neg ‹_›] at hm; exact h.unbound m hm
  cases piece : (s.station n).piece with
  | none =>
    refine (custody_iff _).mpr ⟨by rw [pack]; exact h.nodup, fun i => ?_, unbound⟩
    refine (h.at_ i).congr ?_ (by rw [pack]) (by rw [pack]) fun m => ?_
    · rw [unbindRecords_record, piece]; rfl
    · rw [pieces]
      split
      · simp_all
      · rfl
  | some i =>
    have opened := h.opened piece
    obtain ⟨unqueued, unscaled, held⟩ := (h.at_ i).of_opened opened
    obtain ⟨⟨p, record, -, -⟩, -⟩ := custodyOf_eq_some.mp opened
    refine h.move i (by rw [pack]; exact h.nodup) (fun j hj => ⟨?_, by rw [pack], by rw [pack], fun m => ?_⟩)
      (custodyAt_none ?_ (by rw [pack]; exact unqueued) (by rw [pack]; exact unscaled) fun m => ?_) unbound
    · rw [unbindRecords_record, if_neg (by simp [piece, Ne.symm hj])]
    · rw [pieces]
      split
      · rename_i e; subst e; simp [piece, Ne.symm hj]
      · rfl
    · rw [unbindRecords_record, if_pos piece, record]; rfl
    · rw [pieces]
      split
      · simp
      · rw [Ne, held]; assumption

/-- The piece that NEXT issues goes from the queue to the scale (R131). -/
theorem State.Custody.toScale {s : State} {i : Fin 64} (h : s.Custody) (empty : s.pack.scale = none)
    (queued : i ∈ s.pack.queue) : (s.toScale i).Custody := by
  obtain ⟨n, record⟩ := (h.at_ i).queue.mp queued
  obtain ⟨-, -, unheld⟩ := (h.at_ i).of_queued record
  obtain ⟨⟨p, record, -, -⟩, -⟩ := custodyOf_eq_some.mp record
  have queue : (s.toScale i).pack.queue = s.pack.queue.filter (· != i) := rfl
  have scale : (s.toScale i).pack.scale = some i := rfl
  have records (j : Fin 64) : (s.toScale i).record j =
      if j = i then (s.record j).map fun p => { p with state := .atScale } else s.record j := State.modPiece_record _ _ _ _
  refine h.move i (h.nodup.filter _) (fun j hj => ⟨by rw [records, if_neg hj], ?_, ?_, fun m => Iff.rfl⟩)
    (custodyAt_scale (n := p.station) (.inl ?_) ?_ scale unheld) h.unbound
  · simp [queue, hj]
  · simp [scale, empty, Ne.symm hj]
  · rw [records, if_pos rfl, record]; rfl
  · simp [queue]

/-- A piece AT_SCALE that is taken back goes to the head of the queue (R132, R146). -/
theorem State.Custody.takeBack {s : State} {i : Fin 64} {n : Fin 9} (h : s.Custody)
    (record : custodyOf (s.record i) = some (.atScale, n)) : (s.takeBack i).Custody := by
  obtain ⟨unqueued, scale, unheld⟩ := (h.at_ i).of_scale (.inl record)
  obtain ⟨⟨p, record, -, -⟩, -⟩ := custodyOf_eq_some.mp record
  have records (j : Fin 64) : (s.takeBack i).record j =
      if j = i then (s.record j).map fun p => { p with state := .queued } else s.record j := State.modPiece_record _ _ _ _
  have queue : (s.takeBack i).pack.queue = i :: s.pack.queue := rfl
  have empty : (s.takeBack i).pack.scale = none := rfl
  refine h.move i (List.nodup_cons.mpr ⟨unqueued, h.nodup⟩)
    (fun j hj => ⟨by rw [records, if_neg hj], ?_, ?_, fun m => Iff.rfl⟩)
    (custodyAt_queued (n := p.station) ?_ ?_ ?_ unheld) h.unbound
  · simp [queue, hj]
  · simp [empty, scale, Ne.symm hj]
  · rw [records, if_pos rfl, record]; rfl
  · simp [queue]
  · simp [empty]

/-- The occupant of the scale that is weighed stays there (R134). -/
theorem State.Custody.weigh {s : State} {i : Fin 64} {n : Fin 9} (w : Weighing) (h : s.Custody)
    (record : custodyOf (s.record i) = some (.atScale, n) ∨ custodyOf (s.record i) = some (.weighed, n)) :
    (s.modPiece i fun p => { p with state := .weighed, weighing := some w }).Custody := by
  obtain ⟨unqueued, scale, unheld⟩ := (h.at_ i).of_scale record
  obtain ⟨p, record⟩ : ∃ p, s.record i = some p := by
    rcases record with record | record <;> exact (custodyOf_eq_some.mp record).1.imp fun _ h => h.1
  refine h.move i h.nodup (fun j hj => ⟨by rw [State.modPiece_record, if_neg hj], Iff.rfl, Iff.rfl, fun m => Iff.rfl⟩)
    (custodyAt_scale (n := p.station) (.inr ?_) unqueued scale unheld) h.unbound
  rw [State.modPiece_record, if_pos rfl, record]; rfl

/-- The occupant of the scale that is packed or put aside leaves custody (R139, R140). -/
theorem State.Custody.leaveScale {s : State} {i : Fin 64} {n : Fin 9} {f : Piece → Piece} (h : s.Custody)
    (record : custodyOf (s.record i) = some (.atScale, n) ∨ custodyOf (s.record i) = some (.weighed, n))
    (last : ∀ p, (f p).state = .packed ∨ (f p).state = .aside) : (s.modPiece i f).clearScale.Custody := by
  obtain ⟨unqueued, scale, unheld⟩ := (h.at_ i).of_scale record
  have records (j : Fin 64) : (s.modPiece i f).clearScale.record j = if j = i then (s.record j).map f else s.record j :=
    State.modPiece_record _ _ _ _
  have empty : (s.modPiece i f).clearScale.pack.scale = none := rfl
  refine h.move i h.nodup (fun j hj => ⟨by rw [records, if_neg hj], Iff.rfl, ?_, fun m => Iff.rfl⟩)
    (custodyAt_none ?_ unqueued (by simp [empty]) unheld) h.unbound
  · simp [empty, scale, Ne.symm hj]
  · rw [records, if_pos rfl]
    cases s.record i with
    | none => rfl
    | some p => rcases last p with e | e <;> simp [custodyOf, e]

/-! ### The law is kept -/

/-- The reservations and custody as they should be, within the 8 pack places (R96, R129). -/
structure State.Housed (s : State) : Prop where
  reserved : s.Reserved
  custody : s.Custody
  places : s.placesInUse ≤ Config.packPlaces

section
variable {s t : State}

theorem SameCustody.frame (records : t.table.records = s.table.records) (queue : t.pack.queue = s.pack.queue)
    (scale : t.pack.scale = s.pack.scale) (stations : t.stations = s.stations) : SameCustody s t :=
  ⟨fun i => by unfold State.record; rw [records], queue, scale, fun n => by rw [station_of_stations stations],
   fun n h => .inl (by rwa [station_of_stations stations] at h)⟩

theorem SameCustody.modPiece {i : Fin 64} {f : Piece → Piece}
    (hf : ∀ p, (f p).state = p.state ∧ (f p).station = p.station)
    (records : t.table.records = (s.modPiece i f).table.records) (queue : t.pack.queue = s.pack.queue)
    (scale : t.pack.scale = s.pack.scale) (stations : t.stations = s.stations) : SameCustody s t := by
  obtain ⟨a, b, c, d, e⟩ := SameCustody.frame (s := s.modPiece i f) records queue scale stations
  exact ⟨fun j => (a j).trans (custodyOf_modPiece s i j hf), b, c, d, e⟩

theorem SameCustody.atStation (n : Fin 9) (records : t.table.records = s.table.records) (pack : t.pack = s.pack)
    (others : ∀ m, m ≠ n → t.station m = s.station m) (piece : (t.station n).piece = (s.station n).piece)
    (bound : (t.station n).state = .unbound → (s.station n).state = .unbound ∨ (s.station n).piece = none) :
    SameCustody s t := by
  refine ⟨fun i => by unfold State.record; rw [records], by rw [pack], by rw [pack], fun m => ?_, fun m hm => ?_⟩
  · by_cases e : m = n
    · subst e; exact piece
    · rw [others m e]
  · by_cases e : m = n
    · subst e; exact bound hm
    · rw [others m e] at hm; exact .inl hm

theorem State.Housed.same (h : s.Housed) (reserved : t.Reserved) (k : SameCustody s t)
    (places : t.arbiter.reservedPlaces ≤ s.arbiter.reservedPlaces) : t.Housed := by
  refine ⟨reserved, h.custody.same k, ?_⟩
  have := h.places
  rw [placesInUse_eq] at *
  rw [placed_same k.records]
  omega

/-- A change of one record's custody, which takes up no place. -/
theorem State.Housed.move (i : Fin 64) (h : s.Housed) (reserved : t.Reserved) (custody : t.Custody)
    (others : ∀ j, j ≠ i → custodyOf (t.record j) = custodyOf (s.record j))
    (placed : holdsPlace (t.record i) = true → holdsPlace (s.record i) = true)
    (places : t.arbiter.reservedPlaces ≤ s.arbiter.reservedPlaces) : t.Housed := by
  refine ⟨reserved, custody, ?_⟩
  have one := placed_change i others
  have := h.places
  rw [placesInUse_eq] at *
  by_cases e : holdsPlace (t.record i) = true
  · simp only [e, placed e] at one; omega
  · simp only [e] at one
    split at one <;> simp at one <;> omega

end

/-- The piece a completion closes takes up one place. -/
theorem placed_closeOld (s : State) (n : Fin 9) : (s.closeOld n).placed ≤ s.placed + 1 := by
  cases piece : (s.station n).piece with
  | none =>
    have same : (s.closeOld n).placed = s.placed := placed_same fun i => by
      rw [closeOld_record, piece, if_neg (by simp)]
    omega
  | some i =>
    have := placed_change (s := s) (t := s.closeOld n) i fun j hj => by
      rw [closeOld_record, if_neg (by simp [piece, Ne.symm hj])]
    split at this <;> split at this <;> omega

theorem placed_openInto {s : State} (n : Fin 9) (slot : Fin 16) {i : Fin 64} (isFree : s.record i = none) :
    (s.openInto n slot i).placed = s.placed := by
  have := placed_change (s := s) (t := s.openInto n slot i) i fun j hj => by rw [openInto_record, if_neg hj]
  simpa [isFree, openInto_record, holdsPlace, custodyOf, State.newPiece] using this

/-- The completion of a cut gives its reserved place to the old piece and its reserved record to the new one (R98). -/
theorem State.Housed.completeCut {s t : State} {n : Fin 9} (h : s.Housed) (cutting : (s.station n).state = .cutting)
    (e : s.completeCut n = some t) : t.Housed := by
  have reserved : t.Reserved := h.reserved.completeCut cutting e
  obtain ⟨slot, i, -, isFree, rfl⟩ := completeCut_cases e
  have disarmed : (s.setCutTimer n none).Custody := h.custody.same (.frame rfl rfl rfl rfl)
  have openFree : ((s.setCutTimer n none).closeOld n).record i = none := by
    rw [closeOld_record]
    split <;> simp [isFree]
  have opened := (disarmed.closeOld n).openInto (n := n) (slot := slot) openFree
    (by rw [closeOld_station, if_pos rfl]) (by rw [closeOld_station, if_pos rfl]; simp [cutting])
  have finished : SameCustody (((s.setCutTimer n none).closeOld n).openInto n slot i)
      ((((s.setCutTimer n none).closeOld n).openInto n slot i).finishCut n) := by
    refine .atStation n (congrArg _ (finishCut_table _ n)) (finishCut_pack _ n)
      (fun m hm => by rw [finishCut_station, if_neg hm]) ?_ fun unbound => ?_
    · rw [finishCut_station, if_pos rfl, Station.enter_piece]
    · rw [finishCut_station, if_pos rfl, Station.enter_state] at unbound
      split at unbound <;> cases unbound
  refine ⟨reserved, opened.same finished, ?_⟩
  have placed : ((((s.setCutTimer n none).closeOld n).openInto n slot i).finishCut n).placed ≤ s.placed + 1 := by
    rw [placed_same finished.records, placed_openInto n slot openFree]
    exact placed_closeOld (s.setCutTimer n none) n
  have released := (finishCut_reserves (((s.setCutTimer n none).closeOld n).openInto n slot i) n).2
  rw [openInto_arbiter, closeOld_arbiter, State.setCutTimer_arbiter_reservedPlaces] at released
  have cuts := cuttingCount_pos cutting
  have reservedPlaces := h.reserved.places
  have before := h.places
  rw [placesInUse_eq] at *
  omega

theorem unweighed_custody {s : State} {i : Fin 64} (h : s.unweighed = some i) :
    ∃ n, custodyOf (s.record i) = some (.atScale, n) := by
  unfold State.unweighed at h
  split at h
  · split at h
    · split at h
      · rename_i p record _
        cases h; exact ⟨p.station, by simp [custodyOf, *]⟩
      · cases h
    · cases h
  · cases h

theorem custodyOf_scale {s : State} {i : Fin 64} {p : Piece} (record : s.record i = some p)
    (state : p.state = .atScale ∨ p.state = .weighed) :
    custodyOf (s.record i) = some (.atScale, p.station) ∨ custodyOf (s.record i) = some (.weighed, p.station) := by
  rcases state with e | e <;> simp [custodyOf, record, e]

/-- Every primitive change keeps custody and the 8 pack places (R129). -/
theorem kept_housed : Kept State.Housed where
  elapse s dt h := h.same (kept_reserved.elapse s dt h.reserved) (.frame rfl rfl rfl rfl) le_rfl
  notice s slot k h := h.same (kept_reserved.notice s slot k h.reserved) (.frame rfl rfl rfl rfl) le_rfl
  lowFlag s b h := h.same (kept_reserved.lowFlag s b h.reserved) (.frame rfl rfl rfl rfl) le_rfl
  highFlag s b h := h.same (kept_reserved.highFlag s b h.reserved) (.frame rfl rfl rfl rfl) le_rfl
  faults s n f h := h.same (kept_reserved.faults s n f h.reserved) (.frame rfl rfl rfl rfl) le_rfl
  reasons s n f c h := h.same (kept_reserved.reasons s n f c h.reserved)
    (.atStation n rfl rfl (fun m hm => by simp [hm]) (by simp) fun e => .inl (by simpa using e)) le_rfl
  hold s n f running hf h := by
    refine h.same (kept_reserved.hold s n f running hf h.reserved)
      (.atStation n (congrArg _ (leaveFor_table _ n _)) (leaveFor_pack _ n _)
        (fun m hm => by simp [leaveFor_station, hm]) (by simp [leaveFor_station]) fun e => ?_)
      (by rw [leaveFor_arbiter]; rfl)
    simp [leaveFor_station] at e
  trip s n may h := by
    refine h.same (kept_reserved.trip s n may h.reserved)
      (.atStation n (congrArg _ (tripped_table s n)) (leaveFor_pack _ n _) (fun m hm => tripped_other s hm)
        (by simp [tripped_station]) fun e => ?_) (by rw [tripped_reservedPlaces])
    simp [tripped_state] at e
  abortTrip s n cutting h := by
    refine h.same (kept_reserved.abortTrip s n cutting h.reserved)
      (.atStation n (congrArg _ (tripped_table _ n)) (leaveFor_pack _ n _) (fun m hm => tripped_other _ hm)
        (by simp [tripped_station, abortCut_station]) fun e => ?_)
      (by rw [tripped_reservedPlaces]; exact Nat.sub_le _ 1)
    simp [tripped_state] at e
  abortHold s n cutting c h := by
    refine h.same (kept_reserved.abortHold s n cutting c h.reserved)
      (.atStation n rfl rfl (fun m hm => by simp [hm, abortCut_station]) (by simp [abortCut_station]) fun e => ?_)
      (Nat.sub_le _ 1)
    simp at e
  place s n may fresh h := h.same (kept_reserved.place s n may fresh h.reserved) (.frame rfl rfl rfl rfl) le_rfl
  award s n waits eligible h := by
    have reserved := kept_reserved.award s n waits eligible h.reserved
    have k : SameCustody s (s.award n) := by
      refine .atStation n (congrArg _ (award_table s n)) (leaveFor_pack _ n _)
        (fun m hm => by rw [award_station, if_neg hm]) (by simp [award_station]) fun e => ?_
      simp [award_station] at e
    refine ⟨reserved, h.custody.same k, ?_⟩
    obtain ⟨-, -, -, -, room, -⟩ := (eligible_iff s n).mp eligible
    rw [placesInUse_eq] at *
    rw [placed_same k.records, (award_reserves s n).2]
    omega
  bind s n slot o unbound loaded suits h := by
    refine h.same (kept_reserved.bind s n slot o unbound loaded suits h.reserved)
      (.atStation n rfl rfl (fun m hm => by rw [bindStation_station, if_neg hm]) ?_ fun e => ?_) le_rfl
    · rw [bindStation_station, if_pos rfl]
      exact (unbound.elim (h.custody.unbound n) And.right).symm
    · simp [bindStation_station] at e
  unbind s n a b c h := by
    have record (j : Fin 64) : custodyOf ((s.unbindRecords n).record j) =
        if (s.station n).piece = some j then none else custodyOf (s.record j) := by
      rw [unbindRecords_record]
      split
      · cases s.record j <;> rfl
      · rfl
    have arbiter := unbindRecords_arbiter s n
    have reserved := kept_reserved.unbind s n a b c h.reserved
    cases piece : (s.station n).piece with
    | none =>
      refine ⟨reserved, h.custody.unbindRecords n, ?_⟩
      have := h.places
      rw [placesInUse_eq] at *
      have placed : (s.unbindRecords n).placed = s.placed := placed_same fun j => by
        rw [record, piece, if_neg (by simp)]
      rw [placed, arbiter]
      exact this
    | some i =>
      refine h.move i reserved (h.custody.unbindRecords n) (fun j hj => ?_) ?_ (by rw [arbiter])
      · rw [record, if_neg (by simp [piece, Ne.symm hj])]
      · simp [holdsPlace, record, piece]
  untrip s n tripped h := by
    refine h.same (kept_reserved.untrip s n tripped h.reserved)
      (.atStation n rfl rfl (fun m hm => by simp [hm]) (by simp) fun e => ?_) le_rfl
    simp at e
  startHold s n r m ready supplied some_ h := by
    refine h.same (kept_reserved.startHold s n r m ready supplied some_ h.reserved)
      (.atStation n rfl rfl (fun m hm => by simp [hm]) (by simp) fun e => ?_) le_rfl
    simp at e
  startRun s n m ready supplied h := by
    refine h.same (kept_reserved.startRun s n m ready supplied h.reserved)
      (.atStation n (congrArg _ (enterRunning_table _ n)) (enterRunning_pack _ n)
        (fun m hm => by simp [enterRunning_station, hm]) (by simp [enterRunning_station]) fun e => ?_)
      (by rw [enterRunning_arbiter]; rfl)
    simp [enterRunning_station] at e
  opening s n slot i order piece free figure ready h := by
    have bound : (s.station n).state ≠ .unbound := by rcases ready with e | e <;> simp [e]
    refine ⟨kept_reserved.opening s n slot i order piece free figure ready h.reserved,
      h.custody.openInto free piece bound, ?_⟩
    have := h.places
    rw [placesInUse_eq] at *
    rw [placed_openInto n slot free, openInto_arbiter]
    exact this
  complete s n t cutting e h := h.completeCut cutting e
  cutTimer s n h := h.same (kept_reserved.cutTimer s n h.reserved) (.frame rfl rfl rfl rfl) le_rfl
  permit s n given h := h.same (kept_reserved.permit s n given h.reserved)
    (.atStation n rfl rfl (fun m hm => by simp [State.changePermit, hm]) (by simp [State.changePermit])
      fun e => .inl (by simpa [State.changePermit] using e)) le_rfl
  lay s l f a b h := h.same (kept_reserved.lay s l f a b h.reserved) (.frame rfl rfl rfl rfl) le_rfl
  lines s l f h := h.same (kept_reserved.lines s l f h.reserved) (.frame rfl rfl rfl rfl) le_rfl
  resetLine s b h := h.same (kept_reserved.resetLine s b h.reserved) (.frame rfl rfl rfl rfl) le_rfl
  inspector s f a b c h := h.same (kept_reserved.inspector s f a b c h.reserved) (.frame rfl rfl rfl rfl) le_rfl
  sense s a q x b c h := h.same (kept_reserved.sense s a q x b c h.reserved)
    (.modPiece (fun p => by split <;> exact ⟨rfl, rfl⟩) rfl rfl rfl rfl) le_rfl
  mend s e b h := h.same (kept_reserved.mend s e b h.reserved)
    (.modPiece (fun p => by split <;> exact ⟨rfl, rfl⟩) rfl rfl rfl rfl) le_rfl
  waive s i h := h.same (kept_reserved.waive s i h.reserved)
    (.modPiece (fun p => by split <;> exact ⟨rfl, rfl⟩) rfl rfl rfl rfl) le_rfl
  coil s i f c h := h.same (kept_reserved.coil s i f c h.reserved)
    (.modPiece (fun p => by split <;> exact ⟨rfl, rfl⟩) rfl rfl rfl rfl) le_rfl
  panel s i f b c h := h.same (kept_reserved.panel s i f b c h.reserved)
    (.modPiece (fun p => by split <;> exact ⟨rfl, rfl⟩) rfl rfl rfl rfl) le_rfl
  note s i f same h := h.same (kept_reserved.note s i f same h.reserved)
    (.modPiece (fun p => ⟨(same p).1, (same p).2.1⟩) rfl rfl rfl rfl) le_rfl
  retire s i p n record state le h := by
    refine h.same (kept_reserved.retire s i p n record state le h.reserved)
      ⟨fun j => ?_, rfl, rfl, fun _ => rfl, fun _ => .inl⟩ le_rfl
    rw [State.setRecord_record]
    split
    · subst j
      rcases state with e | e <;> simp [custodyOf, record, e]
    · rfl
  toScale s i empty queued h := by
    obtain ⟨n, record⟩ := (h.custody.at_ i).queue.mp queued
    refine h.move i (kept_reserved.toScale s i empty queued h.reserved) (h.custody.toScale empty queued)
      (fun j hj => congrArg custodyOf ?_) (fun _ => by simp [holdsPlace, record]) le_rfl
    exact (State.modPiece_record s i j _).trans (if_neg hj)
  takeBack s i back h := by
    obtain ⟨n, record⟩ := unweighed_custody back
    refine h.move i (kept_reserved.takeBack s i back h.reserved) (h.custody.takeBack record)
      (fun j hj => congrArg custodyOf ?_) (fun _ => by simp [holdsPlace, record]) le_rfl
    exact (State.modPiece_record s i j _).trans (if_neg hj)
  weigh s i p w record state h := by
    have place := custodyOf_scale record state
    refine h.move i (kept_reserved.weigh s i p w record state h.reserved) (h.custody.weigh w place)
      (fun j hj => congrArg custodyOf ?_) (fun _ => by rcases place with e | e <;> simp [holdsPlace, e]) le_rfl
    exact (State.modPiece_record s i j _).trans (if_neg hj)
  leaveScale s i p f record state last h := by
    have place := custodyOf_scale record state
    refine h.move i (kept_reserved.leaveScale s i p f record state last h.reserved)
      (h.custody.leaveScale place fun p => (last p).1)
      (fun j hj => congrArg custodyOf ?_) (fun _ => by rcases place with e | e <;> simp [holdsPlace, e]) le_rfl
    exact (State.modPiece_record s i j _).trans (if_neg hj)
  scaleTimer s t h := h.same (kept_reserved.scaleTimer s t h.reserved) (.frame rfl rfl rfl rfl) le_rfl
  receiver s r h := h.same (kept_reserved.receiver s r h.reserved) (.frame rfl rfl rfl rfl) le_rfl
  discard s h := h.same (kept_reserved.discard s h.reserved) (.frame rfl rfl rfl rfl) le_rfl
  answer s a room h := h.same (kept_reserved.answer s a room h.reserved) (.frame rfl rfl rfl rfl) le_rfl
  sent s h := by
    have reserved := kept_reserved.sent s h.reserved
    unfold State.sendAnswer at *
    split at * <;> exact h.same reserved (.frame rfl rfl rfl rfl) le_rfl
  forgetGrant s h := h.same (kept_reserved.forgetGrant s h.reserved) (.frame rfl rfl rfl rfl) le_rfl
  forgetLane s l h := h.same (kept_reserved.forgetLane s l h.reserved) (.frame rfl rfl rfl rfl) (by cases l <;> rfl)
  link s t h := h.same (kept_reserved.link s t h.reserved) (.frame rfl rfl rfl rfl) le_rfl
  take s slot k h := h.same (kept_reserved.take s slot k h.reserved) (.frame rfl rfl rfl rfl) le_rfl
  mask s m h := h.same (kept_reserved.mask s m h.reserved) (.frame rfl rfl rfl rfl) le_rfl
  order s slot o unused h := h.same (kept_reserved.order s slot o unused h.reserved) (.frame rfl rfl rfl rfl) le_rfl
  port s f mode h := h.same (kept_reserved.port s f mode h.reserved) (.frame rfl rfl rfl rfl) le_rfl
  params s p m f h := h.same (kept_reserved.params s p m f h.reserved) (.frame rfl rfl rfl rfl) le_rfl
  toConfig s idle h := h.same (kept_reserved.toConfig s idle h.reserved) (.frame rfl rfl rfl rfl) le_rfl
  operate s m h := h.same (kept_reserved.operate s m h.reserved) (.frame rfl rfl rfl rfl) le_rfl
  reset s c back h := by
    refine h.same (kept_reserved.reset s c back h.reserved) ⟨fun _ => rfl, rfl, rfl, fun n => ?_, fun n e => .inl ?_⟩
      (Nat.zero_le _)
    · rw [resetBlocks_station]; rfl
    · rw [resetBlocks_station] at e
      by_cases u : (s.station n).state = .unbound
      · exact u
      · simp [Station.lineReset, u] at e

/-- After power-on every record is FREE, and nothing is in custody (R1). -/
theorem reset_housed : State.reset.Housed := by
  have free : ∀ i, State.reset.record i = none := by decide +kernel
  have idle : ∀ n, State.reset.station n = Station.initial := by decide +kernel
  refine ⟨powerUp_reserved State.reset, (custody_iff _).mpr ⟨List.nodup_nil, fun i => ?_, fun n _ => ?_⟩, ?_⟩
  · exact custodyAt_none (by rw [free]; rfl) List.not_mem_nil (by simp [State.reset, PackLine.initial])
      fun m => by rw [idle]; simp [Station.initial]
  · rw [idle]; rfl
  · decide +kernel

/-- Settles O56. Custody, with the reservations under it, is kept by every primitive change; a station's work by every
change of a station's record; and an opening, which alone gives a serial, gives one that no record bears. -/
theorem piecesStayInCustody : Obligations.PiecesStayInCustody := by
  refine ⟨fun s t reserved custody places e => ?custody, fun s t => step_workHasPiece, fun s t => step_serialsDiffer⟩
  have powerUp (s : State) : s.powerUp.Housed :=
    reset_housed.same (powerUp_reserved s) (.frame rfl rfl rfl rfl) le_rfl
  have queue (s : State) (q : List Instr) (h : s.Housed) : ({ s with pending := q } : State).Housed :=
    h.same (h.reserved.same ⟨rfl, rfl⟩ le_rfl rfl) (.frame rfl rfl rfl rfl) le_rfl
  have housed := kept_housed.step (fun s _ => powerUp s) queue e ⟨reserved, custody, places⟩
  exact ⟨housed.custody, housed.places⟩

end Sys2Proof.Machine
end

