-- ==== Sys2Proof/Proofs/StoppedMachines.lean ====
section
/-!
PROOF. Stopped machines stay stopped: the waiting queue (R91, R92), machines that are not RUNNING (R17, R41, R43), run
permits (R158, R171), and the hold reasons under their floors (R11, R147, R148).
-/
namespace Sys2Proof.Machine

/-! ### The waiting queue (R91, R92) -/

section
variable {s t : State}

/-- A change at one station that adds no request. -/
theorem State.QueueStands.atStation (n : Fin 9) (h : s.QueueStands)
    (waiting : List.Sublist t.arbiter.waiting s.arbiter.waiting) (others : ∀ m, m ≠ n → t.station m = s.station m)
    (own : n ∈ t.arbiter.waiting → (t.station n).state.mayRequest = true) : t.QueueStands := by
  refine ⟨h.nodup.sublist waiting, fun m hm => ?_⟩
  by_cases e : m = n
  · subst e; exact own hm
  · rw [others m e]; exact h.states m (waiting.subset hm)

theorem State.QueueStands.same (h : s.QueueStands) (waiting : t.arbiter.waiting = s.arbiter.waiting)
    (stations : t.stations = s.stations) : t.QueueStands :=
  ⟨by rw [waiting]; exact h.nodup, fun n hn => by
    rw [station_of_stations stations]; exact h.states n (by rwa [waiting] at hn)⟩

/-- A station whose request is taken out of the queue holds none. -/
theorem State.QueueStands.drop (n : Fin 9) (h : s.QueueStands)
    (waiting : t.arbiter.waiting = s.arbiter.waiting.filter (· != n))
    (others : ∀ m, m ≠ n → t.station m = s.station m) : t.QueueStands :=
  h.atStation n (by rw [waiting]; exact List.filter_sublist) others fun hn => by simp [waiting] at hn

/-- A station that enters a state in which a request may wait keeps its request. -/
theorem State.QueueStands.enter (n : Fin 9) (h : s.QueueStands) (waiting : t.arbiter = s.arbiter)
    (others : ∀ m, m ≠ n → t.station m = s.station m) (may : (t.station n).state.mayRequest = true) : t.QueueStands :=
  h.atStation n (by rw [waiting]) others fun _ => may

end

theorem finishCut_state (s : State) (n : Fin 9) :
    ((s.finishCut n).station n).state = .holding ∨ ((s.finishCut n).station n).state = .running := by
  rw [finishCut_station, if_pos rfl, Station.enter_state]
  split <;> simp

theorem completeCut_others {s t : State} {n : Fin 9} (e : s.completeCut n = some t) (m : Fin 9) (hm : m ≠ n) :
    t.station m = s.station m := by
  obtain ⟨slot, i, -, -, rfl⟩ := completeCut_cases e
  rw [finishCut_station, if_neg hm, openInto_station, if_neg hm, closeOld_station, if_neg hm]; rfl

theorem completeCut_state {s t : State} {n : Fin 9} (e : s.completeCut n = some t) :
    (t.station n).state = .holding ∨ (t.station n).state = .running := by
  obtain ⟨slot, i, -, -, rfl⟩ := completeCut_cases e
  exact finishCut_state _ n

theorem completeCut_waiting {s t : State} {n : Fin 9} (e : s.completeCut n = some t) :
    t.arbiter.waiting = s.arbiter.waiting := by
  obtain ⟨slot, i, -, -, rfl⟩ := completeCut_cases e
  rw [finishCut_arbiter, State.release_arbiter_waiting, openInto_arbiter, closeOld_arbiter]; rfl

/-- Every primitive change keeps the waiting queue in order (R91, R92). -/
theorem kept_queueStands : Kept State.QueueStands where
  elapse s dt h := h.same rfl rfl
  notice s slot k h := h.same rfl rfl
  lowFlag s b h := h.same rfl rfl
  highFlag s b h := h.same rfl rfl
  faults s n f h := h.same rfl rfl
  reasons s n f _ h := h.atStation n (List.Sublist.refl _) (fun m hm => by simp [hm])
    fun hn => by simpa using h.states n hn
  hold s n f _ _ h := h.enter n (leaveFor_arbiter _ n _) (fun m hm => by simp [leaveFor_station, hm])
    (by simp [leaveFor_station, StationState.mayRequest])
  trip s n _ h := h.drop n (tripped_waiting s n) fun m hm => tripped_other s hm
  abortTrip s n _ h := h.drop n (tripped_waiting _ n) fun m hm => tripped_other _ hm
  abortHold s n _ _ h := h.atStation n (List.Sublist.refl _) (fun m hm => by simp [hm, abortCut_station])
    fun _ => by simp [StationState.mayRequest]
  place s n may fresh h := by
    refine ⟨List.nodup_append.mpr ⟨h.nodup, List.nodup_singleton n, fun a ha b hb e => fresh ?_⟩, fun m hm => ?_⟩
    · rwa [e, List.mem_singleton.mp hb] at ha
    · rcases List.mem_append.mp hm with hm | hm
      · exact h.states m hm
      · rw [List.mem_singleton.mp hm]; exact may
  award s n _ _ h := h.drop n (by rw [award_arbiter]; rfl) fun m hm => by rw [award_station, if_neg hm]
  bind s n slot o _ _ _ h := h.drop n rfl fun m hm => by rw [bindStation_station, if_neg hm]
  unbind s n _ _ _ h := h.drop n (by rw [unbindRecords_arbiter]) fun m hm => by rw [unbindRecords_station, if_neg hm]
  untrip s n _ h := h.enter n rfl (fun m hm => by simp [hm]) (by simp [StationState.mayRequest])
  startHold s n r _ _ _ _ h := h.enter n rfl (fun m hm => by simp [hm]) (by simp [StationState.mayRequest])
  startRun s n _ _ _ h := h.enter n (enterRunning_arbiter _ n) (fun m hm => by simp [enterRunning_station, hm])
    (by simp [enterRunning_station, StationState.mayRequest])
  opening s n slot i _ _ _ _ ready h := h.enter n (openInto_arbiter s n slot i)
    (fun m hm => by rw [openInto_station, if_neg hm]) (by
      rcases ready with e | e <;> simp [openInto_station, StationState.mayRequest, e])
  complete s n t _ e h := h.atStation n (by rw [completeCut_waiting e]) (completeCut_others e)
    fun _ => by rcases completeCut_state e with e | e <;> simp [StationState.mayRequest, e]
  cutTimer s n h := h.same rfl rfl
  permit s n _ h := h.atStation n (List.Sublist.refl _) (fun m hm => by simp [State.changePermit, hm])
    fun hn => by simpa [State.changePermit] using h.states n hn
  lay s l f _ _ h := h.same rfl rfl
  lines s l f h := h.same rfl rfl
  resetLine s b h := h.same rfl rfl
  inspector s f _ _ _ h := h.same rfl rfl
  sense s a q x _ _ h := h.same rfl rfl
  mend s e _ h := h.same rfl rfl
  waive s i h := h.same rfl rfl
  coil s i f _ h := h.same rfl rfl
  panel s i f _ _ h := h.same rfl rfl
  note s i f _ h := h.same rfl rfl
  retire s i p n _ _ _ h := h.same rfl rfl
  toScale s i _ _ h := h.same rfl rfl
  takeBack s i _ h := h.same rfl rfl
  weigh s i p w _ _ h := h.same rfl rfl
  leaveScale s i p f _ _ _ h := h.same rfl rfl
  scaleTimer s t h := h.same rfl rfl
  receiver s r h := h.same rfl rfl
  discard s h := h.same rfl rfl
  answer s a _ h := h.same rfl rfl
  sent s h := by unfold State.sendAnswer; split <;> exact h.same rfl rfl
  forgetGrant s h := h.same rfl rfl
  forgetLane s l h := by cases l <;> exact h.same rfl rfl
  link s t h := h.same rfl rfl
  take s slot k h := h.same rfl rfl
  mask s m h := h.same rfl rfl
  order s slot o _ h := h.same rfl rfl
  port s f _ h := h.same rfl rfl
  params s p _ _ h := h.same rfl rfl
  toConfig s _ h := h.same rfl rfl
  operate s _ h := h.same rfl rfl
  reset s c _ h := ⟨List.nodup_nil, fun n hn => by cases hn⟩

/-! ### Machines that are not RUNNING (R17, R41, R43) -/

/-- A machine that comes to rest in a change: it is idle afterwards, or it is as it was at a station that was not
RUNNING. -/
structure Rested (s t : State) : Prop where
  lay : ∀ l, (t.station (ofLay l)).state ≠ .running →
    (t.lay l).idle ∨ ((s.lay l).idle → (t.lay l).idle) ∧ (s.station (ofLay l)).state ≠ .running
  loom : (t.station loom).state ≠ .running →
    t.inspector.rowTimer = none ∨
      (s.inspector.rowTimer = none → t.inspector.rowTimer = none) ∧ (s.station loom).state ≠ .running

section
variable {s t : State}

theorem State.StoppedStand.rested (h : s.StoppedStand) (k : Rested s t) : t.StoppedStand :=
  ⟨fun l hl => (k.lay l hl).elim id fun ⟨kept, rests⟩ => kept (h.lay l rests),
   fun hl => (k.loom hl).elim id fun ⟨kept, rests⟩ => kept (h.loom rests)⟩

theorem Rested.same (lays : ∀ l, t.lay l = s.lay l) (rowTimer : t.inspector.rowTimer = s.inspector.rowTimer)
    (states : ∀ n, (s.station n).state = .running → (t.station n).state = .running) : Rested s t :=
  ⟨fun l hl => .inr ⟨by rw [lays]; exact id, fun e => hl (states _ e)⟩,
   fun hl => .inr ⟨by rw [rowTimer]; exact id, fun e => hl (states _ e)⟩⟩

theorem Rested.frame (lays : t.lays = s.lays) (inspector : t.inspector = s.inspector)
    (stations : t.stations = s.stations) : Rested s t :=
  .same (fun l => by unfold State.lay; simp only [lays]) (by rw [inspector])
    fun n => by rw [station_of_stations stations]; exact id

/-- A station that was not RUNNING enters a state, its machine left alone. -/
theorem Rested.enter (n : Fin 9) (lays : t.lays = s.lays) (inspector : t.inspector.rowTimer = s.inspector.rowTimer)
    (others : ∀ m, m ≠ n → t.station m = s.station m) (rests : (s.station n).state ≠ .running) : Rested s t :=
  .same (fun l => by unfold State.lay; simp only [lays]) inspector fun m hm => by
    rw [others m (by rintro rfl; exact rests hm)]; exact hm

/-- A station that leaves RUNNING stops its machine. -/
theorem Rested.leave (n : Fin 9) (others : ∀ m, m ≠ n → t.station m = s.station m)
    (lays : ∀ l, t.lay l = if (s.station n).state = .running ∧ n = ofLay l then (s.lay l).stop else s.lay l)
    (inspector : t.inspector =
      if (s.station n).state = .running ∧ n = Machine.loom then { s.inspector with rowTimer := none }
      else s.inspector) : Rested s t := by
  refine ⟨fun l hl => ?_, fun hl => ?_⟩
  · rw [lays]
    split
    · exact .inl ⟨rfl, rfl⟩
    · rename_i stays
      refine .inr ⟨id, fun e => ?_⟩
      by_cases c : ofLay l = n
      · subst c; exact stays ⟨e, rfl⟩
      · exact hl (by rw [others _ c]; exact e)
  · rw [inspector]
    split
    · exact .inl rfl
    · rename_i stays
      refine .inr ⟨id, fun e => ?_⟩
      by_cases c : Machine.loom = n
      · subst c; exact stays ⟨e, rfl⟩
      · exact hl (by rw [others _ c]; exact e)

end

theorem completeCut_rested {s t : State} {n : Fin 9} (cutting : (s.station n).state = .cutting)
    (e : s.completeCut n = some t) : Rested s t := by
  have others := completeCut_others e
  obtain ⟨slot, i, -, -, rfl⟩ := completeCut_cases e
  have rests : ∀ m, ((((((s.setCutTimer n none).closeOld n).openInto n slot i).finishCut n)).station m).state ≠
      .running → (s.station m).state ≠ .running := fun m hm runs => by
    by_cases c : m = n
    · subst c; rw [cutting] at runs; cases runs
    · exact hm (by rw [others m c]; exact runs)
  refine ⟨fun l hl => .inr ⟨?_, rests _ hl⟩, fun hl => .inr ⟨?_, rests _ hl⟩⟩
  · rcases finishCut_lay (((s.setCutTimer n none).closeOld n).openInto n slot i) n l with e | ⟨rfl, e⟩
    · rw [e, openInto_lay, closeOld_lay]; exact id
    · exact absurd e hl
  · rcases finishCut_inspector (((s.setCutTimer n none).closeOld n).openInto n slot i) n with e | ⟨rfl, e, -⟩
    · rw [e, openInto_inspector, closeOld_inspector]
      split <;> exact id
    · exact absurd e hl

/-- Every primitive change leaves the machines of stations that are not RUNNING at rest (R17). -/
theorem kept_stoppedStand : Kept State.StoppedStand where
  elapse s dt h := h.rested (.frame rfl rfl rfl)
  notice s slot k h := h.rested (.frame rfl rfl rfl)
  lowFlag s b h := h.rested (.frame rfl rfl rfl)
  highFlag s b h := h.rested (.frame rfl rfl rfl)
  faults s n f h := h.rested (.frame rfl rfl rfl)
  reasons s n f _ h := h.rested (.same (fun _ => rfl) rfl fun m => by
    rw [State.modReasons_station]; split <;> exact id)
  hold s n f running _ h := h.rested (.leave n (fun m hm => by simp [leaveFor_station, hm])
    (fun l => by simp [leaveFor_lay]) (by simp [leaveFor_inspector]))
  trip s n _ h := h.rested (.leave n (fun m hm => tripped_other s hm) (tripped_lay s n) (tripped_inspector s n))
  abortTrip s n _ h := h.rested (.leave n (fun m hm => tripped_other _ hm) (tripped_lay _ n) (tripped_inspector _ n))
  abortHold s n cutting _ h := h.rested (.enter n rfl rfl (fun m hm => by simp [hm, abortCut_station])
    (by simp [cutting]))
  place s n _ _ h := h.rested (.frame rfl rfl rfl)
  award s n _ _ h := h.rested (.leave n (fun m hm => by rw [award_station, if_neg hm]) (award_lay s n)
    (award_inspector s n))
  bind s n slot o unbound _ _ h := h.rested (.enter n rfl rfl (fun m hm => by rw [bindStation_station, if_neg hm])
    (by rcases unbound with e | e <;> simp [e]))
  unbind s n _ running _ h := by
    have same : (s.unbindRecords n).lays = s.lays ∧ (s.unbindRecords n).inspector = s.inspector := by
      unfold State.unbindRecords
      cases (s.station n).piece <;> exact ⟨rfl, rfl⟩
    exact h.rested (.enter n same.1 (by rw [same.2]) (fun m hm => by rw [unbindRecords_station, if_neg hm]) running)
  untrip s n tripped h := h.rested (.enter n rfl rfl (fun m hm => by simp [hm]) (by simp [tripped]))
  startHold s n r _ ready _ _ h := h.rested (.enter n rfl rfl (fun m hm => by simp [hm])
    (by rcases ready with e | e <;> simp [e]))
  startRun s n _ _ _ h := by
    refine h.rested ⟨fun l hl => .inr ?_, fun hl => .inr ?_⟩
    · have c : ofLay l ≠ n := by rintro rfl; simp [enterRunning_station] at hl
      rw [enterRunning_lay, if_neg (Ne.symm c)]
      exact ⟨id, by simpa [enterRunning_station, c] using hl⟩
    · have c : loom ≠ n := by rintro rfl; simp [enterRunning_station] at hl
      rw [enterRunning_inspector, if_neg (Ne.symm c)]
      exact ⟨id, by simpa [enterRunning_station, c] using hl⟩
  opening s n slot i _ _ _ _ _ h := h.rested (.same (openInto_lay s n slot i)
    (by rw [openInto_inspector]; split <;> rfl) fun m => by rw [openInto_station]; split <;> exact id)
  complete s n t cutting e h := h.rested (completeCut_rested cutting e)
  cutTimer s n h := h.rested (.frame rfl rfl rfl)
  permit s n _ h := h.rested (.same (fun _ => rfl) rfl fun m => by
    rw [State.changePermit, State.modStation_station]; split <;> exact id)
  lay s l f _ idle h := by
    refine h.rested ⟨fun m hm => .inr ⟨?_, hm⟩, fun hl => .inr ⟨id, hl⟩⟩
    rw [State.modLay_lay]
    split
    · subst m; exact idle.resolve_left hm
    · exact id
  lines s l f h := h.rested (.frame rfl rfl rfl)
  resetLine s b h := h.rested (.frame rfl rfl rfl)
  inspector s f _ idle _ h := h.rested ⟨fun l hl => .inr ⟨id, hl⟩, fun hl => .inr ⟨idle.resolve_left hl, hl⟩⟩
  sense s a q x _ grows h := h.rested (.same (fun _ => rfl) grows.timer fun _ => id)
  mend s e _ h := h.rested (.same (fun _ => rfl) rfl fun _ => id)
  waive s i h := h.rested (.same (fun _ => rfl) rfl fun _ => id)
  coil s i f _ h := h.rested (.frame rfl rfl rfl)
  panel s i f _ _ h := h.rested (.frame rfl rfl rfl)
  note s i f _ h := h.rested (.frame rfl rfl rfl)
  retire s i p n _ _ _ h := h.rested (.same (fun _ => rfl) rfl fun _ => id)
  toScale s i _ _ h := h.rested (.frame rfl rfl rfl)
  takeBack s i _ h := h.rested (.frame rfl rfl rfl)
  weigh s i p w _ _ h := h.rested (.frame rfl rfl rfl)
  leaveScale s i p f _ _ _ h := h.rested (.frame rfl rfl rfl)
  scaleTimer s t h := h.rested (.frame rfl rfl rfl)
  receiver s r h := h.rested (.frame rfl rfl rfl)
  discard s h := h.rested (.frame rfl rfl rfl)
  answer s a _ h := h.rested (.frame rfl rfl rfl)
  sent s h := by unfold State.sendAnswer; split <;> exact h.rested (.frame rfl rfl rfl)
  forgetGrant s h := h.rested (.frame rfl rfl rfl)
  forgetLane s l h := h.rested (.frame rfl rfl rfl)
  link s t h := h.rested (.frame rfl rfl rfl)
  take s slot k h := h.rested (.frame rfl rfl rfl)
  mask s m h := h.rested (.frame rfl rfl rfl)
  order s slot o _ h := h.rested (.frame rfl rfl rfl)
  port s f _ h := h.rested (.frame rfl rfl rfl)
  params s p _ _ h := h.rested (.frame rfl rfl rfl)
  toConfig s _ h := h.rested (.frame rfl rfl rfl)
  operate s _ h := by
    refine h.rested ⟨fun l hl => .inr ⟨?_, hl⟩, fun hl => .inr ⟨id, hl⟩⟩
    have : s.operate.lay l = (s.lay l).leaveConfig (s.layParams l) (s.rope (ofLay l)) := by
      simp [State.operate, State.lay, State.leaveLays]
    rw [this]
    unfold LayStation.leaveConfig
    split <;> dsimp only <;> split <;> exact id
  reset s c _ h := by
    refine h.rested ⟨fun l _ => .inl ?_, fun _ => .inl rfl⟩
    have : (s.resetBlocks c).lay l = (s.lay l).lineReset := Vector.getElem_map ..
    rw [this]
    exact ⟨rfl, rfl⟩

/-! ### Run permits (R158, R171) -/

/-- R158, R171 for one station: it works in OPERATE alone, and its pulse is high only while it works. -/
def Station.permitStands (mode : Mode) (x : Station) : Prop :=
  (x.state.permitted = true → mode = .operate) ∧ (x.pulseHigh = true → x.state.permitted = true)

theorem permitsStand_iff (s : State) : s.PermitsStand ↔ ∀ n, (s.station n).permitStands s.port.mode := by
  constructor
  · rintro ⟨config, pulse⟩ n
    refine ⟨fun given => ?_, fun high => ?_⟩
    · cases mode : s.port.mode with
      | operate => rfl
      | config => rw [config mode n] at given; cases given
    · have := pulse n high
      simp only [State.permitGiven, Bool.and_eq_true] at this
      exact this.2
  · intro h
    refine ⟨fun mode n => ?_, fun n high => ?_⟩
    · by_contra given
      have := (h n).1 (by simpa using given)
      rw [mode] at this
      cases this
    · have given := (h n).2 high
      simp [State.permitGiven, given, (h n).1 given]

theorem permitStands_enter (x : Station) {mode : Mode} (now : Word32) {st : StationState}
    (operate : st.permitted = true → mode = .operate) : (x.enter mode now st).permitStands mode := by
  unfold Station.enter
  split <;> [split; skip]
  · exact ⟨operate, fun _ => ‹_ ∧ _›.2⟩
  · exact ⟨operate, fun _ => ‹_ ∧ _›.2⟩
  · exact ⟨operate, fun high => by cases high⟩

section
variable {s t : State}

theorem State.PermitsStand.same (h : s.PermitsStand) (mode : t.port.mode = s.port.mode)
    (stations : t.stations = s.stations) : t.PermitsStand := by
  rw [permitsStand_iff] at *
  intro n
  rw [mode, station_of_stations stations]; exact h n

theorem State.PermitsStand.atStation (n : Fin 9) (h : s.PermitsStand) (port : t.port = s.port)
    (others : ∀ m, m ≠ n → t.station m = s.station m) (own : (t.station n).permitStands s.port.mode) :
    t.PermitsStand := by
  rw [permitsStand_iff] at *
  intro m
  rw [port]
  by_cases e : m = n
  · subst e; exact own
  · rw [others m e]; exact h m

theorem State.PermitsStand.operates (h : s.PermitsStand) {n : Fin 9}
    (works : (s.station n).state = .running ∨ (s.station n).state = .holding ∨ (s.station n).state = .cutting) :
    s.port.mode = .operate :=
  ((permitsStand_iff s).mp h n).1 (by rcases works with e | e | e <;> simp [StationState.permitted, e])

end

/-- Every primitive change keeps the permits in order (R158, R171). -/
theorem kept_permitsStand : Kept State.PermitsStand where
  elapse s dt h := h.same rfl rfl
  notice s slot k h := h.same rfl rfl
  lowFlag s b h := h.same rfl rfl
  highFlag s b h := h.same rfl rfl
  faults s n f h := h.same rfl rfl
  reasons s n f _ h := h.atStation n rfl (fun m hm => by simp [hm]) (by
    rw [State.modReasons_station, if_pos rfl]; exact (permitsStand_iff s).mp h n)
  hold s n f running _ h := h.atStation n (steady_leaveFor _ n _).port (fun m hm => by simp [leaveFor_station, hm]) (by
    rw [leaveFor_station, if_pos rfl]
    exact permitStands_enter _ _ fun _ => h.operates (.inl running))
  trip s n _ h := h.atStation n (steady_tripped s n).port (fun m hm => tripped_other s hm) (by
    rw [tripped_station, if_pos rfl]
    exact permitStands_enter _ _ fun e => by cases e)
  abortTrip s n _ h := h.atStation n (steady_tripped _ n).port (fun m hm => tripped_other _ hm) (by
    rw [tripped_station, if_pos rfl]
    exact permitStands_enter _ _ fun e => by cases e)
  abortHold s n cutting _ h := h.atStation n rfl (fun m hm => by simp [hm, abortCut_station]) (by
    rw [State.enterState_station, if_pos rfl]
    exact permitStands_enter _ _ fun _ => h.operates (.inr (.inr cutting)))
  place s n _ _ h := h.same rfl rfl
  award s n _ eligible h := h.atStation n (steady_award s n).port (fun m hm => by rw [award_station, if_neg hm]) (by
    rw [award_station, if_pos rfl]
    exact permitStands_enter _ _ fun _ => h.operates (((eligible_iff s n).mp eligible).1.imp_right .inl))
  bind s n slot o _ _ _ h := h.atStation n rfl (fun m hm => by rw [bindStation_station, if_neg hm]) (by
    rw [bindStation_station, if_pos rfl]
    exact permitStands_enter (s.station n) s.clocks.part (st := .ready) fun e => by cases e)
  unbind s n _ _ _ h := h.atStation n (steady_unbindRecords s n).port
    (fun m hm => by rw [unbindRecords_station, if_neg hm]) (by
      rw [unbindRecords_station, if_pos rfl]
      exact permitStands_enter (s.station n) s.clocks.part (st := .unbound) fun e => by cases e)
  untrip s n _ h := h.atStation n rfl (fun m hm => by simp [hm]) (by
    rw [State.enterState_station, if_pos rfl]
    exact permitStands_enter _ _ fun e => by cases e)
  startHold s n r mode _ _ _ h := h.atStation n rfl (fun m hm => by simp [hm]) (by
    rw [State.enterState_station, if_pos rfl]
    exact permitStands_enter _ _ fun _ => mode)
  startRun s n mode _ _ h := h.atStation n (steady_enterRunning _ n).port
    (fun m hm => by simp [enterRunning_station, hm]) (by
      rw [enterRunning_station, if_pos rfl]
      exact permitStands_enter _ _ fun _ => mode)
  opening s n slot i _ _ _ _ _ h := h.atStation n (steady_openInto s n slot i).port
    (fun m hm => by rw [openInto_station, if_neg hm]) (by
      rw [openInto_station, if_pos rfl]; exact (permitsStand_iff s).mp h n)
  complete s n t cutting e h := by
    have others := completeCut_others e
    have port := (steady_completeCut e).port
    obtain ⟨slot, i, -, -, rfl⟩ := completeCut_cases e
    have before : (((s.setCutTimer n none).closeOld n).openInto n slot i).port = s.port := by
      rw [(steady_openInto _ n slot i).port, (steady_closeOld _ n).port]; rfl
    refine h.atStation n port others ?_
    rw [finishCut_station, if_pos rfl, before]
    exact permitStands_enter _ _ fun _ => h.operates (.inr (.inr cutting))
  cutTimer s n h := h.same rfl rfl
  permit s n given h := h.atStation n rfl (fun m hm => by simp [State.changePermit, hm]) (by
    simp only [State.permitGiven, Bool.and_eq_true, beq_iff_eq] at given
    rw [State.changePermit, State.modStation_station, if_pos rfl]
    exact ⟨fun _ => given.1, fun _ => given.2⟩)
  lay s l f _ _ h := h.same rfl rfl
  lines s l f h := h.same rfl rfl
  resetLine s b h := h.same rfl rfl
  inspector s f _ _ _ h := h.same rfl rfl
  sense s a q x _ _ h := h.same rfl rfl
  mend s e _ h := h.same rfl rfl
  waive s i h := h.same rfl rfl
  coil s i f _ h := h.same rfl rfl
  panel s i f _ _ h := h.same rfl rfl
  note s i f _ h := h.same rfl rfl
  retire s i p n _ _ _ h := h.same rfl rfl
  toScale s i _ _ h := h.same rfl rfl
  takeBack s i _ h := h.same rfl rfl
  weigh s i p w _ _ h := h.same rfl rfl
  leaveScale s i p f _ _ _ h := h.same rfl rfl
  scaleTimer s t h := h.same rfl rfl
  receiver s r h := h.same rfl rfl
  discard s h := h.same rfl rfl
  answer s a _ h := h.same rfl rfl
  sent s h := by unfold State.sendAnswer; split <;> exact h.same rfl rfl
  forgetGrant s h := h.same rfl rfl
  forgetLane s l h := h.same rfl rfl
  link s t h := h.same rfl rfl
  take s slot k h := h.same rfl rfl
  mask s m h := h.same rfl rfl
  order s slot o _ h := h.same rfl rfl
  port s f mode h := h.same (mode s.port) rfl
  params s p _ _ h := h.same rfl rfl
  toConfig s idle h := by
    have idle (n : Fin 9) : (s.station n).state.permitted = false := by
      simpa [State.working] using List.any_eq_false.mp idle n (mem_allStations n)
    rw [permitsStand_iff] at *
    refine fun n => ⟨fun given => ?_, (h n).2⟩
    have given : (s.station n).state.permitted = true := given
    rw [idle n] at given
    cases given
  operate s _ h := by
    rw [permitsStand_iff] at *
    exact fun n => ⟨fun _ => rfl, (h n).2⟩
  reset s c _ h := by
    rw [permitsStand_iff]
    intro n
    rw [resetBlocks_station]
    refine ⟨fun given => ?_, fun high => by cases high⟩
    by_cases e : (s.station n).state = .unbound <;> simp [Station.lineReset, StationState.permitted, e] at given

/-! ### Hold reasons (R11) -/

/-- R11 for one station. -/
def Station.reasonsStand (x : Station) : Prop :=
  (x.state = .holding → x.reasons ≠ Reasons.empty) ∧
    (x.state = .unbound ∨ x.state = .ready ∨ x.state = .running ∨ x.state = .tripped → x.reasons = Reasons.empty)

theorem reasonsStand_of_holding {x : Station} (state : x.state = .holding) (some_ : x.reasons ≠ Reasons.empty) :
    x.reasonsStand := ⟨fun _ => some_, fun e => by simp [state] at e⟩

theorem reasonsStand_of_empty {x : Station} (state : x.state ≠ .holding) (none_ : x.reasons = Reasons.empty) :
    x.reasonsStand := ⟨fun e => absurd e state, fun _ => none_⟩

theorem reasonsStand_of_cutting {x : Station} (state : x.state = .cutting) : x.reasonsStand := by
  constructor <;> simp [state]

theorem reasons_any_iff (r : Reasons) : r.any = true ↔ r ≠ Reasons.empty := by
  obtain ⟨a, b, c⟩ := r
  cases a <;> cases b <;> cases c <;> simp [Reasons.any, Reasons.empty]

theorem stationwise_reasonsStand : Stationwise Params.FloorsStand Station.reasonsStand where
  params _ _ hp h := hp h
  reasons x f c h := by
    rcases c with e | ⟨e, hf⟩ | ⟨e, hf⟩
    · exact reasonsStand_of_cutting e
    · exact reasonsStand_of_holding e (hf _)
    · refine reasonsStand_of_empty (by simp [e]) ?_
      show f x.reasons = _
      rw [h.2 (by simp [e]), hf]
  hold x f m now _ hf _ := reasonsStand_of_holding (by simp) (by simpa using hf _)
  trip x m now _ _ _ := reasonsStand_of_empty (by simp) (by simp)
  abortHold p x m now floors _ c _ := by
    refine reasonsStand_of_holding (by simp) ?_
    rw [Station.enter_reasons]
    refine c.resolve_right fun note => ?_
    have := floors.floor .cutTimeout
    rw [note] at this
    exact absurd this (by decide)
  award x m now _ _ := reasonsStand_of_cutting (by simp)
  bind x m now slot _ := reasonsStand_of_empty (by simp) rfl
  unbind x m now _ := reasonsStand_of_empty (by simp) rfl
  untrip x m now tripped h := reasonsStand_of_empty (by simp) (by simpa using h.2 (by simp [tripped]))
  startHold x r m now _ _ some_ _ := reasonsStand_of_holding (by simp) (by simpa)
  startRun x m now _ _ _ := reasonsStand_of_empty (by simp) (by simp)
  opening _ _ _ _ _ h := h
  complete x i m now _ _ _ := by
    split
    · exact reasonsStand_of_holding (by simp) (by rw [Station.enter_reasons]; exact (reasons_any_iff _).mp ‹_›)
    · refine reasonsStand_of_empty (by simp) ?_
      rw [Station.enter_reasons]
      by_contra c
      exact ‹¬ _› ((reasons_any_iff _).mpr c)
  permit _ _ _ h := h
  reset x _ := by
    refine reasonsStand_of_empty ?_ rfl
    by_cases e : x.state = .unbound <;> simp [Station.lineReset, e]

/-! ### After power-on -/

theorem reset_station (n : Fin 9) : State.reset.station n = Station.initial := by revert n; decide +kernel

theorem reset_queueStands : State.reset.QueueStands := ⟨List.nodup_nil, fun n hn => by cases hn⟩

theorem reset_stoppedStand : State.reset.StoppedStand := by
  have lay : ∀ l, State.reset.lay l = LayStation.initial := by decide +kernel
  exact ⟨fun l _ => by rw [lay]; exact ⟨rfl, rfl⟩, fun _ => rfl⟩

theorem reset_permitsStand : State.reset.PermitsStand := by
  rw [permitsStand_iff]
  intro n
  rw [reset_station]
  exact ⟨fun given => (by cases given), fun high => by cases high⟩

theorem reset_floorsStand : State.reset.params.FloorsStand := by
  refine ⟨fun k => ?_, by decide +kernel⟩
  cases k <;> decide +kernel

theorem reset_reasons : State.reset.All Params.FloorsStand Station.reasonsStand :=
  ⟨reset_floorsStand, fun n => by rw [reset_station]; exact reasonsStand_of_empty (by decide) rfl⟩

theorem reasonsStand_iff (s : State) : s.ReasonsStand ↔ ∀ n, (s.station n).reasonsStand :=
  ⟨fun h n => ⟨h.holding n, h.others n⟩, fun h => ⟨fun n => (h n).1, fun n => (h n).2⟩⟩

/-- Settles O58. Each law is kept by every primitive change; the hold reasons by every change of a station's record. -/
theorem stoppedMachinesStayStopped : Obligations.StoppedMachinesStayStopped := by
  refine ⟨fun s t queue stopped permits e => ⟨?_, ?_, ?_⟩, fun s t floors reasons e => ?_⟩
  · exact kept_queueStands.step (fun s _ => reset_queueStands.same rfl rfl) (fun _ _ h => h.same rfl rfl) e queue
  · exact kept_stoppedStand.step (fun s _ => reset_stoppedStand.rested (.frame rfl rfl rfl))
      (fun _ _ h => h.rested (.frame rfl rfl rfl)) e stopped
  · exact kept_permitsStand.step (fun s _ => reset_permitsStand.same rfl rfl) (fun _ _ h => h.same rfl rfl) e permits
  · have all := stationwise_reasonsStand.kept.step (fun s _ => reset_reasons.same rfl rfl)
      (fun _ _ h => h.same rfl rfl) e ⟨floors, (reasonsStand_iff s).mp reasons⟩
    exact ⟨all.1, (reasonsStand_iff t).mpr all.2⟩

end Sys2Proof.Machine
end

