-- ==== Sys2Proof/Proofs/Limits.lean ====
section
/-!
PROOF. The lists and counts of the part stay within their limits, and the mend list and the panels it names agree (R74,
R80, R84).
-/
namespace Sys2Proof.Machine

/-! ### What a change may do to the counted things -/

/-- Every counted thing that stood within its limits before a change stands so after it. -/
structure Bounded (s t : State) : Prop where
  lays : ∀ l, (s.lay l).WithinLimits → (t.lay l).WithinLimits := by exact fun _ h => h
  pieces : ∀ i p, t.record i = some p →
    p.body.WithinLimits ∨ ∃ q, s.record i = some q ∧ (q.body.WithinLimits → p.body.WithinLimits) := by
      exact fun _ p h => .inr ⟨p, h, id⟩
  inspector : s.inspector.WithinLimits → t.inspector.WithinLimits := by exact id
  grants : s.arbiter.grants.length ≤ Config.grantSize → t.arbiter.grants.length ≤ Config.grantSize := by exact id
  answers : s.pack.tx.length ≤ Config.txSize → t.pack.tx.length ≤ Config.txSize := by exact id
  framing : s.pack.framing ≤ Config.countSat → t.pack.framing ≤ Config.countSat := by exact id
  notices : ∀ slot k, s.noticeCount slot k ≤ Config.noticeSat → t.noticeCount slot k ≤ Config.noticeSat := by
    exact fun _ _ h => h

theorem State.WithinLimits.bounded {s t : State} (h : s.WithinLimits) (b : Bounded s t) : t.WithinLimits where
  lays l := b.lays l (h.lays l)
  pieces i p hp := (b.pieces i p hp).elim id fun ⟨q, hq, k⟩ => k (h.pieces i q hq)
  inspector := b.inspector h.inspector
  grants := b.grants h.grants
  answers := b.answers h.answers
  framing := b.framing h.framing
  notices slot k := b.notices slot k (h.notices slot k)

theorem Bounded.trans {s t u : State} (b : Bounded s t) (c : Bounded t u) : Bounded s u where
  lays l h := c.lays l (b.lays l h)
  pieces i p hp := by
    rcases c.pieces i p hp with h | ⟨q, hq, k⟩
    · exact .inl h
    · rcases b.pieces i q hq with h | ⟨r, hr, m⟩
      · exact .inl (k h)
      · exact .inr ⟨r, hr, fun h => k (m h)⟩
  inspector h := c.inspector (b.inspector h)
  grants h := c.grants (b.grants h)
  answers h := c.answers (b.answers h)
  framing h := c.framing (b.framing h)
  notices slot k h := c.notices slot k (b.notices slot k h)

theorem noticed_le {n : Nat} (h : n ≤ Config.noticeSat) : noticed n ≤ Config.noticeSat := satSucc_le h

theorem bounded_notice (s : State) (slot : Fin 10) (k : NoticeKind) : Bounded s (s.notice slot k) where
  notices slot' k' h := by
    rw [State.notice_noticeCount]
    split
    · exact noticed_le h
    · exact h

theorem bounded_stopMachine (s : State) (n : Fin 9) : Bounded s (s.stopMachine n) := by
  have e : (s.stopMachine n).table = s.table ∧ (s.stopMachine n).arbiter = s.arbiter ∧
      (s.stopMachine n).pack = s.pack ∧ (s.stopMachine n).notices = s.notices := by
    unfold State.stopMachine; split <;> exact ⟨rfl, rfl, rfl, rfl⟩
  obtain ⟨table, arbiter, pack, notices⟩ := e
  constructor
  · intro l h
    rw [stopMachine_lay]
    split
    · exact h
    · exact h
  · intro i p hp
    exact .inr ⟨p, by rwa [record_of_table table] at hp, id⟩
  · intro h
    rw [stopMachine_inspector]
    split <;> exact h
  · rw [arbiter]; exact id
  · rw [pack]; exact id
  · rw [pack]; exact id
  · unfold State.noticeCount; rw [notices]; exact fun _ _ h => h

theorem bounded_leaveFor (s : State) (n : Fin 9) (st : StationState) : Bounded s (s.leaveFor n st) := by
  unfold State.leaveFor
  split
  · exact (bounded_stopMachine s n).trans {}
  · exact {}

theorem bounded_tripped (s : State) (n : Fin 9) : Bounded s (s.tripped n) :=
  Bounded.trans (t := (s.dropRequest n).modReasons n fun _ => Reasons.empty) {} (bounded_leaveFor _ n _)

theorem bounded_enterRunning (s : State) (n : Fin 9) : Bounded s (s.enterRunning n) where
  lays l h := by
    rw [enterRunning_lay]
    split
    · unfold State.freshLay LayStation.setDemand
      split <;> exact ⟨Nat.zero_le _, Nat.zero_le _⟩
    · exact h
  pieces i p hp := .inr ⟨p, by rwa [record_of_table (enterRunning_table s n)] at hp, id⟩
  inspector h := by
    rw [enterRunning_inspector]
    split <;> exact h
  grants := by rw [enterRunning_arbiter]; exact id
  answers := by rw [enterRunning_pack]; exact id
  framing := by rw [enterRunning_pack]; exact id
  notices := by unfold State.noticeCount; rw [enterRunning_notices]; exact fun _ _ h => h

/-- Readings that age push the oldest out before a ninth joins (R90). -/
theorem appendGrant_le {l : List Word32} (now : Word32) (h : l.length ≤ Config.grantSize) :
    (appendGrant l now).length ≤ Config.grantSize := by
  unfold appendGrant
  split
  · rw [List.length_append, List.length_tail, List.length_singleton]
    simp only [Config.grantSize] at *
    omega
  · rw [List.length_append, List.length_singleton]
    omega

theorem bounded_award (s : State) (n : Fin 9) : Bounded s (s.award n) :=
  Bounded.trans
    (t := { s with
      arbiter := s.arbiter.grant n (s.stationParams n).lane s.clocks.part
        (s.partTimer (s.params.part.cutTimeout * 1000)) })
    { grants := fun h => appendGrant_le _ h } (bounded_leaveFor _ n _)

/-- A record whose body is changed within its limits. -/
theorem bounded_modPiece (s : State) (i : Fin 64) (f : Piece → Piece)
    (body : ∀ p, s.record i = some p → p.body.WithinLimits → (f p).body.WithinLimits) : Bounded s (s.modPiece i f) where
  pieces j p hp := by
    rw [State.modPiece_record] at hp
    split at hp
    · rename_i e
      subst e
      obtain ⟨q, hq, rfl⟩ := Option.map_eq_some_iff.mp hp
      exact .inr ⟨q, hq, body q hq⟩
    · exact .inr ⟨p, hp, id⟩

theorem bounded_modPanel (s : State) (i : Fin 64) (f : Panel → Panel)
    (panel : ∀ p q, s.record i = some p → p.body = .panel q → q.WithinLimits → (f q).WithinLimits) :
    Bounded s (s.modPanel i f) :=
  bounded_modPiece s i _ fun p hp h => by
    cases e : p.body with
    | coil c => rw [e] at h; simpa [e] using h
    | panel q => rw [e] at h; exact panel p q hp e h

theorem bounded_modCoil (s : State) (i : Fin 64) (f : Coil → Coil)
    (coil : ∀ p c, s.record i = some p → p.body = .coil c → c.WithinLimits → (f c).WithinLimits) :
    Bounded s (s.modCoil i f) :=
  bounded_modPiece s i _ fun p hp h => by
    cases e : p.body with
    | coil c => rw [e] at h; exact coil p c hp e h
    | panel q => rw [e] at h; simpa [e] using h

/-- A new piece starts within its limits (R114). -/
theorem newBody_limits (s : State) (n : Fin 9) : (s.newBody n).WithinLimits := by
  unfold State.newBody
  split
  · refine ⟨le_rfl, Int.natCast_nonneg _, Nat.zero_le _, Nat.zero_le _, fun w hw => ?_, Nat.zero_le _, Nat.zero_le _, Nat.zero_le _⟩
    dsimp only at hw
    split at hw <;> cases hw
    decide
  · exact ⟨Nat.zero_le _, Nat.zero_le _, Nat.zero_le _, Nat.zero_le _, Nat.zero_le _, Nat.zero_le _, Nat.zero_le _,
      Nat.zero_le _⟩

theorem bounded_openInto (s : State) (n : Fin 9) (slot : Fin 16) (i : Fin 64) : Bounded s (s.openInto n slot i) where
  lays l h := by rw [openInto_lay]; exact h
  pieces j p hp := by
    rw [openInto_record] at hp
    split at hp
    · cases hp; exact .inl (newBody_limits s n)
    · exact .inr ⟨p, hp, id⟩
  inspector h := by
    rw [openInto_inspector]
    split <;> exact h
  grants := by rw [openInto_arbiter]; exact id
  answers := by rw [openInto_pack]; exact id
  framing := by rw [openInto_pack]; exact id
  notices := by unfold State.noticeCount; rw [openInto_notices]; exact fun _ _ h => h

theorem bounded_closeOld (s : State) (n : Fin 9) : Bounded s (s.closeOld n) := by
  unfold State.closeOld
  split
  · rename_i i _
    exact (bounded_modPiece s i (fun p => { p with state := .queued, closedAt := some s.clocks.part })
      fun _ _ h => h).trans {}
  · exact {}

theorem bounded_finishCut (s : State) (n : Fin 9) : Bounded s (s.finishCut n) := by
  unfold State.finishCut State.resume
  have rest : Bounded s (s.release.modReasons n fun r => { r with overrun := false }) := {}
  split
  · exact rest.trans {}
  · exact rest.trans (bounded_enterRunning _ n)

theorem bounded_completeCut {s t : State} {n : Fin 9} (e : s.completeCut n = some t) : Bounded s t := by
  obtain ⟨slot, i, -, -, rfl⟩ := completeCut_cases e
  have timer : Bounded s (s.setCutTimer n none) := {}
  exact ((timer.trans (bounded_closeOld _ n)).trans (bounded_openInto _ n slot i)).trans (bounded_finishCut _ n)

theorem bounded_unbindRecords (s : State) (n : Fin 9) : Bounded s (s.unbindRecords n) := by
  unfold State.unbindRecords
  split
  · rename_i i _
    exact (bounded_modPiece s i (fun p => p.closeShort s.clocks.part) fun _ _ h => h).trans {}
  · exact {}

theorem mendOne_limits {q : Panel} (h : q.WithinLimits) : q.mendOne.WithinLimits := by
  obtain ⟨rows, knots, holes, unlisted, unsensed, unmended, mended, waived⟩ := h
  exact ⟨rows, knots, holes, unlisted, unsensed, (Nat.sub_le _ _).trans unmended, satSucc_le mended, waived⟩

theorem waiveAll_limits {q : Panel} (entries : Nat) (h : q.WithinLimits) : (q.waiveAll entries).WithinLimits := by
  obtain ⟨rows, knots, holes, unlisted, unsensed, unmended, mended, waived⟩ := h
  exact ⟨rows, knots, holes, Nat.zero_le _, unsensed, Nat.zero_le _, mended, Nat.min_le_left _ _⟩

/-- Entries that leave the list leave it within its limit. -/
theorem filterMends_limits {x : Inspector} (p : MendEntry → Bool) (h : x.WithinLimits) :
    ({ x with mends := x.mends.filter p } : Inspector).WithinLimits :=
  ⟨(List.length_filter_le _ _).trans h.1, h.2⟩

theorem bounded_waivePanel (s : State) (i : Fin 64) : Bounded s (s.waivePanel i) :=
  (bounded_modPanel s i (fun q => q.waiveAll (s.entriesOf i)) fun _ _ _ _ => waiveAll_limits _).trans
    { inspector := filterMends_limits _ }

theorem bounded_sense {s : State} {a : AwaitRow} {q : Panel} {x : Sorting} (panel : s.panelAt a.panel a.serial = some q)
    (grows : Sorting.Grows a ⟨s.inspector, q⟩ x) :
    Bounded s ((s.modPanel a.panel fun _ => x.panel).modInspector fun _ => x.inspector) := by
  refine (bounded_modPanel s a.panel (fun _ => x.panel) fun p q' hp hq h => ?_).trans { inspector := grows.inspector }
  rw [panelAt_record panel hp hq] at h
  exact grows.panel h

/-- Every primitive change keeps the counted things within their limits. -/
theorem kept_withinLimits : Kept State.WithinLimits where
  elapse s dt h := h.bounded {}
  notice s slot k h := h.bounded (bounded_notice s slot k)
  lowFlag s b h := h.bounded {}
  highFlag s b h := h.bounded {}
  faults s n f h := h.bounded {}
  reasons s n f _ h := h.bounded {}
  hold s n f _ _ h := h.bounded (Bounded.trans (t := s.modReasons n f) {} (bounded_leaveFor _ n _))
  trip s n _ h := h.bounded (bounded_tripped s n)
  abortTrip s n _ h := h.bounded (Bounded.trans (t := s.abortCut n) {} (bounded_tripped _ n))
  abortHold s n _ _ h := h.bounded {}
  place s n _ _ h := h.bounded {}
  award s n _ _ h := h.bounded (bounded_award s n)
  bind s n slot o _ _ _ h := h.bounded {}
  unbind s n _ _ _ h := h.bounded (bounded_unbindRecords s n)
  untrip s n _ h := h.bounded {}
  startHold s n r _ _ _ _ h := h.bounded {}
  startRun s n _ _ _ h := h.bounded
    (Bounded.trans (t := s.modReasons n fun _ => Reasons.empty) {} (bounded_enterRunning _ n))
  opening s n slot i _ _ _ _ _ h := h.bounded (bounded_openInto s n slot i)
  complete s n t _ e h := h.bounded (bounded_completeCut e)
  cutTimer s n h := h.bounded {}
  permit s n _ h := h.bounded {}
  lay s l f limits _ h := h.bounded
    { lays := fun m hm => by
        rw [State.modLay_lay]
        split
        · subst m; exact limits hm
        · exact hm }
  lines s l f h := h.bounded {}
  resetLine s b h := h.bounded {}
  inspector s f limits _ _ h := h.bounded { inspector := limits }
  sense s a q x panel grows h := h.bounded (bounded_sense panel grows)
  mend s e _ h := h.bounded
    (Bounded.trans (t := s.modInspector fun i => { i with mends := i.mends.filter (·.id != e.id) })
      { inspector := filterMends_limits _ } (bounded_modPanel _ e.panel _ fun _ _ _ _ => mendOne_limits))
  waive s i h := h.bounded (bounded_waivePanel s i)
  coil s i f limits h := h.bounded (bounded_modCoil s i f limits)
  panel s i f _ limits h := h.bounded (bounded_modPanel s i f limits)
  note s i f same h := h.bounded (bounded_modPiece s i f fun p _ => by
    obtain ⟨-, -, -, -, body⟩ := same p
    rw [body]; exact id)
  retire s i p n _ _ le h := h.bounded
    { pieces := fun j q hq => by
        rw [State.setRecord_record] at hq
        split at hq
        · cases hq
        · exact .inr ⟨q, hq, id⟩
      inspector := fun ⟨mends, overflow, _⟩ => ⟨(List.length_filter_le _ _).trans mends, overflow, le⟩ }
  toScale s i _ _ h := h.bounded
    (Bounded.trans (bounded_modPiece s i (fun p => { p with state := .atScale }) fun _ _ h => h) {})
  takeBack s i _ h := h.bounded
    (Bounded.trans (bounded_modPiece s i (fun p => { p with state := .queued }) fun _ _ h => h) {})
  weigh s i p w _ _ h := h.bounded (bounded_modPiece s i _ fun _ _ h => h)
  leaveScale s i p f _ _ same h := h.bounded
    (Bounded.trans (bounded_modPiece s i f fun p _ => by
      obtain ⟨-, -, -, -, body⟩ := same p
      rw [body]; exact id) {})
  scaleTimer s t h := h.bounded {}
  receiver s r h := h.bounded {}
  discard s h := h.bounded
    (Bounded.trans (t := { s with pack := { s.pack with
        receiver := .hunting, framing := satSucc Config.countSat s.pack.framing } })
      { framing := satSucc_le } (bounded_notice _ _ _))
  answer s a room h := h.bounded
    { answers := fun _ => by simpa using Nat.succ_le_of_lt room }
  sent s h := by
    unfold State.sendAnswer
    split
    · rename_i a rest e
      exact h.bounded { answers := fun le => by rw [e] at le; exact (Nat.le_succ _).trans le }
    · exact h
  forgetGrant s h := h.bounded
    { grants := fun le => by
        simp only [State.forgetGrant, List.length_tail]
        exact (Nat.sub_le _ _).trans le }
  forgetLane s l h := by cases l <;> exact h.bounded {}
  link s t h := h.bounded {}
  take s slot k h := h.bounded
    { notices := fun slot' k' le => by
        simp only [State.noticeCount, State.removeNotice, getElem_modifyAt]
        split
        · rw [getElem_set_fin]
          split
          · exact Nat.zero_le _
          · exact le
        · exact le }
  mask s m h := h.bounded {}
  order s slot o _ h := h.bounded {}
  port s f _ h := h.bounded {}
  params s p _ _ h := h.bounded {}
  toConfig s _ h := h.bounded {}
  operate s _ h := h.bounded
    { lays := fun l hl => by
        have e : s.operate.lay l = (s.lay l).leaveConfig (s.layParams l) (s.rope (ofLay l)) := by
          simp [State.operate, State.lay, State.leaveLays]
        rw [e]
        unfold LayStation.leaveConfig
        split <;> dsimp only <;> split <;> exact hl
      answers := fun _ => Nat.zero_le _ }
  reset s c _ h := h.bounded
    { lays := fun l _ => by
        have e : (s.resetBlocks c).lay l = (s.lay l).lineReset := Vector.getElem_map ..
        rw [e]
        exact ⟨Nat.zero_le _, Nat.zero_le _⟩
      answers := fun _ => Nat.zero_le _
      notices := fun slot k _ => by
        have zero : ∀ slot k, State.reset.noticeCount slot k ≤ Config.noticeSat := by decide +kernel
        exact zero slot k }

/-! ### The mend list and the panels (R74, R80, R84) -/

/-- The unmended count of a record's panel; 0 of a record that holds none. -/
def unmendedOf : Option Piece → Nat
  | some p => match p.body with
    | .panel q => q.unmended
    | .coil _ => 0
  | none => 0

/-- The entries that name a record are as many as its panel counts as unmended, and none where it holds no panel. -/
theorem mendsStand_iff (s : State) : s.MendsStand ↔
    (s.inspector.mends.map (·.id)).Nodup ∧ ∀ i, unmendedOf (s.record i) = s.entriesOf i := by
  constructor
  · rintro ⟨ids, named, counted⟩
    refine ⟨ids, fun i => ?_⟩
    have none_named (no : ∀ p q, s.record i = some p → p.body ≠ .panel q) : s.entriesOf i = 0 := by
      refine List.countP_eq_zero.mpr fun e he panel => ?_
      obtain ⟨p, q, hp, hq⟩ := named e he
      rw [beq_iff_eq] at panel
      exact no p q (panel ▸ hp) hq
    cases r : s.record i with
    | none => exact (none_named (by simp [r])).symm
    | some p =>
      cases b : p.body with
      | coil c =>
        have := none_named (by rintro p' q hp; cases r.symm.trans hp; simp [b])
        simp [unmendedOf, b, this]
      | panel q => simpa [unmendedOf, b, State.entriesOf] using counted i p q r b
  · rintro ⟨ids, counts⟩
    refine ⟨ids, fun e he => ?_, fun i p q hp hq => by simpa [unmendedOf, hp, hq, State.entriesOf] using counts i⟩
    have pos : 0 < s.entriesOf e.panel := List.countP_pos_iff.mpr ⟨e, he, beq_self_eq_true _⟩
    rw [← counts] at pos
    unfold unmendedOf at pos
    split at pos
    · rename_i p hp
      split at pos
      · exact ⟨p, _, hp, ‹_›⟩
      · cases pos
    · cases pos

section
variable {s t : State}

/-- A change that leaves the list and the panels' unmended counts. -/
theorem State.MendsStand.frame (h : s.MendsStand) (mends : t.inspector.mends = s.inspector.mends)
    (records : ∀ i, unmendedOf (t.record i) = unmendedOf (s.record i)) : t.MendsStand := by
  rw [mendsStand_iff] at *
  unfold State.entriesOf at *
  rw [mends]
  exact ⟨h.1, fun i => (records i).trans (h.2 i)⟩

theorem State.MendsStand.same (h : s.MendsStand) (inspector : t.inspector.mends = s.inspector.mends)
    (table : t.table.records = s.table.records) : t.MendsStand :=
  h.frame inspector fun i => by unfold State.record; rw [table]

/-- A record changed with its panel's unmended count left alone. -/
theorem unmendedOf_modPiece (s : State) (i j : Fin 64) (f : Piece → Piece)
    (panel : ∀ p, unmendedOf (some (f p)) = unmendedOf (some p)) :
    unmendedOf ((s.modPiece i f).record j) = unmendedOf (s.record j) := by
  rw [State.modPiece_record]
  split
  · cases s.record j with
    | none => rfl
    | some p => exact panel p
  · rfl

theorem unmendedOf_modPanel (s : State) (i j : Fin 64) (f : Panel → Panel) :
    unmendedOf ((s.modPanel i f).record j) =
      if j = i then
        match s.record i with
        | some p => match p.body with
          | .panel q => (f q).unmended
          | .coil _ => 0
        | none => 0
      else unmendedOf (s.record j) := by
  unfold State.modPanel
  rw [State.modPiece_record]
  split
  · subst j
    cases s.record i with
    | none => rfl
    | some p => cases b : p.body <;> simp [unmendedOf, b]
  · rfl

theorem unmendedOf_openInto (s : State) (n : Fin 9) (slot : Fin 16) {i : Fin 64} (free : s.record i = none)
    (j : Fin 64) : unmendedOf ((s.openInto n slot i).record j) = unmendedOf (s.record j) := by
  rw [openInto_record]
  split
  · subst j
    rw [free]
    show unmendedOf (some (s.newPiece n slot _ _)) = 0
    unfold unmendedOf State.newPiece State.newBody
    cases layOf n <;> rfl
  · rfl

theorem State.MendsStand.openInto (h : s.MendsStand) (n : Fin 9) (slot : Fin 16) {i : Fin 64}
    (free : s.record i = none) : (s.openInto n slot i).MendsStand :=
  h.frame (by rw [openInto_inspector]; split <;> rfl) (unmendedOf_openInto s n slot free)

theorem State.MendsStand.closeOld (h : s.MendsStand) (n : Fin 9) : (s.closeOld n).MendsStand :=
  h.frame (by rw [closeOld_inspector]) fun i => by
    rw [closeOld_record]
    split
    · cases s.record i <;> rfl
    · rfl

theorem State.MendsStand.finishCut (h : s.MendsStand) (n : Fin 9) : (s.finishCut n).MendsStand :=
  h.same (by rcases finishCut_inspector s n with e | ⟨-, -, _, e⟩ <;> rw [e]) (by rw [finishCut_table])

theorem State.MendsStand.completeCut {n : Fin 9} (h : s.MendsStand) (e : s.completeCut n = some t) : t.MendsStand := by
  unfold State.completeCut State.openPiece at e
  obtain ⟨u, hu, rfl⟩ := Option.map_eq_some_iff.mp e
  split at hu
  · cases hu
    have timer : (s.setCutTimer n none).MendsStand := h.same rfl rfl
    exact ((timer.closeOld n).openInto n _ (firstFree_free ‹_›)).finishCut n
  · cases hu

theorem State.MendsStand.leaveFor (h : s.MendsStand) (n : Fin 9) (st : StationState) : (s.leaveFor n st).MendsStand :=
  h.same (by rw [leaveFor_inspector]; split <;> rfl) (by rw [leaveFor_table])

theorem State.MendsStand.tripped (h : s.MendsStand) (n : Fin 9) : (s.tripped n).MendsStand :=
  h.same (by rw [tripped_inspector]; split <;> rfl) (by rw [tripped_table])

/-- The entries that name a record leave the list, and its panel counts none (R83, R84). -/
theorem State.MendsStand.dropEntries (i : Fin 64) (h : s.MendsStand)
    (mends : t.inspector.mends = s.inspector.mends.filter (·.panel != i)) (own : unmendedOf (t.record i) = 0)
    (others : ∀ j, j ≠ i → unmendedOf (t.record j) = unmendedOf (s.record j)) : t.MendsStand := by
  rw [mendsStand_iff] at *
  obtain ⟨ids, counts⟩ := h
  refine ⟨?_, fun j => ?_⟩
  · rw [mends]
    exact ids.sublist (List.filter_sublist.map _)
  · unfold State.entriesOf at *
    rw [mends, List.countP_filter]
    by_cases e : j = i
    · subst e
      rw [own]
      exact (List.countP_eq_zero.mpr (by simp)).symm
    · rw [others j e, counts]
      refine List.countP_congr fun x _ => ?_
      simp only [Bool.and_eq_true, beq_iff_eq, bne_iff_ne]
      exact ⟨fun hx => ⟨hx, hx ▸ e⟩, And.left⟩

/-- With ids all different, the entries that keep an entry's id out lack that one entry alone. -/
theorem countP_without {l : List MendEntry} (ids : (l.map (·.id)).Nodup) {e : MendEntry} (he : e ∈ l) (i : Fin 64) :
    (l.filter (·.id != e.id)).countP (·.panel == i) + (if e.panel = i then 1 else 0) = l.countP (·.panel == i) := by
  induction l with
  | nil => cases he
  | cons x l ih =>
    rw [List.map_cons, List.nodup_cons] at ids
    rcases List.mem_cons.mp he with rfl | he
    · have rest : l.filter (·.id != e.id) = l :=
        List.filter_eq_self.mpr fun y hy => by
          rw [bne_iff_ne]
          exact fun same => ids.1 (same ▸ List.mem_map_of_mem hy)
      simp [List.countP_cons, rest]
    · have differs : x.id ≠ e.id := fun same => ids.1 (same ▸ List.mem_map_of_mem he)
      have := ih ids.2 he
      simp only [List.filter_cons, bne_iff_ne, ne_eq, differs, not_false_eq_true, if_true, List.countP_cons]
      omega

/-- A mended entry leaves the list, and its panel counts one less (R81). -/
theorem State.MendsStand.mend (h : s.MendsStand) {e : MendEntry} (he : e ∈ s.inspector.mends) :
    ((s.modInspector fun i => { i with mends := i.mends.filter (·.id != e.id) }).modPanel e.panel
      Panel.mendOne).MendsStand := by
  have counts := ((mendsStand_iff s).mp h).2
  rw [mendsStand_iff]
  refine ⟨h.ids.sublist (List.filter_sublist.map _), fun i => ?_⟩
  rw [unmendedOf_modPanel]
  have count := countP_without h.ids he i
  have whole := counts i
  unfold State.entriesOf at *
  show _ = (s.inspector.mends.filter (·.id != e.id)).countP (·.panel == i)
  rw [← whole] at count
  split
  · subst i
    rw [if_pos rfl] at count
    show (match s.record e.panel with
      | some p => match p.body with
        | .panel q => q.unmended - 1
        | .coil _ => 0
      | none => 0) = _
    unfold unmendedOf at count
    split at count
    · split at count
      · simp_all
        exact Nat.sub_eq_of_eq_add count.symm
      · simp_all
    · simp_all
  · rename_i c
    rw [if_neg (Ne.symm c)] at count
    exact count.symm

/-- A sense word adds entries for its row's panel alone, and the panel counts them (R74, R76). -/
theorem State.MendsStand.sense (h : s.MendsStand) {a : AwaitRow} {q : Panel} {x : Sorting}
    (panel : s.panelAt a.panel a.serial = some q) (grows : Sorting.Grows a ⟨s.inspector, q⟩ x) :
    ((s.modPanel a.panel fun _ => x.panel).modInspector fun _ => x.inspector).MendsStand := by
  have counts := ((mendsStand_iff s).mp h).2
  obtain ⟨old, new, mends, kept, named, grown⟩ := grows.mends
  have record : ∃ p, s.record a.panel = some p ∧ p.body = .panel q := by
    unfold State.panelAt State.named at panel
    cases r : s.record a.panel with
    | none => simp [r] at panel
    | some p =>
      refine ⟨p, rfl, ?_⟩
      by_cases c : p.serial = a.serial <;> cases b : p.body <;> simp_all [Piece.panel?]
  obtain ⟨p, hp, hq⟩ := record
  have oldCount (i : Fin 64) : old.countP (·.panel == i) = s.entriesOf i := by
    have := congrArg (List.countP fun e : Word16 × Fin 64 => e.2 == i) kept
    simpa [List.countP_map, Function.comp_def, State.entriesOf] using this
  have own := counts a.panel
  simp only [unmendedOf, hp, hq] at own
  rw [mendsStand_iff]
  refine ⟨grows.ids h.ids, fun i => ?_⟩
  show unmendedOf ((s.modPanel a.panel fun _ => x.panel).record i) = x.inspector.mends.countP (·.panel == i)
  rw [unmendedOf_modPanel, mends, List.countP_append, oldCount]
  split
  · subst i
    have all : new.countP (·.panel == a.panel) = new.length :=
      List.countP_eq_length.mpr fun e he => beq_iff_eq.mpr (named e he)
    have le : q.unmended ≤ s.inspector.mends.length := own ▸ List.countP_le_length
    simp only [hp, hq]
    rw [all, ← own]
    exact grown le
  · rename_i c
    have none_new : new.countP (·.panel == i) = 0 :=
      List.countP_eq_zero.mpr fun e he => by rw [named e he, beq_iff_eq]; exact fun e => c e.symm
    rw [none_new, counts i, Nat.add_zero]

end

/-- Every primitive change keeps the mend list and the panels in agreement. -/
theorem kept_mendsStand : Kept State.MendsStand where
  elapse s dt h := h.same rfl rfl
  notice s slot k h := h.same rfl rfl
  lowFlag s b h := h.same rfl rfl
  highFlag s b h := h.same rfl rfl
  faults s n f h := h.same rfl rfl
  reasons s n f _ h := h.same rfl rfl
  hold s n f _ _ h := State.MendsStand.leaveFor (s := s.modReasons n f) (h.same rfl rfl) n _
  trip s n _ h := h.tripped n
  abortTrip s n _ h := State.MendsStand.tripped (s := s.abortCut n) (h.same rfl rfl) n
  abortHold s n _ _ h := h.same rfl rfl
  place s n _ _ h := h.same rfl rfl
  award s n _ _ h := h.same (by rw [award_inspector]; split <;> rfl) (by rw [award_table])
  bind s n slot o _ _ _ h := h.same rfl rfl
  unbind s n _ _ _ h := by
    have inspector : (s.unbindRecords n).inspector = s.inspector := by
      unfold State.unbindRecords; cases (s.station n).piece <;> rfl
    refine h.frame (by rw [inspector]) fun i => ?_
    rw [unbindRecords_record]
    split
    · cases s.record i <;> rfl
    · rfl
  untrip s n _ h := h.same rfl rfl
  startHold s n r _ _ _ _ h := h.same rfl rfl
  startRun s n _ _ _ h := h.same (by rw [enterRunning_inspector]; split <;> rfl) (by rw [enterRunning_table]; rfl)
  opening s n slot i _ _ free _ _ h := h.openInto n slot free
  complete s n t _ e h := h.completeCut e
  cutTimer s n h := h.same rfl rfl
  permit s n _ h := h.same rfl rfl
  lay s l f _ _ h := h.same rfl rfl
  lines s l f h := h.same rfl rfl
  resetLine s b h := h.same rfl rfl
  inspector s f _ _ mends h := h.same mends rfl
  sense s a q x panel grows h := h.sense panel grows
  mend s e he h := h.mend he
  waive s i h := h.dropEntries i rfl
    (by
      show unmendedOf ((s.modPanel i _).record i) = 0
      rw [unmendedOf_modPanel, if_pos rfl]
      split <;> [split; skip] <;> rfl)
    fun j other => by
      show unmendedOf ((s.modPanel i _).record j) = _
      rw [unmendedOf_modPanel, if_neg other]
  coil s i f _ h := h.frame rfl fun j => unmendedOf_modPiece s i j _ fun p => by
    cases b : p.body <;> simp [unmendedOf, b]
  panel s i f same _ h := h.frame rfl fun j => unmendedOf_modPiece s i j _ fun p => by
    cases b : p.body <;> simp [unmendedOf, b, same]
  note s i f same h := h.frame rfl fun j => unmendedOf_modPiece s i j f fun p => by
    obtain ⟨-, -, -, -, body⟩ := same p
    simp only [unmendedOf, body]
  retire s i p n _ _ _ h := h.dropEntries i rfl
    (by rw [State.setRecord_record, if_pos rfl]; rfl)
    fun j other => by rw [State.setRecord_record, if_neg other]; rfl
  toScale s i _ _ h := h.frame rfl
    fun j => unmendedOf_modPiece s i j (fun p => { p with state := .atScale }) fun _ => rfl
  takeBack s i _ h := h.frame rfl
    fun j => unmendedOf_modPiece s i j (fun p => { p with state := .queued }) fun _ => rfl
  weigh s i p w _ _ h := h.frame rfl fun j => unmendedOf_modPiece s i j _ fun _ => rfl
  leaveScale s i p f _ _ same h := h.frame rfl fun j => unmendedOf_modPiece s i j f fun q => by
    obtain ⟨-, -, -, -, body⟩ := same q
    simp only [unmendedOf, body]
  scaleTimer s t h := h.same rfl rfl
  receiver s r h := h.same rfl rfl
  discard s h := h.same rfl rfl
  answer s a _ h := h.same rfl rfl
  sent s h := by unfold State.sendAnswer; split <;> exact h.same rfl rfl
  forgetGrant s h := h.same rfl rfl
  forgetLane s l h := by cases l <;> exact h.same rfl rfl
  link s t h := h.same rfl rfl
  take s slot k h := h.same rfl rfl
  mask s m h := h.same rfl rfl
  order s slot o _ h := h.same rfl rfl
  port s f _ h := h.same rfl rfl
  params s p _ _ h := h.same rfl rfl
  toConfig s _ h := h.same rfl rfl
  operate s _ h := h.same rfl rfl
  reset s c _ h := h.same rfl rfl

/-! ### After power-on (R1) -/

theorem reset_withinLimits : State.reset.WithinLimits := by
  have free : ∀ i, State.reset.record i = none := by decide +kernel
  have lays : ∀ l, State.reset.lay l = LayStation.initial := by decide +kernel
  refine ⟨fun l => ?_, fun i p hp => ?_, ⟨Nat.zero_le _, Nat.zero_le _, Nat.zero_le _⟩, Nat.zero_le _, Nat.zero_le _,
    Nat.zero_le _, by decide +kernel⟩
  · rw [lays]; exact ⟨Nat.zero_le _, Nat.zero_le _⟩
  · rw [free] at hp; cases hp

theorem reset_mendsStand : State.reset.MendsStand := by
  have free : ∀ i, State.reset.record i = none := by decide +kernel
  refine ⟨List.nodup_nil, fun e he => (List.not_mem_nil he).elim, fun i p q hp => ?_⟩
  rw [free] at hp; cases hp

/-- Settles O59. Every primitive change keeps the counted things within their limits, and the entries that name a panel
as many as it counts. -/
theorem listsAndCountsStayWithinLimits : Obligations.ListsAndCountsStayWithinLimits :=
  ⟨fun _ _ h e => kept_withinLimits.step (fun _ _ => reset_withinLimits.bounded {}) (fun _ _ h => h.bounded {}) e h,
   fun _ _ h e => kept_mendsStand.step (fun _ _ => reset_mendsStand.same rfl rfl) (fun _ _ h => h.same rfl rfl) e h⟩

end Sys2Proof.Machine
end

