-- ==== Sys2Proof/Proofs/QueueAndReset.lean ====
section
/-!
PROOF. The queue and time (R1), the state after power-on, and what a read of the host port, a held RESET input and a line
reset do (R168, R169, R175).
-/
namespace Sys2Proof.Machine

/-- Settles O1. -/
theorem stepTakesFrontCommand : Obligations.StepTakesFrontCommand := by
  intro c s rest h
  unfold step
  rw [h]

/-- Settles O60. Each law was shown of the state after power-on beside its own invariant. -/
theorem lawsHoldAfterPowerOn : Obligations.LawsHoldAfterPowerOn := by
  have free : ∀ i, State.reset.record i = none := by decide +kernel
  refine ⟨reset_housed.reserved, reset_housed.custody, by decide +kernel, fun n => ?_, fun i j p q hp => ?_,
    powerUp_ordersStand State.reset, reset_queueStands, reset_stoppedStand, reset_permitsStand, reset_floorsStand,
    (reasonsStand_iff _).mpr reset_reasons.2, reset_withinLimits, reset_mendsStand⟩
  · rw [reset_station]; rintro (e | e | e) <;> cases e
  · rw [free] at hp; cases hp

/-! ### Time (R1) -/

theorem Clocks.elapse_phase (c : Clocks) (d : Nat) : (c.elapse d).phase < 1000 := Nat.mod_lt _ (by decide)

/-- Time that passes in two parts passes as the whole. -/
theorem Clocks.elapse_elapse (c : Clocks) (a b : Nat) : (c.elapse a).elapse b = c.elapse (a + b) := by
  have part : (c.phase + a) / 1000 + ((c.phase + a) % 1000 + b) / 1000 = (c.phase + (a + b)) / 1000 := by omega
  have phase : ((c.phase + a) % 1000 + b) % 1000 = (c.phase + (a + b)) % 1000 := by omega
  simp only [Clocks.elapse, BitVec.add_assoc, ← BitVec.ofNat_add, part, phase]

/-- The state stands at least so long after an instant, with the same commands waiting. -/
def Later (c : Clocks) (least : Nat) (waiting : List Instr) (s : State) : Prop :=
  s.pending = waiting ∧ ∃ d, least ≤ d ∧ s.clocks = c.elapse d

section
variable {c : Clocks} {least : Nat} {waiting : List Instr} {s t : State}

theorem Later.same (h : Later c least waiting s) (pending : t.pending = s.pending) (clocks : t.clocks = s.clocks) :
    Later c least waiting t := by
  unfold Later
  rw [pending, clocks]
  exact h

theorem Later.steady (h : Later c least waiting s) (k : Steady s t) : Later c least waiting t :=
  h.same k.pending k.clocks

theorem Later.elapse (h : Later c least waiting s) (dt : Nat) : Later c least waiting (s.elapse dt) := by
  obtain ⟨pending, d, le, clocks⟩ := h
  refine ⟨pending, d + dt, le.trans (Nat.le_add_right d dt), ?_⟩
  show s.clocks.elapse dt = _
  rw [clocks, Clocks.elapse_elapse]

end

/-- Every primitive change lets time pass or stand, and leaves the waiting commands alone. -/
theorem kept_later (c : Clocks) (least : Nat) (waiting : List Instr) : Kept (Later c least waiting) where
  elapse s dt h := h.elapse dt
  notice s slot k h := h.same rfl rfl
  lowFlag s b h := h.same rfl rfl
  highFlag s b h := h.same rfl rfl
  faults s n f h := h.same rfl rfl
  reasons s n f _ h := h.same rfl rfl
  hold s n f _ _ h := h.steady ((steady_modReasons s n f).trans (steady_leaveFor _ n _))
  trip s n _ h := h.steady (steady_tripped s n)
  abortTrip s n _ h := h.steady ((steady_abortCut s n).trans (steady_tripped _ n))
  abortHold s n _ _ h := h.same rfl rfl
  place s n _ _ h := h.same rfl rfl
  award s n _ _ h := h.steady (steady_award s n)
  bind s n slot o _ _ _ h := h.same rfl rfl
  unbind s n _ _ _ h := h.steady (steady_unbindRecords s n)
  untrip s n _ h := h.same rfl rfl
  startHold s n r _ _ _ _ h := h.same rfl rfl
  startRun s n _ _ _ h := h.steady ((steady_modReasons s n _).trans (steady_enterRunning _ n))
  opening s n slot i _ _ _ _ _ h := h.steady (steady_openInto s n slot i)
  complete s n t _ e h := h.steady (steady_completeCut e)
  cutTimer s n h := h.same rfl rfl
  permit s n _ h := h.same rfl rfl
  lay s l f _ _ h := h.same rfl rfl
  lines s l f h := h.same rfl rfl
  resetLine s b h := h.same rfl rfl
  inspector s f _ _ _ h := h.same rfl rfl
  sense s a q x _ _ h := h.same rfl rfl
  mend s e _ h := h.same rfl rfl
  waive s i h := h.same rfl rfl
  coil s i f _ h := h.same rfl rfl
  panel s i f _ _ h := h.same rfl rfl
  note s i f _ h := h.same rfl rfl
  retire s i p n _ _ _ h := h.same rfl rfl
  toScale s i _ _ h := h.same rfl rfl
  takeBack s i _ h := h.same rfl rfl
  weigh s i p w _ _ h := h.same rfl rfl
  leaveScale s i p f _ _ _ h := h.same rfl rfl
  scaleTimer s t h := h.same rfl rfl
  receiver s r h := h.same rfl rfl
  discard s h := h.same rfl rfl
  answer s a _ h := h.same rfl rfl
  sent s h := by unfold State.sendAnswer; split <;> exact h.same rfl rfl
  forgetGrant s h := h.same rfl rfl
  forgetLane s l h := by cases l <;> exact h.same rfl rfl
  link s t h := h.same rfl rfl
  take s slot k h := h.same rfl rfl
  mask s m h := h.same rfl rfl
  order s slot o _ h := h.same rfl rfl
  port s f _ h := h.same rfl rfl
  params s p _ _ h := h.same rfl rfl
  toConfig s _ h := h.same rfl rfl
  operate s _ h := h.same rfl rfl
  reset s c _ h := h.same rfl rfl

theorem exec_later {c : Instr} {s t : State} (e : exec c s = .next t) (on : ∀ dt, c ≠ .powerOn dt) :
    Later s.clocks c.time s.pending t :=
  (kept_later s.clocks c.time s.pending).exec (fun dt h => absurd h (on dt)) e ⟨rfl, c.time, le_rfl, rfl⟩

/-- Settles O2. Every primitive change lets time pass or stand, so every command does. -/
theorem everyStepLetsTimePass : Obligations.EveryStepLetsTimePass := by
  refine ⟨fun s empty phase => ?_, fun c s t e => ?_, fun c s t e on => ?_⟩
  · unfold step
    rw [empty]
    show Host.Outcome.next { s with clocks := s.clocks.elapse 1 } = _
    congr 2
    by_cases last : s.clocks.phase = 999
    · rw [if_pos last]; simp [Clocks.elapse, last]
    · rw [if_neg last]
      have div : (s.clocks.phase + 1) / 1000 = 0 := by omega
      have mod : (s.clocks.phase + 1) % 1000 = s.clocks.phase + 1 := by omega
      simp [Clocks.elapse, div, mod]
  · by_cases on : ∃ dt, c = .powerOn dt
    · obtain ⟨dt, rfl⟩ := on
      cases e; rfl
    · exact (exec_later e fun dt h => on ⟨dt, h⟩).1
  · obtain ⟨-, d, le, clocks⟩ := exec_later e on
    rw [clocks]
    exact ⟨Clocks.elapse_phase _ _, d, le, rfl, rfl, rfl⟩

/-! ### Power-on -/

/-- Settles O3. -/
theorem powerOnGivesTheInitialState : Obligations.PowerOnGivesTheInitialState := by
  have lay : ∀ l, State.reset.lay l = LayStation.initial := by decide +kernel
  refine ⟨fun s dt => rfl, rfl, rfl, rfl, by decide +kernel, fun n => ?_, lay, rfl, rfl, by decide +kernel, rfl, rfl,
    by decide +kernel, rfl, rfl, rfl, rfl, rfl, rfl, rfl, rfl, rfl, by decide +kernel, rfl, by decide +kernel, rfl, rfl,
    rfl, rfl⟩
  have outputs : ∀ n, State.reset.cutStatus n = .none ∧ State.reset.permitLevel n = false ∧
      State.reset.holdOn n = false ∧ State.reset.cutOn n = false ∧ State.reset.cutTimer n = none ∧
      State.reset.faults n = ⟨0, none⟩ := by decide +kernel
  rw [reset_station]
  exact ⟨rfl, rfl, rfl, rfl, outputs n⟩

/-! ### Reading the host port (R168, R169) -/

/-- No status code reaches bit 7, so that PRIOR_UNREAD is added to it. -/
theorem statusCode_prior (st : Status) (prior : Bool) :
    statusCode st ||| flag prior 7 = statusCode st + (if prior then 0x80#8 else 0x00#8) := by
  cases st <;> cases prior <;> decide

theorem readSpan_whole {p : Port} {r : Response} {n : Nat} (h : p.response = some r) (long : r.fields.length + 3 ≤ n) :
    p.readSpan n = { p with response := none, ready := false, span := .idle, shifted := r.bytes } := by
  obtain ⟨mode, cause, response, ready, span, shifted⟩ := p
  cases h
  exact if_pos long

theorem readSpan_part {p : Port} {r : Response} {n : Nat} (h : p.response = some r) (short : n < r.fields.length + 3) :
    p.readSpan n = { p with span := .idle, shifted := r.bytes.take n } := by
  obtain ⟨mode, cause, response, ready, span, shifted⟩ := p
  cases h
  exact if_neg (Nat.not_le_of_lt short)

theorem readSpan_none {p : Port} (h : p.response = none) (n : Nat) :
    p.readSpan n = { p with span := .idle, shifted := [0x00#8, 0x03#8, 0x00#8].take n } := by
  obtain ⟨mode, cause, response, ready, span, shifted⟩ := p
  cases h
  rfl

theorem exec_readSpan {s : State} (released : s.pins.reset = false) (dt n : Nat) :
    exec (.readSpan dt n) s = .next { s.elapse dt with port := s.port.readSpan n } := by
  show Host.Outcome.next ((s.elapse dt).modPort fun p => if s.pins.reset then p.setSpan .idle else p.readSpan n) = _
  simp only [released]
  rfl

/-- Settles O6. -/
theorem responsesAreReadOnce : Obligations.ResponsesAreReadOnce := by
  refine ⟨fun r => ?_, by decide, fun s => Option.isSome_iff_exists, fun s tag prior st fields => rfl,
    fun s dt n released => ⟨fun r h long => ?_, fun r h short => ?_, fun h => ?_, ?_⟩⟩
  · simp only [Response.bytes, statusCode_prior]; rfl
  · rw [exec_readSpan released, readSpan_whole h long]
  · rw [exec_readSpan released, readSpan_part h short]
  · rw [exec_readSpan released, readSpan_none h]
  · show Host.Outcome.next ((s.elapse dt).modPort fun p => if s.pins.reset then p.setSpan .dropped else p.firstByte) = _
    simp only [released]
    rfl

/-! ### While RESET is held (R175) -/

/-- A request span that RESET cut off ends without effect. -/
theorem exec_untaken {c : Instr} (h : c.endsRequestSpan = true) {s : State} (cut : s.takesSpan = false) :
    exec c s = .next { s.elapse c.time with port := { s.port with span := .idle } } := by
  rw [exec_requestSpan h, requestSpan, cut]
  rfl

theorem takesSpan_of_reset {s : State} (held : s.pins.reset = true) : s.takesSpan = false := by
  simp [State.takesSpan, held]

theorem takesSpan_of_dropped {s : State} (dropped : s.port.span = .dropped) : s.takesSpan = false := by
  simp [State.takesSpan, dropped]

theorem exec_packRequest_held {s : State} (held : s.pins.reset = true) (dt : Nat) (kind : Byte)
    (body : State → Answer) : packRequest dt kind body s = .next (s.elapse dt) := by
  rw [packRequest, if_pos held]

theorem exec_lineArrival_held {s : State} (held : s.pins.reset = true) (dt : Nat) (body : State → State) :
    lineArrival dt body s = .next (s.elapse dt) := by
  rw [lineArrival, if_pos held]

/-- The arrivals that leave no level behind let time pass alone while RESET is held. -/
theorem exec_held {c : Instr} {s : State} (drops : c.dropsInReset = true) (held : s.pins.reset = true) :
    exec c s = .next (s.elapse c.time) := by
  cases c with
  | packNext dt => exact exec_packRequest_held held dt _ fun s => s.nextPiece
  | packWeigh dt number serial weight => exact exec_packRequest_held held dt _ fun s => s.weighRequest number serial weight
  | packPacked dt number serial label => exact exec_packRequest_held held dt _ fun s => s.packedRequest number serial label
  | packAside dt number serial => exact exec_packRequest_held held dt _ fun s => s.asideRequest number serial
  | packQuery dt number serial => exact exec_packRequest_held held dt _ fun s => s.queryRequest number serial
  | packFrameDiscard dt chars => exact exec_lineArrival_held held dt fun s => s.takeChars chars
  | flyerMark dt l edge =>
    exact exec_lineArrival_held held dt fun s => if edge = (s.layParams l).markEdge then s.markAt l else s
  | rowIndex dt edge =>
    exact exec_lineArrival_held held dt fun s =>
      if edge = s.params.loom.rowEdge ∧ s.bound loom = true then s.rowAt else s
  | senseWord dt levels =>
    exact exec_lineArrival_held held dt fun s => if s.bound loom then s.senseAt levels else s
  | cutDone dt n edge =>
    rw [exec_cutDone, execCutDone, if_pos held]
    rfl
  | _ => cases drops

/-- The line reset keeps the span in progress and the pins. -/
theorem lineReset_port (s : State) (cause : ResetCause) :
    (s.lineReset cause).port = { s.port with cause := cause, response := none, ready := false } := by
  have back : s.takeBackUnweighed.port = s.port := by
    unfold State.takeBackUnweighed; split <;> rfl
  unfold State.lineReset
  rw [(steady_highTest _).port, (steady_lowTest _).port]
  unfold State.resetBlocks
  rw [back]

/-- Settles O5. -/
theorem heldResetTakesNothing : Obligations.HeldResetTakesNothing := by
  refine ⟨fun c s h released begun a b => ?_, fun c s h dropped => exec_untaken h (takesSpan_of_dropped dropped),
    fun c s held => ⟨fun drops => exec_held drops held, fun h => ?_, fun dt => ?_, fun dt l enc a b => ?_,
      fun dt l j => ?_, fun dt => ?_, fun dt => rfl⟩⟩
  · let t : State := (((s.elapse a).lineReset .pin).modPort Port.dropSpan).setReset true
    have e : exec (.resetAssert a) s = .next t := by
      show Host.Outcome.next (s.elapse a).assertReset = _
      rw [State.assertReset, if_neg (by simp [released])]
    have port : t.port = { s.port with cause := .pin, response := none, ready := false, span := .dropped } := by
      show Port.dropSpan ((s.elapse a).lineReset .pin).port = _
      rw [lineReset_port]
      simp [Port.dropSpan, Port.setSpan, begun]
    refine ⟨t, (t.elapse b).releaseReset, e, rfl, ?_, ?_, exec_untaken h (takesSpan_of_dropped ?_)⟩
    · show t.port.response = none; rw [port]
    · show t.port.ready = false; rw [port]
    · show t.port.span = .dropped; rw [port]
  · rcases h with h | ⟨dt, n, rfl⟩
    · exact exec_untaken h (takesSpan_of_reset held)
    · show Host.Outcome.next ((s.elapse dt).modPort fun p => if s.pins.reset then p.setSpan .idle else p.readSpan n) = _
      simp only [held]
      rfl
  · show Host.Outcome.next ((s.elapse dt).modPort fun p => if s.pins.reset then p.setSpan .dropped else p.firstByte) = _
    simp only [held]
    rfl
  · show Host.Outcome.next ((s.elapse dt).linesAt l enc ⟨a, b⟩) = _
    unfold State.linesAt
    have held : (s.elapse dt).pins.reset = true := held
    split
    · rw [if_neg fun ⟨released, _⟩ => by rw [held] at released; cases released]
    · rfl
  · show Host.Outcome.next ((s.elapse dt).assertStrand l j) = _
    unfold State.assertStrand
    rw [if_pos (show (s.elapse dt).pins.reset = true from held)]
    rfl
  · show Host.Outcome.next (s.elapse dt).assertReset = _
    rw [State.assertReset, if_pos (show (s.elapse dt).pins.reset = true from held)]

end Sys2Proof.Machine
end

