-- ==== Sys2Proof/Proofs/LineReset.lean ====
section
/-!
PROOF. The two tests that warn (R125, R142), said once for each field, and the line reset (R20, R47, R66, R87, R106,
R127, R146, R160, R167, R175).
-/
namespace Sys2Proof.Machine

/-! ### The TABLE_LOW test (R125) -/

section
variable (s : State)

/-- The test writes its flag and its notice; what does not read them reads what it read before. -/
theorem lowTest_keeps {α : Type} (f : State → α)
    (h : ∀ armed slots, f { s with table := { s.table with lowArmed := armed }, notices := { s.notices with slots } } =
      f s) : f s.lowTest = f s := by
  unfold State.lowTest
  split
  · split
    · exact h false _
    · rfl
  · exact h true s.notices.slots

@[simp] theorem lowTest_clocks : s.lowTest.clocks = s.clocks := lowTest_keeps s State.clocks fun _ _ => rfl
@[simp] theorem lowTest_pins : s.lowTest.pins = s.pins := lowTest_keeps s State.pins fun _ _ => rfl
@[simp] theorem lowTest_params : s.lowTest.params = s.params := lowTest_keeps s State.params fun _ _ => rfl
@[simp] theorem lowTest_orders : s.lowTest.orders = s.orders := lowTest_keeps s State.orders fun _ _ => rfl
@[simp] theorem lowTest_stations : s.lowTest.stations = s.stations := lowTest_keeps s State.stations fun _ _ => rfl
@[simp] theorem lowTest_lays : s.lowTest.lays = s.lays := lowTest_keeps s State.lays fun _ _ => rfl
@[simp] theorem lowTest_lay (l : Fin 8) : s.lowTest.lay l = s.lay l := lowTest_keeps s (·.lay l) fun _ _ => rfl
@[simp] theorem lowTest_inspector : s.lowTest.inspector = s.inspector := lowTest_keeps s State.inspector fun _ _ => rfl
@[simp] theorem lowTest_arbiter : s.lowTest.arbiter = s.arbiter := lowTest_keeps s State.arbiter fun _ _ => rfl
@[simp] theorem lowTest_record (i : Fin 64) : s.lowTest.record i = s.record i :=
  lowTest_keeps s (·.record i) fun _ _ => rfl
@[simp] theorem lowTest_nextSerial : s.lowTest.table.nextSerial = s.table.nextSerial :=
  lowTest_keeps s (·.table.nextSerial) fun _ _ => rfl
@[simp] theorem lowTest_collector : s.lowTest.collector = s.collector := lowTest_keeps s State.collector fun _ _ => rfl
@[simp] theorem lowTest_mask : s.lowTest.notices.mask = s.notices.mask :=
  lowTest_keeps s (·.notices.mask) fun _ _ => rfl
@[simp] theorem lowTest_port : s.lowTest.port = s.port := lowTest_keeps s State.port fun _ _ => rfl
@[simp] theorem lowTest_pending : s.lowTest.pending = s.pending := lowTest_keeps s State.pending fun _ _ => rfl

/-- The flag stands armed exactly above the low-water mark (R125). -/
theorem lowTest_lowArmed : s.lowTest.table.lowArmed = decide (s.params.part.lowWater < s.figure) := by
  unfold State.lowTest
  split
  · rename_i low
    rw [decide_eq_false (Nat.not_lt.mpr low)]
    split
    · rfl
    · rename_i unarmed; simpa using unarmed
  · rename_i high
    exact (decide_eq_true (Nat.lt_of_not_le high)).symm

/-- TABLE_LOW is noticed where the armed flag meets the low-water mark, and nothing else is noticed (R125). -/
theorem lowTest_noticeCount (slot : Fin 10) (k : Fin 25) : s.lowTest.noticeCount slot k =
    if slot = partSlot ∧ k = NoticeKind.tableLow.index ∧ s.table.lowArmed = true ∧ s.figure ≤ s.params.part.lowWater then
      noticed (s.noticeCount slot k)
    else s.noticeCount slot k := by
  unfold State.lowTest
  split
  · rename_i low
    split
    · rename_i armed
      rw [State.notice_noticeCount]
      simp only [armed, low, and_true]
      rfl
    · rename_i unarmed
      simp [unarmed]
  · rename_i high
    simp only [high, and_false, if_false]
    rfl

/-! ### The high-queue test (R142) -/

/-- The test writes its flag and its notice; what does not read them reads what it read before. -/
theorem highTest_keeps {α : Type} (f : State → α)
    (h : ∀ armed slots, f { s with pack := { s.pack with highArmed := armed }, notices := { s.notices with slots } } =
      f s) : f s.highTest = f s := by
  unfold State.highTest
  split
  · exact h false _
  · split
    · exact h true s.notices.slots
    · rfl

@[simp] theorem highTest_clocks : s.highTest.clocks = s.clocks := highTest_keeps s State.clocks fun _ _ => rfl
@[simp] theorem highTest_pins : s.highTest.pins = s.pins := highTest_keeps s State.pins fun _ _ => rfl
@[simp] theorem highTest_params : s.highTest.params = s.params := highTest_keeps s State.params fun _ _ => rfl
@[simp] theorem highTest_orders : s.highTest.orders = s.orders := highTest_keeps s State.orders fun _ _ => rfl
@[simp] theorem highTest_stations : s.highTest.stations = s.stations := highTest_keeps s State.stations fun _ _ => rfl
@[simp] theorem highTest_lays : s.highTest.lays = s.lays := highTest_keeps s State.lays fun _ _ => rfl
@[simp] theorem highTest_lay (l : Fin 8) : s.highTest.lay l = s.lay l := highTest_keeps s (·.lay l) fun _ _ => rfl
@[simp] theorem highTest_inspector : s.highTest.inspector = s.inspector :=
  highTest_keeps s State.inspector fun _ _ => rfl
@[simp] theorem highTest_arbiter : s.highTest.arbiter = s.arbiter := highTest_keeps s State.arbiter fun _ _ => rfl
@[simp] theorem highTest_table : s.highTest.table = s.table := highTest_keeps s State.table fun _ _ => rfl
@[simp] theorem highTest_record (i : Fin 64) : s.highTest.record i = s.record i :=
  highTest_keeps s (·.record i) fun _ _ => rfl
@[simp] theorem highTest_queue : s.highTest.pack.queue = s.pack.queue := highTest_keeps s (·.pack.queue) fun _ _ => rfl
@[simp] theorem highTest_scale : s.highTest.pack.scale = s.pack.scale := highTest_keeps s (·.pack.scale) fun _ _ => rfl
@[simp] theorem highTest_scaleTimer : s.highTest.pack.scaleTimer = s.pack.scaleTimer :=
  highTest_keeps s (·.pack.scaleTimer) fun _ _ => rfl
@[simp] theorem highTest_receiver : s.highTest.pack.receiver = s.pack.receiver :=
  highTest_keeps s (·.pack.receiver) fun _ _ => rfl
@[simp] theorem highTest_framing : s.highTest.pack.framing = s.pack.framing :=
  highTest_keeps s (·.pack.framing) fun _ _ => rfl
@[simp] theorem highTest_rate : s.highTest.pack.rate = s.pack.rate := highTest_keeps s (·.pack.rate) fun _ _ => rfl
@[simp] theorem highTest_collector : s.highTest.collector = s.collector :=
  highTest_keeps s State.collector fun _ _ => rfl
@[simp] theorem highTest_mask : s.highTest.notices.mask = s.notices.mask :=
  highTest_keeps s (·.notices.mask) fun _ _ => rfl
@[simp] theorem highTest_port : s.highTest.port = s.port := highTest_keeps s State.port fun _ _ => rfl
@[simp] theorem highTest_pending : s.highTest.pending = s.pending := highTest_keeps s State.pending fun _ _ => rfl

theorem highTest_highArmed : s.highTest.pack.highArmed =
    if s.pack.highArmed = true ∧ s.params.part.queueHigh ≤ s.pack.queue.length then false
    else if s.pack.queue.length ≤ s.usedLowMark then true else s.pack.highArmed := by
  unfold State.highTest
  split
  · rfl
  · split <;> rfl

/-- Of the pack line the test writes its flag alone. -/
theorem highTest_pack : s.highTest.pack = { s.pack with highArmed := s.highTest.pack.highArmed } := by
  unfold State.highTest
  split
  · rfl
  · split <;> rfl

/-- PACK_QUEUE_HIGH is noticed where the armed flag meets the high mark, and nothing else is noticed (R142). -/
theorem highTest_noticeCount (slot : Fin 10) (k : Fin 25) : s.highTest.noticeCount slot k =
    if slot = partSlot ∧ k = NoticeKind.packQueueHigh.index ∧ s.pack.highArmed = true ∧
        s.params.part.queueHigh ≤ s.pack.queue.length then
      noticed (s.noticeCount slot k)
    else s.noticeCount slot k := by
  unfold State.highTest
  by_cases due : s.pack.highArmed = true ∧ s.params.part.queueHigh ≤ s.pack.queue.length
  · rw [if_pos due, State.notice_noticeCount]
    simp only [due, and_true]
    rfl
  · simp only [due, and_false, if_false]
    split <;> rfl

end

/-! ### The line reset (R175) -/

section
variable (s : State)

theorem takeBackUnweighed_record (i : Fin 64) : s.takeBackUnweighed.record i =
    if s.unweighed = some i then (s.record i).map fun p => { p with state := .queued } else s.record i := by
  unfold State.takeBackUnweighed
  split
  · rename_i j e
    show (s.modPiece j _).record i = _
    rw [State.modPiece_record, e]
    simp only [Option.some.injEq, eq_comm]
  · rename_i e; simp [e]

theorem takeBackUnweighed_freeCount : s.takeBackUnweighed.freeCount = s.freeCount := by
  unfold State.takeBackUnweighed
  split
  · exact freeCount_modPiece s _ _
  · rfl

/-- A piece that goes back to the queue takes its record's state and its place, and nothing else. -/
theorem takeBackUnweighed_keeps {α : Type} (f : State → α)
    (h : ∀ records queue scale, f { s with
      table := { s.table with records }, pack := { s.pack with queue, scale } } = f s) :
    f s.takeBackUnweighed = f s := by
  unfold State.takeBackUnweighed
  split
  · exact h _ _ _
  · rfl

/-- The part between the blocks' own resets and the two tests (R175). -/
def State.blocksReset (s : State) (c : ResetCause) : State := s.takeBackUnweighed.resetBlocks c

theorem lineReset_eq (c : ResetCause) : s.lineReset c = ((s.blocksReset c).lowTest).highTest := rfl

/-- What neither a taken-back piece, nor a block's own reset, nor a test writes is kept by a line reset. -/
theorem lineReset_keeps (c : ResetCause) {α : Type} (f : State → α)
    (back : ∀ (s : State) records queue scale, f { s with
      table := { s.table with records }, pack := { s.pack with queue, scale } } = f s)
    (reset : ∀ s : State, f (s.resetBlocks c) = f s)
    (low : ∀ (s : State) armed slots, f { s with
      table := { s.table with lowArmed := armed }, notices := { s.notices with slots } } = f s)
    (high : ∀ (s : State) armed slots, f { s with
      pack := { s.pack with highArmed := armed }, notices := { s.notices with slots } } = f s) :
    f (s.lineReset c) = f s := by
  rw [lineReset_eq, highTest_keeps _ f (high _), lowTest_keeps _ f (low _), State.blocksReset, reset,
    takeBackUnweighed_keeps _ f (back _)]

/-! What each block reads after a line reset. -/

theorem lineReset_station (c : ResetCause) (n : Fin 9) : (s.lineReset c).station n = (s.station n).lineReset := by
  rw [lineReset_eq, highTest_station, lowTest_station, State.blocksReset, resetBlocks_station]
  exact congrArg _ (takeBackUnweighed_keeps s (·.station n) fun _ _ _ => rfl)

theorem lineReset_lay (c : ResetCause) (l : Fin 8) : (s.lineReset c).lay l = (s.lay l).lineReset := by
  have blocks : (s.blocksReset c).lay l = (s.takeBackUnweighed.lay l).lineReset := Vector.getElem_map ..
  rw [lineReset_eq, highTest_lay, lowTest_lay, blocks]
  exact congrArg _ (takeBackUnweighed_keeps s (·.lay l) fun _ _ _ => rfl)

theorem lineReset_inspector (c : ResetCause) : (s.lineReset c).inspector = s.inspector.lineReset := by
  rw [lineReset_eq, highTest_inspector, lowTest_inspector]
  exact congrArg Inspector.lineReset (takeBackUnweighed_keeps s State.inspector fun _ _ _ => rfl)

theorem lineReset_arbiter (c : ResetCause) : (s.lineReset c).arbiter = s.arbiter.lineReset := by
  rw [lineReset_eq, highTest_arbiter, lowTest_arbiter]
  exact congrArg Arbiter.lineReset (takeBackUnweighed_keeps s State.arbiter fun _ _ _ => rfl)

theorem lineReset_collector (c : ResetCause) : (s.lineReset c).collector = Collector.initial := by
  rw [lineReset_eq, highTest_collector, lowTest_collector]; rfl

theorem lineReset_record (c : ResetCause) (i : Fin 64) : (s.lineReset c).record i =
    if s.unweighed = some i then (s.record i).map fun p => { p with state := .queued } else s.record i := by
  rw [lineReset_eq, highTest_record, lowTest_record]
  exact takeBackUnweighed_record s i

theorem blocksReset_params (c : ResetCause) : (s.blocksReset c).params = s.params :=
  takeBackUnweighed_keeps s State.params fun _ _ _ => rfl

theorem blocksReset_figure (c : ResetCause) : (s.blocksReset c).figure = s.freeCount := by
  show s.takeBackUnweighed.freeCount - 0 = _
  rw [takeBackUnweighed_freeCount, Nat.sub_zero]

/-- The pack line between its own reset and the high-queue test (R146). -/
theorem blocksReset_pack (c : ResetCause) : (s.blocksReset c).pack = { s.pack with
    queue := s.unweighed.toList ++ s.pack.queue, scale := if s.unweighed.isSome then none else s.pack.scale,
    scaleTimer := none, highArmed := true, receiver := .hunting, tx := [] } := by
  show s.takeBackUnweighed.pack.lineReset = _
  unfold State.takeBackUnweighed
  split <;> rename_i e <;> rw [e] <;> rfl

theorem blocksReset_noticeCount (c : ResetCause) (slot : Fin 10) (k : Fin 25) :
    (s.blocksReset c).noticeCount slot k = 0 := by
  have zero : ∀ slot k, State.reset.noticeCount slot k = 0 := by decide +kernel
  exact zero slot k

theorem lineReset_lowArmed (c : ResetCause) :
    (s.lineReset c).table.lowArmed = decide (s.params.part.lowWater < s.freeCount) := by
  rw [lineReset_eq, highTest_table, lowTest_lowArmed, blocksReset_params, blocksReset_figure]

theorem lineReset_highArmed (c : ResetCause) : (s.lineReset c).pack.highArmed =
    decide ((s.unweighed.toList ++ s.pack.queue).length < s.params.part.queueHigh) := by
  rw [lineReset_eq, highTest_highArmed, lowTest_pack, lowTest_params, blocksReset_params, blocksReset_pack]
  by_cases high : s.params.part.queueHigh ≤ (s.unweighed.toList ++ s.pack.queue).length
  · rw [if_pos ⟨rfl, high⟩, decide_eq_false (Nat.not_lt.mpr high)]
  · rw [if_neg fun ⟨_, le⟩ => high le, decide_eq_true (Nat.lt_of_not_le high), ite_self]

theorem lineReset_pack (c : ResetCause) : (s.lineReset c).pack = { s.pack with
    queue := s.unweighed.toList ++ s.pack.queue, scale := if s.unweighed.isSome then none else s.pack.scale,
    scaleTimer := none, receiver := .hunting, tx := [],
    highArmed := decide ((s.unweighed.toList ++ s.pack.queue).length < s.params.part.queueHigh) } := by
  have flag := lineReset_highArmed s c
  rw [lineReset_eq] at *
  rw [highTest_pack, flag, lowTest_pack, blocksReset_pack]

theorem lineReset_noticeCount (c : ResetCause) (slot : Fin 10) (k : Fin 25) : (s.lineReset c).noticeCount slot k =
    if slot = partSlot ∧ k = NoticeKind.tableLow.index ∧ s.freeCount ≤ s.params.part.lowWater then 1
    else if slot = partSlot ∧ k = NoticeKind.packQueueHigh.index ∧
      s.params.part.queueHigh ≤ (s.unweighed.toList ++ s.pack.queue).length then 1
    else 0 := by
  have differ : NoticeKind.packQueueHigh.index ≠ NoticeKind.tableLow.index := by decide
  have armed : (s.blocksReset c).table.lowArmed = true := rfl
  rw [lineReset_eq, highTest_noticeCount, lowTest_noticeCount, lowTest_pack, lowTest_params, blocksReset_params,
    blocksReset_pack, blocksReset_figure, blocksReset_noticeCount, armed]
  have one : noticed 0 = 1 := rfl
  by_cases low : slot = partSlot ∧ k = NoticeKind.tableLow.index ∧ s.freeCount ≤ s.params.part.lowWater
  · obtain ⟨rfl, rfl, le⟩ := low
    simp [le, one, differ.symm]
  · by_cases high : slot = partSlot ∧ k = NoticeKind.packQueueHigh.index ∧
      s.params.part.queueHigh ≤ (s.unweighed.toList ++ s.pack.queue).length
    · obtain ⟨rfl, rfl, le⟩ := high
      simp only [differ, false_and, and_false, if_false, true_and, le, if_true, and_self, one]
    · simp only [true_and, if_neg low, if_neg high]

end

/-- Settles O4. The blocks' own parts write the fields named; the two tests that follow them write their flags and
notices. -/
theorem lineResetKeepsTheWork : Obligations.LineResetKeepsTheWork := by
  intro s dt tag released
  have kept {α : Type} (c : ResetCause) (f : State → α) (back) (reset) (low) (high) :
      f ((s.elapse dt).lineReset c) = f (s.elapse dt) := lineReset_keeps _ c f back reset low high
  refine ⟨fun c => (s.elapse dt).lineReset c, ?assert, fun taken => hostRequest_taken released taken, fun c => ?fields⟩
  case assert =>
    show Host.Outcome.next (s.elapse dt).assertReset = _
    have pins : ((s.elapse dt).lineReset .pin).pins = s.pins :=
      kept .pin State.pins (fun _ _ _ _ => rfl) (fun _ => rfl) (fun _ _ _ => rfl) fun _ _ _ => rfl
    have span : ((s.elapse dt).lineReset .pin).port.span = s.port.span := by rw [lineReset_port]; rfl
    rw [State.assertReset, if_neg (by simp [released]), ← pins, ← span]
    rfl
  case fields =>
    have port := lineReset_port (s.elapse dt) c
    have pack := lineReset_pack (s.elapse dt) c
    have collector := lineReset_collector (s.elapse dt) c
    have station (n : Fin 9) : ((s.elapse dt).lineReset c).station n = (s.station n).lineReset := lineReset_station _ c n
    have lines : ((s.elapse dt).lineReset c).pins = s.pins ∧ ((s.elapse dt).lineReset c).pending = s.pending :=
      ⟨kept c State.pins (fun _ _ _ _ => rfl) (fun _ => rfl) (fun _ _ _ => rfl) fun _ _ _ => rfl,
       kept c State.pending (fun _ _ _ _ => rfl) (fun _ => rfl) (fun _ _ _ => rfl) fun _ _ _ => rfl⟩
    have withdrawn (n : Fin 9) : ((s.elapse dt).lineReset c).permitLevel n = false := by
      have given : ((s.elapse dt).lineReset c).permitGiven n = false := by
        unfold State.permitGiven
        rw [station]
        unfold Station.lineReset
        dsimp only
        split <;> exact Bool.and_false _
      rw [State.permitLevel, given, Bool.false_and]
    exact ⟨kept c State.clocks (fun _ _ _ _ => rfl) (fun _ => rfl) (fun _ _ _ => rfl) fun _ _ _ => rfl,
      kept c State.params (fun _ _ _ _ => rfl) (fun _ => rfl) (fun _ _ _ => rfl) fun _ _ _ => rfl,
      kept c State.orders (fun _ _ _ _ => rfl) (fun _ => rfl) (fun _ _ _ => rfl) fun _ _ _ => rfl,
      fun n => ⟨by rw [station]; rfl, by rw [station]; rfl, by rw [station]; rfl, by rw [station]; rfl, withdrawn n⟩,
      lineReset_lay (s.elapse dt) c, lineReset_inspector (s.elapse dt) c, lineReset_arbiter (s.elapse dt) c,
      kept c (·.table.nextSerial) (fun _ _ _ _ => rfl) (fun _ => rfl) (fun _ _ _ => rfl) fun _ _ _ => rfl,
      lineReset_lowArmed (s.elapse dt) c, lineReset_record (s.elapse dt) c, by rw [pack]; rfl, by rw [pack]; rfl,
      by rw [pack], by rw [pack], by rw [pack], by rw [pack]; rfl, by rw [pack]; rfl, by rw [pack]; rfl,
      fun n => by unfold State.faults; rw [collector]; revert n; decide, by rw [collector]; rfl,
      kept c (·.notices.mask) (fun _ _ _ _ => rfl) (fun _ => rfl) (fun _ _ _ => rfl) fun _ _ _ => rfl,
      lineReset_noticeCount (s.elapse dt) c, by rw [port]; rfl, by rw [port], by rw [port], by rw [port],
      by rw [port]; rfl, lines.1, lines.2⟩

end Sys2Proof.Machine
end

