-- ==== Sys2Proof/Proofs/HostFrames.lean ====
section
/-!
PROOF. The frames of the host port: reading back what a request spells, and spelling again what was read (R168, R170,
R176, 11-1.1).
-/
namespace Sys2Proof

/-! ### Words (R176) -/

theorem append_toNat {n : Nat} (x : BitVec n) (y : Byte) : (x ++ y).toNat = x.toNat * 256 + y.toNat := by
  rw [BitVec.toNat_append, ← Nat.shiftLeft_add_eq_or_of_lt y.isLt, Nat.shiftLeft_eq]

theorem word16_toNat (h l : Byte) : (word16 h l).toNat = h.toNat * 256 + l.toNat := append_toNat h l

theorem word32_toNat (b3 b2 b1 b0 : Byte) :
    (word32 b3 b2 b1 b0).toNat = ((b3.toNat * 256 + b2.toNat) * 256 + b1.toNat) * 256 + b0.toNat := by
  rw [word32, append_toNat, append_toNat, append_toNat]

theorem byteAt_toNat {n : Nat} (w : BitVec n) (k : Nat) : (w.extractLsb' k 8).toNat = w.toNat / 2 ^ k % 256 := by
  rw [BitVec.extractLsb'_toNat, Nat.shiftRight_eq_div_pow]

theorem word16_bytes (w : Word16) : word16 (w.extractLsb' 8 8) (w.extractLsb' 0 8) = w := by
  have := w.isLt
  refine BitVec.eq_of_toNat_eq ?_
  rw [word16_toNat, byteAt_toNat, byteAt_toNat]
  omega

theorem word32_bytes (w : Word32) :
    word32 (w.extractLsb' 24 8) (w.extractLsb' 16 8) (w.extractLsb' 8 8) (w.extractLsb' 0 8) = w := by
  have := w.isLt
  refine BitVec.eq_of_toNat_eq ?_
  rw [word32_toNat, byteAt_toNat, byteAt_toNat, byteAt_toNat, byteAt_toNat]
  omega

theorem byteAt_eq {n : Nat} {w : BitVec n} {k : Nat} {b : Byte} (h : w.toNat / 2 ^ k % 256 = b.toNat) :
    w.extractLsb' k 8 = b := BitVec.eq_of_toNat_eq (by rw [byteAt_toNat, h])

theorem bytes16_word16 (h l : Byte) : bytes16 (word16 h l) = [h, l] := by
  have := h.isLt
  have := l.isLt
  have word := word16_toNat h l
  rw [bytes16, byteAt_eq (b := h) (by omega), byteAt_eq (b := l) (by omega)]

theorem bytes32_word32 (b3 b2 b1 b0 : Byte) : bytes32 (word32 b3 b2 b1 b0) = [b3, b2, b1, b0] := by
  have := b3.isLt
  have := b2.isLt
  have := b1.isLt
  have := b0.isLt
  have word := word32_toNat b3 b2 b1 b0
  rw [bytes32, byteAt_eq (b := b3) (by omega), byteAt_eq (b := b2) (by omega), byteAt_eq (b := b1) (by omega),
    byteAt_eq (b := b0) (by omega)]

/-! ### Orders and items (11-1.1, 11-2.1) -/

theorem readDeadRows_toList (d : Option Byte) : readDeadRows d.toList = some d := by cases d <;> rfl

theorem readRope_ropeBytes (f : RopeFields) : readRope (ropeBytes f) = some f := by
  simp only [ropeBytes, bytes32, bytes16, List.cons_append, List.nil_append, readRope, word32_bytes, word16_bytes]

theorem readNet_netBytes (f : NetFields) : readNet (netBytes f) = some f := by
  simp only [netBytes, bytes32, bytes16, List.cons_append, List.nil_append, readNet, word32_bytes, word16_bytes,
    readDeadRows_toList, Option.map_some]

theorem ropeBytes_of_readRope {bytes : List Byte} {f : RopeFields} (h : readRope bytes = some f) :
    ropeBytes f = bytes := by
  unfold readRope at h
  split at h
  · cases h
    simp only [ropeBytes, bytes32_word32, bytes16_word16, List.cons_append, List.nil_append]
  · cases h

theorem toList_of_readDeadRows {bytes : List Byte} {d : Option Byte} (h : readDeadRows bytes = some d) :
    d.toList = bytes := by
  unfold readDeadRows at h
  split at h <;> cases h <;> rfl

theorem netBytes_of_readNet {bytes : List Byte} {f : NetFields} (h : readNet bytes = some f) :
    netBytes f = bytes := by
  unfold readNet at h
  split at h
  · obtain ⟨d, hd, rfl⟩ := Option.map_eq_some_iff.mp h
    simp only [netBytes, bytes32_word32, bytes16_word16, List.cons_append, List.nil_append, toList_of_readDeadRows hd]
  · cases h

/-- Reading the kind byte and what follows it gives back an order that can be framed. -/
theorem readOrderFields_orderBytes {f : OrderFields} (h : f.wellFormed = true) :
    ∃ kind rest, orderBytes f = kind :: rest ∧ readOrderFields kind rest = some f := by
  cases f with
  | rope tag f =>
    refine ⟨0x01#8, bytes32 tag ++ ropeBytes f, rfl, ?_⟩
    simp only [readOrderFields, bytes32, List.cons_append, List.nil_append, if_true, readRope_ropeBytes,
      word32_bytes, Option.map_some]
  | net tag f =>
    refine ⟨0x02#8, bytes32 tag ++ netBytes f, rfl, ?_⟩
    have other : ¬ (0x02#8 : Byte) = 0x01#8 := by decide
    simp only [readOrderFields, bytes32, List.cons_append, List.nil_append, if_neg other, if_true, readNet_netBytes,
      word32_bytes, Option.map_some]
  | unknown kind rest =>
    refine ⟨kind, rest, rfl, ?_⟩
    simp only [OrderFields.wellFormed, Bool.and_eq_true, bne_iff_ne] at h
    obtain ⟨⟨rope, net⟩, length⟩ := h
    simp only [readOrderFields, if_neg rope, if_neg net, if_pos length]

/-- What was read as an order is framed by the bytes it was read from, and can be framed. -/
theorem orderBytes_of_readOrderFields {kind : Byte} {rest : List Byte} {f : OrderFields}
    (h : readOrderFields kind rest = some f) : f.wellFormed = true ∧ orderBytes f = kind :: rest := by
  unfold readOrderFields at h
  split at h
  · subst kind
    split at h
    · obtain ⟨f, hf, rfl⟩ := Option.map_eq_some_iff.mp h
      exact ⟨rfl, by simp only [orderBytes, bytes32_word32, ropeBytes_of_readRope hf]; rfl⟩
    · cases h
  · split at h
    · subst kind
      split at h
      · obtain ⟨f, hf, rfl⟩ := Option.map_eq_some_iff.mp h
        exact ⟨rfl, by simp only [orderBytes, bytes32_word32, netBytes_of_readNet hf]; rfl⟩
      · cases h
    · split at h
      · cases h
        exact ⟨by simp [OrderFields.wellFormed, *], rfl⟩
      · cases h

theorem walkItems_item (item : AmendItem) (tail : List Byte) :
    walkItems (itemBytes item ++ tail) = (walkItems tail).map (item :: ·) := by
  cases item with
  | label v => simp [itemBytes, bytes32, walkItems, word32_bytes]
  | labelNone => show walkItems (0x02#8 :: tail) = _; rw [walkItems.eq_def]; rfl
  | cap b => show walkItems (0x03#8 :: b :: tail) = _; rw [walkItems.eq_def]; rfl
  | hold b => show walkItems (0x04#8 :: b :: tail) = _; rw [walkItems.eq_def]; rfl
  | waive => show walkItems (0x05#8 :: tail) = _; rw [walkItems.eq_def]; rfl

/-- The walk reads the items it is given and goes on with what follows them (R176). -/
theorem walkItems_append (items : List AmendItem) (tail : List Byte) :
    walkItems (itemsBytes items ++ tail) = (walkItems tail).map (items ++ ·) := by
  induction items with
  | nil => cases h : walkItems tail <;> simp [itemsBytes, h, Except.map]
  | cons item items ih =>
    rw [itemsBytes, List.append_assoc, walkItems_item, ih]
    cases walkItems tail <;> rfl

theorem walkItems_itemsBytes (items : List AmendItem) : walkItems (itemsBytes items) = .ok items := by
  have := walkItems_append items []
  simpa [walkItems, Except.map] using this

/-- A walk that reads items reads them from the bytes that spell them, and one that fails is refused for an item's code
or its length. -/
def WalkSpec (bytes : List Byte) : Except Status (List AmendItem) → Prop
  | .ok items => itemsBytes items = bytes
  | .error st => st = .badLength ∨ st = .badRequest

theorem WalkSpec.item {item : AmendItem} {tail bytes : List Byte} {r : Except Status (List AmendItem)}
    (spells : bytes = itemBytes item ++ tail) (h : WalkSpec tail r) : WalkSpec bytes (r.map (item :: ·)) := by
  cases r with
  | ok items => exact spells ▸ congrArg (itemBytes item ++ ·) h
  | error st => exact h

theorem walkItems_spec (bytes : List Byte) : WalkSpec bytes (walkItems bytes) := by
  fun_induction walkItems bytes with
  | case1 => exact rfl
  | case2 b3 b2 b1 b0 more ih => exact ih.item (by rw [itemBytes, bytes32_word32]; rfl)
  | case3 => exact .inl rfl
  | case4 rest _ ih => exact ih.item rfl
  | case5 b more _ _ ih => exact ih.item rfl
  | case6 => exact .inl rfl
  | case7 b more _ _ _ ih => exact ih.item rfl
  | case8 => exact .inl rfl
  | case9 rest _ _ _ _ ih => exact ih.item rfl
  | case10 => exact .inr rfl

/-! ### Requests (R176) -/

/-- What a span of a known code with these fields is read as: a well-formed command that spells them, or a refusal for
their number, or for an item's code in AMEND PIECE. -/
def ReadSpec (dt : Nat) (code tag : Byte) (fields : List Byte) : Except Status Instr → Prop
  | .ok i => i.wellFormed = true ∧ i.time = dt ∧ requestParts i = some (code, tag, fields)
  | .error st => st = .badLength ∨ (st = .badRequest ∧ code = 0x22#8)

section
variable (dt : Nat) (tag : Byte) (fields : List Byte)

theorem readSpec_loadOrder : ReadSpec dt 0x10#8 tag fields (readFields dt 0x10#8 tag fields) := by
  rcases fields with _ | ⟨slot, _ | ⟨kind, rest⟩⟩
  · exact .inl rfl
  · exact .inl rfl
  · show ReadSpec dt 0x10#8 tag (slot :: kind :: rest)
      (orBadLength ((readOrderFields kind rest).map (.loadOrder dt tag slot)))
    cases e : readOrderFields kind rest with
    | none => exact .inl rfl
    | some f =>
      obtain ⟨wellFormed, spells⟩ := orderBytes_of_readOrderFields e
      exact ⟨wellFormed, rfl, by simp only [requestParts, spells]⟩

theorem readSpec_amendPiece : ReadSpec dt 0x22#8 tag fields (readFields dt 0x22#8 tag fields) := by
  show ReadSpec dt 0x22#8 tag fields (readAmend dt tag fields)
  unfold readAmend
  split
  · rename_i number s3 s2 s1 s0 items
    split
    · rename_i room
      have spec := walkItems_spec items
      cases e : walkItems items with
      | ok found =>
        rw [e] at spec
        have spells : itemsBytes found = items := spec
        refine ⟨?_, rfl, ?_⟩
        · simpa [Instr.wellFormed, itemsWellFormed, spells] using room
        · simp only [requestParts, spells, bytes32_word32, List.cons_append, List.nil_append]
      | error st =>
        rw [e] at spec
        exact Or.imp_right (fun st => ⟨st, rfl⟩) spec
    · exact .inl rfl
  · exact .inl rfl

/-- Fields of this code are read as they should be. -/
def ReadsWell (code : Byte) (fields : List Byte) : Prop := ReadSpec dt code tag fields (readFields dt code tag fields)

/-! The fields are as many as a code asks for, or they are fewer, or more. -/

section
variable {code : Byte}

theorem readsWell_none (good : ReadsWell dt tag code []) (long : ∀ a l, ReadsWell dt tag code (a :: l)) :
    ReadsWell dt tag code fields := by
  rcases fields with _ | ⟨a, l⟩ <;> [exact good; exact long a l]

theorem readsWell_one (short : ReadsWell dt tag code []) (good : ∀ a, ReadsWell dt tag code [a])
    (long : ∀ a b l, ReadsWell dt tag code (a :: b :: l)) : ReadsWell dt tag code fields := by
  rcases fields with _ | ⟨a, _ | ⟨b, l⟩⟩ <;> [exact short; exact good a; exact long a b l]

theorem readsWell_two (none : ReadsWell dt tag code []) (one : ∀ a, ReadsWell dt tag code [a])
    (good : ∀ a b, ReadsWell dt tag code [a, b]) (long : ∀ a b c l, ReadsWell dt tag code (a :: b :: c :: l)) :
    ReadsWell dt tag code fields := by
  rcases fields with _ | ⟨a, _ | ⟨b, _ | ⟨c, l⟩⟩⟩ <;> [exact none; exact one a; exact good a b; exact long a b c l]

end

theorem readFields_spec {code : Byte} (known : code ∈ requestCodes) : ReadsWell dt tag code fields := by
  simp only [requestCodes, List.mem_cons, List.not_mem_nil, or_false] at known
  rcases known with rfl | rfl | rfl | rfl | rfl | rfl | rfl | rfl | rfl | rfl | rfl | rfl | rfl | rfl | rfl | rfl | rfl |
    rfl | rfl | rfl | rfl | rfl | rfl | rfl
  · exact readsWell_none dt tag fields ⟨rfl, rfl, rfl⟩ fun _ _ => .inl rfl
  · exact readsWell_none dt tag fields ⟨rfl, rfl, rfl⟩ fun _ _ => .inl rfl
  · exact readsWell_none dt tag fields ⟨rfl, rfl, rfl⟩ fun _ _ => .inl rfl
  · rcases fields with _ | ⟨a, _ | ⟨b, _ | ⟨c, _ | ⟨d, _ | ⟨e, _ | ⟨f, _ | ⟨g, _ | ⟨h, rest⟩⟩⟩⟩⟩⟩⟩⟩
    all_goals try exact .inl rfl
    exact ⟨rfl, rfl, by rw [requestParts, bytes32_word32]; rfl⟩
  · rcases fields with _ | ⟨a, _ | ⟨b, _ | ⟨c, _ | ⟨d, rest⟩⟩⟩⟩
    all_goals try exact .inl rfl
    exact ⟨rfl, rfl, rfl⟩
  · exact readsWell_none dt tag fields ⟨rfl, rfl, rfl⟩ fun _ _ => .inl rfl
  · exact readSpec_loadOrder dt tag fields
  · exact readsWell_one dt tag fields (.inl rfl) (fun _ => ⟨rfl, rfl, rfl⟩) fun _ _ _ => .inl rfl
  · exact readsWell_one dt tag fields (.inl rfl) (fun _ => ⟨rfl, rfl, rfl⟩) fun _ _ _ => .inl rfl
  · exact readsWell_two dt tag fields (.inl rfl) (fun _ => .inl rfl) (fun _ _ => ⟨rfl, rfl, rfl⟩) fun _ _ _ _ => .inl rfl
  · exact readsWell_one dt tag fields (.inl rfl) (fun _ => ⟨rfl, rfl, rfl⟩) fun _ _ _ => .inl rfl
  · exact readsWell_one dt tag fields (.inl rfl) (fun _ => ⟨rfl, rfl, rfl⟩) fun _ _ _ => .inl rfl
  · exact readsWell_one dt tag fields (.inl rfl) (fun _ => ⟨rfl, rfl, rfl⟩) fun _ _ _ => .inl rfl
  · exact readsWell_one dt tag fields (.inl rfl) (fun _ => ⟨rfl, rfl, rfl⟩) fun _ _ _ => .inl rfl
  · exact readsWell_one dt tag fields (.inl rfl) (fun _ => ⟨rfl, rfl, rfl⟩) fun _ _ _ => .inl rfl
  · rcases fields with _ | ⟨a, _ | ⟨b, _ | ⟨c, _ | ⟨d, _ | ⟨e, _ | ⟨f, rest⟩⟩⟩⟩⟩⟩
    all_goals try exact .inl rfl
    · exact ⟨rfl, rfl, rfl⟩
    · exact ⟨rfl, rfl, by rw [requestParts, bytes32_word32]⟩
  · rcases fields with _ | ⟨a, _ | ⟨b, _ | ⟨c, _ | ⟨d, _ | ⟨e, rest⟩⟩⟩⟩⟩
    all_goals try exact .inl rfl
    exact ⟨rfl, rfl, rfl⟩
  · exact readSpec_amendPiece dt tag fields
  · rcases fields with _ | ⟨a, _ | ⟨b, _ | ⟨c, _ | ⟨d, _ | ⟨e, _ | ⟨f, rest⟩⟩⟩⟩⟩⟩
    all_goals try exact .inl rfl
    exact ⟨rfl, rfl, by rw [requestParts, bytes32_word32]⟩
  · exact readsWell_one dt tag fields (.inl rfl) (fun _ => ⟨rfl, rfl, rfl⟩) fun _ _ _ => .inl rfl
  · exact readsWell_two dt tag fields (.inl rfl) (fun _ => .inl rfl)
      (fun _ _ => ⟨rfl, rfl, by rw [requestParts, bytes16_word16]⟩) fun _ _ _ _ => .inl rfl
  · exact readsWell_none dt tag fields ⟨rfl, rfl, rfl⟩ fun _ _ => .inl rfl
  · exact readsWell_one dt tag fields (.inl rfl) (fun _ => ⟨rfl, rfl, rfl⟩) fun _ _ _ => .inl rfl
  · rcases fields with _ | ⟨a, _ | ⟨b, _ | ⟨c, _ | ⟨d, _ | ⟨e, rest⟩⟩⟩⟩⟩
    all_goals try exact .inl rfl
    exact ⟨rfl, rfl, by rw [requestParts, bytes32_word32]⟩

end

/-! ### Numbers of fields (11-1.1) -/

/-- The field counts that 11-1.1 allows for each request code. -/
def requestLengths : List (Byte × List Nat) :=
  [(0x01, [0]), (0x02, [0]), (0x03, [0]), (0x04, [7]), (0x05, [3]), (0x06, [0]), (0x10, [25, 26, 40]), (0x11, [1]),
    (0x12, [1]), (0x13, [2]), (0x14, [1]), (0x15, [1]), (0x16, [1]), (0x17, [1]), (0x18, [1]), (0x20, [1, 5]),
    (0x21, [4]), (0x22, [5, 6, 7, 8, 9, 10, 11, 12, 13, 14, 15]), (0x23, [5]), (0x28, [1]), (0x29, [2]), (0x30, [0]),
    (0x31, [1]), (0x32, [4])]

/-- The field counts of one code. -/
def lengthsOf (code : Byte) : List Nat := (requestLengths.lookup code).getD []

theorem lengthsOf_entry : ∀ e ∈ requestLengths, lengthsOf e.1 = e.2 := by decide

theorem mem_requestCodes_of_lengthsOf {code : Byte} {n : Nat} (h : n ∈ lengthsOf code) :
    code ∈ requestCodes ∧ n ≤ 40 := by
  have entries : ∀ e ∈ requestLengths, e.1 ∈ requestCodes ∧ ∀ n ∈ e.2, n ≤ 40 := by decide
  unfold lengthsOf at h
  cases e : requestLengths.lookup code with
  | none => rw [e] at h; cases h
  | some lengths =>
    rw [e] at h
    have entry : (code, lengths) ∈ requestLengths := by
      rw [List.lookup_eq_some_iff] at e
      obtain ⟨before, after, split, -⟩ := e
      rw [split]
      simp
    exact ⟨(entries _ entry).1, (entries _ entry).2 n h⟩

theorem readRope_length {bytes : List Byte} {f : RopeFields} (h : readRope bytes = some f) : bytes.length = 34 := by
  unfold readRope at h
  split at h
  · rfl
  · cases h

theorem readDeadRows_length {bytes : List Byte} {d : Option Byte} (h : readDeadRows bytes = some d) :
    bytes.length = 0 ∨ bytes.length = 1 := by
  unfold readDeadRows at h
  split at h
  · exact .inl rfl
  · exact .inr rfl
  · cases h

theorem readNet_length {bytes : List Byte} {f : NetFields} (h : readNet bytes = some f) :
    bytes.length = 19 ∨ bytes.length = 20 := by
  unfold readNet at h
  split at h
  · obtain ⟨d, hd, -⟩ := Option.map_eq_some_iff.mp h
    rcases readDeadRows_length hd with e | e <;> simp [e]
  · cases h

/-- LOAD ORDER takes a ROPE order after 38 bytes, a NET order after 23 or 24, and an unknown kind after any of these. -/
theorem readOrderFields_length {kind : Byte} {rest : List Byte} {f : OrderFields}
    (h : readOrderFields kind rest = some f) :
    (kind = 0x01#8 ∧ rest.length = 38) ∨ (kind = 0x02#8 ∧ (rest.length = 23 ∨ rest.length = 24)) ∨
      (kind ≠ 0x01#8 ∧ kind ≠ 0x02#8 ∧ (rest.length = 38 ∨ rest.length = 23 ∨ rest.length = 24)) := by
  unfold readOrderFields at h
  split at h
  · split at h
    · obtain ⟨f, hf, -⟩ := Option.map_eq_some_iff.mp h
      exact .inl ⟨‹_›, by simp [readRope_length hf]⟩
    · cases h
  · split at h
    · split at h
      · obtain ⟨f, hf, -⟩ := Option.map_eq_some_iff.mp h
        exact .inr (.inl ⟨‹_›, by rcases readNet_length hf with e | e <;> simp [e]⟩)
      · cases h
    · split at h
      · rename_i known
        refine .inr (.inr ⟨‹_›, ‹_›, ?_⟩)
        simpa [unknownOrderLength, or_assoc] using known
      · cases h

theorem readAmend_length {dt : Nat} {tag : Byte} {fields : List Byte}
    (h : readAmend dt tag fields ≠ .error .badLength) : 5 ≤ fields.length ∧ fields.length ≤ 15 := by
  unfold readAmend at h
  split at h
  · split at h
    · simp only [List.length_cons]; omega
    · exact absurd rfl h
  · exact absurd rfl h

/-- A command that can be framed is read back from its code and fields, which are as many as 11-1.1 allows. -/
theorem readFields_requestParts {i : Instr} (wellFormed : i.wellFormed = true) {code tag : Byte} {fields : List Byte}
    (h : requestParts i = some (code, tag, fields)) :
    fields.length ∈ lengthsOf code ∧ readFields i.time code tag fields = .ok i := by
  cases i with
  | identify | enterConfig | leaveConfig | getParameter | partClear | readOrder | retireOrder | bind | unbind | start
  | halt | clearFault | readStation | findPieces | readMends | poll | takeNotice =>
    cases h
    exact ⟨List.mem_of_elem_eq_true rfl, rfl⟩
  | setParameter dt tag ident station kind value =>
    cases h
    refine ⟨List.mem_of_elem_eq_true rfl, ?_⟩
    show Except.ok (Instr.setParameter dt tag ident station kind (word32 _ _ _ _)) = _
    rw [word32_bytes]
  | loadOrder dt tag slot fields =>
    cases h
    obtain ⟨kind, rest, spells, reads⟩ := readOrderFields_orderBytes wellFormed
    rw [spells]
    refine ⟨?_, ?_⟩
    · show rest.length + 2 ∈ [25, 26, 40]
      rcases readOrderFields_length reads with ⟨-, l⟩ | ⟨-, l | l⟩ | ⟨-, -, l | l | l⟩ <;> simp [l]
    · show orBadLength ((readOrderFields kind rest).map (.loadOrder dt tag slot)) = _
      rw [reads]
      rfl
  | readPiece dt tag number serial =>
    cases serial with
    | none => cases h; exact ⟨List.mem_of_elem_eq_true rfl, rfl⟩
    | some serial =>
      cases h
      refine ⟨List.mem_of_elem_eq_true rfl, ?_⟩
      show Except.ok (Instr.readPiece dt tag number (some (word32 _ _ _ _))) = _
      rw [word32_bytes]
  | amendPiece dt tag number serial items =>
    cases h
    have room : (itemsBytes items).length ≤ 10 := by simpa [Instr.wellFormed, itemsWellFormed] using wellFormed
    refine ⟨?_, ?_⟩
    · show (bytes32 serial ++ itemsBytes items).length + 1 ∈ [5, 6, 7, 8, 9, 10, 11, 12, 13, 14, 15]
      simp only [bytes32, List.length_append, List.length_cons, List.length_nil, List.mem_cons, List.not_mem_nil]
      omega
    show readAmend dt tag (number :: (bytes32 serial ++ itemsBytes items)) = _
    simp only [bytes32, List.cons_append, List.nil_append, readAmend, if_pos room, walkItems_itemsBytes, word32_bytes]
    rfl
  | retirePiece dt tag number serial =>
    cases h
    refine ⟨List.mem_of_elem_eq_true rfl, ?_⟩
    show Except.ok (Instr.retirePiece dt tag number (word32 _ _ _ _)) = _
    rw [word32_bytes]
  | mend dt tag entry =>
    cases h
    refine ⟨List.mem_of_elem_eq_true rfl, ?_⟩
    show Except.ok (Instr.mend dt tag (word16 _ _)) = _
    rw [word16_bytes]
  | setMask dt tag mask =>
    cases h
    refine ⟨List.mem_of_elem_eq_true rfl, ?_⟩
    show Except.ok (Instr.setMask dt tag (word32 _ _ _ _)) = _
    rw [word32_bytes]
  | _ => cases h

/-- A number of fields that 11-1.1 does not give for the code is BAD_LENGTH (R176). -/
theorem readFields_length {dt : Nat} {code tag : Byte} {fields : List Byte} (known : code ∈ requestCodes)
    (h : fields.length ∉ lengthsOf code) : readFields dt code tag fields = .error .badLength := by
  have spec := readFields_spec dt tag fields known
  unfold ReadsWell at spec
  cases e : readFields dt code tag fields with
  | ok i =>
    rw [e] at spec
    obtain ⟨wellFormed, -, parts⟩ := spec
    exact absurd (readFields_requestParts wellFormed parts).1 h
  | error st =>
    rw [e] at spec
    rcases spec with rfl | ⟨rfl, rfl⟩
    · rfl
    · have amend : readAmend dt tag fields = .error .badRequest := e
      obtain ⟨least, most⟩ := readAmend_length (dt := dt) (tag := tag) (fields := fields) (by rw [amend]; simp)
      refine absurd ?_ h
      show fields.length ∈ [5, 6, 7, 8, 9, 10, 11, 12, 13, 14, 15]
      simp only [List.mem_cons, List.not_mem_nil, or_false]
      omega

/-! ### Spans (R168, R170) -/

/-- A span of a known code, long enough for its length byte, is judged by that byte and then by its fields. -/
theorem judgeSpan_known (dt : Nat) {code : Byte} (known : code ∈ requestCodes) (tag len : Byte) (fields : List Byte) :
    judgeSpan dt (code :: tag :: len :: fields) =
      if (fields.take 253).length = len.toNat then
        match readFields dt code tag (fields.take 253) with
        | .ok i => .request i
        | .error status => .malformed tag status
      else .malformed tag .badLength := by
  have notRead : code ≠ Config.readCode := by rintro rfl; revert known; decide
  show (if code = Config.readCode then Judgement.readSpan
    else if code ∉ requestCodes then _ else _) = _
  rw [if_neg notRead, if_neg (not_not.mpr known)]
  rfl

/-- A known code without a tag or a length byte. -/
theorem judgeSpan_short (dt : Nat) {code : Byte} (known : code ∈ requestCodes) {rest : List Byte}
    (h : rest.length < 2) : judgeSpan dt (code :: rest) = .malformed (rest.headD 0) .badLength := by
  have notRead : code ≠ Config.readCode := by rintro rfl; revert known; decide
  rcases rest with _ | ⟨tag, _ | ⟨len, fields⟩⟩
  · show (if code = Config.readCode then Judgement.readSpan
      else if code ∉ requestCodes then _ else _) = _
    rw [if_neg notRead, if_neg (not_not.mpr known)]
    rfl
  · show (if code = Config.readCode then Judgement.readSpan
      else if code ∉ requestCodes then _ else _) = _
    rw [if_neg notRead, if_neg (not_not.mpr known)]
    rfl
  · simp at h

theorem judgeSpan_unknown (dt : Nat) {code : Byte} (unknown : code ∉ requestCodes) (rest : List Byte) :
    judgeSpan dt (code :: rest) =
      if code = Config.readCode then .readSpan else .malformed (rest.headD 0) .badRequest := by
  show (if code = Config.readCode then Judgement.readSpan
    else if code ∉ requestCodes then Judgement.malformed ((rest.take 255).headD 0) .badRequest else _) = _
  rw [if_pos unknown]
  cases rest <;> rfl

/-- A span judged by its number of fields alone: no such request, or no such length. -/
theorem judgeSpan_badLength (dt : Nat) {code : Byte} (known : code ∈ requestCodes) (tag len : Byte) {fields : List Byte}
    (h : fields.length ≠ len.toNat ∨ fields.length ∉ lengthsOf code) :
    judgeSpan dt (code :: tag :: len :: fields) = .malformed tag .badLength := by
  rw [judgeSpan_known dt known]
  split
  · rename_i same
    have refused : (fields.take 253).length ∉ lengthsOf code := by
      by_cases cut : fields.length ≤ 253
      · rw [List.take_of_length_le cut] at same ⊢
        exact h.resolve_left (not_not.mpr same)
      · intro given
        have := (mem_requestCodes_of_lengthsOf given).2
        rw [List.length_take] at this
        omega
    rw [readFields_length known refused]
  · rfl

/-- The frame of a well-formed request is taken as that request. -/
theorem judgeSpan_encodeRequest {i : Instr} {bytes : List Byte} (wellFormed : i.wellFormed = true)
    (h : encodeRequest i = some bytes) : judgeSpan i.time bytes = .request i := by
  obtain ⟨⟨code, tag, fields⟩, parts, rfl⟩ := Option.map_eq_some_iff.mp h
  obtain ⟨length, reads⟩ := readFields_requestParts wellFormed parts
  obtain ⟨known, most⟩ := mem_requestCodes_of_lengthsOf length
  have whole : fields.take 253 = fields := List.take_of_length_le (by omega)
  have len : fields.length = (BitVec.ofNat 8 fields.length).toNat := by
    rw [BitVec.toNat_ofNat]; omega
  rw [judgeSpan_known _ known, whole, if_pos len, reads]

/-- A span that is taken as a request is that request's frame. -/
theorem encodeRequest_of_judgeSpan {dt : Nat} {bytes : List Byte} {i : Instr} (h : judgeSpan dt bytes = .request i) :
    i.wellFormed = true ∧ i.time = dt ∧ encodeRequest i = some bytes := by
  rcases bytes with _ | ⟨code, rest⟩
  · cases h
  by_cases known : code ∈ requestCodes
  · rcases rest with _ | ⟨tag, _ | ⟨len, fields⟩⟩
    · rw [judgeSpan_short dt known (by simp)] at h; cases h
    · rw [judgeSpan_short dt known (by simp)] at h; cases h
    · rw [judgeSpan_known dt known] at h
      split at h
      · rename_i same
        have spec := readFields_spec dt tag (fields.take 253) known
        unfold ReadsWell at spec
        cases e : readFields dt code tag (fields.take 253) with
        | ok j =>
          rw [e] at h spec
          cases h
          obtain ⟨wellFormed, time, parts⟩ := spec
          have most := (mem_requestCodes_of_lengthsOf (readFields_requestParts wellFormed parts).1).2
          have whole : fields.take 253 = fields := List.take_of_length_le (by rw [List.length_take] at most; omega)
          rw [whole] at parts same
          refine ⟨wellFormed, time, ?_⟩
          rw [encodeRequest, parts, Option.map_some]
          simp only [same, BitVec.ofNat_toNat, BitVec.setWidth_eq]
        | error st => rw [e] at h; cases h
      · cases h
  · rw [judgeSpan_unknown dt known] at h
    split at h <;> cases h

end Sys2Proof
end

