-- ==== Sys2Proof/Proofs/MalformedFrames.lean ====
section
/-!
PROOF. Malformed request spans (R170, R176).
-/
namespace Sys2Proof.Machine

/-- A malformed span replaces the pending response and touches nothing else. -/
theorem exec_malformedFrame {s : State} {dt : Nat} {bytes : List Byte} {tag : Byte} {status : Status}
    (released : s.pins.reset = false) (taken : s.port.span ≠ .dropped)
    (h : judgeSpan 0 bytes = .malformed tag status) :
    exec (.malformedFrame dt bytes) s = .next { s.elapse dt with
      port := { s.port with response := some ⟨tag, status, s.unread, []⟩, ready := true, span := .idle } } := by
  show requestSpan dt (fun s => s.modPort fun p => p.malformed bytes) s = _
  rw [requestSpan, if_pos ((takesSpan_iff s).mpr ⟨released, taken⟩)]
  show Host.Outcome.next { s.elapse dt with port := s.port.malformed bytes } = _
  unfold Port.malformed
  rw [h]
  rfl

/-- A malformed span of three bytes or more of a known code is refused for its length, or for an item's code. -/
theorem malformed_known {code tag len : Byte} {fields : List Byte} (known : code ∈ requestCodes)
    (h : malformedSpan (code :: tag :: len :: fields) = true) :
    ∃ status, judgeSpan 0 (code :: tag :: len :: fields) = .malformed tag status ∧
      (status = .badRequest ∨ status = .badLength) := by
  unfold malformedSpan at h
  rw [judgeSpan_known 0 known] at h ⊢
  split
  · rename_i same
    rw [if_pos same] at h
    have spec := readFields_spec 0 tag (fields.take 253) known
    unfold ReadsWell at spec
    cases e : readFields 0 code tag (fields.take 253) with
    | ok i => rw [e] at h; cases h
    | error st =>
      rw [e] at spec
      refine ⟨st, rfl, ?_⟩
      rcases spec with rfl | ⟨rfl, -⟩
      · exact .inr rfl
      · exact .inl rfl
  · exact ⟨_, rfl, .inr rfl⟩

/-- What a malformed span is answered, by its code, its length and its length byte. -/
theorem malformed_answer {bytes : List Byte} (h : malformedSpan bytes = true) :
    ∃ tag status, judgeSpan 0 bytes = .malformed tag status ∧ tag = (bytes.drop 1).headD 0 ∧
      (status = .badRequest ∨ status = .badLength) ∧ (bytes.headD 0 ∉ requestCodes → status = .badRequest) ∧
      (∀ code tag len fields, bytes = code :: tag :: len :: fields → code ∈ requestCodes →
        fields.length ≠ len.toNat → status = .badLength) ∧
      (bytes.headD 0 ∈ requestCodes → bytes.length < 3 → status = .badLength) := by
  rcases bytes with _ | ⟨code, rest⟩
  · cases h
  by_cases known : code ∈ requestCodes
  · by_cases short : rest.length < 2
    · exact ⟨_, _, judgeSpan_short 0 known short, rfl, .inr rfl, fun k => absurd known k, fun _ _ _ _ _ _ _ => rfl,
        fun _ _ => rfl⟩
    · rcases rest with _ | ⟨tag, _ | ⟨len, fields⟩⟩
      · simp at short
      · simp at short
      · obtain ⟨status, judged, refused⟩ := malformed_known known h
        refine ⟨tag, status, judged, rfl, refused, fun k => absurd known k, fun code' tag' len' fields' same _ differ => ?_,
          fun _ three => absurd three (by simp)⟩
        cases same
        rw [judgeSpan_badLength 0 known tag len (.inl differ)] at judged
        cases judged; rfl
  · unfold malformedSpan at h
    rw [judgeSpan_unknown 0 known] at h
    by_cases read : code = Config.readCode
    · rw [if_pos read] at h; cases h
    · refine ⟨rest.headD 0, .badRequest, by rw [judgeSpan_unknown 0 known, if_neg read], rfl, .inl rfl, fun _ => rfl,
        fun code' tag len fields same k => ?_, fun k => absurd k known⟩
      cases same
      exact absurd k known

/-- A fault in the walk over items stays a fault behind the items before it (R176). -/
theorem judgeSpan_amend {items : List AmendItem} {tail : List Byte} {status : Status} (tag number : Byte)
    (serial : Word32) (fault : walkItems tail = .error status)
    (room : (number :: (bytes32 serial ++ (itemsBytes items ++ tail))).length ≤ 15) :
    judgeSpan 0 (0x22#8 :: tag :: BitVec.ofNat 8 (number :: (bytes32 serial ++ (itemsBytes items ++ tail))).length ::
      number :: (bytes32 serial ++ (itemsBytes items ++ tail))) = .malformed tag status := by
  generalize spelled : number :: (bytes32 serial ++ (itemsBytes items ++ tail)) = fields at room ⊢
  have len : fields.length = (BitVec.ofNat 8 fields.length).toNat := by rw [BitVec.toNat_ofNat]; omega
  have whole : fields.take 253 = fields := List.take_of_length_le (by omega)
  have few : (itemsBytes items ++ tail).length ≤ 10 := by
    rw [← spelled] at room
    simp only [bytes32, List.length_cons, List.length_append, List.length_nil] at room ⊢
    omega
  have refused : readFields 0 0x22#8 tag fields = .error status := by
    show readAmend 0 tag fields = _
    rw [← spelled]
    simp only [bytes32, List.cons_append, List.nil_append, readAmend, if_pos few, walkItems_append, fault]
    rfl
  rw [judgeSpan_known 0 (by decide), whole, if_pos len, refused]

theorem walkItems_unknown {code : Byte} (rest : List Byte)
    (unknown : code ∉ ([0x01#8, 0x02#8, 0x03#8, 0x04#8, 0x05#8] : List Byte)) :
    walkItems (code :: rest) = .error .badRequest := by
  simp only [List.mem_cons, List.not_mem_nil, or_false, not_or] at unknown
  obtain ⟨n1, n2, n3, n4, n5⟩ := unknown
  rw [walkItems.eq_def]
  simp only [n1, n2, n3, n4, n5, if_false]

theorem walkItems_shortLabel {rest : List Byte} (short : rest.length < 4) :
    walkItems (0x01#8 :: rest) = .error .badLength := by
  rcases rest with _ | ⟨a, _ | ⟨b, _ | ⟨c, _ | ⟨d, rest⟩⟩⟩⟩
  case cons.cons.cons.cons => simp at short; omega
  all_goals rw [walkItems.eq_def]; rfl

/-- Settles O7. -/
theorem malformedFrameTouchesPortOnly : Obligations.MalformedFrameTouchesPortOnly := by
  intro s dt released taken
  refine ⟨fun bytes h => ?_, fun e he tag fields few other => ?_, fun tag slot kind rest h => ?_,
    fun tag number serial items code rest => fun room => ⟨fun unknown => ?_, fun label short => ?_, fun capOrHold empty => ?_⟩⟩
  · obtain ⟨tag, status, judged, facts⟩ := malformed_answer h
    exact ⟨tag, status, exec_malformedFrame released taken judged, facts⟩
  · have entry : lengthsOf e.1 = e.2 := lengthsOf_entry e he
    have known : e.1 ∈ requestCodes := (by decide : ∀ e ∈ requestLengths, e.1 ∈ requestCodes) e he
    exact exec_malformedFrame released taken (judgeSpan_badLength 0 known tag _ (.inr (by rw [entry]; exact other)))
  · refine exec_malformedFrame released taken ?_
    have few : rest.length ≤ 38 := by
      rcases h with ⟨-, l⟩ | ⟨-, l⟩
      · simp only [List.mem_cons, List.not_mem_nil, or_false] at l; omega
      · omega
    have none_read : readOrderFields kind rest = none := by
      cases e : readOrderFields kind rest with
      | none => rfl
      | some f =>
        exfalso
        rcases h with ⟨rfl, l⟩ | ⟨rfl, l⟩ <;> rcases readOrderFields_length e with ⟨k, m⟩ | ⟨k, m⟩ | ⟨k, k', m⟩ <;>
          simp_all
    have whole : (slot :: kind :: rest).take 253 = slot :: kind :: rest := List.take_of_length_le (by simp; omega)
    have len : (slot :: kind :: rest).length = (BitVec.ofNat 8 (rest.length + 2)).toNat := by
      rw [BitVec.toNat_ofNat, List.length_cons, List.length_cons]; omega
    have refused : readFields 0 0x10#8 tag (slot :: kind :: rest) = .error .badLength := by
      show orBadLength ((readOrderFields kind rest).map (.loadOrder 0 tag slot)) = _
      rw [none_read]; rfl
    rw [judgeSpan_known 0 (by decide), whole, if_pos len, refused]
  · exact exec_malformedFrame released taken (judgeSpan_amend tag number serial (walkItems_unknown rest unknown) room)
  · subst label
    exact exec_malformedFrame released taken (judgeSpan_amend tag number serial (walkItems_shortLabel short) room)
  · subst empty
    refine exec_malformedFrame released taken (judgeSpan_amend tag number serial ?_ room)
    rcases capOrHold with rfl | rfl <;> rw [walkItems.eq_def] <;> rfl

end Sys2Proof.Machine
end

