-- ==== Sys2Proof/Proofs/PackFrames.lean ====
section
/-!
PROOF. The pack port's receiver and answers (R143, R144, R177, 11-3), and the agreement of both ports' frames with the
requests they spell.
-/
namespace Sys2Proof

/-! ### Frames of the terminal's requests (11-3) -/

theorem judgePackFrame_append (dt : Nat) (counted : List Byte) (hi lo : Byte) :
    judgePackFrame dt (counted ++ [hi, lo]) =
      if [hi, lo] = bytes16 (crc counted) then
        match counted with
        | len :: kind :: fields => if len.toNat = fields.length + 1 then readPackBody dt kind fields else none
        | _ => none
      else none := by
  have length : (counted ++ [hi, lo]).length - 2 = counted.length := by simp
  unfold judgePackFrame
  simp only [length, List.take_left', List.drop_left'] <;> rfl

/-- Kind and fields that are read as a request are that request's. -/
theorem packBody_of_readPackBody {dt : Nat} {kind : Byte} {fields : List Byte} {i : Instr}
    (h : readPackBody dt kind fields = some i) :
    i.wellFormed = true ∧ i.time = dt ∧ packBody i = some (kind :: fields) := by
  unfold readPackBody at h
  split at h
  · rename_i one
    obtain rfl : kind = 0x01#8 := BitVec.eq_of_toNat_eq one
    cases h
    exact ⟨rfl, rfl, rfl⟩
  · rename_i two
    obtain rfl : kind = 0x02#8 := BitVec.eq_of_toNat_eq two
    cases h
    exact ⟨rfl, rfl, by rw [packBody, bytes32_word32, bytes32_word32]; rfl⟩
  · rename_i three
    obtain rfl : kind = 0x03#8 := BitVec.eq_of_toNat_eq three
    cases h
    exact ⟨rfl, rfl, by rw [packBody, bytes32_word32, bytes32_word32]; rfl⟩
  · rename_i four
    obtain rfl : kind = 0x04#8 := BitVec.eq_of_toNat_eq four
    cases h
    exact ⟨rfl, rfl, by rw [packBody, bytes32_word32]⟩
  · rename_i five
    obtain rfl : kind = 0x05#8 := BitVec.eq_of_toNat_eq five
    cases h
    exact ⟨rfl, rfl, rfl⟩
  · rename_i five
    obtain rfl : kind = 0x05#8 := BitVec.eq_of_toNat_eq five
    cases h
    exact ⟨rfl, rfl, by rw [packBody, bytes32_word32]⟩
  · cases h

theorem readPackBody_packBody {i : Instr} {kind : Byte} {fields : List Byte} (h : packBody i = some (kind :: fields)) :
    readPackBody i.time kind fields = some i := by
  cases i with
  | packNext => cases h; rfl
  | packWeigh dt number serial weight =>
    cases h
    show some (Instr.packWeigh dt number (word32 _ _ _ _) (word32 _ _ _ _)) = _
    rw [word32_bytes, word32_bytes]
  | packPacked dt number serial label =>
    cases h
    show some (Instr.packPacked dt number (word32 _ _ _ _) (word32 _ _ _ _)) = _
    rw [word32_bytes, word32_bytes]
  | packAside dt number serial =>
    cases h
    show some (Instr.packAside dt number (word32 _ _ _ _)) = _
    rw [word32_bytes]
  | packQuery dt number serial =>
    cases serial with
    | none => cases h; rfl
    | some serial =>
      cases h
      show some (Instr.packQuery dt number (some (word32 _ _ _ _))) = _
      rw [word32_bytes]
  | _ => cases h

/-- Kind and number of fields as 11-3 gives them, of each kind. -/
def packLengths (kind : Byte) (fields : Nat) : Prop :=
  kind = 1 ∧ fields = 0 ∨ (kind = 2 ∨ kind = 3) ∧ fields = 9 ∨ kind = 4 ∧ fields = 5 ∨
    kind = 5 ∧ (fields = 1 ∨ fields = 5)

theorem packBody_lengths {i : Instr} {kind : Byte} {fields : List Byte} (h : packBody i = some (kind :: fields)) :
    packLengths kind fields.length := by
  cases i with
  | packNext => cases h; exact .inl ⟨rfl, rfl⟩
  | packWeigh => cases h; exact .inr (.inl ⟨.inl rfl, rfl⟩)
  | packPacked => cases h; exact .inr (.inl ⟨.inr rfl, rfl⟩)
  | packAside => cases h; exact .inr (.inr (.inl ⟨rfl, rfl⟩))
  | packQuery dt number serial =>
    cases serial <;> cases h
    · exact .inr (.inr (.inr ⟨rfl, .inl rfl⟩))
    · exact .inr (.inr (.inr ⟨rfl, .inr rfl⟩))
  | _ => cases h

/-- The kind and the number of fields alone decide whether a body is a request's. -/
theorem readPackBody_isSome (dt : Nat) (kind : Byte) (fields : List Byte) :
    (readPackBody dt kind fields).isSome = true ↔ packLengths kind fields.length := by
  constructor
  · intro h
    obtain ⟨i, hi⟩ := Option.isSome_iff_exists.mp h
    exact packBody_lengths (packBody_of_readPackBody hi).2.2
  · rintro (⟨rfl, n⟩ | ⟨rfl | rfl, n⟩ | ⟨rfl, n⟩ | ⟨rfl, n | n⟩)
    · rw [List.length_eq_zero_iff] at n; subst n; rfl
    · match fields, n with
      | [_, _, _, _, _, _, _, _, _], _ => rfl
    · match fields, n with
      | [_, _, _, _, _, _, _, _, _], _ => rfl
    · match fields, n with
      | [_, _, _, _, _], _ => rfl
    · match fields, n with
      | [_], _ => rfl
    · match fields, n with
      | [_, _, _, _, _], _ => rfl

end Sys2Proof

namespace Sys2Proof.Machine

/-! ### The receiver (R143) -/

theorem rxChar_length (len : Byte) : rxChar (.collecting []) (.whole len) =
    if len = 0 ∨ 40 < len.toNat then .discard else .going (.collecting [len]) := rfl

/-- A character joins the frame in progress, and ends it where the frame is as long as its length byte says. -/
theorem rxChar_collecting (len : Byte) (got : List Byte) (b : Byte) :
    rxChar (.collecting (len :: got)) (.whole b) =
      if len.toNat + 1 ≤ got.length then .frame (len :: (got ++ [b])) else .going (.collecting (len :: (got ++ [b]))) := by
  show collect (len :: got) b = _
  have chars : frameChars len ≤ (got ++ [b]).length + 1 ↔ len.toNat + 1 ≤ got.length := by
    rw [frameChars, List.length_append, List.length_singleton]; omega
  have whole : collect (len :: got) b =
      if frameChars len ≤ (got ++ [b]).length + 1 then .frame (len :: (got ++ [b]))
      else .going (.collecting (len :: (got ++ [b]))) := by
    unfold collect
    rcases got with _ | ⟨c, got⟩ <;> rfl
  rw [whole]
  by_cases ends : len.toNat + 1 ≤ got.length
  · rw [if_pos ends, if_pos (chars.mpr ends)]
  · rw [if_neg ends, if_neg (mt chars.mp ends)]

theorem State.setReceiver_self {s : State} {r : Receiver} (h : s.pack.receiver = r) : s.setReceiver r = s := by
  subst h; rfl

theorem takeChar_going {s : State} {c : PackChar} {r : Receiver} (h : rxChar s.pack.receiver c = .going r) :
    s.takeChar c = s.setReceiver r := by
  unfold State.takeChar; rw [h]

theorem takeChar_discard {s : State} {c : PackChar} (h : rxChar s.pack.receiver c = .discard) :
    s.takeChar c = s.discardFrame := by
  unfold State.takeChar; rw [h]

theorem takeChars_append (s : State) (a b : List PackChar) : s.takeChars (a ++ b) = (s.takeChars a).takeChars b :=
  List.foldl_append

/-- A frame that begins with a length byte in range goes on. -/
theorem takeChars_start {s : State} (hunting : s.pack.receiver = .hunting) {len : Byte} (some_ : len ≠ 0)
    (most : len.toNat ≤ 40) : s.takeChars [.whole 0xA5#8, .whole len] = s.setReceiver (.collecting [len]) := by
  have start : s.takeChar (.whole 0xA5#8) = s.setReceiver (.collecting []) :=
    takeChar_going (by rw [hunting]; rfl)
  show (s.takeChar (.whole 0xA5#8)).takeChar (.whole len) = _
  rw [start, takeChar_going (r := .collecting [len])]
  · rfl
  · show rxChar (.collecting []) (.whole len) = _
    rw [rxChar_length, if_neg fun out => out.elim some_ (Nat.not_lt.mpr most)]

/-- While a frame is shorter than its length byte says, its characters are collected. -/
theorem takeChars_collecting (len : Byte) (rest got : List Byte) (s : State)
    (collecting : s.pack.receiver = .collecting (len :: got)) (short : got.length + rest.length < len.toNat + 2) :
    s.takeChars (rest.map PackChar.whole) = s.setReceiver (.collecting (len :: (got ++ rest))) := by
  induction rest generalizing got s with
  | nil => rw [List.append_nil, State.setReceiver_self collecting]; rfl
  | cons b rest ih =>
    rw [List.length_cons] at short
    have one : s.takeChar (.whole b) = s.setReceiver (.collecting (len :: (got ++ [b]))) :=
      takeChar_going (by rw [collecting, rxChar_collecting, if_neg (by omega)])
    show (s.takeChar (.whole b)).takeChars (rest.map PackChar.whole) = _
    rw [one, ih (got ++ [b]) _ rfl (by rw [List.length_append, List.length_singleton]; omega), List.append_assoc]
    rfl

/-- A frame in progress, from its start byte. -/
theorem takeChars_frame {s : State} (hunting : s.pack.receiver = .hunting) {len : Byte} (some_ : len ≠ 0)
    (most : len.toNat ≤ 40) {rest : List Byte} (short : rest.length < len.toNat + 2) :
    s.takeChars ([.whole 0xA5#8, .whole len] ++ rest.map PackChar.whole) =
      s.setReceiver (.collecting (len :: rest)) := by
  rw [takeChars_append, takeChars_start hunting some_ most, takeChars_collecting len rest [] _ rfl (by simpa using short)]
  rfl

end Sys2Proof.Machine

namespace Sys2Proof
open Machine

/-! ### The agreement of the pack port's frames (11-3) -/

/-- A request's frame is collected up to its last character, ends there, and is taken as that request. -/
theorem packFrame_taken {i : Instr} {bytes : List Byte} (h : encodePack i = some bytes) :
    ∃ got last, bytes = 0xA5#8 :: (got ++ [last]) ∧ judgePackFrame i.time (got ++ [last]) = some i ∧
      rxChar (.collecting got) (.whole last) = .frame (got ++ [last]) ∧
      ∀ s : State, s.pack.receiver = .hunting →
        s.takeChars ((0xA5#8 :: got).map PackChar.whole) = s.setReceiver (.collecting got) := by
  obtain ⟨body, hbody, rfl⟩ := Option.map_eq_some_iff.mp h
  obtain ⟨kind, fields, rfl⟩ : ∃ kind fields, body = kind :: fields := by
    cases i with
    | packQuery dt number serial => cases serial <;> cases hbody <;> exact ⟨_, _, rfl⟩
    | packNext | packWeigh | packPacked | packAside => cases hbody; exact ⟨_, _, rfl⟩
    | _ => cases hbody
  have lengths := packBody_lengths hbody
  have few : fields.length ≤ 9 := by
    rcases lengths with ⟨-, n⟩ | ⟨-, n⟩ | ⟨-, n⟩ | ⟨-, n | n⟩ <;> omega
  let len : Byte := BitVec.ofNat 8 (kind :: fields).length
  have toNat : len.toNat = fields.length + 1 := by
    show (BitVec.ofNat 8 (fields.length + 1)).toNat = _
    rw [BitVec.toNat_ofNat]; omega
  let check := crc (len :: kind :: fields)
  let hi := check.extractLsb' 8 8
  let lo := check.extractLsb' 0 8
  have split : len :: ((kind :: fields) ++ [hi, lo]) = len :: (kind :: fields ++ [hi]) ++ [lo] := by simp
  refine ⟨len :: (kind :: fields ++ [hi]), lo, ?_, ?_, ?_, fun s hunting => ?_⟩
  · rw [← split]; rfl
  · rw [← split]
    show judgePackFrame i.time ((len :: kind :: fields) ++ [hi, lo]) = some i
    rw [judgePackFrame_append, if_pos (show [hi, lo] = bytes16 (crc (len :: kind :: fields)) from rfl)]
    show (if len.toNat = fields.length + 1 then readPackBody i.time kind fields else none) = _
    rw [if_pos toNat, readPackBody_packBody hbody]
  · rw [rxChar_collecting, if_pos (by rw [toNat]; simp)]
    rfl
  · have nonzero : len ≠ 0 := fun zero => by rw [zero] at toNat; cases toNat
    exact takeChars_frame hunting nonzero (by omega) (by rw [toNat]; simp)

/-- What passes the checks at a frame's end is, behind the start byte, such a request's frame. -/
theorem encodePack_of_judgePackFrame {dt : Nat} {got : List Byte} {i : Instr} (h : judgePackFrame dt got = some i) :
    i.wellFormed = true ∧ i.time = dt ∧ encodePack i = some (0xA5#8 :: got) := by
  unfold judgePackFrame at h
  dsimp only at h
  split at h
  · rename_i check
    have whole := List.take_append_drop (got.length - 2) got
    rw [check] at whole
    generalize got.take (got.length - 2) = counted at *
    subst whole
    split at h
    · rename_i len kind fields
      split at h
      · rename_i length
        obtain ⟨wellFormed, time, body⟩ := packBody_of_readPackBody h
        refine ⟨wellFormed, time, ?_⟩
        have len_eq : BitVec.ofNat 8 (kind :: fields).length = len := by
          rw [List.length_cons, ← length, BitVec.ofNat_toNat, BitVec.setWidth_eq]
        rw [encodePack, body, Option.map_some, packFrame, len_eq]
        rfl
      · cases h
    · cases h
  · cases h

/-- Settles O54. Each command's frame is read back field by field, and what is read spells the bytes it was read
from. -/
theorem framesSpellTheirRequests : Obligations.FramesSpellTheirRequests :=
  ⟨fun _ _ => judgeSpan_encodeRequest, fun _ _ _ => encodeRequest_of_judgeSpan, fun _ _ => packFrame_taken,
   fun _ _ _ => encodePack_of_judgePackFrame⟩

end Sys2Proof

namespace Sys2Proof.Machine

/-! ### Frames discarded, answers made and sent (R143, R144, R177) -/

/-- One bit taken into the check, the most significant bit of the register leaving it (11-3). -/
def crcShift (c : Word16) (b : Bool) : Word16 := if c.msb != b then (c <<< 1) ^^^ 0x1021#16 else c <<< 1

/-- The check over bytes, bit by bit, each byte's most significant bit first (11-3). -/
def crcOf (bytes : List Byte) : Word16 := bytes.foldl
  (fun c b => ([7, 6, 5, 4, 3, 2, 1, 0] : List Nat).foldl (fun c j => crcShift c (b.getLsbD j)) c) 0xFFFF#16

theorem crc_eq_crcOf (bytes : List Byte) : crc bytes = crcOf bytes := by
  have steps : crcByte = fun (c : Word16) (b : Byte) =>
      ([7, 6, 5, 4, 3, 2, 1, 0] : List Nat).foldl (fun c j => crcShift c (b.getLsbD j)) c :=
    funext fun c => funext fun b => crcByte_bits c b
  unfold crc crcOf
  rw [steps]

theorem bytes16_eq (w : Word16) : bytes16 w = [BitVec.ofNat 8 (w.toNat / 256), BitVec.ofNat 8 w.toNat] := by
  have := w.isLt
  rw [bytes16, byteAt_eq (b := BitVec.ofNat 8 (w.toNat / 256)) (by simp),
    byteAt_eq (b := BitVec.ofNat 8 w.toNat) (by simp)]

theorem bytes16_eq_iff (w : Word16) (hi lo : Byte) :
    [hi, lo] = bytes16 w ↔ hi.toNat * 256 + lo.toNat = w.toNat := by
  constructor
  · intro h
    have := w.isLt
    rw [bytes16] at h
    simp only [List.cons.injEq, and_true] at h
    rw [h.1, h.2, byteAt_toNat, byteAt_toNat]
    omega
  · intro h
    have := hi.isLt
    have := lo.isLt
    rw [bytes16, byteAt_eq (b := hi) (by omega), byteAt_eq (b := lo) (by omega)]

theorem packLengths_iff (kind : Byte) {len : Byte} {fields : Nat} (length : len.toNat = fields + 1) :
    ¬ packLengths kind fields ↔ (kind.toNat = 0 ∨ 5 < kind.toNat) ∨
      (kind = 1 ∧ len ≠ 1 ∨ (kind = 2 ∨ kind = 3) ∧ len ≠ 10 ∨ kind = 4 ∧ len ≠ 6 ∨ kind = 5 ∧ len ≠ 2 ∧ len ≠ 6) := by
  unfold packLengths
  have k (n : Nat) (h : n < 256) : kind = BitVec.ofNat 8 n ↔ kind.toNat = n := by
    rw [← BitVec.toNat_inj, BitVec.toNat_ofNat, Nat.mod_eq_of_lt h]
  have l (n : Nat) (h : n < 256) : len = BitVec.ofNat 8 n ↔ fields + 1 = n := by
    rw [← BitVec.toNat_inj, BitVec.toNat_ofNat, Nat.mod_eq_of_lt h, length]
  have k1 := k 1 (by decide); have k2 := k 2 (by decide); have k3 := k 3 (by decide)
  have k4 := k 4 (by decide); have k5 := k 5 (by decide)
  have l1 := l 1 (by decide); have l2 := l 2 (by decide); have l6 := l 6 (by decide); have l10 := l 10 (by decide)
  simp only [BitVec.ofNat_eq_ofNat, ne_eq] at *
  simp only [k1, k2, k3, k4, k5, l1, l2, l6, l10]
  omega

section
variable {s : State} {dt : Nat}

theorem exec_packFrameDiscard (released : s.pins.reset = false) (chars : List PackChar) :
    exec (.packFrameDiscard dt chars) s = .next ((s.elapse dt).takeChars chars) := by
  show lineArrival dt (fun s => s.takeChars chars) s = _
  rw [lineArrival, if_neg (by simp [released])]

/-- A frame whose last character comes and that fails the checks is discarded (R143). -/
theorem takeChars_failed (hunting : s.pack.receiver = .hunting) {len : Byte} (some_ : len ≠ 0) (most : len.toNat ≤ 40)
    {rest : List Byte} (length : rest.length = len.toNat + 2) (fails : judgePackFrame 0 (len :: rest) = none) :
    s.takeChars ([.whole 0xA5#8, .whole len] ++ rest.map PackChar.whole) = s.discardFrame := by
  obtain ⟨first, last, rfl⟩ : ∃ first last, rest = first ++ [last] := by
    rcases List.eq_nil_or_concat rest with rfl | ⟨first, last, rfl⟩
    · simp at length
    · exact ⟨first, last, by simp⟩
  rw [List.length_append, List.length_singleton] at length
  rw [List.map_append, ← List.append_assoc, takeChars_append, takeChars_frame hunting some_ most (by omega)]
  show (s.setReceiver (.collecting (len :: first))).takeChar (.whole last) = _
  have ends : rxChar (s.setReceiver (.collecting (len :: first))).pack.receiver (.whole last) =
      .frame (len :: (first ++ [last])) := by
    show rxChar (.collecting (len :: first)) (.whole last) = _
    rw [rxChar_collecting, if_pos (by omega)]
  unfold State.takeChar
  rw [ends]
  dsimp only
  rw [if_neg (by simp [fails])]
  rfl

theorem exec_packRequest_full (released : s.pins.reset = false) (full : ¬ s.txRoom) (kind : Byte)
    (body : State → Answer) : packRequest dt kind body s = .next (s.elapse dt).discardFrame := by
  have waits : Config.txSize ≤ (s.elapse dt).pack.tx.length := Nat.le_of_not_lt full
  rw [packRequest, if_neg (by simp [released]), State.takePack, if_pos waits]

end

/-- Settles O48. -/
theorem packFramesAreDiscardedAndAnswersSent : Obligations.PackFramesAreDiscardedAndAnswersSent := by
  refine ⟨by decide +kernel, fun s kind status fields => ?answer, fun s dt => ⟨fun released hunting => ?frames,
    fun released full => ?full, fun a rest waits => ?sent, fun none_ => ?idle⟩⟩
  case answer =>
    show { s with pack := { s.pack with
      receiver := .hunting, tx := s.pack.tx ++ [packFrame (kind :: statusCode status :: fields)] } } = _
    rw [packFrame, bytes16_eq, crc_eq_crcOf]
    rfl
  case frames =>
    have discarded : (s.elapse dt).discardFrame = ({ s.elapse dt with pack := { s.pack with
        receiver := .hunting
        framing := if s.pack.framing < 65535 then s.pack.framing + 1 else s.pack.framing } } : State).notice 9
          .packFraming := rfl
    have hunting : (s.elapse dt).pack.receiver = .hunting := hunting
    have failed {len : Byte} {rest : List Byte} (some_ : len ≠ 0) (most : len.toNat ≤ 40)
        (length : rest.length = len.toNat + 2) (fails : judgePackFrame 0 (len :: rest) = none) :
        exec (.packFrameDiscard dt ([.whole 0xA5#8, .whole len] ++ rest.map PackChar.whole)) s =
          .next (s.elapse dt).discardFrame := by
      rw [exec_packFrameDiscard released, takeChars_failed hunting some_ most length fails]
    dsimp only
    rw [← discarded]
    have fault {got : List Byte} (c : PackChar) (breaks : rxChar (.collecting got) c = .discard) :
        ((s.elapse dt).setReceiver (.collecting got)).takeChar c = (s.elapse dt).discardFrame :=
      takeChar_discard (s := (s.elapse dt).setReceiver (.collecting got)) breaks
    refine ⟨fun len out => ?_, fun len rest => failed, fun len kind fields hi lo most length => ?_,
      fun len rest b some_ most short => ⟨?_, ?_⟩, fun b other => ?_⟩
    · rw [exec_packFrameDiscard released]
      have start : (s.elapse dt).takeChar (.whole 0xA5#8) = (s.elapse dt).setReceiver (.collecting []) :=
        takeChar_going (by rw [hunting]; rfl)
      show Host.Outcome.next (((s.elapse dt).takeChar (.whole 0xA5#8)).takeChar (.whole len)) = _
      rw [start, takeChar_discard (by
        show rxChar (.collecting []) (.whole len) = _
        rw [rxChar_length, if_pos out])]
      rfl
    · have judged (dt : Nat) : judgePackFrame dt (len :: kind :: fields ++ [hi, lo]) = none ↔
          hi.toNat * 256 + lo.toNat ≠ (crcOf (len :: kind :: fields)).toNat ∨
            ¬ packLengths kind fields.length := by
        rw [judgePackFrame_append, ← crc_eq_crcOf, ← readPackBody_isSome dt, Bool.not_eq_true, Option.isSome_eq_false_iff,
          Option.isNone_iff_eq_none, ne_eq, ← bytes16_eq_iff]
        dsimp only
        rw [if_pos length]
        by_cases check : [hi, lo] = bytes16 (crc (len :: kind :: fields))
        · rw [if_pos check]; simp [check]
        · rw [if_neg check]; simp [check]
      rw [packLengths_iff kind length] at judged
      refine ⟨judged dt, fun fails => ?_⟩
      have some_ : len ≠ 0 := fun zero => by rw [zero] at length; cases length
      have := failed (rest := kind :: fields ++ [hi, lo]) some_ most (by simp [length]) ((judged 0).mpr fails)
      simpa using this
    · rw [exec_packFrameDiscard released, takeChars_append, takeChars_frame hunting some_ most short]
      exact congrArg Host.Outcome.next (fault (.noStop b) rfl)
    · rw [exec_packFrameDiscard released, takeChars_append, takeChars_frame hunting some_ most short]
      exact congrArg Host.Outcome.next (fault .lineBreak rfl)
    · rw [exec_packFrameDiscard released]
      have one (c : PackChar) (passed : rxChar .hunting c = .going .hunting) : (s.elapse dt).takeChar c = s.elapse dt := by
        rw [takeChar_going (r := .hunting) (by rw [hunting, passed]), State.setReceiver_self hunting]
      show Host.Outcome.next ((((s.elapse dt).takeChar (.whole b)).takeChar (.noStop b)).takeChar .lineBreak) = _
      rw [one (.whole b) (if_neg other), one _ rfl, one _ rfl]
  case full =>
    exact ⟨exec_packRequest_full released full _ fun s => s.nextPiece,
      fun b v w => ⟨exec_packRequest_full released full _ fun s => s.weighRequest b v w,
        exec_packRequest_full released full _ fun s => s.packedRequest b v w,
        exec_packRequest_full released full _ fun s => s.asideRequest b v⟩,
      fun b v => exec_packRequest_full released full _ fun s => s.queryRequest b v⟩
  case sent =>
    show Host.Outcome.next (s.elapse dt).sendAnswer = _
    unfold State.sendAnswer
    rw [show (s.elapse dt).pack.tx = a :: rest from waits]
    rfl
  case idle =>
    show Host.Outcome.next (s.elapse dt).sendAnswer = _
    unfold State.sendAnswer
    rw [show (s.elapse dt).pack.tx = [] from none_]

end Sys2Proof.Machine
end

