-- ==== Sys2Proof/Proofs/Records.lean ====
section
/-!
PROOF. The requests that only read: the records as returned, byte by byte (R7, R19, R118, R119, R174, R176).
-/
namespace Sys2Proof.Machine

/-! ### Requests that are answered and do nothing else -/

/-- A request that is answered, and whose body changes nothing. -/
theorem hostRequest_answered {dt : Nat} {tag : Byte} {body : State → Answer} {s : State} {st : Status}
    {fields : List Byte} (released : s.pins.reset = false) (taken : s.port.span ≠ .dropped)
    (h : body (s.elapse dt) = ⟨s.elapse dt, st, fields⟩) :
    hostRequest dt tag body s = .next (s.answeredOnly dt tag st fields) := by
  rw [hostRequest_taken released taken, State.takeRequest, h]
  rfl

@[simp] theorem slotOf_ofNat (k : Fin 16) : slotOf (BitVec.ofNat 8 k.1) = some k := by
  revert k; decide

@[simp] theorem recordOf_ofNat (i : Fin 64) : recordOf (BitVec.ofNat 8 i.1) = some i := by
  revert i; decide

/-! ### Numbers and flags (R176) -/

theorem byteAt_ofNat {n : Nat} (w : BitVec n) (k : Nat) : w.extractLsb' k 8 = BitVec.ofNat 8 (w.toNat / 2 ^ k) :=
  byteAt_eq (by rw [BitVec.toNat_ofNat])

theorem bytes16_spelled (w : Word16) :
    bytes16 w = (List.range 2).map fun k => BitVec.ofNat 8 (w.toNat / 256 ^ (1 - k)) := by
  rw [bytes16, byteAt_ofNat, byteAt_ofNat]
  rfl

theorem bytes32_spelled (w : Word32) :
    bytes32 w = (List.range 4).map fun k => BitVec.ofNat 8 (w.toNat / 256 ^ (3 - k)) := by
  rw [bytes32, byteAt_ofNat, byteAt_ofNat, byteAt_ofNat, byteAt_ofNat]
  rfl

theorem byteAt_half (w : BitVec 64) (k j : Nat) (low : j + 8 ≤ 32) :
    (w.extractLsb' k 32).extractLsb' j 8 = w.extractLsb' (k + j) 8 := by
  refine BitVec.eq_of_getLsbD_eq fun i hi => ?_
  have inside : j + i < 32 := by omega
  simp [hi, inside, Nat.add_assoc]

theorem bytes64_spelled (w : BitVec 64) :
    bytes64 w = (List.range 8).map fun k => BitVec.ofNat 8 (w.toNat / 256 ^ (7 - k)) := by
  simp only [bytes64, bytes32, byteAt_half w 32 _ (by decide : 24 + 8 ≤ 32), byteAt_half w _ 16 (by decide),
    byteAt_half w _ 8 (by decide), byteAt_half w _ 0 (by decide), byteAt_half w _ 24 (by decide), byteAt_ofNat]
  rfl

/-- Flags as bits of a byte, the first in bit 0. -/
def bitsOf (flags : List Bool) : Byte := BitVec.ofNat 8 (flags.zipIdx.map fun f => if f.1 then 2 ^ f.2 else 0).sum

theorem bitsOf_one : ∀ a, bitsOf [a] = flag a 0 := by decide
theorem bitsOf_three : ∀ a b c, bitsOf [a, b, c] = flag a 0 ||| flag b 1 ||| flag c 2 := by decide
theorem bitsOf_four : ∀ a b c d, bitsOf [a, b, c, d] = flag a 0 ||| flag b 1 ||| flag c 2 ||| flag d 3 := by decide
theorem bitsOf_eight : ∀ a b c d e f g h, bitsOf [a, b, c, d, e, f, g, h] =
    flag a 0 ||| flag b 1 ||| flag c 2 ||| flag d 3 ||| flag e 4 ||| flag f 5 ||| flag g 6 ||| flag h 7 := by
  decide +kernel

/-! ### Orders (11-2.1) -/

theorem bitmap2_stations (f : Fin 9 → Bool) : bitmap2 (allStations.map f) =
    num2 ((List.finRange 9).map fun n => if f n then 2 ^ n.1 else 0).sum := by
  have bit (n : Fin 9) : (if f n then 2 ^ n.1 else 0) = 2 ^ n.1 * (f n).toNat := by cases f n <;> simp
  rw [show List.finRange 9 = allStations from by decide, bitmap2]
  simp only [bit, allStations, List.map_cons, List.map_nil, List.foldr_cons, List.foldr_nil, List.sum_cons, List.sum_nil]
  congr 1
  show 2 * (2 * (2 * (2 * (2 * (2 * (2 * (2 * (2 * 0 + (f 8).toNat) + (f 7).toNat) + (f 6).toNat) + (f 5).toNat) +
    (f 4).toNat) + (f 3).toNat) + (f 2).toNat) + (f 1).toNat) + (f 0).toNat =
    1 * (f 0).toNat + (2 * (f 1).toNat + (4 * (f 2).toNat + (8 * (f 3).toNat + (16 * (f 4).toNat +
      (32 * (f 5).toNat + (64 * (f 6).toNat + (128 * (f 7).toNat + (256 * (f 8).toNat + 0))))))))
  omega

theorem pieceCount_eq (s : State) (k : Fin 16) :
    s.pieceCount k = (List.finRange 64).countP fun i => decide ((s.record i).map (·.slot) = some k) := by
  unfold State.pieceCount
  rw [records_toList, List.countP_map]
  refine List.countP_congr fun i _ => ?_
  cases r : s.record i <;> simp [r]

/-- What uses a slot: the stations bound to it as a bitmap, and the number of pieces that name it (R3, R7). -/
def State.usageBytes (s : State) (k : Fin 16) : List Byte :=
  num2 ((List.finRange 9).map fun n => if (s.station n).order = some k then 2 ^ n.1 else 0).sum ++
    [byteOf ((List.finRange 64).countP fun i => decide ((s.record i).map (·.slot) = some k))]

theorem orderBytes_spelled (s : State) (k : Fin 16) : s.orderBytes k = match s.orderAt k with
    | none => [byteOf k.1] ++ [byteOf 0] ++ s.usageBytes k
    | some o => [byteOf k.1] ++ [byteOf 1] ++ s.usageBytes k ++ match o.body with
      | .rope f => [byteOf 1] ++ bytes32 o.tag ++ num4 f.lay ++ [byteOf f.strands] ++ num4 f.target ++ num2 f.allowance ++
        num4 f.density ++ num4 f.band ++ num4 f.drift ++ [byteOf f.persistence] ++ num2 f.excA ++ num2 f.excB ++
        [byteOf f.spliceA] ++ [byteOf f.spliceB] ++ num2 f.tolA ++ num2 f.tolB
      | .net f => [byteOf 2] ++ bytes32 o.tag ++ [byteOf f.hooks] ++ num2 f.rowTarget ++ num2 f.overrunRows ++
        num4 f.rowMass ++ num2 f.knotsA ++ num2 f.knotsB ++ num2 f.holesB ++ num2 f.tolA ++ num2 f.tolB ++
        [byteOf f.deadRows] := by
  have usage : bitmap2 (allStations.map (s.boundTo k)) ++ [byteOf (s.pieceCount k)] = s.usageBytes k := by
    rw [bitmap2_stations, pieceCount_eq]
    simp only [State.boundTo, beq_iff_eq]
    rfl
  unfold State.orderBytes
  simp only [usage]
  cases s.orderAt k with
  | none => rfl
  | some o =>
    dsimp only
    cases body : o.body with
    | rope f => simp only [OrderBody.kindByte, OrderBody.fieldBytes, List.append_assoc, List.cons_append, List.nil_append]; rfl
    | net f => simp only [OrderBody.kindByte, OrderBody.fieldBytes, List.append_assoc, List.cons_append, List.nil_append]; rfl

/-! ### Stations (11-2.2) -/

/-- The open piece of a station with its number. -/
def State.opened (s : State) (n : Fin 9) : Option (Fin 64 × Piece) :=
  (s.station n).piece.bind fun i => (s.record i).map fun p => (i, p)

theorem openPiece?_eq (s : State) (n : Fin 9) : s.openPiece? n = (s.opened n).map Prod.snd := by
  unfold State.openPiece? State.opened
  cases (s.station n).piece with
  | none => rfl
  | some i => cases r : s.record i <;> simp [r]

theorem stationPieceBytes_spelled (s : State) (n : Fin 9) : s.stationPieceBytes n = match s.opened n with
    | some (i, p) => [byteOf i.1] ++ bytes32 p.serial ++ num4 p.extent
    | none => List.replicate 9 0 := by
  unfold State.stationPieceBytes
  rw [openPiece?_eq]
  unfold State.opened
  cases (s.station n).piece with
  | none => rfl
  | some i =>
    cases r : s.record i with
    | none => simp [r]; rfl
    | some p => simp [r]

theorem stationOrderBytes_spelled (s : State) (n : Fin 9) : s.stationOrderBytes n = match (s.station n).order with
    | some k => [byteOf k.1] ++ bytes32 (((s.orderAt k).map (·.tag)).getD 0)
    | none => List.replicate 5 0 := by
  unfold State.stationOrderBytes State.orderTag
  cases (s.station n).order with
  | none => rfl
  | some k => cases r : s.orderAt k <;> simp [r]

theorem firstFaultBytes_spelled (f : Option FirstFault) : firstFaultBytes f = match f with
    | some f => [byteOf f.kind.code] ++ bytes32 f.time ++
      (match f.piece with
        | some (i, serial) => [byteOf i.1] ++ bytes32 serial
        | none => List.replicate 5 0) ++
      num4 (f.extent.getD 0) ++ [match f.source with
        | some m => BitVec.ofNat 8 m.1
        | none => 0xFF]
    | none => List.replicate 14 0 ++ [0xFF] := by
  cases f with
  | none => rfl
  | some f =>
    obtain ⟨kind, time, piece, extent, source⟩ := f
    cases piece <;> cases source <;> simp only [firstFaultBytes, List.append_assoc, List.cons_append, List.nil_append] <;> rfl

theorem stationTail_lay (s : State) (l : Fin 8) : s.stationTail (ofLay l) =
    [byteOf (s.lay l).strandOut.toNat] ++ num4 (s.lay l).demand ++ bytes64 (BitVec.ofInt 64 (s.lay l).tracker.pos) := by
  unfold State.stationTail
  rw [layOf_ofLay, byteOf, BitVec.ofNat_toNat]
  rfl

theorem stationTail_loom (s : State) : s.stationTail loom = [bitsOf [s.inspector.awaiting.isSome]] := by
  rw [bitsOf_one]; rfl

theorem stationBytes_spelled (s : State) (n : Fin 9) : s.stationBytes n =
    [byteOf n.1] ++ [byteOf (match (s.station n).state with
      | .unbound => 0
      | .ready => 1
      | .running => 2
      | .holding => 3
      | .cutting => 4
      | .tripped => 5)] ++
    [bitsOf [(s.station n).order.isSome, (s.opened n).isSome, (s.faults n).first.isSome],
      bitsOf [s.permitGiven n, s.holdOn n, s.cutOn n],
      bitsOf [(s.station n).reasons.halted, (s.station n).reasons.fault, (s.station n).reasons.overrun]] ++
    [byteOf (if (s.station n).state = .cutting then 2 else if n ∈ s.arbiter.waiting then 1 else 0)] ++
    s.stationOrderBytes n ++ s.stationPieceBytes n ++ bytes16 (s.faults n).set ++ firstFaultBytes (s.faults n).first ++
    s.stationTail n := by
  have state : (s.station n).state.code = byteOf (match (s.station n).state with
      | .unbound => 0
      | .ready => 1
      | .running => 2
      | .holding => 3
      | .cutting => 4
      | .tripped => 5) := by cases (s.station n).state <;> rfl
  have cut : (s.cutStatus n).code =
      byteOf (if (s.station n).state = .cutting then 2 else if n ∈ s.arbiter.waiting then 1 else 0) := by
    unfold State.cutStatus
    split
    · rfl
    · split <;> rfl
  have opened : (s.openPiece? n).isSome = (s.opened n).isSome := by rw [openPiece?_eq, Option.isSome_map]
  rw [bitsOf_three, bitsOf_three, bitsOf_three, ← state, ← cut, ← opened]
  rfl

theorem firstFaultBytes_length (f : Option FirstFault) : (firstFaultBytes f).length = 15 := by
  rw [firstFaultBytes_spelled]
  cases f with
  | none => rfl
  | some f =>
    obtain ⟨kind, time, piece, extent, source⟩ := f
    cases piece <;> rfl

/-- A station's record is 50 bytes at a lay station and 38 at the loom (11-2.2). -/
theorem stationBytes_length (s : State) (n : Fin 9) : (s.stationBytes n).length = if n = loom then 38 else 50 := by
  have order : (s.stationOrderBytes n).length = 5 := by
    rw [stationOrderBytes_spelled]; cases (s.station n).order <;> rfl
  have piece : (s.stationPieceBytes n).length = 9 := by
    rw [stationPieceBytes_spelled]; cases s.opened n <;> rfl
  have tail : (s.stationTail n).length = if n = loom then 1 else 13 := by
    cases lay : layOf n with
    | some l =>
      obtain rfl := layOf_eq_some.mp lay
      rw [stationTail_lay, if_neg (ofLay_ne_loom l)]; rfl
    | none =>
      obtain rfl := layOf_eq_none.mp lay
      rfl
  rw [stationBytes_spelled]
  simp only [List.length_append, order, piece, firstFaultBytes_length, tail, List.length_cons, List.length_nil, bytes16]
  split <;> rfl

/-! ### Pieces (11-2.3) -/

theorem readyFlag_iff (p : Piece) : p.readyFlag = true ↔ p.state = .queued ∧ p.hold = false ∧
    ∀ q, p.body = .panel q → q.unmended = 0 ∧ q.unlisted = 0 := by
  have clean : p.clean = true ↔ ∀ q, p.body = .panel q → q.unmended = 0 ∧ q.unlisted = 0 := by
    unfold Piece.clean
    cases b : p.body <;> simp
  rw [← clean, Piece.readyFlag, Piece.ready, Bool.and_eq_true, Bool.and_eq_true, beq_iff_eq, Bool.not_eq_true']

theorem hasPacking_iff (p : Piece) :
    p.hasPacking = true ↔ p.weighing ≠ none ∨ p.packLabel ≠ none ∨ p.aside ≠ none := by
  simp only [Piece.hasPacking, Bool.or_eq_true, Option.isSome_iff_ne_none, or_assoc]

theorem packingBytes_spelled (p : Piece) : p.packingBytes = if p.hasPacking then
      [bitsOf [p.weighing.isSome, (p.weighing.bind (·.deviation)).isSome, p.packLabel.isSome, p.aside.isSome]] ++
      (match p.weighing with
        | some w => num4 w.weight ++ num4 w.expected ++ bytes32 (BitVec.ofInt 32 (w.deviation.getD 0)) ++
          [w.computed.code, w.grade.code]
        | none => List.replicate 14 0) ++
      bytes32 (p.packLabel.getD 0) ++ [(p.aside.map AsideReason.code).getD 0]
    else [] := by
  unfold Piece.packingBytes
  rw [bitsOf_four]
  split
  · cases p.weighing <;> cases p.aside <;> rfl
  · rfl

theorem queuePosition_of_queue {s : State} {i : Fin 64} {p : Piece} {before after : List (Fin 64)}
    (queued : p.state = .queued) (queue : s.pack.queue = before ++ i :: after) (first : i ∉ before) :
    s.queuePosition i p = BitVec.ofNat 8 before.length := by
  rw [State.queuePosition, if_pos queued, queue, List.idxOf_append_of_notMem first, List.idxOf_cons_self]
  rfl

theorem pieceBytes_spelled {s : State} {i : Fin 64} {p : Piece} (h : s.record i = some p) :
    s.pieceBytes i =
      [byteOf i.1] ++ [p.state.code] ++ bytes32 p.serial ++
      [byteOf (match p.body with
        | .coil _ => 0
        | .panel _ => 1)] ++ [byteOf p.station.1] ++ [byteOf p.slot.1] ++ bytes32 p.tag ++
      bytes32 p.openedAt ++ bytes32 (p.closedAt.getD 0) ++
      [bitsOf [p.short, p.overrun, p.hold, p.closedAt.isSome, p.label.isSome, p.hasPacking, p.readyFlag,
        match p.body with
        | .coil c => c.worstSlip.isSome
        | .panel _ => false]] ++
      bytes32 (p.label.getD 0) ++ [capCode p.cap, s.queuePosition i p] ++
      (match p.body with
        | .coil c => num4 (c.length.toNat / 1000000) ++ num4 c.quality.worst ++ num2 c.quality.excursions ++
          num2 c.quality.inserted ++ num2 c.quality.reverse ++ bytes32 (BitVec.ofInt 32 (c.worstSlip.getD 0)) ++
          num2 c.spliceOverflow ++ num4 (c.splices.length + c.spliceOverflow) ++ [byteOf c.splices.length] ++
          c.splices.flatMap fun x => num4 x.length ++ [byteOf x.strand]
        | .panel q => num2 q.rows ++ num2 q.knots ++ num2 q.holes ++ num2 q.unlisted ++ num2 q.unsensed ++
          num2 q.unmended ++ num2 q.mended ++ num2 q.waived) ++ p.packingBytes := by
  unfold State.pieceBytes
  rw [h]
  simp only [bitsOf_eight, Piece.kindByte, Piece.hasSlip, Piece.coil?]
  cases b : p.body with
  | coil c => simp only [PieceBody.bytes, List.append_assoc, List.cons_append, List.nil_append]; rfl
  | panel q => simp only [PieceBody.bytes, List.append_assoc, List.cons_append, List.nil_append]; rfl

/-! ### FIND PIECES (R119) -/

theorem optionalByte_station (x : Option (Fin 9)) : optionalByte stationOf (match x with
    | some n => BitVec.ofNat 8 n.1
    | none => 0xFF) = some x := by
  revert x; decide

theorem optionalByte_slot (x : Option (Fin 16)) : optionalByte slotOf (match x with
    | some k => BitVec.ofNat 8 k.1
    | none => 0xFF) = some x := by
  revert x; decide

/-- A page of at most 32 records goes on after its last record exactly where records remain (R119). -/
theorem continuation_page (found : List (Fin 64)) (first : Fin 64) : continuation found (found.take 32) =
    if found.length ≤ 32 then 0xFF else BitVec.ofNat 8 (((found.take 32).getLastD first).1 + 1) := by
  unfold continuation
  by_cases all : found.length ≤ 32
  · rw [if_pos all, if_neg (by rw [List.length_take]; omega)]
  · rw [if_neg all, if_pos (by rw [List.length_take]; omega)]
    cases last : (found.take 32).getLast? with
    | none =>
      rw [List.getLast?_eq_none_iff, List.take_eq_nil_iff] at last
      rcases last with last | rfl
      · cases last
      · simp at all
    | some i => rw [List.getLastD_eq_getLast?, last]; rfl

theorem search_spelled (s : State) (x : Search) (first : Fin 64) :
    let found := (List.finRange 64).filter (s.matches x)
    let later := found.filter fun i => first.1 ≤ i.1
    s.search x first.1 =
      if later = [] then ⟨s, .empty, [BitVec.ofNat 8 found.length, 0, 0xFF]⟩
      else ⟨s, .ok, [BitVec.ofNat 8 found.length, BitVec.ofNat 8 (min 32 later.length),
        if later.length ≤ 32 then 0xFF else BitVec.ofNat 8 (((later.take 32).getLastD first).1 + 1)] ++
        (later.take 32).flatMap s.foundBytes⟩ := by
  intro found later
  have same : allRecords.filter (fun i => s.matches x i && decide (first.1 ≤ i.1)) = later := by
    show _ = (allRecords.filter (s.matches x)).filter _
    rw [List.filter_filter]
    simp only [Bool.and_comm]
  unfold State.search
  dsimp only
  rw [same, ← continuation_page, ← List.length_take]
  by_cases none_ : later = []
  · rw [if_pos none_, if_pos (List.isEmpty_iff.mpr none_)]; rfl
  · rw [if_neg none_, if_neg (mt List.isEmpty_iff.mp none_)]; rfl

theorem readPiece_number (s : State) (i : Fin 64) :
    s.readPiece (BitVec.ofNat 8 i.1) none = ⟨s, .ok, s.pieceBytes i⟩ := by
  unfold State.readPiece
  simp only [recordOf_ofNat]

theorem readPiece_serial (s : State) (i : Fin 64) (v : Word32) : s.readPiece (BitVec.ofNat 8 i.1) (some v) =
    if (s.named i v).isSome then ⟨s, .ok, s.pieceBytes i⟩ else s.refuse .stalePiece := by
  unfold State.readPiece
  simp only [recordOf_ofNat]

theorem named_of_record {s : State} {i : Fin 64} {p : Piece} (h : s.record i = some p) :
    s.named i p.serial = some p := by
  unfold State.named
  simp only [h, if_true]

theorem named_eq_none {s : State} {i : Fin 64} {v : Word32} (h : ∀ p, s.record i = some p → p.serial ≠ v) :
    s.named i v = none := by
  unfold State.named
  split
  · exact if_neg (h _ ‹_›)
  · rfl

/-- A slot that nothing uses shows no station and no piece. -/
theorem usageBytes_unused {s : State} {k : Fin 16} (h : s.slotInUse k = false) : s.usageBytes k = [0, 0, 0] := by
  simp only [State.slotInUse, Bool.or_eq_false_iff, decide_eq_false_iff_not, Nat.not_lt, Nat.le_zero,
    List.any_eq_false, State.boundTo, beq_iff_eq] at h
  obtain ⟨bound, named⟩ := h
  have none_bound (n : Fin 9) : (if (s.station n).order = some k then 2 ^ n.1 else 0) = 0 :=
    if_neg (bound n (mem_allStations n))
  rw [State.usageBytes, ← pieceCount_eq, named]
  simp only [none_bound]
  rfl

/-- Settles O8. Each body of a reading request leaves the state alone; each record is spelled field by field. -/
theorem readingRequestsChangeNothing : Obligations.ReadingRequestsChangeNothing := by
  refine ⟨bytes16_spelled, bytes32_spelled, bytes64_spelled, orderBytes_spelled, fun s n => ⟨s.stationTail n, ?station,
    fun l e => ?lay, fun e => ?loom⟩, by decide, ⟨by decide, by decide, by decide⟩,
    fun p => ⟨readyFlag_iff p, hasPacking_iff p, packingBytes_spelled p⟩,
    fun s i p => ⟨fun other => if_neg other, fun before after => queuePosition_of_queue⟩, fun s i p => pieceBytes_spelled,
    fun s dt tag released taken => ?requests⟩
  case station =>
    have spelled := stationBytes_spelled s n
    rw [stationOrderBytes_spelled, stationPieceBytes_spelled, firstFaultBytes_spelled] at spelled
    exact spelled
  case lay => subst e; exact stationTail_lay s l
  case loom => subst e; exact stationTail_loom s
  case requests =>
    have answered {c : Instr} (body : State → Answer) {st : Status} {fields : List Byte}
        (request : exec c s = hostRequest dt tag body s) (h : body (s.elapse dt) = ⟨s.elapse dt, st, fields⟩) :
        exec c s = .next (s.answeredOnly dt tag st fields) := request.trans (hostRequest_answered released taken h)
    have some_answer {c : Instr} (body : State → Answer) (request : exec c s = hostRequest dt tag body s)
        (h : (body (s.elapse dt)).state = s.elapse dt) :
        ∃ st fs, exec c s = .next (s.answeredOnly dt tag st fs) :=
      ⟨_, _, answered (st := (body (s.elapse dt)).status) (fields := (body (s.elapse dt)).fields) body request
        (congrArg (fun u => (⟨u, _, _⟩ : Answer)) h)⟩
    have readOrder (k : Fin 16) :
        exec (.readOrder dt tag (BitVec.ofNat 8 k.1)) s = .next (s.answeredOnly dt tag .ok (s.orderBytes k)) :=
      answered (fun s => s.readOrder (BitVec.ofNat 8 k.1)) rfl (by rw [State.readOrder, slotOf_ofNat]; rfl)
    refine ⟨readOrder, fun a b c => ?_, fun a => ?_, fun a => ?_, fun a v => ?_, fun a b c d => ?_, fun a => ?_, ?_, ?_,
      fun k empty unused => ?_, fun i free => ?_, fun i p held => ⟨?_, ?_⟩, fun i v other => ?_,
      fun n => ⟨stationBytes_length s n, ?_⟩, fun x first => ?_⟩
    · exact some_answer (fun s => s.getParameter a b c) rfl (by unfold State.getParameter; split <;> rfl)
    · exact some_answer (fun s => s.readOrder a) rfl (by unfold State.readOrder; split <;> rfl)
    · exact some_answer (fun s => s.readStation a) rfl (by unfold State.readStation; split <;> rfl)
    · exact some_answer (fun s => s.readPiece a v) rfl
        (by unfold State.readPiece; split <;> [rfl; rfl; (split <;> rfl)])
    · exact some_answer (fun s => s.findPieces a b c d) rfl
        (by unfold State.findPieces State.search; split <;> [(dsimp only; split <;> rfl); rfl])
    · exact some_answer (fun s => s.readMends a) rfl (by unfold State.readMends; dsimp only; split <;> rfl)
    · exact some_answer (fun s => s.pollRequest) rfl rfl
    · exact answered (fun s => s.identify) rfl rfl
    · have usage := usageBytes_unused unused
      rw [readOrder, orderBytes_spelled, empty]
      dsimp only
      rw [usage]
      rfl
    · exact answered (fun s => s.readPiece (BitVec.ofNat 8 i.1) none) rfl (by
        rw [readPiece_number, State.pieceBytes, show (s.elapse dt).record i = none from free]
        rfl)
    · exact answered (fun s => s.readPiece (BitVec.ofNat 8 i.1) none) rfl (readPiece_number _ i)
    · exact answered (fun s => s.readPiece (BitVec.ofNat 8 i.1) (some p.serial)) rfl (by
        rw [readPiece_serial, named_of_record (s := s.elapse dt) held]
        rfl)
    · exact answered (fun s => s.readPiece (BitVec.ofNat 8 i.1) (some v)) rfl (by
        rw [readPiece_serial, named_eq_none (s := s.elapse dt) other]
        rfl)
    · exact answered (fun s => s.readStation (BitVec.ofNat 8 n.1)) rfl (by rw [State.readStation, stationOf_ofNat]; rfl)
    · have body : (s.elapse dt).findPieces x.states (match x.station with
          | some n => BitVec.ofNat 8 n.1
          | none => 0xFF) (match x.slot with
          | some k => BitVec.ofNat 8 k.1
          | none => 0xFF) (BitVec.ofNat 8 first.1) = (s.elapse dt).search x first.1 := by
        unfold State.findPieces
        simp only [optionalByte_station, optionalByte_slot, recordOf_ofNat]
      have spelled := search_spelled (s.elapse dt) x first
      intro found later
      by_cases none_ : later = []
      · rw [if_pos none_]
        exact answered (fun s => s.findPieces x.states _ _ _) rfl (body.trans (spelled.trans (if_pos none_)))
      · rw [if_neg none_]
        exact answered (fun s => s.findPieces x.states _ _ _) rfl (body.trans (spelled.trans (if_neg none_)))

end Sys2Proof.Machine
end

