-- ==== Sys2Proof/Proofs/ModesAndOrders.lean ====
section
/-!
PROOF. The requests that change the mode, and those that load and retire the orders (R4 to R8, R171, R172).
-/
namespace Sys2Proof.Machine

/-- A host request that is taken, by what its body makes of the part once the time has passed. -/
theorem hostRequest_effect {dt : Nat} {tag : Byte} {body : State → Answer} {s t : State} {st : Status}
    {fields : List Byte} (released : s.pins.reset = false) (taken : s.port.span ≠ .dropped)
    (h : body (s.elapse dt) = ⟨t, st, fields⟩) :
    hostRequest dt tag body s = .next (t.responded tag s.unread st fields) := by
  rw [hostRequest_taken released taken, State.takeRequest, h]
  rfl

/-! ### Modes (R171, R172) -/

theorem enterConfig_of_config {s : State} (h : s.port.mode = .config) : s.enterConfig = ⟨s, .ok, []⟩ := by
  rw [State.enterConfig, h]

theorem enterConfig_of_operate {s : State} (h : s.port.mode = .operate) :
    s.enterConfig = if allStations.any s.working then s.refuse .busy else ⟨s.setMode .config, .ok, []⟩ := by
  rw [State.enterConfig, h]

theorem working_iff (s : State) (n : Fin 9) : s.working n = true ↔
    (s.station n).state = .running ∨ (s.station n).state = .holding ∨ (s.station n).state = .cutting := by
  unfold State.working
  cases (s.station n).state <;> decide

theorem working_eq_false {s : State} {n : Fin 9}
    (h : (s.station n).state = .unbound ∨ (s.station n).state = .ready ∨ (s.station n).state = .tripped) :
    s.working n = false := by
  unfold State.working
  obtain e | e | e := h <;> rw [e] <;> rfl

theorem leaveConfig_of_operate {s : State} (h : s.port.mode = .operate) : s.leaveConfig = ⟨s, .ok, []⟩ := by
  rw [State.leaveConfig, h]

theorem leaveConfig_of_config {s : State} (h : s.port.mode = .config) :
    s.leaveConfig = ⟨s.toOperate, if s.params.crossCheck = s.params then .ok else .clamped, []⟩ := by
  rw [State.leaveConfig, h]

theorem crossChecked_layParams (s : State) (l : Fin 8) :
    s.crossChecked.layParams l = (s.layParams l).crossCheck := Vector.getElem_map ..

theorem operate_lay (s : State) (l : Fin 8) :
    s.operate.lay l = (s.lay l).leaveConfig (s.layParams l) (s.rope (ofLay l)) := Vector.getElem_ofFn ..

/-- What LEAVE CONFIG makes of a lay station, field by field (R28, R61, R172). -/
theorem leaveConfig_spelled (x : LayStation) (p : LayParams) (order : Option RopeOrder) : x.leaveConfig p order =
    { x with
      consts := match order with
        | some f => some ⟨roundDiv (f.lay * 1000) p.marks, 4 * f.lay * 1000⟩
        | none => x.consts
      slipCap := if p.meterScale = 0 then 0 else x.slipCap
      slipMeter := if p.meterScale = 0 then 0 else x.slipMeter } := by
  unfold LayStation.leaveConfig
  cases order <;> by_cases h : p.meterScale = 0 <;> simp only [h, if_true, if_false] <;> rfl

/-- Settles O9. -/
theorem modeRequestsChangeMode : Obligations.ModeRequestsChangeMode := by
  intro s dt tag released taken
  refine ⟨fun config => hostRequest_answered released taken (enterConfig_of_config config), fun operate busy => ?working,
    fun operate rest => ?resting, fun operate => hostRequest_answered released taken (leaveConfig_of_operate operate),
    fun config => ⟨(s.elapse dt).crossChecked.operate, hostRequest_effect released taken (leaveConfig_of_config config),
      rfl, fun l => ?checked, rfl, rfl, rfl, fun l => ?constants, rfl, rfl⟩⟩
  case working =>
    obtain ⟨n, busy⟩ := busy
    have any : allStations.any (s.elapse dt).working = true :=
      List.any_eq_true.mpr ⟨n, mem_allStations n, (working_iff s n).mpr busy⟩
    exact hostRequest_answered released taken ((enterConfig_of_operate (s := s.elapse dt) operate).trans (if_pos any))
  case resting =>
    have none : ¬ allStations.any (s.elapse dt).working = true := by
      rw [List.any_eq_true]
      rintro ⟨n, -, h⟩
      exact Bool.false_ne_true ((working_eq_false (s := s) (rest n)).symm.trans h)
    exact hostRequest_effect released taken ((enterConfig_of_operate (s := s.elapse dt) operate).trans (if_neg none))
  case checked => exact crossChecked_layParams (s.elapse dt) l
  case constants =>
    rw [operate_lay, crossChecked_layParams, leaveConfig_spelled]
    rfl

/-! ### Orders (R4 to R8) -/

theorem slotOf_eq_none {b : Byte} (h : 16 ≤ b.toNat) : slotOf b = none := dif_neg (by omega)

theorem loadOrder_of_slot_none {s : State} {b : Byte} {fields : OrderFields} (h : slotOf b = none) :
    s.loadOrder b fields = s.refuse .badRequest := by
  rw [State.loadOrder, h]

/-- LOAD ORDER into a slot of the table. -/
theorem loadOrder_slot (s : State) (slot : Fin 16) (fields : OrderFields) :
    s.loadOrder (BitVec.ofNat 8 slot.1) fields = match orderOf fields with
      | some (o, changed) =>
        if s.slotInUse slot then s.refuse .orderInUse
        else ⟨s.setOrder slot (some o), if changed then .clamped else .ok, []⟩
      | none => s.refuse .badRequest := by
  unfold State.loadOrder
  rw [slotOf_ofNat]
  cases orderOf fields <;> rfl

theorem retireOrder_slot (s : State) (slot : Fin 16) :
    s.retireOrder (BitVec.ofNat 8 slot.1) =
      if s.orderAt slot = none then s.refuse .noSuchOrder
      else if s.slotInUse slot then s.refuse .orderInUse
      else ⟨s.setOrder slot none, .ok, []⟩ := by
  unfold State.retireOrder
  rw [slotOf_ofNat]

/-- R3: a slot is in use while a station is bound to it or a piece names it. -/
theorem slotInUse_iff (s : State) (slot : Fin 16) : s.slotInUse slot = true ↔
    (∃ n, (s.station n).order = some slot) ∨ ∃ i p, s.record i = some p ∧ p.slot = slot := by
  have piece : 0 < s.pieceCount slot ↔ ∃ i p, s.record i = some p ∧ p.slot = slot := by
    rw [pieceCount_eq, List.countP_pos_iff]
    simp [Option.map_eq_some_iff]
  have bound : allStations.any (s.boundTo slot) = true ↔ ∃ n, (s.station n).order = some slot := by
    simp [State.boundTo, mem_allStations]
  rw [State.slotInUse, Bool.or_eq_true, bound, decide_eq_true_eq, piece]

/-- Both passes over the fields of a ROPE order (R4, R6). -/
theorem rope_passes (f : RopeFields) : (RopeOrder.ofFields f).pairs =
    { lay := max 500 (min 2000000 f.lay.toNat), strands := max 1 (min 4 f.strands.toNat)
      target := max 1000 (min 2000000 f.target.toNat), allowance := min 50000 f.allowance.toNat
      density := max 1 (min 100000000 f.density.toNat), band := max 1 (min 8000000 f.band.toNat)
      drift := max 1 (min 8000000 f.drift.toNat), persistence := max 1 (min 255 f.persistence.toNat)
      excA := f.excA.toNat, excB := max f.excA.toNat f.excB.toNat
      spliceA := min 6 f.spliceA.toNat, spliceB := max (min 6 f.spliceA.toNat) (min 6 f.spliceB.toNat)
      tolA := min 500 f.tolA.toNat, tolB := max (min 500 f.tolA.toNat) (min 500 f.tolB.toNat) } := by
  have excA : clampNat 0 65535 f.excA.toNat = f.excA.toNat := by unfold clampNat; omega
  have excB : clampNat 0 65535 f.excB.toNat = f.excB.toNat := by unfold clampNat; omega
  unfold RopeOrder.ofFields RopeOrder.pairs
  rw [excA, excB]
  simp [clampNat]

/-- Both passes over the fields of a NET order (R5, R6). -/
theorem net_passes (f : NetFields) : (NetOrder.ofFields f).pairs =
    { hooks := max 8 (min 64 f.hooks.toNat), rowTarget := max 1 (min 60000 f.rowTarget.toNat)
      overrunRows := min 500 f.overrunRows.toNat, rowMass := max 1 (min 5000000 f.rowMass.toNat)
      knotsA := f.knotsA.toNat, knotsB := max f.knotsA.toNat f.knotsB.toNat, holesB := f.holesB.toNat
      tolA := min 500 f.tolA.toNat, tolB := max (min 500 f.tolA.toNat) (min 500 f.tolB.toNat)
      deadRows := (f.deadRows.map fun d => max 2 (min 15 d.toNat)).getD 4 } := by
  have knotsA : clampNat 0 65535 f.knotsA.toNat = f.knotsA.toNat := by unfold clampNat; omega
  have knotsB : clampNat 0 65535 f.knotsB.toNat = f.knotsB.toNat := by unfold clampNat; omega
  have holesB : clampNat 0 65535 f.holesB.toNat = f.holesB.toNat := by unfold clampNat; omega
  unfold NetOrder.ofFields NetOrder.pairs
  rw [knotsA, knotsB, holesB]
  cases f.deadRows <;> simp [clampNat]

theorem net_given (f : NetFields) : NetOrder.given f = ⟨f.hooks.toNat, f.rowTarget.toNat, f.overrunRows.toNat,
    f.rowMass.toNat, f.knotsA.toNat, f.knotsB.toNat, f.holesB.toNat, f.tolA.toNat, f.tolB.toNat,
    (f.deadRows.map BitVec.toNat).getD 4⟩ := by
  unfold NetOrder.given
  cases f.deadRows <;> rfl

theorem clampedStatus_ne {α : Type} [DecidableEq α] (a b : α) :
    (if decide (a ≠ b) = true then Status.clamped else .ok) = if a = b then .ok else .clamped := by
  by_cases h : a = b <;> simp [h]

/-- LOAD ORDER of a ROPE order into a slot that is not in use. -/
theorem loadOrder_rope {s : State} {slot : Fin 16} (unused : s.slotInUse slot = false) (v : Word32) (f : RopeFields) :
    s.loadOrder (BitVec.ofNat 8 slot.1) (.rope v f) = ⟨s.setOrder slot (some ⟨v, .rope (RopeOrder.ofFields f).pairs⟩),
      if (RopeOrder.ofFields f).pairs = RopeOrder.given f then .ok else .clamped, []⟩ := by
  rw [loadOrder_slot, orderOf]
  dsimp only
  rw [unused, if_neg Bool.false_ne_true, clampedStatus_ne]

theorem loadOrder_net {s : State} {slot : Fin 16} (unused : s.slotInUse slot = false) (v : Word32) (f : NetFields) :
    s.loadOrder (BitVec.ofNat 8 slot.1) (.net v f) = ⟨s.setOrder slot (some ⟨v, .net (NetOrder.ofFields f).pairs⟩),
      if (NetOrder.ofFields f).pairs = NetOrder.given f then .ok else .clamped, []⟩ := by
  rw [loadOrder_slot, orderOf]
  dsimp only
  rw [unused, if_neg Bool.false_ne_true, clampedStatus_ne]

/-- Settles O11. -/
theorem ordersAreLoadedAndRetired : Obligations.OrdersAreLoadedAndRetired := by
  intro s dt tag slot released taken
  refine ⟨fun b fields big => ⟨?load, ?retire⟩, fun kind rest => ?unknown, fun v f used => ?rope, fun v f used => ?net,
    fun unused v f => ?loadRope, fun unused v f => ?loadNet, fun empty => ?noOrder, fun loaded named => ?named,
    fun loaded unbound unnamed => ?retired⟩
  case load => exact hostRequest_answered released taken (loadOrder_of_slot_none (slotOf_eq_none big))
  case retire =>
    refine hostRequest_answered released taken ?_
    rw [State.retireOrder, slotOf_eq_none big]
    rfl
  case unknown => exact hostRequest_answered released taken (loadOrder_slot _ slot _)
  case rope => exact hostRequest_answered released taken ((loadOrder_slot _ slot _).trans (if_pos used))
  case net => exact hostRequest_answered released taken ((loadOrder_slot _ slot _).trans (if_pos used))
  case loadRope =>
    intro o
    have load := loadOrder_rope (s := s.elapse dt) unused v f
    rw [rope_passes] at load
    exact hostRequest_effect released taken load
  case loadNet =>
    intro o
    have load := loadOrder_net (s := s.elapse dt) unused v f
    rw [net_passes, net_given] at load
    exact hostRequest_effect released taken load
  case noOrder => exact hostRequest_answered released taken ((retireOrder_slot _ slot).trans (if_pos empty))
  case named =>
    exact hostRequest_answered released taken
      ((retireOrder_slot _ slot).trans ((if_neg loaded).trans (if_pos ((slotInUse_iff s slot).mpr named))))
  case retired =>
    have unused : ¬ s.slotInUse slot = true := fun h =>
      ((slotInUse_iff s slot).mp h).elim (fun ⟨n, e⟩ => unbound n e) fun ⟨i, p, hp, e⟩ => unnamed i p hp e
    exact hostRequest_effect released taken ((retireOrder_slot _ slot).trans ((if_neg loaded).trans (if_neg unused)))

end Sys2Proof.Machine
end

