-- ==== Sys2Proof/Proofs/Parameters.lean ====
section
/-!
PROOF. The parameters: what their identifiers name, how each is stored and reads back, and their ranges (11-1.1, R23,
R24, R50, R67, R88, R125, R128, R147, R148, R157, R159, R173).
-/
namespace Sys2Proof.Machine

/-! ### Codes (11-1.1) -/

theorem edgeCode_of_edgeOfCode {v : Nat} {c : Edge} (h : edgeOfCode v = some c) : edgeCode c = v := by
  unfold edgeOfCode at h
  split at h <;> cases h <;> rfl

theorem senseCode_of_ofCode {v : Nat} {c : Sense} (h : Sense.ofCode v = some c) : c.code = v := by
  unfold Sense.ofCode at h
  split at h <;> cases h <;> rfl

theorem knotLevelCode_of_ofCode {v : Nat} {c : KnotLevel} (h : KnotLevel.ofCode v = some c) : c.code = v := by
  unfold KnotLevel.ofCode at h
  split at h <;> cases h <;> rfl

theorem laneCode_of_laneOfCode {v : Nat} {c : Lane} (h : laneOfCode v = some c) : laneCode c = v := by
  unfold laneOfCode at h
  split at h <;> cases h <;> rfl

theorem sourceCode_of_ofCode {v : Nat} {c : Source} (h : Source.ofCode v = some c) : c.code = v := by
  unfold Source.ofCode at h
  split at h <;> cases h <;> rfl

theorem reactionCode_of_ofCode {v : Nat} {c : Reaction} (h : Reaction.ofCode v = some c) : c.code = v := by
  unfold Reaction.ofCode at h
  split at h <;> cases h <;> rfl

theorem classCode_of_ofCode {v : Nat} {c : NoticeClass} (h : NoticeClass.ofCode v = some c) : c.code = v := by
  unfold NoticeClass.ofCode at h
  split at h <;> cases h <;> rfl

theorem permitModeCode_of_ofCode {v : Nat} {c : PermitMode} (h : PermitMode.ofCode v = some c) : c.code = v := by
  unfold PermitMode.ofCode at h
  split at h <;> cases h <;> rfl

theorem reactionCode_inj : ∀ a b : Reaction, a.code = b.code ↔ a = b := by
  intro a b
  cases a <;> cases b <;> decide

theorem faultIndex_inj {a b : FaultKind} (h : a.index = b.index) : a = b := by
  have back (k : FaultKind) : FaultKind.all[k.index.1]? = some k := by cases k <;> rfl
  have found := back a
  rw [h] at found
  exact Option.some.inj (found.symm.trans (back b))

/-- A table of two codes has no value for the others. -/
theorem twoCodes_none {α : Type} {named : Nat → Option α} (zero : ∃ c, named 0 = some c) (one : ∃ c, named 1 = some c)
    (rest : ∀ v, named (v + 2) = none) (v : Nat) : named v = none ↔ 2 ≤ v := by
  match v with
  | 0 => obtain ⟨c, e⟩ := zero; simp [e]
  | 1 => obtain ⟨c, e⟩ := one; simp [e]
  | v + 2 => simp [rest]

/-! ### One store (R173) -/

/-- A store of a parameter that reads back as stored, is CLAMPED where another value was stored, and leaves the other
parameters of its record alone. -/
structure Stored.Stands {ι α : Type} (r : Stored α) (read : ι → α → Nat) (p : ι) (v : Nat) (x : α) : Prop where
  reads : read p r.value = r.number
  others : ∀ q, q ≠ p → read q r.value = read q x
  clamped : r.clamped = true ↔ r.number ≠ v

theorem stands_storeNumber {ι α : Type} {read : ι → α → Nat} {p : ι} {lo hi v : Nat} {set : Nat → α} {x : α}
    {r : Stored α} (h : storeNumber lo hi v set = some r) (reads : ∀ w, read p (set w) = w)
    (others : ∀ w q, q ≠ p → read q (set w) = read q x) : r.Stands read p v x := by
  obtain rfl : _ = r := Option.some.inj h
  exact ⟨reads _, others _, decide_eq_true_iff⟩

theorem stands_storeNamed {ι α β : Type} {read : ι → α → Nat} {p : ι} {v : Nat} {named : Option β} {set : β → α} {x : α}
    {r : Stored α} (h : storeNamed named v set = some r) (reads : ∀ c, named = some c → read p (set c) = v)
    (others : ∀ c q, q ≠ p → read q (set c) = read q x) : r.Stands read p v x := by
  obtain ⟨c, e, rfl⟩ := Option.map_eq_some_iff.mp h
  exact ⟨reads c e, others c, by simp⟩

theorem storeNamed_eq_none {α β : Type} {v : Nat} {named : Option β} {set : β → α} :
    storeNamed named v set = none ↔ named = none := Option.map_eq_none_iff

/-- The number stored of a named value is its code. -/
theorem storeNamed_number {α β : Type} {v : Nat} {named : Option β} {set : β → α} {r : Stored α}
    (h : storeNamed named v set = some r) : r.number = v := by
  obtain ⟨c, -, rfl⟩ := Option.map_eq_some_iff.mp h
  rfl

/-! ### The stores of a lay station (R23, R24) -/

theorem stands_storeSource {v : Nat} {x : LayParams} {r : Stored LayParams} (h : storeSource v x = some r) :
    r.Stands LayParam.read .source v x := by
  obtain ⟨c, e, rfl⟩ := Option.map_eq_some_iff.mp h
  have code := sourceCode_of_ofCode e
  split
  case isTrue metering =>
    rw [metering.1] at code
    refine ⟨rfl, fun q ne => by cases q <;> trivial, ?_⟩
    simp [← code, Source.code]
  case isFalse => exact ⟨code, fun q ne => by cases q <;> trivial, by simp⟩

/-- METER without a metering scale is CAPSTAN (R24). -/
theorem storeSource_unfitted {x : LayParams} (h : x.meterScale = 0) :
    storeSource 1 x = some ⟨{ x with source := .capstan }, 0, true⟩ :=
  congrArg some (if_pos ⟨rfl, h⟩)

theorem storeSource_fitted {x : LayParams} (h : x.meterScale ≠ 0) :
    storeSource 1 x = some ⟨{ x with source := .meter }, 1, false⟩ :=
  congrArg some (if_neg fun both => h both.2)

theorem storeMeterScale_of_ne_zero {v : Nat} (h : v ≠ 0) (x : LayParams) : storeMeterScale v x =
    ⟨{ x with meterScale := clampNat 50 1000000 v }, clampNat 50 1000000 v, decide (clampNat 50 1000000 v ≠ v)⟩ := by
  have scale : clampNat 50 1000000 v ≠ 0 := by unfold clampNat; omega
  unfold storeMeterScale
  simp [h, scale]

/-- R24: a metering scale of 0 returns the source to CAPSTAN, which is CLAMPED where it was METER. -/
theorem storeMeterScale_zero (x : LayParams) : storeMeterScale 0 x =
    ⟨{ x with meterScale := 0, source := .capstan }, 0, decide (x.source = .meter)⟩ := by
  obtain ⟨⟩ | ⟨⟩ : x.source = .capstan ∨ x.source = .meter := by cases x.source <;> simp
  all_goals simp_all [storeMeterScale]

theorem stands_layStore {p : LayParam} {v : Nat} {x : LayParams} {r : Stored LayParams} (h : p.store v x = some r)
    (plain : ¬ (p = .meterScale ∧ v = 0)) : r.Stands LayParam.read p v x := by
  cases p <;> dsimp only [LayParam.store] at h
  case source => exact stands_storeSource h
  case meterScale =>
    have nonzero : v ≠ 0 := fun e => plain ⟨rfl, e⟩
    obtain rfl := Option.some.inj (h.symm.trans (congrArg some (storeMeterScale_of_ne_zero nonzero x)))
    exact ⟨rfl, fun q ne => by cases q <;> trivial, decide_eq_true_iff⟩
  case markEdge | strandEdge =>
    exact stands_storeNamed h (fun c e => edgeCode_of_edgeOfCode e)
      fun c q ne => by cases q <;> trivial
  case capSense | meterSense =>
    exact stands_storeNamed h (fun c e => senseCode_of_ofCode e)
      fun c q ne => by cases q <;> trivial
  all_goals
    exact stands_storeNumber h (fun w => rfl) fun w q ne => by cases q <;> trivial

theorem stands_loomStore {p : LoomParam} {v : Nat} {x : LoomParams} {r : Stored LoomParams}
    (h : p.store v x = some r) : r.Stands LoomParam.read p v x := by
  cases p <;> dsimp only [LoomParam.store] at h
  case rowEdge =>
    exact stands_storeNamed h (fun c e => edgeCode_of_edgeOfCode e)
      fun c q ne => by cases q <;> trivial
  case knotLevel =>
    exact stands_storeNamed h (fun c e => knotLevelCode_of_ofCode e)
      fun c q ne => by cases q <;> trivial
  case rowTime =>
    exact stands_storeNumber h (fun w => rfl) fun w q ne => by cases q <;> trivial

theorem stands_stationStore {p : StationParam} {v : Nat} {x : StationParams} {r : Stored StationParams}
    (h : p.store v x = some r) : r.Stands StationParam.read p v x := by
  cases p <;> dsimp only [StationParam.store] at h
  case lane =>
    exact stands_storeNamed h (fun c e => laneCode_of_laneOfCode e)
      fun c q ne => by cases q <;> trivial
  case cutEdge =>
    exact stands_storeNamed h (fun c e => edgeCode_of_edgeOfCode e)
      fun c q ne => by cases q <;> trivial

theorem stands_partStore {p : PartParam} {v : Nat} {x : PartParams} {r : Stored PartParams}
    (h : p.store v x = some r) : r.Stands PartParam.read p v x := by
  cases p <;> dsimp only [PartParam.store] at h
  case permitMode =>
    exact stands_storeNamed h (fun c e => permitModeCode_of_ofCode e)
      fun c q ne => by cases q <;> trivial
  case linkTime =>
    split at h
    case isTrue zero =>
      obtain rfl := Option.some.inj h
      exact ⟨rfl, fun q ne => by cases q <;> trivial, by simp [zero]⟩
    case isFalse =>
      exact stands_storeNumber h (fun w => rfl) fun w q ne => by cases q <;> trivial
  all_goals
    exact stands_storeNumber h (fun w => rfl) fun w q ne => by cases q <;> trivial

/-! ### The stores of the whole (R173) -/

theorem vector_set_ne {α : Type} {k : Nat} {v : Vector α k} {i j : Fin k} {a : α} (ne : j ≠ i) :
    (v.set i.1 a)[j] = v[j] :=
  Vector.getElem_set_ne _ _ fun e => ne (Fin.ext e.symm)

theorem layStore_some {p : LayParam} {v : Nat} {x : Params} {n : Fin 8} {r : Stored LayParams}
    (h : p.store v x.lay[n] = some r) :
    (ParamRef.lay n p).store v x = some ⟨{ x with lay := x.lay.set n.1 r.value }, r.number, r.clamped⟩ := by
  rw [ParamRef.store, h]
  rfl

/-- A store that stands of a lay station's record stands of the whole. -/
theorem Stored.Stands.lay {p : LayParam} {v : Nat} {x : Params} {n : Fin 8} {r : Stored LayParams}
    (h : r.Stands LayParam.read p v x.lay[n]) :
    (⟨{ x with lay := x.lay.set n.1 r.value }, r.number, r.clamped⟩ : Stored Params).Stands ParamRef.read (.lay n p)
      v x := by
  refine ⟨?_, fun q ne => ?_, h.clamped⟩
  · show p.read (x.lay.set n.1 r.value)[n.1] = _
    rw [Vector.getElem_set_self]
    exact h.reads
  · cases q with
    | lay m q =>
      show q.read (x.lay.set n.1 r.value)[m] = q.read x.lay[m]
      by_cases e : m = n
      · subst e
        have read := h.others q fun e => ne (e ▸ rfl)
        rw [← read]
        exact congrArg q.read (Vector.getElem_set_self _)
      · rw [vector_set_ne e]
    | _ => rfl

theorem Stored.Stands.loom {p : LoomParam} {v : Nat} {x : Params} {r : Stored LoomParams}
    (h : r.Stands LoomParam.read p v x.loom) :
    (⟨{ x with loom := r.value }, r.number, r.clamped⟩ : Stored Params).Stands ParamRef.read (.loom p) v x := by
  refine ⟨h.reads, fun q ne => ?_, h.clamped⟩
  cases q with
  | loom q => exact h.others q fun e => ne (e ▸ rfl)
  | _ => rfl

theorem Stored.Stands.station {p : StationParam} {v : Nat} {x : Params} {n : Fin 9} {r : Stored StationParams}
    (h : r.Stands StationParam.read p v x.station[n]) :
    (⟨{ x with station := x.station.set n.1 r.value }, r.number, r.clamped⟩ : Stored Params).Stands ParamRef.read
      (.station n p) v x := by
  refine ⟨?_, fun q ne => ?_, h.clamped⟩
  · show p.read (x.station.set n.1 r.value)[n.1] = _
    rw [Vector.getElem_set_self]
    exact h.reads
  · cases q with
    | station m q =>
      show q.read (x.station.set n.1 r.value)[m] = q.read x.station[m]
      by_cases e : m = n
      · subst e
        have read := h.others q fun e => ne (e ▸ rfl)
        rw [← read]
        exact congrArg q.read (Vector.getElem_set_self _)
      · rw [vector_set_ne e]
    | _ => rfl

/-- A store into the part's own parameters leaves the reactions and the classes alone. -/
theorem partStore_tables {p : PartParam} {v : Nat} {x : PartParams} {r : Stored PartParams} (h : p.store v x = some r) :
    r.value.reactions = x.reactions ∧ r.value.classes = x.classes := by
  cases p
  case permitMode =>
    obtain ⟨c, -, rfl⟩ := Option.map_eq_some_iff.mp h
    exact ⟨rfl, rfl⟩
  case linkTime =>
    unfold PartParam.store at h
    dsimp only at h
    split at h <;> obtain rfl := Option.some.inj h <;> exact ⟨rfl, rfl⟩
  all_goals
    obtain rfl := Option.some.inj h
    exact ⟨rfl, rfl⟩

theorem Stored.Stands.part {p : PartParam} {v : Nat} {x : Params} {r : Stored PartParams}
    (h : r.Stands PartParam.read p v x.part) (reactions : r.value.reactions = x.part.reactions)
    (classes : r.value.classes = x.part.classes) :
    (⟨{ x with part := r.value }, r.number, r.clamped⟩ : Stored Params).Stands ParamRef.read (.part p) v x := by
  refine ⟨h.reads, fun q ne => ?_, h.clamped⟩
  match q, ne with
  | .part q, ne => exact h.others q fun e => ne (e ▸ rfl)
  | .reaction k, _ =>
    show (r.value.reactions[k.index]).code = _
    rw [reactions]
    rfl
  | ParamRef.class k, _ =>
    show (r.value.classes[k]).code = _
    rw [classes]
    rfl
  | .lay _ _, _ | .loom _, _ | .station _ _, _ => rfl

theorem stands_reactionStore {k : FaultKind} {v : Nat} {x : Params} {r : Stored Params}
    (h : (ParamRef.reaction k).store v x = some r) : r.Stands ParamRef.read (.reaction k) v x := by
  obtain ⟨given, e, rfl⟩ := Option.map_eq_some_iff.mp h
  refine ⟨?_, fun q ne => ?_, ?_⟩
  · exact congrArg Reaction.code (Vector.getElem_set_self _)
  · cases q with
    | reaction j =>
      exact congrArg Reaction.code (vector_set_ne fun same => ne (congrArg ParamRef.reaction (faultIndex_inj same)))
    | part q => cases q <;> rfl
    | _ => rfl
  · dsimp only
    rw [decide_eq_true_iff, ← reactionCode_of_ofCode e, ne_eq, ne_eq, reactionCode_inj]

theorem stands_classStore {k : Fin 25} {v : Nat} {x : Params} {r : Stored Params}
    (h : (ParamRef.class k).store v x = some r) : r.Stands ParamRef.read (.class k) v x := by
  refine stands_storeNamed h (fun c e => ?_) fun c q ne => ?_
  · exact (congrArg NoticeClass.code (Vector.getElem_set_self _)).trans (classCode_of_ofCode e)
  · cases q with
    | part q => cases q <;> rfl
    | lay _ _ | loom _ | station _ _ | reaction _ => rfl
    | _ => exact congrArg NoticeClass.code (vector_set_ne fun same => ne (congrArg ParamRef.class same))

/-- Every store but that of a metering scale of 0 stands (R173). -/
theorem stands_store {ref : ParamRef} {v : Nat} {x : Params} {r : Stored Params} (h : ref.store v x = some r)
    (plain : ∀ n, ¬ (ref = .lay n .meterScale ∧ v = 0)) : r.Stands ParamRef.read ref v x := by
  cases ref with
  | lay n p =>
    obtain ⟨w, hw, rfl⟩ := Option.map_eq_some_iff.mp h
    exact (stands_layStore hw fun ⟨scale, zero⟩ => plain n ⟨by rw [scale], zero⟩).lay
  | loom p =>
    obtain ⟨w, hw, rfl⟩ := Option.map_eq_some_iff.mp h
    exact (stands_loomStore hw).loom
  | station n p =>
    obtain ⟨w, hw, rfl⟩ := Option.map_eq_some_iff.mp h
    exact (stands_stationStore hw).station
  | part p =>
    obtain ⟨w, hw, rfl⟩ := Option.map_eq_some_iff.mp h
    exact (stands_partStore hw).part (partStore_tables hw).1 (partStore_tables hw).2
  | reaction k => exact stands_reactionStore h
  | _ => exact stands_classStore h

/-- What a metering scale of 0 stores: the scale, and CAPSTAN (R24). -/
theorem meterScaleStore_zero (n : Fin 8) (x : Params) : (ParamRef.lay n .meterScale).store 0 x =
    some ⟨{ x with lay := x.lay.set n.1 { x.lay[n] with meterScale := 0, source := .capstan } }, 0,
      decide (x.lay[n].source = .meter)⟩ := by
  show some _ = _
  rw [storeMeterScale_zero]

theorem meterScaleStore_zero_others (n : Fin 8) (x : Params) (q : ParamRef) (scale : q ≠ .lay n .meterScale)
    (source : q ≠ .lay n .source) :
    q.read { x with lay := x.lay.set n.1 { x.lay[n] with meterScale := 0, source := .capstan } } = q.read x := by
  cases q with
  | lay m q =>
    show q.read (x.lay.set n.1 _)[m] = q.read x.lay[m]
    by_cases e : m = n
    · subst e
      refine (congrArg q.read (Vector.getElem_set_self _)).trans ?_
      cases q
      case meterScale => exact absurd rfl scale
      case source => exact absurd rfl source
      all_goals rfl
    · rw [vector_set_ne e]
  | _ => rfl

theorem meterScaleStore_zero_reads (n : Fin 8) (x : Params) : (ParamRef.lay n .meterScale).read
    { x with lay := x.lay.set n.1 { x.lay[n] with meterScale := 0, source := .capstan } } = 0 :=
  congrArg LayParam.meterScale.read (Vector.getElem_set_self _)

/-! ### What the identifiers name (11-1.1) -/

theorem paramRef_lay {ident : Byte} {p : LayParam} (h : layParamOf ident.toNat = some p) (n : Fin 8) (kind : Byte) :
    paramRef ident (BitVec.ofNat 8 n.1) kind = some (.lay n p) := by
  have number : (BitVec.ofNat 8 n.1).toNat = n.1 := Nat.mod_eq_of_lt (by omega)
  unfold paramRef
  simp only [h, number, n.2, dif_pos]

theorem paramRef_lay_none {ident : Byte} {p : LayParam} (h : layParamOf ident.toNat = some p) {station : Byte}
    (big : 8 ≤ station.toNat) (kind : Byte) : paramRef ident station kind = none := by
  unfold paramRef
  simp only [h]
  exact dif_neg (by omega)

theorem paramRef_loom {ident : Byte} {p : LoomParam} (other : layParamOf ident.toNat = none)
    (h : loomParamOf ident.toNat = some p) (station kind : Byte) :
    paramRef ident station kind = if station.toNat = 8 then some (.loom p) else none := by
  unfold paramRef
  simp only [other, h]

theorem paramRef_station {ident : Byte} {p : StationParam} (notLay : layParamOf ident.toNat = none)
    (notLoom : loomParamOf ident.toNat = none) (h : stationParamOf ident.toNat = some p) (station kind : Byte) :
    paramRef ident station kind = (stationOf station).map (.station · p) := by
  unfold paramRef
  simp only [notLay, notLoom, h]

theorem layParamOf_isSome : ∀ ident : Byte, 1 ≤ ident.toNat → ident.toNat ≤ 0x11 →
    (layParamOf ident.toNat).isSome = true := by decide +kernel

theorem loomParamOf_isSome : ∀ ident : Byte, 0x12 ≤ ident.toNat → ident.toNat ≤ 0x14 →
    layParamOf ident.toNat = none ∧ (loomParamOf ident.toNat).isSome = true := by decide +kernel

theorem stationParamOf_isSome : ∀ ident : Byte, 0x15 ≤ ident.toNat → ident.toNat ≤ 0x16 →
    layParamOf ident.toNat = none ∧ loomParamOf ident.toNat = none ∧ (stationParamOf ident.toNat).isSome = true := by
  decide +kernel

theorem paramRef_beyond : ∀ ident : Byte, ident.toNat = 0 ∨ 0x24 < ident.toNat → ∀ station kind,
    paramRef ident station kind = none := by
  have tables : ∀ ident : Byte, ident.toNat = 0 ∨ 0x24 < ident.toNat → layParamOf ident.toNat = none ∧
      loomParamOf ident.toNat = none ∧ stationParamOf ident.toNat = none ∧ partParamOf ident.toNat = none ∧
      ident.toNat ≠ reactionIdent ∧ ident.toNat ≠ classIdent := by decide +kernel
  intro ident beyond station kind
  obtain ⟨lay, loom, station, part, reaction, classes⟩ := tables ident beyond
  unfold paramRef
  simp only [lay, loom, station, part, if_neg reaction, if_neg classes]

theorem paramRef_reaction (station kind : Byte) : paramRef 0x21 station kind =
    if kind.toNat = 0 then none else FaultKind.all[kind.toNat - 1]?.map .reaction := rfl

theorem paramRef_class (station kind : Byte) : paramRef 0x24 station kind =
    if h : 1 ≤ kind.toNat ∧ kind.toNat ≤ 25 then some (.class ⟨kind.toNat - 1, by omega⟩) else none := rfl

/-! ### Reactions (R147, R148) -/

theorem floorReaction_code (k : FaultKind) (given : Reaction) :
    (floorReaction k given).code = if k = .peerTrip then 2 else max k.floor.code given.code := by
  unfold floorReaction
  by_cases peer : k = .peerTrip
  · rw [if_pos peer, if_pos peer]
    rfl
  · rw [if_neg peer, if_neg peer]
    split <;> omega

theorem reactionStore_eq_none (k : FaultKind) (v : Nat) (x : Params) :
    (ParamRef.reaction k).store v x = none ↔ 4 ≤ v := by
  show Option.map _ (Reaction.ofCode v) = none ↔ _
  rw [Option.map_eq_none_iff]
  match v with
  | 0 | 1 | 2 | 3 => simp [Reaction.ofCode]
  | v + 4 => simp [Reaction.ofCode]

theorem reactionStore_number (k : FaultKind) {v : Nat} (small : v < 4) (x : Params) :
    ∃ r, (ParamRef.reaction k).store v x = some r ∧
      r.number = if k = .peerTrip then 2 else max k.floor.code v := by
  obtain ⟨given, e⟩ : ∃ given, Reaction.ofCode v = some given := by
    match v with
    | 0 | 1 | 2 | 3 => exact ⟨_, rfl⟩
  refine ⟨_, congrArg (Option.map _) e, ?_⟩
  rw [← reactionCode_of_ofCode e]
  exact floorReaction_code k given

/-- A parameter with two named values refuses every other, and stores those by their code (11-1.1). -/
theorem namedStore {v : Nat} {x : Params} {ref : ParamRef}
    (named : (∃ n p, ref = .lay n p ∧ p ∈ [LayParam.markEdge, .capSense, .meterSense, .strandEdge]) ∨
      (∃ p, ref = .loom p ∧ p ∈ [LoomParam.rowEdge, .knotLevel]) ∨ (∃ n p, ref = .station n p) ∨
      ref = .part .permitMode ∨ ∃ k, ref = .class k) :
    (ref.store v x = none ↔ 2 ≤ v) ∧ ∀ r, ref.store v x = some r → r.number = v := by
  have edge := twoCodes_none (named := edgeOfCode) ⟨_, rfl⟩ ⟨_, rfl⟩ (fun _ => rfl) v
  have sense := twoCodes_none (named := Sense.ofCode) ⟨_, rfl⟩ ⟨_, rfl⟩ (fun _ => rfl) v
  have level := twoCodes_none (named := KnotLevel.ofCode) ⟨_, rfl⟩ ⟨_, rfl⟩ (fun _ => rfl) v
  have lane := twoCodes_none (named := laneOfCode) ⟨_, rfl⟩ ⟨_, rfl⟩ (fun _ => rfl) v
  have permit := twoCodes_none (named := PermitMode.ofCode) ⟨_, rfl⟩ ⟨_, rfl⟩ (fun _ => rfl) v
  have classes := twoCodes_none (named := NoticeClass.ofCode) ⟨_, rfl⟩ ⟨_, rfl⟩ (fun _ => rfl) v
  /- A store of one record, lifted to the whole, refuses and numbers as the store of the record does. -/
  have lifted {α β : Type} {codes : Option β} {set : β → α} {lift : Stored α → Stored Params}
      (keeps : ∀ w, (lift w).number = w.number) (two : codes = none ↔ 2 ≤ v) :
      ((storeNamed codes v set).map lift = none ↔ 2 ≤ v) ∧
        ∀ r, (storeNamed codes v set).map lift = some r → r.number = v := by
    refine ⟨Option.map_eq_none_iff.trans (storeNamed_eq_none.trans two), fun r h => ?_⟩
    obtain ⟨w, hw, rfl⟩ := Option.map_eq_some_iff.mp h
    exact (keeps w).trans (storeNamed_number hw)
  obtain ⟨n, p, rfl, mem⟩ | ⟨p, rfl, mem⟩ | ⟨n, p, rfl⟩ | rfl | ⟨k, rfl⟩ := named
  · simp only [List.mem_cons, List.not_mem_nil, or_false] at mem
    obtain rfl | rfl | rfl | rfl := mem
    · exact lifted (fun _ => rfl) edge
    · exact lifted (fun _ => rfl) sense
    · exact lifted (fun _ => rfl) sense
    · exact lifted (fun _ => rfl) edge
  · simp only [List.mem_cons, List.not_mem_nil, or_false] at mem
    obtain rfl | rfl := mem
    · exact lifted (fun _ => rfl) edge
    · exact lifted (fun _ => rfl) level
  · cases p
    · exact lifted (fun _ => rfl) lane
    · exact lifted (fun _ => rfl) edge
  · exact lifted (fun _ => rfl) permit
  · exact ⟨storeNamed_eq_none.trans classes, fun r h => storeNamed_number h⟩

/-! ### Requests (R173) -/

theorem setParameter_of_operate {s : State} (h : s.port.mode = .operate) (ident station kind : Byte) (value : Word32) :
    s.setParameter ident station kind value = s.refuse .wrongMode := by
  rw [State.setParameter, h]

theorem setParameter_of_none {s : State} (h : s.port.mode = .config) {ident station kind : Byte} {value : Word32}
    (none : ((paramRef ident station kind).bind fun ref => ref.store value.toNat s.params) = none) :
    s.setParameter ident station kind value = s.refuse .badRequest := by
  unfold State.setParameter
  rw [h, none]

theorem setParameter_of_some {s : State} (h : s.port.mode = .config) {ident station kind : Byte} {value : Word32}
    {r : Stored Params} (stored : ((paramRef ident station kind).bind fun ref => ref.store value.toNat s.params) = some r) :
    s.setParameter ident station kind value =
      ⟨{ s with params := r.value }, if r.clamped then .clamped else .ok, num4 r.number⟩ := by
  unfold State.setParameter
  rw [h, stored]

/-- What SET PARAMETER and GET PARAMETER answer, and what the first stores (R173). -/
theorem parameterRequests (s : State) (dt : Nat) (tag ident station kind : Byte) (value : Word32)
    (released : s.pins.reset = false) (taken : s.port.span ≠ .dropped) :
    (s.port.mode = .operate → exec (.setParameter dt tag ident station kind value) s =
      .next (s.answeredOnly dt tag .wrongMode [])) ∧
    (paramRef ident station kind = none →
      exec (.getParameter dt tag ident station kind) s = .next (s.answeredOnly dt tag .badRequest []) ∧
      (s.port.mode = .config → exec (.setParameter dt tag ident station kind value) s =
        .next (s.answeredOnly dt tag .badRequest []))) ∧
    ∀ ref, paramRef ident station kind = some ref →
      exec (.getParameter dt tag ident station kind) s =
        .next (s.answeredOnly dt tag .ok (bytes32 (BitVec.ofNat 32 (ref.read s.params)))) ∧
      (ref.store value.toNat s.params = none → s.port.mode = .config →
        exec (.setParameter dt tag ident station kind value) s = .next (s.answeredOnly dt tag .badRequest [])) ∧
      ∀ r, ref.store value.toNat s.params = some r → s.port.mode = .config →
        exec (.setParameter dt tag ident station kind value) s =
          .next (({ s.elapse dt with params := r.value } : State).responded tag s.unread
            (if r.clamped then .clamped else .ok) (bytes32 (BitVec.ofNat 32 r.number))) := by
  refine ⟨fun operate => ?wrong, fun unnamed => ⟨?unread, fun config => ?unnamed⟩,
    fun ref named => ⟨?read, fun refused config => ?refused, fun r stored config => ?stored⟩⟩
  case wrong => exact hostRequest_answered released taken (setParameter_of_operate (s := s.elapse dt) operate ..)
  case unread =>
    refine hostRequest_answered released taken ?_
    rw [State.getParameter, unnamed]
    rfl
  case unnamed =>
    exact hostRequest_answered released taken (setParameter_of_none (s := s.elapse dt) config (by rw [unnamed]; rfl))
  case read =>
    refine hostRequest_answered released taken ?_
    rw [State.getParameter, named]
    rfl
  case refused =>
    exact hostRequest_answered released taken
      (setParameter_of_none (s := s.elapse dt) config (by rw [named]; exact refused))
  case stored =>
    exact hostRequest_effect released taken
      (setParameter_of_some (s := s.elapse dt) config (by rw [named]; exact stored))

/-- Settles O10. -/
theorem parametersReadBackAsStored : Obligations.ParametersReadBackAsStored := by
  refine ⟨parameterRequests, fun ref v x r stored => ?stores, fun station kind => ⟨fun n e mem => ?lay, fun e mem => ?loom,
    fun n => ⟨?lane, ?cutEdge⟩, fun e mem => ?part, fun k => ?reaction, fun k => ?kind, fun ident =>
      ⟨fun beyond => paramRef_beyond ident beyond station kind, fun lo hi big => ?noLay, fun lo hi other => ?noLoom,
        fun lo hi big => ?noStation, fun e big => ?noReaction, fun e big => ?noClass⟩⟩,
    fun v x n e mem => ?layRange, fun v x n => ?scale, fun v x n => ⟨?sourceNone, fun small => ?source⟩,
    fun v x => ⟨_, rfl, rfl⟩, fun v x e mem => ?partRange, fun v x => ?link, fun v x ref named => namedStore named,
    fun v x e mem => ?floors⟩
  case stores =>
    by_cases zero : ∃ n, ref = .lay n .meterScale ∧ v = 0
    · obtain ⟨n, rfl, rfl⟩ := zero
      obtain rfl := Option.some.inj ((meterScaleStore_zero n x).symm.trans stored)
      refine ⟨meterScaleStore_zero_reads n x, fun other ne also => ?_, ?_⟩
      · exact meterScaleStore_zero_others n x other ne fun e => also n ⟨rfl, rfl, e⟩
      · rw [decide_eq_true_iff]
        refine ⟨fun metering => .inr ⟨n, rfl, rfl, metering⟩, ?_⟩
        rintro (ne | ⟨m, e, -, metering⟩)
        · exact absurd rfl ne
        · cases e
          exact metering
    · have stands := stands_store stored fun n h => zero ⟨n, h⟩
      refine ⟨stands.reads, fun other ne _ => stands.others other ne, stands.clamped.trans ⟨.inl, ?_⟩⟩
      rintro (ne | ⟨n, e, h, -⟩)
      · exact ne
      · exact absurd ⟨n, e, h⟩ zero
  case lay =>
    have table : ∀ e ∈ ([(0x01, .marks), (0x02, .markEdge), (0x03, .source), (0x04, .capScale),
        (0x05, .meterScale), (0x06, .capSense), (0x07, .meterSense), (0x08, .drive), (0x09, .fMax), (0x0A, .fStart),
        (0x0B, .tau), (0x0C, .tMin), (0x0D, .tMax), (0x0E, .rMax), (0x0F, .slipSpan), (0x10, .slipLimit),
        (0x11, .strandEdge)] : List (Byte × LayParam)), layParamOf e.1.toNat = some e.2 := by decide
    exact paramRef_lay (table e mem) n kind
  case loom =>
    have table : ∀ e ∈ ([(0x12, .rowEdge), (0x13, .knotLevel), (0x14, .rowTime)] : List (Byte × LoomParam)),
        layParamOf e.1.toNat = none ∧ loomParamOf e.1.toNat = some e.2 := by decide
    exact paramRef_loom (table e mem).1 (table e mem).2 8 kind
  case lane => exact (paramRef_station rfl rfl rfl _ kind).trans (by rw [stationOf_ofNat]; rfl)
  case cutEdge => exact (paramRef_station rfl rfl rfl _ kind).trans (by rw [stationOf_ofNat]; rfl)
  case part =>
    simp only [List.mem_cons, List.not_mem_nil, or_false] at mem
    obtain rfl | rfl | rfl | rfl | rfl | rfl | rfl | rfl | rfl | rfl | rfl | rfl := mem <;> rfl
  case reaction =>
    rw [paramRef_reaction]
    cases k <;> rfl
  case kind =>
    rw [paramRef_class]
    revert k
    decide
  case noLay =>
    obtain ⟨p, named⟩ := Option.isSome_iff_exists.mp (layParamOf_isSome ident lo hi)
    exact paramRef_lay_none named big kind
  case noLoom =>
    obtain ⟨notLay, isLoom⟩ := loomParamOf_isSome ident lo hi
    obtain ⟨p, named⟩ := Option.isSome_iff_exists.mp isLoom
    exact (paramRef_loom notLay named station kind).trans (if_neg fun e => other (BitVec.eq_of_toNat_eq e))
  case noStation =>
    obtain ⟨notLay, notLoom, isStation⟩ := stationParamOf_isSome ident lo hi
    obtain ⟨p, named⟩ := Option.isSome_iff_exists.mp isStation
    have none : stationOf station = none := dif_neg (by omega)
    exact (paramRef_station notLay notLoom named station kind).trans (by rw [none]; rfl)
  case noReaction =>
    rw [e, paramRef_reaction]
    obtain rfl | big := big
    · rfl
    · rw [if_neg (by omega), List.getElem?_eq_none (by show 16 ≤ _; omega)]
      rfl
  case noClass =>
    rw [e, paramRef_class]
    refine dif_neg ?_
    obtain rfl | big := big
    · decide
    · omega
  case layRange =>
    simp only [List.mem_cons, List.not_mem_nil, or_false] at mem
    obtain rfl | rfl | rfl | rfl | rfl | rfl | rfl | rfl | rfl | rfl | rfl := mem <;> exact ⟨_, rfl, rfl⟩
  case scale =>
    by_cases zero : v = 0
    · subst zero
      exact ⟨_, meterScaleStore_zero n x, rfl, congrArg LayParams.source (Vector.getElem_set_self _)⟩
    · refine ⟨_, layStore_some (congrArg some (storeMeterScale_of_ne_zero zero x.lay[n])), ?_, ?_⟩
      · exact (if_neg zero).symm
      · rw [if_neg zero]
        exact (congrArg LayParams.source (Vector.getElem_set_self n.2)).trans rfl
  case sourceNone =>
    show Option.map _ (Option.map _ (Source.ofCode v)) = none ↔ _
    rw [Option.map_eq_none_iff, Option.map_eq_none_iff]
    exact twoCodes_none (named := Source.ofCode) ⟨_, rfl⟩ ⟨_, rfl⟩ (fun _ => rfl) v
  case source =>
    obtain rfl | rfl : v = 0 ∨ v = 1 := by omega
    · exact ⟨_, rfl, (ite_self _).symm⟩
    · by_cases fitted : x.lay[n].meterScale = 0
      · exact ⟨_, layStore_some (storeSource_unfitted fitted), (if_pos fitted).symm⟩
      · exact ⟨_, layStore_some (storeSource_fitted fitted), (if_neg fitted).symm⟩
  case partRange =>
    simp only [List.mem_cons, List.not_mem_nil, or_false] at mem
    obtain rfl | rfl | rfl | rfl | rfl | rfl | rfl | rfl | rfl | rfl := mem <;> exact ⟨_, rfl, rfl⟩
  case link =>
    by_cases zero : v = 0
    · exact ⟨_, congrArg (Option.map _) (if_pos zero), (if_pos zero).symm⟩
    · exact ⟨_, congrArg (Option.map _) (if_neg zero), (if_neg zero).symm⟩
  case floors =>
    have table : ∀ e ∈ ([(.flyerStall, 1), (.flyerOverspeed, 1), (.markLoss, 0), (.layDrift, 0), (.laySaturated, 0),
        (.reverseRun, 0), (.strandOut, 1), (.slip, 0), (.cutTimeout, 1), (.hole, 0), (.deadHook, 1), (.mendOverflow, 1),
        (.senseMissing, 0), (.rowStall, 1), (.linkLost, 1), (.peerTrip, 2)] : List (FaultKind × Nat)),
        e.1.floor.code = e.2 := by decide
    refine ⟨reactionStore_eq_none e.1 v x, fun small => ?_⟩
    rw [← table e mem]
    exact reactionStore_number e.1 small x

end Sys2Proof.Machine
end

