-- ==== Sys2Proof/Proofs/StationRequests.lean ====
section
/-!
PROOF. BIND, UNBIND and CLEAR FAULT with the refusals of the station requests, and the splice entries of a START (R9,
R12 to R14, R64, R155).
-/
namespace Sys2Proof.Machine

/-- A part that stands steady differs in what the commands write, and in nothing else. -/
theorem Steady.frame {s t : State} (h : Steady s t) : t = { s with
    stations := t.stations, lays := t.lays, inspector := t.inspector, arbiter := t.arbiter, table := t.table
    pack := t.pack, collector := t.collector, notices := t.notices } := by
  obtain ⟨clocks, pins, params, orders, port, pending⟩ := h
  rw [← clocks, ← pins, ← params, ← orders, ← port, ← pending]

theorem stationOf_eq_none {b : Byte} (h : 9 ≤ b.toNat) : stationOf b = none := dif_neg (by omega)

/-! ### BIND (R12) -/

theorem bindRequest_named (s : State) (n : Fin 9) (slot : Fin 16) :
    s.bindRequest (BitVec.ofNat 8 n.1) (BitVec.ofNat 8 slot.1) =
      if (s.station n).state = .unbound ∨ ((s.station n).state = .ready ∧ (s.station n).piece = none) then
        match s.orderAt slot with
        | none => s.refuse .noSuchOrder
        | some o => if o.suits n then ⟨s.bindTo n slot o, .ok, []⟩ else s.refuse .wrongKind
      else s.refuse .busy := by
  unfold State.bindRequest
  simp only [stationOf_ofNat, slotOf_ofNat] <;> rfl

theorem bindBlock_stations (s : State) (n : Fin 9) (o : Order) : (s.bindBlock n o).stations = s.stations := by
  unfold State.bindBlock
  split <;> rfl

theorem bindBlock_frame (s : State) (n : Fin 9) (o : Order) : s.bindBlock n o =
    { s with lays := (s.bindBlock n o).lays, inspector := (s.bindBlock n o).inspector } := by
  unfold State.bindBlock
  split <;> rfl

theorem steady_bindTo (s : State) (n : Fin 9) (slot : Fin 16) (o : Order) : Steady s (s.bindTo n slot o) := by
  unfold State.bindTo State.bindBlock
  split <;> exact ⟨rfl, rfl, rfl, rfl, rfl, rfl⟩

theorem bindBlock_rope {o : Order} {f : RopeOrder} (h : o.body = .rope f) (s : State) (l : Fin 8) :
    s.bindBlock (ofLay l) o = s.bindLay l f := by
  unfold State.bindBlock
  rw [layOf_ofLay, h]

theorem bindBlock_net {o : Order} {f : NetOrder} (h : o.body = .net f) (s : State) :
    s.bindBlock loom o = s.modInspector fun i => i.bindLoom f.deadRows := by
  unfold State.bindBlock
  rw [layOf_eq_none.mpr rfl, h]

/-- BIND reaches no lay station but its own. -/
theorem bindBlock_lay_other (s : State) {n : Fin 9} {l : Fin 8} (h : n ≠ ofLay l) (o : Order) :
    (s.bindBlock n o).lay l = s.lay l := by
  unfold State.bindBlock
  split
  · rename_i m f hm hf
    have other : l ≠ m := fun e => h (e ▸ layOf_eq_some.mp hm)
    rw [State.bindLay, State.modLay_lay, if_neg other]
  · rfl
  · rfl

theorem bindBlock_inspector_lay (s : State) {n : Fin 9} (h : n ≠ loom) (o : Order) :
    (s.bindBlock n o).inspector = s.inspector := by
  unfold State.bindBlock
  split
  · rfl
  · rename_i hm hf
    exact absurd (layOf_eq_none.mp hm) h
  · rfl

theorem enter_unpermitted (x : Station) (mode : Mode) (now : Word32) {st : StationState} (h : st.permitted = false) :
    x.enter mode now st = { x with state := st, pulseHigh := false } :=
  if_neg fun both => Bool.false_ne_true (h.symm.trans both.2)

/-- The station's own record after a BIND. -/
theorem bindTo_station (s : State) (n m : Fin 9) (slot : Fin 16) (o : Order) : (s.bindTo n slot o).station m =
    if m = n then ⟨.ready, some slot, ⟨false, false, false⟩, none, false, (s.station n).pulseAt⟩
    else s.station m := by
  have stations : (s.bindTo n slot o).station m = (s.bindStation n slot).station m :=
    congrArg (·[m.1]) (bindBlock_stations (s.bindStation n slot) n o)
  rw [stations, bindStation_station]
  by_cases e : m = n
  · rw [if_pos e, if_pos e, enter_unpermitted _ _ _ rfl, e]
    rfl
  · rw [if_neg e, if_neg e]

/-- Settles O12. -/
theorem bindReadiesStation : Obligations.BindReadiesStation := by
  intro s dt tag n slot o released taken free loaded suits
  have bound : (s.elapse dt).bindRequest (BitVec.ofNat 8 n.1) (BitVec.ofNat 8 slot.1) =
      ⟨(s.elapse dt).bindTo n slot o, .ok, []⟩ := by
    refine (bindRequest_named _ n slot).trans ((if_pos free).trans ?_)
    rw [State.elapse_orderAt, loaded]
    exact if_pos suits
  have frame := bindBlock_frame ((s.elapse dt).bindStation n slot) n o
  refine ⟨(s.elapse dt).bindTo n slot o, hostRequest_effect released taken bound, ?own, fun m other => ?others, ?waiting,
    fun l f e rope => ?lay, fun l other => bindBlock_lay_other _ other o, fun f e net => ?inspector,
    fun other => bindBlock_inspector_lay _ other o, ?rest⟩
  case own => rw [bindTo_station, if_pos rfl]; rfl
  case others => rw [bindTo_station, if_neg other]; rfl
  case waiting => exact congrArg State.arbiter frame
  case lay =>
    subst e
    rw [State.bindTo, bindBlock_rope rope, State.bindLay, State.modLay_lay, if_pos rfl]
    rfl
  case inspector =>
    subst e
    rw [State.bindTo, bindBlock_net net]
    rfl
  case rest =>
    have table : ((s.elapse dt).bindTo n slot o).table = s.table := (congrArg State.table frame).trans rfl
    have pack : ((s.elapse dt).bindTo n slot o).pack = s.pack := (congrArg State.pack frame).trans rfl
    have collector : ((s.elapse dt).bindTo n slot o).collector = s.collector := (congrArg State.collector frame).trans rfl
    have notices : ((s.elapse dt).bindTo n slot o).notices = s.notices := (congrArg State.notices frame).trans rfl
    refine (steady_bindTo (s.elapse dt) n slot o).frame.trans ?_
    rw [table, pack, collector, notices]
    rfl

/-! ### UNBIND (R13, R124) -/

theorem unbindRequest_named (s : State) (n : Fin 9) : s.unbindRequest (BitVec.ofNat 8 n.1) =
    match (s.station n).state with
    | .unbound => s.refuse .notBound
    | .running | .cutting => s.refuse .busy
    | .ready | .holding | .tripped => ⟨s.unbindStation n, .ok, []⟩ := by
  unfold State.unbindRequest
  simp only [stationOf_ofNat] <;> rfl

theorem unbindBlock_frame (s : State) (n : Fin 9) : s.unbindBlock n =
    { s with lays := (s.unbindBlock n).lays, inspector := (s.unbindBlock n).inspector } := by
  unfold State.unbindBlock
  split <;> rfl

theorem unbindBlock_stations (s : State) (n : Fin 9) : (s.unbindBlock n).stations = s.stations := by
  unfold State.unbindBlock
  split <;> rfl

theorem unbindBlock_records (s : State) (n : Fin 9) : (s.unbindBlock n).table = s.table := by
  unfold State.unbindBlock
  split <;> rfl

theorem unbindBlock_lay (s : State) (n : Fin 9) (l : Fin 8) :
    (s.unbindBlock n).lay l = if n = ofLay l then (s.lay l).unbind else s.lay l := by
  unfold State.unbindBlock
  split
  · rename_i m hm
    rw [layOf_eq_some.mp hm, State.modLay_lay]
    by_cases e : l = m
    · rw [if_pos e, if_pos (e ▸ rfl), e]
    · rw [if_neg e, if_neg fun h => e (ofLay_inj.mp h).symm]
  · rename_i hm
    rw [layOf_eq_none.mp hm, if_neg fun h => ofLay_ne_loom l h.symm]
    rfl

theorem unbindBlock_inspector (s : State) (n : Fin 9) : (s.unbindBlock n).inspector =
    if n = loom then { s.inspector with rowTimer := none, previous := none, awaiting := none } else s.inspector := by
  unfold State.unbindBlock
  split
  · rename_i m hm
    rw [layOf_eq_some.mp hm, if_neg (ofLay_ne_loom m)]
    rfl
  · rename_i hm
    rw [if_pos (layOf_eq_none.mp hm)]
    rfl

/-- UNBIND's closing of the piece reaches, beside the records and the stations, the waiting queue alone. -/
theorem unbindRecords_fields (s : State) (n : Fin 9) :
    (s.unbindRecords n).arbiter = { s.arbiter with waiting := s.arbiter.waiting.filter (· != n) } ∧
    (s.unbindRecords n).lays = s.lays ∧ (s.unbindRecords n).inspector = s.inspector ∧
    (s.unbindRecords n).table = { s.table with records := (s.unbindRecords n).table.records } ∧
    (s.unbindRecords n).pack = s.pack ∧ (s.unbindRecords n).collector = s.collector ∧
    (s.unbindRecords n).notices = s.notices := by
  unfold State.unbindRecords
  cases (s.station n).piece <;> exact ⟨rfl, rfl, rfl, rfl, rfl, rfl, rfl⟩

theorem steady_unbindBlock (s : State) (n : Fin 9) : Steady s (s.unbindBlock n) := by
  unfold State.unbindBlock
  split <;> exact ⟨rfl, rfl, rfl, rfl, rfl, rfl⟩

/-- Settles O13. -/
theorem unbindClosesPieceShort : Obligations.UnbindClosesPieceShort := by
  intro s dt tag n released taken stopped
  have unbound : (s.elapse dt).unbindRequest (BitVec.ofNat 8 n.1) = ⟨(s.elapse dt).unbindStation n, .ok, []⟩ := by
    rw [unbindRequest_named, State.elapse_station]
    obtain e | e | e := stopped <;> rw [e]
  obtain ⟨arbiter, lays, inspector, table, pack, collector, notices⟩ := unbindRecords_fields (s.elapse dt) n
  have frame := unbindBlock_frame ((s.elapse dt).unbindRecords n) n
  have station (m : Fin 9) : ((s.elapse dt).unbindStation n).station m = ((s.elapse dt).unbindRecords n).station m :=
    congrArg (·[m.1]) (unbindBlock_stations ((s.elapse dt).unbindRecords n) n)
  have lay (l : Fin 8) : ((s.elapse dt).unbindStation n).lay l = if n = ofLay l then (s.lay l).unbind else s.lay l := by
    rw [State.unbindStation, unbindBlock_lay, State.lay, lays]
    rfl
  have records := unbindBlock_records ((s.elapse dt).unbindRecords n) n
  refine ⟨(s.elapse dt).unbindStation n, hostRequest_effect released taken unbound, ?own, fun m other => ?others,
    fun i => ?record, (congrArg State.arbiter frame).trans arbiter, fun l e => (lay l).trans (if_pos e),
    fun l e => (lay l).trans (if_neg e), ?loom, ?rest⟩
  case own =>
    rw [station, unbindRecords_station, if_pos rfl, enter_unpermitted _ _ _ rfl]
    rfl
  case others => rw [station, unbindRecords_station, if_neg other]; rfl
  case record =>
    have record : ((s.elapse dt).unbindStation n).record i = ((s.elapse dt).unbindRecords n).record i :=
      congrArg (fun t : PieceTable => t.records[i.1]) records
    rw [record, unbindRecords_record]
    rfl
  case loom => rw [State.unbindStation, unbindBlock_inspector, inspector]; rfl
  case rest =>
    have steady := (steady_unbindRecords (s.elapse dt) n).trans (steady_unbindBlock _ n)
    have keptTable : ((s.elapse dt).unbindStation n).table =
        { s.table with records := ((s.elapse dt).unbindStation n).table.records } :=
      records.trans (table.trans (congrArg (fun t => { s.table with records := t.records }) records.symm))
    have keptPack : ((s.elapse dt).unbindStation n).pack = s.pack := (congrArg State.pack frame).trans pack
    have keptFaults : ((s.elapse dt).unbindStation n).collector = s.collector :=
      (congrArg State.collector frame).trans collector
    have keptNotices : ((s.elapse dt).unbindStation n).notices = s.notices :=
      (congrArg State.notices frame).trans notices
    refine steady.frame.trans ?_
    conv_lhs => rw [← State.unbindStation, keptTable, keptPack, keptFaults, keptNotices]
    rfl

/-! ### The checks of a START (R14) -/

theorem startRequest_named (s : State) (n : Fin 9) : s.startRequest (BitVec.ofNat 8 n.1) =
    if s.port.mode = .config then s.refuse .wrongMode
    else
      match (s.station n).state with
      | .unbound => s.refuse .notBound
      | .tripped => s.refuse .faultPending
      | .running | .cutting => ⟨s.modReasons n fun r => { r with halted := false }, .ok, []⟩
      | .ready | .holding => s.startAllowed n := by
  unfold State.startRequest
  simp only [stationOf_ofNat] <;> rfl

theorem startRequest_operate {s : State} (h : s.port.mode = .operate) (n : Fin 9) :
    s.startRequest (BitVec.ofNat 8 n.1) = match (s.station n).state with
      | .unbound => s.refuse .notBound
      | .tripped => s.refuse .faultPending
      | .running | .cutting => ⟨s.modReasons n fun r => { r with halted := false }, .ok, []⟩
      | .ready | .holding => s.startAllowed n :=
  (startRequest_named s n).trans (if_neg fun config => by rw [h] at config; cases config)

theorem startRequest_rested {s : State} {n : Fin 9} (operate : s.port.mode = .operate)
    (rested : (s.station n).state = .ready ∨ (s.station n).state = .holding) :
    s.startRequest (BitVec.ofNat 8 n.1) = s.startAllowed n := by
  rw [startRequest_operate operate]
  obtain e | e := rested <;> rw [e]

theorem mem_faultKinds (k : FaultKind) : k ∈ FaultKind.all := by
  cases k <;> decide

/-- Check 5 of R14. -/
theorem faultForbidsStart_iff (s : State) (n : Fin 9) :
    s.faultForbidsStart n = true ↔ ∃ k, inSet (s.faults n).set k = true ∧ s.reaction k ≠ .note := by
  simp [State.faultForbidsStart, mem_faultKinds]

/-- Check 6 of R14. -/
theorem strandPresent_iff (s : State) (n : Fin 9) : s.strandPresent n = true ↔ ∃ l, n = ofLay l ∧
    (s.lay l).strandOut &&& assertedStrands (s.layParams l).strandEdge (s.layPins l).strands ≠ 0 := by
  unfold State.strandPresent
  split
  · rename_i l hl
    rw [decide_eq_true_iff]
    refine ⟨fun h => ⟨l, layOf_eq_some.mp hl, h⟩, ?_⟩
    rintro ⟨m, e, h⟩
    rwa [ofLay_inj.mp ((layOf_eq_some.mp hl).symm.trans e)]
  · rename_i hl
    refine ⟨fun h => absurd h Bool.false_ne_true, ?_⟩
    rintro ⟨m, e, -⟩
    exact absurd ((layOf_eq_none.mp hl).symm.trans e) (ofLay_ne_loom m).symm

theorem startAllowed_fault {s : State} {n : Fin 9} (h : s.faultForbidsStart n = true) :
    s.startAllowed n = s.refuse .faultPending := if_pos h

theorem startAllowed_strand {s : State} {n : Fin 9} (fault : ¬ s.faultForbidsStart n = true)
    (h : s.strandPresent n = true) : s.startAllowed n = s.refuse .conditionPresent :=
  (if_neg fault).trans (if_pos h)

theorem startAllowed_full {s : State} {n : Fin 9} (fault : ¬ s.faultForbidsStart n = true)
    (strand : ¬ s.strandPresent n = true) (h : (s.station n).piece = none ∧ s.figure < 1) :
    s.startAllowed n = s.refuse .noFreePiece := (if_neg fault).trans ((if_neg strand).trans (if_pos h))

theorem startAllowed_taken {s : State} {n : Fin 9} (fault : ¬ s.faultForbidsStart n = true)
    (strand : ¬ s.strandPresent n = true) (h : ¬ ((s.station n).piece = none ∧ s.figure < 1)) :
    s.startAllowed n = ⟨s.startStation n, .ok, []⟩ := (if_neg fault).trans ((if_neg strand).trans (if_neg h))

/-! ### CLEAR FAULT (R155) -/

theorem clearRequest_named (s : State) (n : Fin 9) : s.clearRequest (BitVec.ofNat 8 n.1) =
    if (s.station n).state = .cutting then s.refuse .conditionPresent
    else if inSet (s.faults n).set .strandOut = true ∧ s.strandPresent n = true then s.refuse .conditionPresent
    else ⟨s.clearStation n, .ok, []⟩ := by
  unfold State.clearRequest
  rw [stationOf_ofNat]

theorem clearHooks_inspector (s : State) (n : Fin 9) : (s.clearHooks n).inspector =
    if n = loom then { s.inspector with hookMiss := Vector.replicate 64 0 } else s.inspector := by
  unfold State.clearHooks
  split <;> rfl

theorem clearHooks_frame (s : State) (n : Fin 9) :
    s.clearHooks n = { s with inspector := (s.clearHooks n).inspector } := by
  unfold State.clearHooks
  split <;> rfl

theorem untrip_frame (s : State) (n : Fin 9) : s.untrip n = { s with stations := (s.untrip n).stations } := by
  unfold State.untrip
  split <;> rfl

/-- A TRIPPED station is READY, its permit low; any other stands. -/
theorem untrip_station (s : State) (n m : Fin 9) : (s.untrip n).station m =
    if m = n ∧ (s.station n).state = .tripped then { s.station n with state := .ready, pulseHigh := false }
    else s.station m := by
  unfold State.untrip
  by_cases tripped : (s.station n).state = .tripped
  · rw [if_pos tripped, State.enterState_station]
    by_cases own : m = n
    · rw [if_pos own, if_pos ⟨own, tripped⟩, own, enter_unpermitted _ _ _ rfl]
    · rw [if_neg own, if_neg fun both => own both.1]
  · rw [if_neg tripped, if_neg fun both => tripped both.2]

theorem steady_clearStation (s : State) (n : Fin 9) : Steady s (s.clearStation n) := by
  unfold State.clearStation State.untrip State.clearHooks
  split <;> split <;> exact ⟨rfl, rfl, rfl, rfl, rfl, rfl⟩

/-- Settles O19. -/
theorem clearFaultEmptiesSet : Obligations.ClearFaultEmptiesSet := by
  intro s dt tag n released taken notCutting clear
  have cleared : (s.elapse dt).clearRequest (BitVec.ofNat 8 n.1) = ⟨(s.elapse dt).clearStation n, .ok, []⟩ :=
    (clearRequest_named _ n).trans ((if_neg notCutting).trans (if_neg clear))
  obtain ⟨u, faulted⟩ : ∃ u, u = (s.elapse dt).modFaults n fun _ => ⟨0, none⟩ := ⟨_, rfl⟩
  have stands : (s.elapse dt).clearStation n = (u.clearHooks n).untrip n := by rw [faulted]; rfl
  have hooks := clearHooks_frame u n
  have ready := untrip_frame (u.clearHooks n) n
  have station (m : Fin 9) : ((s.elapse dt).clearStation n).station m =
      if m = n ∧ (s.station n).state = .tripped then { s.station n with state := .ready, pulseHigh := false }
      else s.station m := by
    have stations : (u.clearHooks n).stations = s.stations := (congrArg State.stations hooks).trans (by rw [faulted]; rfl)
    have before (m : Fin 9) : (u.clearHooks n).station m = s.station m := congrArg (·[m.1]) stations
    rw [stands, untrip_station, before, before]
  have kept : ((s.elapse dt).clearStation n).lays = s.lays ∧ ((s.elapse dt).clearStation n).arbiter = s.arbiter ∧
      ((s.elapse dt).clearStation n).table = s.table ∧ ((s.elapse dt).clearStation n).pack = s.pack ∧
      ((s.elapse dt).clearStation n).notices = s.notices ∧ ((s.elapse dt).clearStation n).collector =
        { s.collector with stations := modifyAt s.collector.stations n fun _ => ⟨0, none⟩ } := by
    rw [stands, ready, hooks, faulted]
    exact ⟨rfl, rfl, rfl, rfl, rfl, rfl⟩
  obtain ⟨lays, arbiter, table, pack, notices, collector⟩ := kept
  have faults (m : Fin 9) : ((s.elapse dt).clearStation n).faults m = if m = n then ⟨0, none⟩ else s.faults m :=
    (congrArg (·.stations[m.1]) collector).trans (State.modFaults_faults s n m fun _ => ⟨0, none⟩)
  refine ⟨(s.elapse dt).clearStation n, hostRequest_effect released taken cleared, (faults n).trans (if_pos rfl),
    fun m other => (faults m).trans (if_neg other), ?own, fun m other => ?others, ?inspector, ?rest⟩
  case own => simp only [station, true_and]
  case others => rw [station, if_neg fun both => other both.1]
  case inspector =>
    rw [stands]
    exact (congrArg State.inspector ready).trans ((clearHooks_inspector u n).trans (by rw [faulted]; rfl))
  case rest =>
    refine (steady_clearStation (s.elapse dt) n).frame.trans ?_
    rw [lays, arbiter, table, pack, notices, collector]
    rfl

/-! ### Refusals (R3, R9, R12 to R14, R18, R155) -/

/-- Settles O14. -/
theorem stationRefusalsChangeNothing : Obligations.StationRefusalsChangeNothing := by
  intro s dt tag n released taken
  have answered (body : State → Answer) (c : Instr) (st : Status)
      (request : exec c s = hostRequest dt tag body s) (h : body (s.elapse dt) = (s.elapse dt).refuse st) :
      exec c s = .next (s.answeredOnly dt tag st []) := request.trans (hostRequest_answered released taken h)
  refine ⟨fun b big c => ?numbers, fun c big => ?slots, fun k busy => ?busy, fun k free empty => ?empty,
    fun k o free loaded kind => ?kind, fun unbound => ?notBound, fun working => ?working, ?start, fun present => ?clear⟩
  case numbers =>
    have none := stationOf_eq_none big
    refine ⟨answered _ _ _ rfl ?_, answered _ _ _ rfl ?_, answered _ _ _ rfl ?_, answered _ _ _ rfl ?_,
      answered _ _ _ rfl ?_, answered _ _ _ rfl ?_⟩
    · rw [State.bindRequest, none]
    · rw [State.unbindRequest, none]
    · rw [State.startRequest, none]
    · rw [State.haltRequest, none]
    · rw [State.clearRequest, none]
    · rw [State.readStation, none]
  case slots =>
    refine answered _ _ _ rfl ?_
    rw [State.bindRequest, stationOf_ofNat, slotOf_eq_none big]
  case busy => exact answered _ _ _ rfl ((bindRequest_named _ n k).trans (if_neg busy))
  case empty =>
    refine answered _ _ _ rfl ((bindRequest_named _ n k).trans ((if_pos free).trans ?_))
    rw [State.elapse_orderAt, empty]
  case kind =>
    have unsuited : ¬ o.suits n = true := by
      unfold Order.suits
      obtain ⟨⟨f, net⟩, lay⟩ | ⟨⟨f, rope⟩, rfl⟩ := kind
      · rw [net]
        exact fun h => lay (Fin.ext (of_decide_eq_true h))
      · rw [rope]
        exact fun h => Nat.lt_irrefl _ (of_decide_eq_true h)
    refine answered _ _ _ rfl ((bindRequest_named _ n k).trans ((if_pos free).trans ?_))
    rw [State.elapse_orderAt, loaded]
    exact if_neg unsuited
  case notBound =>
    refine answered _ _ _ rfl ((unbindRequest_named _ n).trans ?_)
    rw [State.elapse_station, unbound]
  case working =>
    refine answered _ _ _ rfl ((unbindRequest_named _ n).trans ?_)
    rw [State.elapse_station]
    obtain e | e := working <;> rw [e]
  case start =>
    have rested (operate : s.port.mode = .operate) (h : (s.station n).state = .ready ∨ (s.station n).state = .holding) :=
      startRequest_rested (s := s.elapse dt) operate h
    have noFault (quiet : ∀ k, inSet (s.faults n).set k = true → s.reaction k = .note) :
        ¬ (s.elapse dt).faultForbidsStart n = true := fun h =>
      ((faultForbidsStart_iff _ n).mp h).elim fun k hk => hk.2 (quiet k hk.1)
    refine ⟨fun config => answered _ _ _ rfl ((startRequest_named _ n).trans (if_pos config)),
      fun operate unbound => ?_, fun operate tripped => ?_, fun operate stopped => ⟨fun fault => ?_, fun quiet =>
        ⟨fun strand => ?_, fun dry free full => ?_⟩⟩, fun operate working => ?_⟩
    · refine answered _ _ _ rfl ((startRequest_operate (s := s.elapse dt) operate n).trans ?_)
      rw [State.elapse_station, unbound]
    · refine answered _ _ _ rfl ((startRequest_operate (s := s.elapse dt) operate n).trans ?_)
      rw [State.elapse_station, tripped]
    · exact answered _ _ _ rfl ((rested operate stopped).trans
        (startAllowed_fault ((faultForbidsStart_iff _ n).mpr fault)))
    · exact answered _ _ _ rfl ((rested operate stopped).trans
        (startAllowed_strand (noFault quiet) ((strandPresent_iff _ n).mpr strand)))
    · have noStrand : ¬ (s.elapse dt).strandPresent n = true := fun h =>
        ((strandPresent_iff _ n).mp h).elim fun l hl => hl.2 (dry l hl.1)
      exact answered _ _ _ rfl ((rested operate stopped).trans (startAllowed_full (noFault quiet) noStrand ⟨free, full⟩))
    · refine hostRequest_effect released taken ((startRequest_operate (s := s.elapse dt) operate n).trans ?_)
      rw [State.elapse_station]
      obtain e | e := working <;> rw [e]
  case clear =>
    by_cases cutting : (s.station n).state = .cutting
    · exact answered _ _ _ rfl ((clearRequest_named _ n).trans (if_pos cutting))
    · exact answered _ _ _ rfl ((clearRequest_named _ n).trans
        ((if_neg cutting).trans (if_pos (present.resolve_left cutting))))

/-! ### Splices (R64) -/

theorem strandList_eq : ∀ set : BitVec 4,
    strandList set = ([1, 2, 3, 4] : List Nat).filter fun j => set.getLsbD (j - 1) := by decide

/-- Splice entries while the list has room, overflows after. -/
theorem foldl_addSplice (strands : List Nat) (c : Coil) (sat : c.spliceOverflow ≤ 65535) :
    strands.foldl Coil.addSplice c = { c with
      splices := c.splices ++ (strands.take (6 - c.splices.length)).map fun j => ⟨c.mm, j⟩
      spliceOverflow := min 65535 (c.spliceOverflow + (strands.length - (6 - c.splices.length))) } := by
  induction strands generalizing c with
  | nil =>
    simp [Nat.min_eq_right sat]
  | cons j strands ih =>
    by_cases room : c.splices.length < 6
    · have entry : c.addSplice j = { c with splices := c.splices ++ [⟨c.mm, j⟩] } := if_pos room
      have one : 6 - c.splices.length = (6 - (c.splices.length + 1)) + 1 := by omega
      rw [List.foldl_cons, ih _ (by rw [entry]; exact sat), entry, one]
      simp [Coil.mm]
    · have overflows : c.addSplice j = { c with spliceOverflow := satSucc 65535 c.spliceOverflow } := if_neg room
      have kept : satSucc 65535 c.spliceOverflow ≤ 65535 := by unfold satSucc; split <;> omega
      have none : 6 - c.splices.length = 0 := by omega
      have sum : min 65535 (satSucc 65535 c.spliceOverflow + strands.length) =
          min 65535 (c.spliceOverflow + (strands.length + 1)) := by unfold satSucc; split <;> omega
      rw [List.foldl_cons, ih _ (by rw [overflows]; exact kept), overflows]
      simp [none, sum]

/-- Settles O17. -/
theorem spliceEntriesThenOverflow : Obligations.SpliceEntriesThenOverflow := by
  intro c set strands room sat
  rw [Coil.addSplices, strandList_eq]
  exact foldl_addSplice _ c sat

end Sys2Proof.Machine
end

