-- ==== Sys2Proof/Proofs/Starts.lean ====
section
/-!
PROOF. START: what its steps do at a station that carries its piece on and at one that opens a piece (R14 to R17, R55,
R57, R64, R113, R114, R125).
-/
namespace Sys2Proof.Machine

/-! ### Step 1: the strand-out set (R64) -/

/-- A piece of station n with the strand-out set as splice entries, where it is a coil of a lay station. -/
def State.spliced (s : State) (n : Fin 9) (p : Piece) : Piece :=
  match layOf n, p.body with
  | some l, .coil c => { p with body := .coil (c.addSplices (s.lay l).strandOut) }
  | _, _ => p

theorem addSplices_length (c : Coil) (set : BitVec 4) : (c.addSplices set).length = c.length := by
  have one (c : Coil) (j : Nat) : (c.addSplice j).length = c.length := by
    unfold Coil.addSplice
    split <;> rfl
  unfold Coil.addSplices
  induction strandList set generalizing c with
  | nil => rfl
  | cons j strands ih => exact (ih _).trans (one c j)

theorem spliced_extent (s : State) (n : Fin 9) (p : Piece) : (s.spliced n p).extent = p.extent := by
  unfold State.spliced
  split
  · rename_i body
    simp only [Piece.extent, body, Coil.mm, addSplices_length]
  · rfl

theorem spliced_overrun (s : State) (n : Fin 9) (p : Piece) : (s.spliced n p).overrun = p.overrun := by
  unfold State.spliced
  split <;> rfl

theorem spliced_loom (s : State) (p : Piece) : s.spliced loom p = p := by
  unfold State.spliced
  rw [layOf_eq_none.mpr rfl]

theorem spliced_coil {p : Piece} {c : Coil} (s : State) (l : Fin 8) (h : p.body = .coil c) :
    s.spliced (ofLay l) p = { p with body := .coil (c.addSplices (s.lay l).strandOut) } := by
  unfold State.spliced
  rw [layOf_ofLay, h]

theorem recordSplices_lay (s : State) (n : Fin 9) (l : Fin 8) : (s.recordSplices n).lay l =
    if n = ofLay l then { s.lay l with strandOut := 0 } else s.lay l := by
  have entries (set : BitVec 4) (m : Fin 8) : (s.addSplices n set).lay m = s.lay m := by
    unfold State.addSplices
    split <;> rfl
  unfold State.recordSplices
  split
  · rename_i m hm
    rw [State.modLay_lay, entries, layOf_eq_some.mp hm]
    by_cases e : l = m
    · rw [if_pos e, if_pos (e ▸ rfl), e]
    · rw [if_neg e, if_neg fun h => e (ofLay_inj.mp h).symm]
  · rename_i hm
    rw [layOf_eq_none.mp hm, if_neg fun h => ofLay_ne_loom l h.symm]

/-- Step 1 of a START writes the open piece's record and the strand-out set alone. -/
theorem recordSplices_fields (s : State) (n : Fin 9) : (s.recordSplices n).inspector = s.inspector ∧
    (s.recordSplices n).arbiter = s.arbiter ∧ (s.recordSplices n).pack = s.pack ∧
    (s.recordSplices n).collector = s.collector ∧ (s.recordSplices n).notices = s.notices ∧
    (s.recordSplices n).table = { s.table with records := (s.recordSplices n).table.records } := by
  unfold State.recordSplices State.addSplices
  split
  · split <;> exact ⟨rfl, rfl, rfl, rfl, rfl, rfl⟩
  · exact ⟨rfl, rfl, rfl, rfl, rfl, rfl⟩

theorem recordSplices_record (s : State) (n : Fin 9) (j : Fin 64) : (s.recordSplices n).record j =
    if (s.station n).piece = some j then (s.record j).map (s.spliced n) else s.record j := by
  unfold State.recordSplices State.addSplices
  split
  · rename_i l hl
    cases hp : (s.station n).piece with
    | none => rfl
    | some i =>
      have coil : s.spliced n = fun p : Piece => match p.body with
          | .coil c => { p with body := .coil (c.addSplices (s.lay l).strandOut) }
          | .panel _ => p := by
        funext p
        unfold State.spliced
        rw [hl]
        cases p.body <;> rfl
      show (s.modCoil i fun c => c.addSplices (s.lay l).strandOut).record j = _
      rw [State.modCoil, State.modPiece_record, coil]
      by_cases e : j = i
      · subst e
        refine (if_pos rfl).trans (Eq.trans ?_ (if_pos rfl).symm)
        rfl
      · rw [if_neg e, if_neg fun h => e (Option.some.inj h).symm]
  · rename_i hl
    have same : s.spliced n = id := by
      funext p
      rw [layOf_eq_none.mp hl, spliced_loom]
      rfl
    rw [same, Option.map_id]
    exact (ite_self _).symm

/-! ### Steps 4 and 5: the tests and the state -/

theorem targetTest_spelled (s : State) (n : Fin 9) : s.targetTest n = { s with arbiter := { s.arbiter with
    waiting := if s.requestDue n then s.arbiter.waiting ++ [n] else s.arbiter.waiting } } := by
  unfold State.targetTest
  split <;> rfl

/-- The overrun test at a station that does not run (R57). -/
theorem overrunHold_rested {s : State} {n : Fin 9} (h : (s.station n).state ≠ .running) : s.overrunHold n =
    ((s.modReasons n fun r => { r with overrun := true }).flagOverrun n).notice (slotOfStation n) .overrunHold := by
  have rested : (((s.modReasons n fun r => { r with overrun := true }).flagOverrun n).station n).state ≠ .running := by
    rw [flagOverrun_station, State.modReasons_station, if_pos rfl]
    exact h
  unfold State.overrunHold State.holdRunning
  rw [if_neg rested]

/-- A station with an open piece in a record and an order, whose figures the two tests compare (R54, R55, R57). -/
theorem reached_of_open {s : State} {n : Fin 9} {i : Fin 64} {p : Piece} {o : Order} (piece : (s.station n).piece = some i)
    (record : s.record i = some p) (order : s.boundOrder n = some o) (figure : Order → Nat) :
    s.reached n figure = decide (figure o ≤ p.extent) := by
  have opened : s.openPiece? n = some p := by rw [State.openPiece?, piece]; exact record
  unfold State.reached
  rw [opened, order]

theorem cutStatus_waiting_iff {s : State} {n : Fin 9} (h : (s.station n).state ≠ .cutting) :
    s.cutStatus n = .waiting ↔ n ∈ s.arbiter.waiting := by
  unfold State.cutStatus
  rw [if_neg h]
  split <;> simp [*]

/-- The tracker of a station that enters RUNNING, field by field (R17, R29, R42). -/
theorem freshLay_spelled (s : State) (l : Fin 8) : s.freshLay l = { s.lay l with
    tracker := ⟨none, [], 0, 0, true, 0, 0, false⟩, demand := (s.layParams l).fStart
    stall := some ⟨s.clocks.mark, (s.layParams l).tMax⟩, lastPulse := none } := by
  unfold State.freshLay LayStation.setDemand
  split
  · rename_i zero
    rw [zero]
    rfl
  · rfl

theorem enter_given {x : Station} {mode : Mode} {st : StationState} (now : Word32) (operate : mode = .operate)
    (permitted : st.permitted = true) : x.enter mode now st =
      if x.state.permitted = true then { x with state := st }
      else { x with state := st, pulseHigh := true, pulseAt := now } := if_pos ⟨operate, permitted⟩

/-- Step 5 of a START at a station that does not run (R15, R17, R29). -/
theorem startState_fields {s : State} {n : Fin 9} (rested : (s.station n).state ≠ .running) :
    let holds := (s.station n).reasons.any
    let st : StationState := if holds then .holding else .running
    (∀ m, (s.startState n).station m =
      if m = n then (s.station m).enter s.port.mode s.clocks.part st else s.station m) ∧
    (∀ l, (s.startState n).lay l = if n = ofLay l ∧ holds = false then s.freshLay l else s.lay l) ∧
    (s.startState n).inspector = (if n = loom ∧ holds = false
      then { s.inspector with rowTimer := some (s.partTimer s.params.loom.rowTime) } else s.inspector) ∧
    (s.startState n).arbiter = s.arbiter ∧ (s.startState n).table = s.table ∧ (s.startState n).pack = s.pack ∧
    (s.startState n).collector = s.collector ∧ (s.startState n).notices = s.notices ∧
    Steady s (s.startState n) := by
  unfold State.startState
  cases holds : (s.station n).reasons.any
  case true =>
    refine ⟨fun m => leaveFor_station s n m .holding, fun l => ?_, ?_, leaveFor_arbiter s n _, leaveFor_table s n _,
      leaveFor_pack s n _, leaveFor_collector s n _, leaveFor_notices s n _, steady_leaveFor s n _⟩
    · exact (leaveFor_lay s n _ l).trans ((if_neg fun h => rested h.1).trans (if_neg fun h => by cases h.2).symm)
    · exact (leaveFor_inspector s n _).trans ((if_neg fun h => rested h.1).trans (if_neg fun h => by cases h.2).symm)
  case false =>
    have collector : (s.enterRunning n).collector = s.collector := by unfold State.enterRunning; split <;> rfl
    refine ⟨fun m => enterRunning_station s n m, fun l => ?_, ?_, enterRunning_arbiter s n, enterRunning_table s n,
      enterRunning_pack s n, collector, enterRunning_notices s n, steady_enterRunning s n⟩
    · exact (enterRunning_lay s n l).trans (by simp)
    · exact (enterRunning_inspector s n).trans (by simp)

/-! ### A START that carries its piece on -/

/-- What the steps before the last have made of a part whose station n carries its open piece p, in record i, on. -/
structure Carried (s : State) (n : Fin 9) (i : Fin 64) (p : Piece) (joins overrun : Bool) (t : State) : Prop where
  own : t.station n = { s.station n with reasons := ⟨false, false, overrun || (s.station n).reasons.overrun⟩ }
  others : ∀ m, m ≠ n → t.station m = s.station m
  arbiter : t.arbiter = { s.arbiter with waiting := if joins then s.arbiter.waiting ++ [n] else s.arbiter.waiting }
  lay : ∀ l, t.lay l = if n = ofLay l then { s.lay l with strandOut := 0 } else s.lay l
  inspector : t.inspector = s.inspector
  record : t.record i = some { s.spliced n p with overrun := p.overrun || overrun }
  otherRecords : ∀ j, j ≠ i → t.record j = s.record j
  table : t.table = { s.table with records := t.table.records }
  notices : t.notices = if overrun then (s.notice (slotOfStation n) .overrunHold).notices else s.notices
  pack : t.pack = s.pack
  collector : t.collector = s.collector
  steady : Steady s t

section
variable {s t : State} {n : Fin 9} {i : Fin 64} {p : Piece} {o : Order} {joins overrun : Bool}

/-- Steps 1 and 2. -/
theorem carried_splices (piece : (s.station n).piece = some i) (record : s.record i = some p) :
    Carried s n i p false false ((s.recordSplices n).modReasons n fun r => { r with halted := false, fault := false }) := by
  obtain ⟨inspector, arbiter, pack, collector, notices, table⟩ := recordSplices_fields s n
  exact
    { own := by rw [State.modReasons_station, if_pos rfl, recordSplices_station]; rfl
      others := fun m other => by rw [State.modReasons_station, if_neg other, recordSplices_station]
      arbiter := arbiter
      lay := fun l => recordSplices_lay s n l
      inspector := inspector
      record := by
        show (s.recordSplices n).record i = _
        rw [recordSplices_record, if_pos piece, record, Option.map_some, Bool.or_false, ← spliced_overrun s n p]
      otherRecords := fun j other => by
        show (s.recordSplices n).record j = _
        rw [recordSplices_record, piece, if_neg fun e => other (Option.some.inj e).symm]
      table := table
      notices := notices
      pack := pack
      collector := collector
      steady := (steady_recordSplices s n).trans (steady_modReasons _ n _) }

theorem Carried.reached (h : Carried s n i p joins overrun t) (piece : (s.station n).piece = some i)
    (order : s.boundOrder n = some o) (figure : Order → Nat) : t.reached n figure = decide (figure o ≤ p.extent) := by
  have bound : t.boundOrder n = some o := by
    rw [← order, State.boundOrder, State.boundOrder, h.own]
    have slots : t.orderAt = s.orderAt := funext fun k => congrArg (·[k.1]) h.steady.orders
    rw [slots]
  have extent : ({ s.spliced n p with overrun := p.overrun || overrun } : Piece).extent = p.extent := spliced_extent s n p
  rw [reached_of_open (by rw [h.own]; exact piece) h.record bound, extent]

/-- The target test (R55). -/
theorem Carried.targetTest (h : Carried s n i p false overrun t) :
    Carried s n i p (t.requestDue n) overrun (t.targetTest n) := by
  rw [targetTest_spelled]
  exact { h with
    arbiter := by rw [h.arbiter]; rfl
    steady := h.steady.trans ⟨rfl, rfl, rfl, rfl, rfl, rfl⟩ }

/-- The overrun test, where it takes effect (R57). -/
theorem Carried.overrunHold (h : Carried s n i p joins false t) (piece : (s.station n).piece = some i)
    (rested : (s.station n).state ≠ .running) : Carried s n i p joins true (t.overrunHold n) := by
  have stays : (t.station n).state ≠ .running := by rw [h.own]; exact rested
  have flagged : t.overrunHold n = ((t.modReasons n fun r => { r with overrun := true }).modPiece i fun p =>
      { p with overrun := true }).notice (slotOfStation n) .overrunHold := by
    have still : ((t.modReasons n fun r => { r with overrun := true }).station n).piece = some i := by
      rw [State.modReasons_station, if_pos rfl, h.own]
      exact piece
    rw [overrunHold_rested stays, State.flagOverrun, still]
  have notices : t.notices = s.notices := h.notices
  rw [flagged]
  exact
    { own := by
        show (t.modReasons n fun r => { r with overrun := true }).station n = _
        rw [State.modReasons_station, if_pos rfl, h.own]
        rfl
      others := fun m other => by
        show (t.modReasons n fun r => { r with overrun := true }).station m = _
        rw [State.modReasons_station, if_neg other, h.others m other]
      arbiter := h.arbiter
      lay := h.lay
      inspector := h.inspector
      record := by
        show ((t.modReasons n fun r => { r with overrun := true }).modPiece i fun p =>
          { p with overrun := true }).record i = _
        rw [State.modPiece_record, if_pos rfl]
        show (t.record i).map _ = _
        rw [h.record, Bool.or_true]
        rfl
      otherRecords := fun j other => by
        show ((t.modReasons n fun r => { r with overrun := true }).modPiece i fun p =>
          { p with overrun := true }).record j = _
        rw [State.modPiece_record, if_neg other]
        exact h.otherRecords j other
      table := by
        show ({ t.table with records := _ } : PieceTable) = _
        rw [h.table]
        rfl
      notices := by
        show (t.notice (slotOfStation n) .overrunHold).notices = _
        rw [State.notice, notices]
        rfl
      pack := h.pack
      collector := h.collector
      steady := h.steady.trans ⟨rfl, rfl, rfl, rfl, rfl, rfl⟩ }

end

theorem rested_ne {s : State} {n : Fin 9} (rested : (s.station n).state = .ready ∨ (s.station n).state = .holding) :
    (s.station n).state ≠ .running ∧ (s.station n).state ≠ .cutting := by
  obtain e | e := rested <;> rw [e] <;> decide

/-- Steps 1 to 4 of a START that carries its piece on: whether a request joins, and whether OVERRUN is added. -/
theorem carried_startEffects {s : State} {n : Fin 9} {i : Fin 64} {p : Piece} {o : Order}
    (rested : (s.station n).state = .ready ∨ (s.station n).state = .holding) (piece : (s.station n).piece = some i)
    (record : s.record i = some p) (order : s.boundOrder n = some o) :
    let joins := decide (o.target ≤ p.extent ∧ n ∉ s.arbiter.waiting)
    Carried s n i p joins (decide (o.limit ≤ p.extent ∧ (s.station n).reasons.overrun = false ∧
      (joins = true ∨ n ∈ s.arbiter.waiting))) (s.startEffects n) := by
  intro joins
  have start := carried_splices (s := s) (n := n) piece record
  obtain ⟨u, hu⟩ : ∃ u, u = (s.recordSplices n).modReasons n fun r => { r with halted := false, fault := false } := ⟨_, rfl⟩
  rw [← hu] at start
  have has : u.ensurePiece n = u := by
    have still : (u.station n).piece = some i := by rw [start.own]; exact piece
    rw [State.ensurePiece, still]
  have due : u.requestDue n = joins := by
    rw [Bool.eq_iff_iff, requestDue_iff, start.reached piece order, start.own, start.arbiter, decide_eq_true_iff,
      decide_eq_true_iff]
    exact ⟨fun h => ⟨h.1, h.2.1⟩, fun h => ⟨h.1, h.2, rested.imp_right .inr⟩⟩
  have tested := start.targetTest
  rw [due] at tested
  have takes : ((u.targetTest n).cutStatus n = .waiting ∧ ((u.targetTest n).station n).state.mayOverrun true = true ∧
      (u.targetTest n).reached n Order.limit = true ∧ ((u.targetTest n).station n).reasons.overrun = false) ↔
      (o.limit ≤ p.extent ∧ (s.station n).reasons.overrun = false ∧ (joins = true ∨ n ∈ s.arbiter.waiting)) := by
    have may : (s.station n).state.mayOverrun true = true := by obtain e | e := rested <;> rw [e] <;> rfl
    have waits : n ∈ (if joins = true then s.arbiter.waiting ++ [n] else s.arbiter.waiting) ↔
        joins = true ∨ n ∈ s.arbiter.waiting := by cases joins <;> simp
    rw [cutStatus_waiting_iff (by rw [tested.own]; exact (rested_ne rested).2), tested.own, tested.arbiter,
      tested.reached piece order]
    exact ⟨fun h => ⟨of_decide_eq_true h.2.2.1, h.2.2.2, waits.mp h.1⟩,
      fun h => ⟨waits.mpr h.2.2, may, decide_eq_true h.1, h.2.1⟩⟩
  have effects : s.startEffects n = (u.targetTest n).overrunTest n true := by
    rw [hu] at has ⊢
    rw [State.startEffects, has]
  rw [effects, State.overrunTest]
  by_cases h : o.limit ≤ p.extent ∧ (s.station n).reasons.overrun = false ∧ (joins = true ∨ n ∈ s.arbiter.waiting)
  · rw [if_pos (takes.mpr h), decide_eq_true h]
    exact tested.overrunHold piece (rested_ne rested).1
  · rw [if_neg fun both => h (takes.mp both), decide_eq_false h]
    exact tested

theorem considerStart_eq (t s : State) (n : Fin 9) : t.considerStart s n =
    if n ∈ t.arbiter.waiting ∧ (n ∉ s.arbiter.waiting ∨ (t.station n).state ≠ (s.station n).state) then t.consider
    else t := by
  unfold State.considerStart State.considerIf startConsiders
  simp only [decide_eq_true_eq]

/-- Settles O15. -/
theorem startCarriesPieceOn : Obligations.StartCarriesPieceOn := by
  intro s dt tag n i p o released taken operate rested noFault dry piece record order joins overrun holds st
  have carried : Carried (s.elapse dt) n i p joins overrun ((s.elapse dt).startEffects n) :=
    carried_startEffects (s := s.elapse dt) rested piece record order
  obtain ⟨u, hu⟩ : ∃ u, u = (s.elapse dt).startEffects n := ⟨_, rfl⟩
  rw [← hu] at carried
  have reasons : (u.station n).reasons.any = holds := by rw [carried.own]; rfl
  have restedHere : (u.station n).state ≠ .running := by rw [carried.own]; exact (rested_ne rested).1
  obtain ⟨station, lay, inspector, arbiter, table, pack, collector, notices, steady⟩ := startState_fields restedHere
  rw [reasons] at station lay inspector
  have permitted : st.permitted = true := by show (if holds then _ else _ : StationState).permitted = _; cases holds <;> rfl
  have own : (u.startState n).station n =
      if (s.station n).state.permitted = true then { u.station n with state := st }
      else { u.station n with state := st, pulseHigh := true, pulseAt := (s.elapse dt).clocks.part } := by
    rw [station, if_pos rfl, enter_given _ (by rw [carried.steady.port]; exact operate) permitted, carried.steady.clocks,
      carried.own]
    rfl
  have fields : ((u.startState n).station n).state = st ∧ ((u.startState n).station n).order = (s.station n).order ∧
      ((u.startState n).station n).reasons = ⟨false, false, holds⟩ ∧ ((u.startState n).station n).piece = some i := by
    rw [own, carried.own]
    split <;> exact ⟨rfl, rfl, rfl, piece⟩
  obtain ⟨state, slot, reasons', piece'⟩ := fields
  have exec_start : exec (.start dt tag (BitVec.ofNat 8 n.1)) s =
      .next (((u.startState n).considerStart (s.elapse dt) n).responded tag s.unread .ok []) := by
    refine hostRequest_effect released taken ((startRequest_rested (s := s.elapse dt) operate rested).trans ?_)
    rw [startAllowed_taken (by rw [show (s.elapse dt).faultForbidsStart n = false from noFault]; decide)
      (by rw [show (s.elapse dt).strandPresent n = false from dry]; decide)
      (fun h => by rw [State.elapse_station, piece] at h; cases h.1), hu]
    rfl
  have fresh (l : Fin 8) (h : n = ofLay l) : u.freshLay l = { s.lay l with
      tracker := ⟨none, [], 0, 0, true, 0, 0, false⟩, demand := (s.layParams l).fStart
      stall := some ⟨(s.elapse dt).clocks.mark, (s.layParams l).tMax⟩, lastPulse := none, strandOut := 0 } := by
    rw [freshLay_spelled, carried.lay, if_pos h, State.layParams, carried.steady.params, carried.steady.clocks]
    rfl
  refine ⟨u.startState n, ?asked, state, slot, reasons', piece', ?permit, fun ready => ?begins, fun holding => ?stays,
    fun m other => ?others, arbiter.trans carried.arbiter, fun l own => ?lay, fun l other => ?otherLay, ?loom,
    fun l c own coil => ?coil, fun own => ?panel, fun j other => ?otherRecord, notices.trans carried.notices, ?rest⟩
  case asked =>
    rw [exec_start, considerStart_eq, arbiter, carried.arbiter, state]
    congr 2
    refine if_congr ?_ rfl rfl
    have fresh : joins = true → n ∉ s.arbiter.waiting := fun h => (of_decide_eq_true h).2
    show n ∈ (if joins = true then s.arbiter.waiting ++ [n] else s.arbiter.waiting) ∧ _ ↔ _
    cases joined : joins
    · simp only [Bool.false_eq_true, if_false, false_or, State.elapse_station, State.elapse_arbiter]
      exact ⟨fun h => ⟨h.1, h.2.resolve_left fun out => out h.1⟩, fun h => ⟨h.1, .inr h.2⟩⟩
    · simp [fresh joined]
  case permit =>
    unfold State.permitGiven
    rw [state, permitted, (carried.steady.trans steady).port, State.elapse_port, operate]
    rfl
  case begins =>
    rw [own, ready, if_neg (by decide)]
    exact ⟨rfl, rfl⟩
  case stays =>
    rw [own, holding, if_pos (by decide), carried.own]
    exact ⟨rfl, rfl⟩
  case others => rw [station, if_neg other, carried.others m other]; rfl
  case lay =>
    rw [lay, carried.lay, if_pos own]
    cases held : holds
    · rw [if_pos ⟨own, rfl⟩, fresh l own]
      rfl
    · rw [if_neg fun h => by cases h.2]
      rfl
  case otherLay => rw [lay, if_neg fun h => other h.1, carried.lay, if_neg other]; rfl
  case loom =>
    rw [inspector, carried.inspector, State.partTimer, carried.steady.params, carried.steady.clocks]
    rfl
  case coil =>
    show (u.startState n).table.records[i.1] = _
    rw [table]
    refine carried.record.trans ?_
    rw [own, spliced_coil _ _ coil]
    rfl
  case panel =>
    show (u.startState n).table.records[i.1] = _
    rw [table]
    refine carried.record.trans ?_
    rw [own, spliced_loom]
  case otherRecord =>
    show (u.startState n).table.records[j.1] = _
    rw [table]
    exact carried.otherRecords j other
  case rest =>
    refine (carried.steady.trans steady).frame.trans ?_
    have records : (u.startState n).table = { s.table with records := (u.startState n).table.records } := by
      rw [table]
      exact carried.table
    conv_lhs => rw [records, pack, carried.pack, collector, carried.collector]

/-! ### A START that opens a piece (R16, R113, R114, R125) -/

theorem nextSerial_spelled (v : Word32) : nextSerial v = if v = 4294967295 then 1 else v + 1 := rfl

/-- R113: some record bears a serial that is in use. -/
theorem record_of_serialInUse {s : State} {v : Word32} (h : s.serialInUse v = true) :
    ∃ j p, s.record j = some p ∧ p.serial = v := by
  obtain ⟨r, mem, bears⟩ := List.any_eq_true.mp h
  rw [records_toList] at mem
  obtain ⟨j, -, hj⟩ := List.mem_map.mp mem
  cases r with
  | none => cases bears
  | some p => exact ⟨j, p, hj, beq_iff_eq.mp bears⟩

/-- The serial of the next opening, while a record is FREE (R113). -/
theorem openSerial_fresh {s : State} (room : ∃ i, s.record i = none) :
    (∀ j p, s.record j = some p → p.serial ≠ s.openSerial) ∧
    ∃ passed ≤ 63, s.openSerial = nextSerial^[passed] s.table.nextSerial ∧
      ∀ m < passed, ∃ j p, s.record j = some p ∧ p.serial = nextSerial^[m] s.table.nextSerial := by
  obtain ⟨i, hi⟩ := room
  obtain ⟨unused, passed, few, value, skipped⟩ := openSerial_spec (freeCount_pos hi)
  refine ⟨fun j p hp e => ?_, passed, by omega, value, fun m hm => record_of_serialInUse (skipped m hm)⟩
  have used := serialInUse_of_record hp
  rw [e, unused] at used
  cases used

/-- The lowest-numbered FREE record (R16). -/
theorem firstFree_lowest {s : State} {i : Fin 64} (h : s.firstFree = some i) (j : Fin 64) (lower : j.1 < i.1) :
    s.record j ≠ none := by
  obtain ⟨-, k, hk, e, before⟩ := List.find?_eq_some_iff_getElem.mp h
  have number (m : Nat) (hm : m < allRecords.length) : (allRecords[m]).1 = m := by simp [allRecords]
  have small : j.1 < k := by rw [← number k hk, e]; exact lower
  have same : allRecords[j.1]'(by omega) = j := Fin.ext (number j.1 _)
  have taken := before j.1 small
  rw [same] at taken
  intro free
  simp [free] at taken

theorem lowTest_notices (s : State) : s.lowTest.notices =
    if s.figure ≤ s.params.part.lowWater ∧ s.table.lowArmed = true then (s.notice partSlot .tableLow).notices
    else s.notices := by
  unfold State.lowTest
  by_cases low : s.figure ≤ s.params.part.lowWater
  · by_cases armed : s.table.lowArmed = true
    · rw [if_pos low, if_pos armed, if_pos ⟨low, armed⟩]
      rfl
    · rw [if_pos low, if_neg armed, if_neg fun both => armed both.2]
  · rw [if_neg low, if_neg fun both => low both.1]

/-- Steps 1 to 3 of a START that opens record i, before TABLE_LOW is tested. -/
def State.opensAt (s : State) (n : Fin 9) (slot : Fin 16) (i : Fin 64) : State :=
  ((s.recordSplices n).modReasons n fun r => { r with halted := false, fault := false }).openInto n slot i

theorem newPiece_extent (s : State) (n : Fin 9) (slot : Fin 16) (tag serial : Word32) :
    (s.newPiece n slot tag serial).extent = 0 := by
  unfold State.newPiece State.newBody
  cases layOf n <;> simp [Piece.extent, Coil.mm]

section
variable {s : State} {n : Fin 9} {slot : Fin 16} {i : Fin 64}

/-- Without a piece, step 1 of a START empties the strand-out set and does nothing else (R64). -/
theorem recordSplices_none (noPiece : (s.station n).piece = none) :
    s.recordSplices n = { s with lays := (s.recordSplices n).lays } := by
  unfold State.recordSplices State.addSplices
  rw [noPiece]
  split <;> rfl

theorem opensAt_station (m : Fin 9) : (s.opensAt n slot i).station m =
    if m = n then { s.station n with
      reasons := ⟨false, false, (s.station n).reasons.overrun⟩, piece := some i }
    else s.station m := by
  rw [State.opensAt, openInto_station]
  by_cases e : m = n
  · subst e
    rw [if_pos rfl, if_pos rfl, State.modReasons_station, if_pos rfl, recordSplices_station]
  · rw [if_neg e, if_neg e, State.modReasons_station, if_neg e, recordSplices_station]

theorem opensAt_lay (l : Fin 8) : (s.opensAt n slot i).lay l =
    if n = ofLay l then { s.lay l with strandOut := 0 } else s.lay l :=
  (openInto_lay _ n slot i l).trans (recordSplices_lay s n l)

theorem opensAt_inspector : (s.opensAt n slot i).inspector =
    if n = loom then { s.inspector with previous := none } else s.inspector := by
  rw [State.opensAt, openInto_inspector, State.modReasons_inspector, (recordSplices_fields s n).1]

theorem opensAt_steady : Steady s (s.opensAt n slot i) :=
  (steady_recordSplices s n).trans ((steady_modReasons _ n _).trans (steady_openInto _ n slot i))

theorem opensAt_arbiter : (s.opensAt n slot i).arbiter = s.arbiter :=
  (openInto_arbiter _ n slot i).trans (recordSplices_fields s n).2.1

theorem opensAt_pack : (s.opensAt n slot i).pack = s.pack :=
  (openInto_pack _ n slot i).trans (recordSplices_fields s n).2.2.1

theorem opensAt_collector : (s.opensAt n slot i).collector = s.collector := by
  have opening (u : State) : (u.openInto n slot i).collector = u.collector := by
    unfold State.openInto State.forgetRow
    split <;> rfl
  exact (opening _).trans (recordSplices_fields s n).2.2.2.1

theorem opensAt_notices : (s.opensAt n slot i).notices = s.notices :=
  (openInto_notices _ n slot i).trans (recordSplices_fields s n).2.2.2.2.1

theorem opensAt_table (noPiece : (s.station n).piece = none) : (s.opensAt n slot i).table = { s.table with
    records := s.table.records.set i.1 (some (s.newPiece n slot (s.orderTag slot) s.openSerial))
    nextSerial := nextSerial s.openSerial } := by
  rw [State.opensAt, recordSplices_none noPiece]
  unfold State.openInto State.forgetRow
  split <;> rfl

theorem opensAt_record (noPiece : (s.station n).piece = none) (j : Fin 64) : (s.opensAt n slot i).record j =
    if j = i then some (s.newPiece n slot (s.orderTag slot) s.openSerial) else s.record j := by
  have written : (s.opensAt n slot i).record j =
      (s.setRecord i (some (s.newPiece n slot (s.orderTag slot) s.openSerial))).record j :=
    congrArg (·.records[j.1]) (opensAt_table noPiece)
  rw [written, State.setRecord_record]

/-- The opening takes one FREE record. -/
theorem opensAt_figure (noPiece : (s.station n).piece = none) (free : s.record i = none) :
    (s.opensAt n slot i).figure = s.figure - 1 := by
  have one : (s.opensAt n slot i).freeCount + 1 = s.freeCount := by
    have written : (s.opensAt n slot i).freeCount =
        (s.setRecord i (some (s.newPiece n slot (s.orderTag slot) s.openSerial))).freeCount :=
      congrArg (·.records.toList.countP (·.isNone)) (opensAt_table noPiece)
    rw [written]
    simpa [free] using freeCount_setRecord s i (some (s.newPiece n slot (s.orderTag slot) s.openSerial))
  unfold State.figure
  rw [opensAt_arbiter]
  omega

/-- Steps 1 to 4 of a START that opens a piece: no test takes effect on a new piece (R55, R57). -/
theorem startEffects_opens {o : Order} (noPiece : (s.station n).piece = none) (lowest : s.firstFree = some i)
    (order : (s.station n).order = some slot) (loaded : s.orderAt slot = some o) (target : 0 < o.target)
    (idle : n ∉ s.arbiter.waiting) (rested : (s.station n).state ≠ .cutting) :
    s.startEffects n = (s.opensAt n slot i).lowTest := by
  obtain ⟨u, hu⟩ : ∃ u, u = (s.recordSplices n).modReasons n fun r => { r with halted := false, fault := false } := ⟨_, rfl⟩
  have own : u.station n = { s.station n with reasons := ⟨false, false, (s.station n).reasons.overrun⟩ } := by
    rw [hu, State.modReasons_station, if_pos rfl, recordSplices_station]
  have opens : u.ensurePiece n = (s.opensAt n slot i).lowTest := by
    have first : u.firstFree = some i := by
      rw [hu, recordSplices_none noPiece]
      exact lowest
    have ordered : (u.station n).order = some slot := by rw [own]; exact order
    have empty : (u.station n).piece = none := by rw [own]; exact noPiece
    rw [State.ensurePiece, empty, State.openPiece, ordered, first, hu]
    rfl
  obtain ⟨v, hv⟩ : ∃ v, v = (s.opensAt n slot i).lowTest := ⟨_, rfl⟩
  have arbiter : v.arbiter = s.arbiter := by rw [hv, lowTest_arbiter, opensAt_arbiter]
  have station : v.station n = (s.opensAt n slot i).station n := by rw [hv, lowTest_station]
  have reached (figure : Order → Nat) (above : 0 < figure o) : v.reached n figure = false := by
    have piece : (v.station n).piece = some i := by rw [station, opensAt_station, if_pos rfl]
    have record : v.record i = some (s.newPiece n slot (s.orderTag slot) s.openSerial) := by
      rw [hv, lowTest_record, opensAt_record noPiece, if_pos rfl]
    have bound : v.boundOrder n = some o := by
      have slots : v.orderAt = s.orderAt :=
        funext fun k => congrArg (·[k.1]) (by rw [hv, lowTest_orders, opensAt_steady.orders])
      rw [State.boundOrder, station, opensAt_station, if_pos rfl, slots, order]
      exact loaded
    rw [reached_of_open piece record bound, newPiece_extent]
    exact decide_eq_false (Nat.not_le.mpr above)
  have still : v.targetTest n = v := by
    have none : v.requestDue n = false := by
      unfold State.requestDue
      rw [reached _ target]
      rfl
    unfold State.targetTest
    rw [none]
    rfl
  have waits : v.cutStatus n ≠ .waiting := by
    rw [Ne, cutStatus_waiting_iff (by rw [station, opensAt_station, if_pos rfl]; exact rested), arbiter]
    exact idle
  rw [hu] at opens
  rw [State.startEffects, opens, ← hv, still, State.overrunTest, if_neg fun both => waits both.1]

end

/-- Settles O16. -/
theorem startOpensLowestFreeRecord : Obligations.StartOpensLowestFreeRecord := by
  refine ⟨fun s room => openSerial_fresh room, fun s dt tag n slot o released taken operate rested noFault dry noPiece
    room order loaded target idle noOverrun => ?_⟩
  obtain ⟨i, lowest⟩ := firstFree_of_freeCount (s := s.elapse dt) (by
    have some : 1 ≤ s.figure := room
    unfold State.figure at some
    exact le_trans (by omega) (le_refl s.freeCount))
  have free : s.record i = none := firstFree_free (s := s.elapse dt) lowest
  obtain ⟨u, hu⟩ : ∃ u, u = (s.elapse dt).opensAt n slot i := ⟨_, rfl⟩
  have effects : (s.elapse dt).startEffects n = u.lowTest := by
    rw [hu]
    exact startEffects_opens (s := s.elapse dt) noPiece lowest order loaded target idle (rested_ne rested).2
  have station (m : Fin 9) : u.lowTest.station m = if m = n then { s.station n with
      reasons := ⟨false, false, false⟩, piece := some i } else s.station m := by
    rw [lowTest_station, hu, opensAt_station, State.elapse_station, noOverrun]
    rfl
  have restedHere : (u.lowTest.station n).state ≠ .running := by rw [station, if_pos rfl]; exact (rested_ne rested).1
  have reasons : (u.lowTest.station n).reasons.any = false := by rw [station, if_pos rfl]; rfl
  have steadyHere : Steady (s.elapse dt) u.lowTest := by
    rw [hu]
    exact opensAt_steady.trans (steady_lowTest _)
  obtain ⟨stations, lay, inspector, arbiter, table, pack, collector, notices, steady⟩ := startState_fields restedHere
  rw [reasons] at stations lay inspector
  have arbiterHere : u.lowTest.arbiter = s.arbiter := by rw [lowTest_arbiter, hu, opensAt_arbiter]; rfl
  have figure : u.figure = s.figure - 1 := by rw [hu]; exact opensAt_figure (s := s.elapse dt) noPiece free
  have exec_start : exec (.start dt tag (BitVec.ofNat 8 n.1)) s =
      .next ((u.lowTest.startState n).responded tag s.unread .ok []) := by
    refine hostRequest_effect released taken ((startRequest_rested (s := s.elapse dt) operate rested).trans ?_)
    rw [startAllowed_taken (s := s.elapse dt)
      (by rw [show (s.elapse dt).faultForbidsStart n = false from noFault]; decide)
      (by rw [show (s.elapse dt).strandPresent n = false from dry]; decide)
      (fun h => absurd h.2 (Nat.not_lt.mpr room)), State.startStation, effects, considerStart_eq, arbiter, arbiterHere,
      if_neg fun both => idle both.1]
  have own : ((u.lowTest.startState n).station n).state = .running ∧
      ((u.lowTest.startState n).station n).order = some slot ∧
      ((u.lowTest.startState n).station n).reasons = ⟨false, false, false⟩ ∧
      ((u.lowTest.startState n).station n).piece = some i := by
    rw [stations, if_pos rfl, station, if_pos rfl, Station.enter_state, Station.enter_order, Station.enter_reasons,
      Station.enter_piece]
    exact ⟨rfl, order, rfl, rfl⟩
  have record (j : Fin 64) : (u.lowTest.startState n).record j = if j = i then
      some ((s.elapse dt).newPiece n slot ((s.elapse dt).orderTag slot) s.openSerial) else s.record j := by
    have same : (u.lowTest.startState n).record j = u.lowTest.record j := congrArg (·.records[j.1]) table
    rw [same, lowTest_record, hu, opensAt_record (s := s.elapse dt) noPiece]
    rfl
  have tag' : (s.elapse dt).orderTag slot = o.tag := by unfold State.orderTag; rw [State.elapse_orderAt, loaded]
  have serial : (u.lowTest.startState n).table.nextSerial = nextSerial s.openSerial := by
    rw [table, lowTest_nextSerial, hu, opensAt_table (s := s.elapse dt) noPiece]
    rfl
  refine ⟨u.lowTest.startState n, i, s.newBody n, exec_start, free, firstFree_lowest (s := s.elapse dt) lowest,
    (openSerial_fresh ⟨i, free⟩).1, ?new, fun l e => ?coil, fun e => ?panel, fun j other => (record j).trans (if_neg other),
    serial, ?armed, ?notices, own.1, own.2.1, own.2.2.1, own.2.2.2, fun m other => ?others, fun l e => ?lay,
    fun l other => ?otherLay, ?loom, ?rest⟩
  case new =>
    rw [record, if_pos rfl, tag']
    rfl
  case coil =>
    unfold State.newBody
    rw [e, layOf_ofLay]
  case panel =>
    unfold State.newBody
    rw [e, layOf_eq_none.mpr rfl]
  case armed =>
    rw [table, lowTest_lowArmed, figure]
    rw [hu, opensAt_steady.params]
    rfl
  case notices =>
    rw [notices, lowTest_notices, figure]
    rw [hu, opensAt_steady.params, opensAt_table (s := s.elapse dt) noPiece]
    have same : (((s.elapse dt).opensAt n slot i).notice partSlot .tableLow).notices =
        (s.notice partSlot .tableLow).notices := by
      unfold State.notice
      rw [opensAt_notices]
      rfl
    rw [same, opensAt_notices]
    rfl
  case others => rw [stations, if_neg other, station, if_neg other]
  case lay =>
    rw [lay, if_pos ⟨e, rfl⟩, freshLay_spelled, steadyHere.clocks, State.layParams, steadyHere.params, lowTest_lay, hu,
      opensAt_lay, if_pos e]
    rfl
  case otherLay => rw [lay, if_neg fun both => other both.1, lowTest_lay, hu, opensAt_lay, if_neg other]; rfl
  case loom =>
    rw [inspector, State.partTimer, steadyHere.clocks, steadyHere.params, lowTest_inspector, hu, opensAt_inspector]
    by_cases e : n = loom
    · rw [if_pos ⟨e, rfl⟩, if_pos e, if_pos e]
      rfl
    · rw [if_neg fun both => e both.1, if_neg e, if_neg e]
      rfl
  case rest =>
    have packHere : (u.lowTest.startState n).pack = s.pack := by rw [pack, lowTest_pack, hu, opensAt_pack]; rfl
    have collectorHere : (u.lowTest.startState n).collector = s.collector := by
      rw [collector, lowTest_collector, hu, opensAt_collector]
      rfl
    refine (steadyHere.trans steady).frame.trans ?_
    rw [packHere, collectorHere, arbiter.trans arbiterHere]
    rfl

end Sys2Proof.Machine
end

