-- ==== Sys2Proof/Proofs/Timers.lean ====
section
/-!
PROOF. Waiting for a timer, the permit output, the demand pulses and the stall timers, and the input lines of a lay
station (R1, R25, R42 to R44, R62, R63, R79, R158).
-/
namespace Sys2Proof.Machine

/-! ### Waiting (R1) -/

theorem waitPart_frame (s : State) (t : Timer) : s.waitPart t = { s with clocks := (s.waitPart t).clocks } := by
  unfold State.waitPart
  split <;> rfl

theorem left_eq_zero {t : Timer} {now : Word32} (h : t.span ≤ (now - t.start).toNat) : t.left now = 0 :=
  Nat.sub_eq_zero_of_le h

/-- A reading so much later than one of that age is as much older. -/
theorem age_later (now start : Word32) {n : Nat} (h : (now - start).toNat + n < 4294967296) :
    (now + BitVec.ofNat 32 n - start).toNat = (now - start).toNat + n := by
  have split : now + BitVec.ofNat 32 n - start = (now - start) + BitVec.ofNat 32 n := by bv_omega
  rw [split, BitVec.toNat_add, BitVec.toNat_ofNat]
  omega

/-- Settles O30. -/
theorem expiryWaitsUntilTimerRunsOut : Obligations.ExpiryWaitsUntilTimerRunsOut := by
  intro s t span
  refine ⟨fun out => ?_, fun runs => ⟨?_, rfl⟩, fun out => ?_, fun runs phase => ?_⟩
  · rw [State.waitMark, left_eq_zero out]
  · have left : t.left s.clocks.mark = t.span - (s.clocks.mark - t.start).toNat := rfl
    refine (age_later s.clocks.mark t.start (n := t.left s.clocks.mark) (by omega)).trans ?_
    omega
  · exact if_pos (left_eq_zero out)
  · have left : t.left s.clocks.part = t.span - (s.clocks.part - t.start).toNat := rfl
    have waits : s.waitPart t = s.elapse (t.left s.clocks.part * 1000 - s.clocks.phase) := if_neg (by omega)
    rw [waits]
    obtain ⟨d, hd⟩ : ∃ d, d = t.left s.clocks.part := ⟨_, rfl⟩
    rw [← hd] at left ⊢
    have whole : (s.clocks.phase + (d * 1000 - s.clocks.phase)) / 1000 = d := by omega
    refine ⟨?_, ?_, rfl⟩
    · show (s.clocks.part + BitVec.ofNat 32 ((s.clocks.phase + (d * 1000 - s.clocks.phase)) / 1000) - t.start).toNat = _
      rw [whole, age_later _ _ (by omega)]
      omega
    · show (s.clocks.phase + (d * 1000 - s.clocks.phase)) % 1000 = 0
      omega

/-! ### The permit output (R158) -/

theorem permitted_iff (st : StationState) :
    st.permitted = true ↔ st = .running ∨ st = .holding ∨ st = .cutting := by cases st <;> decide

theorem permitGiven_iff (s : State) (n : Fin 9) : s.permitGiven n = true ↔ s.port.mode = .operate ∧
    ((s.station n).state = .running ∨ (s.station n).state = .holding ∨ (s.station n).state = .cutting) := by
  rw [State.permitGiven, Bool.and_eq_true, permitted_iff, beq_iff_eq]

/-- A given permit's output in PULSED mode is the level of its pulse train. -/
theorem permitLevel_pulsed {s : State} {n : Fin 9} (pulsed : s.params.part.permitMode = .pulsed)
    (given : s.permitGiven n = true) : s.permitLevel n = (s.station n).pulseHigh := by
  rw [State.permitLevel, given, pulsed]
  rfl

/-- Settles O20. -/
theorem permitFollowsStateAndMode : Obligations.PermitFollowsStateAndMode := by
  intro s n
  refine ⟨permitGiven_iff s n, fun withdrawn => ?low, fun static => ?static, fun pulsed given dt => ?toggles,
    fun still dt => ?still⟩
  case low => rw [State.permitLevel, withdrawn, Bool.false_and]
  case static =>
    rw [State.permitLevel, static]
    exact Bool.and_true _
  case toggles =>
    intro u
    have waited : u = { s.elapse dt with clocks := u.clocks } := waitPart_frame (s.elapse dt) _
    have toggled : (s.elapse dt).togglePermit n = u.changePermit n := if_pos ⟨pulsed, given⟩
    have station (m : Fin 9) : (u.changePermit n).station m =
        if m = n then { s.station m with pulseHigh := !(s.station m).pulseHigh, pulseAt := u.clocks.part }
        else s.station m := by
      rw [State.changePermit, State.modStation_station, waited]
      rfl
    have params : (u.changePermit n).params = s.params := (congrArg State.params waited).trans rfl
    have givenAfter : (u.changePermit n).permitGiven n = true := by
      have mode : (u.changePermit n).port = s.port := (congrArg State.port waited).trans rfl
      rw [permitGiven_iff, mode, station, if_pos rfl]
      exact (permitGiven_iff s n).mp given
    refine ⟨u.changePermit n, congrArg Host.Outcome.next toggled, ?_, givenAfter, ?_, fun m other => ?_, rfl⟩
    · rw [permitLevel_pulsed (by rw [params]; exact pulsed) givenAfter, permitLevel_pulsed pulsed given, station,
        if_pos rfl]
    · rw [station, if_pos rfl]
    · rw [station, if_neg other]
  case still =>
    have none : ¬ (s.params.part.permitMode = .pulsed ∧ s.permitGiven n = true) := by
      rintro ⟨pulsed, given⟩
      obtain static | withdrawn := still
      · rw [static] at pulsed; cases pulsed
      · rw [withdrawn] at given; cases given
    exact congrArg Host.Outcome.next (if_neg none)

/-! ### Demand pulses (R42) -/

theorem exec_demandPulse (dt : Nat) (l : Fin 8) (s : State) :
    exec (.demandPulse dt l) s = .next ((s.elapse dt).pulse l) := rfl

/-- Settles O28. -/
theorem demandPulsesFollowTheDemand : Obligations.DemandPulsesFollowTheDemand := by
  intro s dt l emitted
  refine ⟨fun zero => ?_, fun nonzero first => ?_, fun last nonzero before => ?_⟩
  · rw [exec_demandPulse, State.pulse, State.elapse_lay, if_pos zero]
  · rw [exec_demandPulse, State.pulse, State.elapse_lay, if_neg nonzero, first]
    rfl
  · rw [exec_demandPulse, State.pulse, State.elapse_lay, if_neg nonzero, before]
    rfl

/-! ### Stall timers (R43, R44, R79) -/

theorem exec_stallTimerExpiry (dt : Nat) (l : Fin 8) (s : State) :
    exec (.stallTimerExpiry dt l) s = .next ((s.elapse dt).stallExpiry l) := rfl

theorem exec_rowStallTimerExpiry (dt : Nat) (s : State) :
    exec (.rowStallTimerExpiry dt) s = .next ((s.elapse dt).rowStallExpiry) := rfl

/-- Settles O29. -/
theorem stallTimersRaiseTheirFaults : Obligations.StallTimersRaiseTheirFaults := by
  intro s dt
  refine ⟨fun l t armed runs => ?_, fun l idle => ?_, fun t armed runs => ?_, fun idle => ?_⟩
  · rw [exec_stallTimerExpiry, State.stallExpiry, State.elapse_lay, armed]
    exact congrArg Host.Outcome.next (if_pos runs)
  · rw [exec_stallTimerExpiry, State.stallExpiry, State.elapse_lay]
    cases armed : (s.lay l).stall with
    | none => rfl
    | some t => exact congrArg Host.Outcome.next (if_neg (idle.resolve_left (by rw [armed]; exact Option.some_ne_none t)))
  · rw [exec_rowStallTimerExpiry, State.rowStallExpiry, State.elapse_inspector, armed]
    exact congrArg Host.Outcome.next (if_pos runs)
  · rw [exec_rowStallTimerExpiry, State.rowStallExpiry, State.elapse_inspector]
    cases armed : s.inspector.rowTimer with
    | none => rfl
    | some t => exact congrArg Host.Outcome.next (if_neg (idle.resolve_left (by rw [armed]; exact Option.some_ne_none t)))

/-! ### Encoder lines (R25) -/

theorem exec_countArrival (dt : Nat) (l : Fin 8) (enc : Encoder) (a b : Bool) (s : State) :
    exec (.countArrival dt l enc a b) s = .next ((s.elapse dt).linesAt l enc ⟨a, b⟩) := rfl

theorem linesAt_unchanged {s : State} {l : Fin 8} {enc : Encoder} {new : Pair}
    (h : quadrature ((s.layPins l).pair enc) new = none) : s.linesAt l enc new = s.setLines l enc new := by
  unfold State.linesAt State.decodeCount
  rw [h]
  rfl

theorem linesAt_unbound {s : State} {l : Fin 8} (h : (s.station (ofLay l)).state = .unbound) (enc : Encoder)
    (new : Pair) : s.linesAt l enc new = s.setLines l enc new := by
  have notBound : ¬ (s.pins.reset = false ∧ s.bound (ofLay l) = true) := fun both => by
    have bound := both.2
    rw [State.bound, h] at bound
    cases bound
  unfold State.linesAt
  split
  · exact if_neg notBound
  · rfl

/-- Settles O26. -/
theorem quadratureDecodesOneLineAtATime : Obligations.QuadratureDecodesOneLineAtATime := by
  have back : ∀ a b x y : Bool,
      quadrature ⟨x, y⟩ ⟨a, b⟩ = (quadrature ⟨a, b⟩ ⟨x, y⟩).map (Sense.apply .inverted) := by decide
  have turned (d : Direction) : Sense.apply .inverted d ≠ d := by cases d <;> decide
  refine ⟨by decide, fun ⟨a, b⟩ ⟨x, y⟩ d h => ⟨_, (back a b x y).trans (by rw [h]; rfl), turned d⟩, fun d => ⟨turned d, rfl⟩,
    fun s dt l enc a b idle => ?_⟩
  obtain unbound | still := idle
  · exact congrArg Host.Outcome.next (linesAt_unbound (s := s.elapse dt) unbound enc ⟨a, b⟩)
  · exact congrArg Host.Outcome.next (linesAt_unchanged (s := s.elapse dt) still)

/-! ### Strand-out inputs (R62, R63) -/

theorem exec_strandOutAssertion {s : State} (released : s.pins.reset = false) (dt : Nat) (l : Fin 8) (j : Fin 4) :
    exec (.strandOutAssertion dt l j) s =
      .next (((s.elapse dt).setStrand l j (assertLevel (s.layParams l).strandEdge)).strandAt l j) := by
  show Host.Outcome.next ((s.elapse dt).assertStrand l j) = _
  rw [State.assertStrand, State.elapse_pins, released]
  rfl

theorem strandAt_of_rope {s : State} {l : Fin 8} {f : RopeOrder} (h : s.rope (ofLay l) = some f) (j : Fin 4) :
    s.strandAt l j =
      if (s.station (ofLay l)).state ≠ .unbound ∧ j.1 < f.strands then
        (s.modLay l fun x => { x with strandOut := x.strandOut ||| BitVec.twoPow 4 j.1 }).raise (ofLay l) .strandOut
      else s := by
  unfold State.strandAt
  rw [h]
  simp only [State.bound, decide_eq_true_eq]

theorem strandAt_unbound {s : State} {l : Fin 8} (h : (s.station (ofLay l)).state = .unbound) (j : Fin 4) :
    s.strandAt l j = s := by
  cases rope : s.rope (ofLay l) with
  | none => unfold State.strandAt; rw [rope]
  | some f => exact (strandAt_of_rope rope j).trans (if_neg fun both => both.1 h)

/-- Settles O27. -/
theorem strandOutJoinsSetAndRaises : Obligations.StrandOutJoinsSetAndRaises := by
  intro s dt l j released up
  refine ⟨fun f bound rope used => ?_, fun unbound => ?_, fun f rope unused => ?_, rfl⟩
  · rw [exec_strandOutAssertion released, strandAt_of_rope (s := up) rope, if_pos ⟨bound, used⟩]
  · rw [exec_strandOutAssertion released, strandAt_unbound (s := up) unbound]
  · rw [exec_strandOutAssertion released, strandAt_of_rope (s := up) rope,
      if_neg fun both => absurd both.2 (Nat.not_lt.mpr unused)]

end Sys2Proof.Machine
end

