-- ==== Sys2Proof/Proofs/FlyerMarks.lean ====
section
/-!
PROOF. Flyer marks beyond the first: the intervals that are not integrated and the forward interval (R27, R31 to R40).
-/
namespace Sys2Proof.Machine

/-! ### The quality fields of the open coil -/

/-- Writes of a coil that agree on the coil the record holds are the same write. -/
theorem modCoil_congr {s : State} {i : Fin 64} {f g : Coil → Coil}
    (h : ∀ p c, s.record i = some p → p.body = .coil c → f c = g c) : s.modCoil i f = s.modCoil i g := by
  unfold State.modCoil State.modPiece
  refine congrArg (s.setRecord i) (Option.map_congr fun p hp => ?_)
  cases body : p.body with
  | coil c => exact congrArg (fun c => { p with body := .coil c }) (h p c hp body)
  | panel _ => rfl

section
variable {s : State} {n : Fin 9} {i : Fin 64} {p : Piece} {q : Coil}

theorem openQuality_of_coil (piece : (s.station n).piece = some i) (record : s.record i = some p)
    (coil : p.body = .coil q) : s.openQuality n = q.quality := by
  simp [State.openQuality, State.openPiece?, piece, record, coil, Piece.coil?]

/-- The quality fields written are those of a write of the coil that leaves them so. -/
theorem setOpenQuality_of_coil (piece : (s.station n).piece = some i) (record : s.record i = some p)
    (coil : p.body = .coil q) {quality : LayQuality} {f : Coil → Coil} (writes : f q = { q with quality := quality }) :
    s.setOpenQuality n quality = s.modCoil i f := by
  unfold State.setOpenQuality
  rw [piece]
  refine modCoil_congr fun p' c hp hc => ?_
  obtain rfl := Option.some.inj (record.symm.trans hp)
  obtain rfl := PieceBody.coil.inj (coil.symm.trans hc)
  exact writes.symm

end

/-! ### A mark by its interval (R31 to R33) -/

theorem markArrival_of_some {k : Tracker} {prev : Word32} (m : MarkFrame) (q : LayQuality) (t : Word32)
    (h : k.tPrev = some prev) : markArrival m k q t =
      if age t prev < m.params.tMin then ⟨k.close t, q, none, [.flyerOverspeed]⟩
      else if k.count < 0 then reverseInterval m k q t
      else if isLoss k.ring (age t prev) then
        ⟨{ k.close t with ring := [], reverse := 0, reacquire := true }, q, none, [.markLoss]⟩
      else forwardInterval m k q t (age t prev) := by
  unfold markArrival
  rw [h]

/-- R27: a mark outside RUNNING and an edge of the other direction are none. -/
theorem exec_flyerMark_other {s : State} {l : Fin 8} {edge : Edge} (dt : Nat) (released : s.pins.reset = false)
    (other : (s.station (ofLay l)).state ≠ .running ∨ edge ≠ (s.layParams l).markEdge) :
    exec (.flyerMark dt l edge) s = .next (s.elapse dt) := by
  have arrival : exec (.flyerMark dt l edge) s =
      .next (if edge = (s.layParams l).markEdge then (s.elapse dt).markAt l else s.elapse dt) := by
    show lineArrival dt _ s = _
    unfold lineArrival
    rw [released]
    rfl
  rw [arrival]
  split
  · rename_i same
    exact congrArg Host.Outcome.next (if_neg (other.resolve_right fun h => h same))
  · rfl

/-- Settles O22. -/
theorem unusableIntervalsAreNotIntegrated : Obligations.UnusableIntervalsAreNotIntegrated := by
  refine ⟨fun s dt l edge released other => exec_flyerMark_other dt released other,
    fun s dt l f c prev released runs rope consts before => ?_⟩
  intro u k interval ts closed
  have mark := (exec_flyerMark_markEdge dt l released).trans
    (congrArg Host.Outcome.next (markAt_of_running (s := u) runs rope consts))
  have arrival := markArrival_of_some ⟨u.layParams l, f, c⟩ (u.openQuality (ofLay l)) u.clocks.mark before
  refine ⟨fun fast => ?overspeed, fun slow backward i p q piece record coil => ?reverse, fun slow forward two lost => ?lost⟩
  case overspeed =>
    rw [mark]
    refine congrArg Host.Outcome.next ?_
    have closes := arrival.trans (if_pos fast)
    exact (congrArg (u.afterMark l ⟨u.layParams l, f, c⟩) closes).trans (afterMark_of_unintegrated u l _ _ _)
  case lost =>
    rw [mark]
    refine congrArg Host.Outcome.next ?_
    have closes := arrival.trans ((if_neg (Nat.not_lt.mpr slow)).trans ((if_neg (Int.not_lt.mpr forward)).trans
      (if_pos (decide_eq_true ⟨two, lost⟩))))
    exact (congrArg (u.afterMark l ⟨u.layParams l, f, c⟩) closes).trans (afterMark_of_unintegrated u l _ _ _)
  case reverse =>
    intro v
    rw [mark]
    refine congrArg Host.Outcome.next ?_
    have reversed := arrival.trans ((if_neg (Nat.not_lt.mpr slow)).trans (if_pos backward))
    have written : (closed { k with
          reverse := if k.reverse < (s.layParams l).rMax then k.reverse + 1 else k.reverse
          reacquire := true }).setOpenQuality (ofLay l)
        { q.quality with reverse := satSucc Config.countSat q.quality.reverse } = v :=
      setOpenQuality_of_coil (s := closed _) piece record coil rfl
    have taken : u.afterMark l ⟨u.layParams l, f, c⟩
        (reverseInterval ⟨u.layParams l, f, c⟩ k (u.openQuality (ofLay l)) u.clocks.mark) =
        v.raiseAll (ofLay l) (if k.reverse + 1 = (s.layParams l).rMax then [.reverseRun] else []) := by
      rw [openQuality_of_coil (s := u) piece record coil, ← written]
      rfl
    refine (congrArg (u.afterMark l ⟨u.layParams l, f, c⟩) reversed).trans (taken.trans ?_)
    split <;> rfl

/-! ### The forward interval (R34 to R40) -/

theorem pushInterval_eq_drop {ring : List Nat} (dt : Nat) (h : ring.length ≤ 4) :
    pushInterval ring dt = (ring ++ [dt]).drop ((ring ++ [dt]).length - 4) := by
  have length : (ring ++ [dt]).length = ring.length + 1 := by simp
  unfold pushInterval
  rw [length]
  split
  · rename_i full
    have four : ring.length = 4 := Nat.le_antisymm h full
    obtain ⟨a, rest, rfl⟩ := List.exists_cons_of_length_eq_add_one four
    rw [four]
    rfl
  · rename_i room
    have none : ring.length + 1 - 4 = 0 := by simp only [Config.ringSize] at room; omega
    rw [none, List.drop_zero]

theorem drop_append_drop (ring : List Nat) (a b : Nat) :
    ((ring ++ [a]).drop ((ring ++ [a]).length - 4) ++ [b]).drop
        (((ring ++ [a]).drop ((ring ++ [a]).length - 4) ++ [b]).length - 4) =
      (ring ++ [a, b]).drop ((ring ++ [a, b]).length - 4) := by
  rw [← List.drop_append_of_le_length (Nat.sub_le _ _), List.drop_drop, List.append_assoc]
  congr 1
  simp only [List.length_drop, List.length_append, List.length_cons, List.length_nil, List.singleton_append]
  omega

/-- The ring after a forward interval holds the last four of the intervals (R34). -/
theorem pushForward_eq_drop {ring : List Nat} (dt : Nat) (h : ring.length ≤ 4) : pushForward ring dt =
    (ring ++ if isDouble ring dt then [dt / 2, dt - dt / 2] else [dt]).drop
      ((ring ++ if isDouble ring dt then [dt / 2, dt - dt / 2] else [dt]).length - 4) := by
  unfold pushForward
  cases isDouble ring dt
  · exact pushInterval_eq_drop dt h
  · refine (pushInterval_eq_drop _ (pushInterval_length _ _ h)).trans ?_
    rw [pushInterval_eq_drop _ h, drop_append_drop]
    rfl

theorem beyond_iff (limit : Nat) (pos : Int) : limit * 1000 < pos.natAbs ↔ ((limit * 1000 : Int) < |pos|) := by
  rw [Int.abs_eq_natAbs]
  omega

/-- What a forward interval leaves, by the re-acquire flag (R34 to R37, R39, R40). -/
theorem forwardInterval_spelled (m : MarkFrame) (k : Tracker) (q : LayQuality) (t : Word32) (dt : Nat) :
    let double := isDouble k.ring dt
    let pos := if k.reacquire then k.pos else integrated m k.pos k.count double
    let drift := if k.reacquire then k.driftAbove else drifts m pos
    forwardInterval m k q t dt = demandStep m
      { k with ring := pushForward k.ring dt, reverse := 0, pos := pos, reacquire := false, driftAbove := drift }
      (if k.reacquire then q else q.integrate m pos double)
      (if k.reacquire = false ∧ drift = true ∧ k.driftAbove = false then [.layDrift] else []) t := by
  intro double pos drift
  unfold forwardInterval
  cases flag : k.reacquire
  · simp only [pos, drift, flag, Bool.false_eq_true, if_false, true_and]
    rfl
  · simp only [pos, drift, flag, if_true]
    rfl

/-- A mark that computes a demand writes the tracker, the demand and the stall timer, then the coil's quality fields,
and then its faults are taken (R38, R42, R43). -/
theorem afterMark_of_demand {s : State} {l : Fin 8} {i : Fin 64} {p : Piece} {q : Coil} (m : MarkFrame)
    (piece : (s.station (ofLay l)).piece = some i) (record : s.record i = some p) (coil : p.body = .coil q)
    (k : Tracker) (quality : LayQuality) (demand : Nat) (faults : List FaultKind) :
    s.afterMark l m ⟨k, quality, some demand, faults⟩ =
      ((s.modLay l fun x => { x with
          tracker := k
          demand := demand
          lastPulse := if demand = 0 then none else x.lastPulse
          stall := some ⟨s.clocks.mark, m.params.tMax⟩ }).modCoil i fun q =>
            { q with quality := quality }).raiseAll (ofLay l) faults := by
  have lay : (fun x : LayStation => x.afterMark ⟨k, quality, some demand, faults⟩ (s.markTimer m.params.tMax)) =
      fun x => { x with
          tracker := k
          demand := demand
          lastPulse := if demand = 0 then none else x.lastPulse
          stall := some ⟨s.clocks.mark, m.params.tMax⟩ } := by
    funext x
    show LayStation.setDemand _ demand = _
    unfold LayStation.setDemand
    split
    · rename_i zero
      rw [zero]
      rfl
    · rfl
  unfold State.afterMark
  rw [lay]
  exact congrArg (fun u => u.raiseAll (ofLay l) faults)
    (setOpenQuality_of_coil (s := s.modLay l _) (f := fun q => { q with quality := quality }) piece record coil rfl)

/-- Settles O23. -/
theorem forwardIntervalSetsDemand : Obligations.ForwardIntervalSetsDemand := by
  intro s dt l f c prev i p q released runs rope consts before piece record coil u w k interval ts slow forward kept
    double pushes ring scale sum pos drift raw out demand quality few
  have arrival := markArrival_of_some ⟨w, f, c⟩ (u.openQuality (ofLay l)) u.clocks.mark before
  have noLoss : ¬ isLoss k.ring interval = true := fun lost => kept (of_decide_eq_true lost)
  have isForward := arrival.trans ((if_neg (Nat.not_lt.mpr slow)).trans ((if_neg (Int.not_lt.mpr forward)).trans
    (if_neg noLoss)))
  have scaled : ((w.scale w.source.encoder : Nat) : Int) = scale := by
    show _ = (match w.source with
      | .capstan => (w.capScale : Int)
      | .meter => w.meterScale)
    cases w.source <;> rfl
  have pushed : pushForward k.ring interval = ring := pushForward_eq_drop interval few
  have integral : integrated ⟨w, f, c⟩ k.pos k.count double = max (-c.bound) (min c.bound sum) := by
    unfold integrated
    rw [scaled]
    rfl
  have error : (if k.reacquire then k.pos else integrated ⟨w, f, c⟩ k.pos k.count double) = pos := by rw [integral]
  have beyond : (if k.reacquire then k.driftAbove else drifts ⟨w, f, c⟩ pos) = drift := by
    show _ = if k.reacquire then k.driftAbove else _
    refine congrArg (ite _ _) ?_
    exact decide_eq_decide.mpr (beyond_iff f.drift pos)
  have fields : (if k.reacquire then q.quality else q.quality.integrate ⟨w, f, c⟩ pos double) = quality := by
    have excursions : (if f.band * 1000 < pos.natAbs then satSucc 65535 q.quality.excursions else q.quality.excursions) =
        if (f.band * 1000 : Int) < |pos| ∧ q.quality.excursions < 65535 then q.quality.excursions + 1
        else q.quality.excursions := by
      rw [ite_and]
      exact if_congr (beyond_iff f.band pos) rfl rfl
    have inserted : (if double then satSucc 65535 q.quality.inserted else q.quality.inserted) =
        if double = true ∧ q.quality.inserted < 65535 then q.quality.inserted + 1 else q.quality.inserted := by
      rw [ite_and]
      rfl
    show _ = if k.reacquire then q.quality else _
    refine congrArg (ite _ _) ?_
    rw [← excursions, ← inserted]
    rfl
  have result : forwardInterval ⟨w, f, c⟩ k q.quality u.clocks.mark interval =
      ⟨⟨some u.clocks.mark, ring, 0, pos, false, 0,
          if out then (if k.saturation < f.persistence then k.saturation + 1 else k.saturation) else 0, drift⟩,
        quality, some demand,
        (if k.reacquire = false ∧ drift = true ∧ k.driftAbove = false then [.layDrift] else []) ++
          if out = true ∧ k.saturation + 1 = f.persistence then [.laySaturated] else []⟩ := by
    rw [forwardInterval_spelled, pushed]
    rw [show isDouble k.ring interval = double from rfl, error, beyond, fields]
    have faults (a b : List FaultKind) (h : Prop) [Decidable h] : (if h then a ++ b else a) = a ++ if h then b else [] := by
      split
      · rfl
      · exact (List.append_nil a).symm
    rw [← faults]
    rfl
  rw [exec_flyerMark_markEdge dt l released]
  refine congrArg Host.Outcome.next ?_
  rw [markAt_of_running (s := u) runs rope consts]
  refine (congrArg (u.afterMark l ⟨w, f, c⟩) (isForward.trans ?_)).trans (afterMark_of_demand (s := u) _ piece record coil ..)
  rw [openQuality_of_coil (s := u) piece record coil]
  exact result

end Sys2Proof.Machine
end

