-- ==== Sys2Proof/Proofs/Tally.lean ====
section
/-!
PROOF. What a fault and a consideration leave where it is, the tests after a count or a row, and the counts of a lay
station with their slip check (R25, R26, R51, R55, R57, R59, R60).
-/
namespace Sys2Proof.Machine

/-! ### What faults and considerations do not move -/

/-- The records, the serial counter and the pack line are as they were. -/
structure Unmoved (s t : State) : Prop where
  records : t.table.records = s.table.records
  nextSerial : t.table.nextSerial = s.table.nextSerial
  pack : t.pack = s.pack

theorem Unmoved.refl (s : State) : Unmoved s s := ⟨rfl, rfl, rfl⟩

theorem Unmoved.trans {s t u : State} (h : Unmoved s t) (k : Unmoved t u) : Unmoved s u :=
  ⟨k.records.trans h.records, k.nextSerial.trans h.nextSerial, k.pack.trans h.pack⟩

/-- From a part with the same records, serial counter and pack line. -/
theorem Unmoved.after {s t u : State} (h : Unmoved t u) (records : t.table.records = s.table.records := by rfl)
    (nextSerial : t.table.nextSerial = s.table.nextSerial := by rfl) (pack : t.pack = s.pack := by rfl) : Unmoved s u :=
  ⟨h.records.trans records, h.nextSerial.trans nextSerial, h.pack.trans pack⟩

theorem unmoved_lowTest (s : State) : Unmoved s s.lowTest :=
  ⟨lowTest_keeps s (·.table.records) fun _ _ => rfl, lowTest_nextSerial s, lowTest_pack s⟩

theorem unmoved_leaveFor (s : State) (n : Fin 9) (st : StationState) : Unmoved s (s.leaveFor n st) :=
  ⟨congrArg PieceTable.records (leaveFor_table s n st), congrArg PieceTable.nextSerial (leaveFor_table s n st),
    leaveFor_pack s n st⟩

theorem unmoved_grant (s : State) (n : Fin 9) : Unmoved s (s.grant n) :=
  ((unmoved_leaveFor { s with
    arbiter := s.arbiter.grant n (s.stationParams n).lane s.clocks.part
      (s.partTimer (s.params.part.cutTimeout * 1000)) } n .cutting).trans (unmoved_lowTest _)).after

theorem unmoved_considerWith (fuel : Nat) (s : State) : Unmoved s (considerWith fuel s) := by
  induction fuel generalizing s with
  | zero => exact Unmoved.refl s
  | succ fuel ih =>
    unfold considerWith
    split
    · exact (unmoved_grant s _).trans (ih _)
    · exact Unmoved.refl s

theorem unmoved_consider (s : State) : Unmoved s s.consider := unmoved_considerWith _ s

theorem unmoved_tripped (s : State) (n : Fin 9) : Unmoved s (s.tripped n) :=
  (unmoved_leaveFor ((s.dropRequest n).modReasons n fun _ => Reasons.empty) n .tripped).after

theorem unmoved_trip (s : State) (n : Fin 9) : Unmoved s (s.trip n) := by
  have taken : Unmoved s (s.tripStation n) := by
    unfold State.tripStation
    split
    · exact ((unmoved_tripped (s.abortCut n) n).trans ((unmoved_lowTest _).trans (unmoved_consider _))).after
    · exact unmoved_tripped s n
  unfold State.trip
  split
  · exact Unmoved.refl s
  · exact Unmoved.refl s
  · exact taken
  · exact taken
  · exact taken
  · exact taken

theorem unmoved_peerTrip (source : Fin 9) (s : State) (m : Fin 9) : Unmoved s (State.peerTrip source s m) := by
  unfold State.peerTrip
  split
  · exact (unmoved_trip (s.recordFault m .peerTrip (some source)) m).after
  · exact Unmoved.refl s

theorem unmoved_foldl {α : Type} {f : State → α → State} (hf : ∀ s a, Unmoved s (f s a)) (l : List α) (s : State) :
    Unmoved s (l.foldl f s) := by
  induction l generalizing s with
  | nil => exact Unmoved.refl s
  | cons a l ih => exact (hf s a).trans (ih _)

theorem unmoved_addReason (s : State) (n : Fin 9) (f : Reasons → Reasons) : Unmoved s (s.addReason n f) := by
  unfold State.addReason
  split
  · exact (unmoved_leaveFor (s.modReasons n f) n .holding).after
  · exact ⟨rfl, rfl, rfl⟩
  · exact ⟨rfl, rfl, rfl⟩
  · exact Unmoved.refl s
  · exact Unmoved.refl s
  · exact Unmoved.refl s

theorem unmoved_react (s : State) (n : Fin 9) (k : FaultKind) : Unmoved s (s.react n k) := by
  unfold State.react
  split
  · exact Unmoved.refl s
  · split
    · exact Unmoved.refl s
    · exact unmoved_addReason s n _
    · exact unmoved_trip s n
    · exact (unmoved_trip s n).trans (unmoved_foldl (unmoved_peerTrip n) _ _)

theorem unmoved_raise (s : State) (n : Fin 9) (k : FaultKind) : Unmoved s (s.raise n k) :=
  (unmoved_react (s.recordFault n k none) n k).after

/-- A consideration leaves the slip advances alone: a grant stops machines and nothing else of a lay station. -/
theorem consider_slip (s : State) (l : Fin 8) :
    (s.consider.lay l).slipCap = (s.lay l).slipCap ∧ (s.consider.lay l).slipMeter = (s.lay l).slipMeter := by
  have walk (fuel : Nat) (s : State) : ((considerWith fuel s).lay l).slipCap = (s.lay l).slipCap ∧
      ((considerWith fuel s).lay l).slipMeter = (s.lay l).slipMeter := by
    induction fuel generalizing s with
    | zero => exact ⟨rfl, rfl⟩
    | succ fuel ih =>
      unfold considerWith
      split
      · rename_i n _
        obtain ⟨cap, meter⟩ := ih (s.grant n)
        rw [cap, meter, State.grant, lowTest_lay, award_lay]
        split <;> exact ⟨rfl, rfl⟩
      · exact ⟨rfl, rfl⟩
  exact walk _ s

/-! ### What the overrun test touches (R57) -/

theorem steady_tallyTests (s : State) (n : Fin 9) : Steady s (s.tallyTests n) :=
  (steady_targetTest s n).trans ((steady_overrunTest _ n _).trans (steady_considerIf _ _))

section
variable {s : State} {n : Fin 9} {i : Fin 64}

theorem flagOverrun_of_piece (piece : (s.station n).piece = some i) :
    s.flagOverrun n = s.modPiece i fun p => { p with overrun := true } := by
  unfold State.flagOverrun
  rw [piece]

/-- The overrun test that takes effect, less its notice, goes through a state in which reason and flag stand. -/
theorem overrunHold_of_piece (piece : (s.station n).piece = some i) : s.overrunHold n =
    (((s.modReasons n fun r => { r with overrun := true }).modPiece i fun p => { p with overrun := true }).holdRunning
      n).notice (slotOfStation n) .overrunHold := by
  have still : ((s.modReasons n fun r => { r with overrun := true }).station n).piece = some i := by
    rw [State.modReasons_station, if_pos rfl]
    exact piece
  unfold State.overrunHold
  rw [flagOverrun_of_piece still]

theorem holdRunning_fields (s : State) (n : Fin 9) : (s.holdRunning n).table = s.table ∧
    (s.holdRunning n).notices = s.notices ∧ (s.holdRunning n).pack = s.pack ∧
    (s.holdRunning n).collector = s.collector ∧ (s.holdRunning n).inspector =
      if (s.station n).state = .running ∧ n = loom then { s.inspector with rowTimer := none } else s.inspector := by
  unfold State.holdRunning
  split
  · exact ⟨leaveFor_table s n _, leaveFor_notices s n _, leaveFor_pack s n _, leaveFor_collector s n _,
      leaveFor_inspector s n _⟩
  · rename_i stopped
    exact ⟨rfl, rfl, rfl, rfl, (if_neg fun both => stopped both.1).symm⟩

theorem overrunHold_fields (piece : (s.station n).piece = some i) :
    (s.overrunHold n).table = (s.modPiece i fun p => { p with overrun := true }).table ∧
    (s.overrunHold n).notices = (s.notice (slotOfStation n) .overrunHold).notices ∧
    (s.overrunHold n).pack = s.pack ∧ (s.overrunHold n).collector = s.collector ∧
    (s.overrunHold n).inspector =
      if (s.station n).state = .running ∧ n = loom then { s.inspector with rowTimer := none } else s.inspector := by
  obtain ⟨u, hu⟩ : ∃ u, u = (s.modReasons n fun r => { r with overrun := true }).modPiece i fun p =>
    { p with overrun := true } := ⟨_, rfl⟩
  obtain ⟨table, notices, pack, collector, inspector⟩ := holdRunning_fields u n
  have state : (u.station n).state = (s.station n).state := by
    rw [hu, State.modPiece_station, State.modReasons_station, if_pos rfl]
  rw [state] at inspector
  rw [overrunHold_of_piece piece, ← hu]
  refine ⟨?_, ?_, ?_, ?_, ?_⟩
  · exact table.trans (by rw [hu]; rfl)
  · unfold State.notice
    rw [notices, hu]
    rfl
  · exact pack.trans (by rw [hu]; rfl)
  · exact collector.trans (by rw [hu]; rfl)
  · exact inspector.trans (by rw [hu]; rfl)

end

/-! ### The tests after a count or a row (R55, R57) -/

/-- What the two tests after a count or a row make of a part whose station n has the open piece p in record i, before
any consideration. -/
structure Tallied (s : State) (n : Fin 9) (i : Fin 64) (p : Piece) (joins overrun : Bool) (t : State) : Prop where
  own : t.station n = if overrun then
    { s.station n with state := .holding, reasons := { (s.station n).reasons with overrun := true } } else s.station n
  others : ∀ m, m ≠ n → t.station m = s.station m
  arbiter : t.arbiter = { s.arbiter with waiting := if joins then s.arbiter.waiting ++ [n] else s.arbiter.waiting }
  lay : ∀ l, t.lay l =
    if overrun = true ∧ (s.station n).state = .running ∧ n = ofLay l then (s.lay l).stop else s.lay l
  inspector : t.inspector = if overrun = true ∧ (s.station n).state = .running ∧ n = loom
    then { s.inspector with rowTimer := none } else s.inspector
  record : t.record i = some { p with overrun := p.overrun || overrun }
  otherRecords : ∀ j, j ≠ i → t.record j = s.record j
  table : t.table = { s.table with records := t.table.records }
  notices : t.notices = if overrun then (s.notice (slotOfStation n) .overrunHold).notices else s.notices
  pack : t.pack = s.pack
  collector : t.collector = s.collector
  steady : Steady s t

section
variable {s : State} {n : Fin 9} {i : Fin 64} {p : Piece} {o : Order}

theorem requestDue_of_open (piece : (s.station n).piece = some i) (record : s.record i = some p)
    (order : s.boundOrder n = some o) : s.requestDue n = decide (o.target ≤ p.extent ∧ n ∉ s.arbiter.waiting ∧
      ((s.station n).state = .ready ∨ (s.station n).state = .running ∨ (s.station n).state = .holding)) := by
  rw [Bool.eq_iff_iff, requestDue_iff, reached_of_open piece record order, decide_eq_true_iff, decide_eq_true_iff]

theorem tallied_targetTest (record : s.record i = some p) :
    Tallied s n i p (s.requestDue n) false (s.targetTest n) := by
  rw [targetTest_spelled]
  exact
    { own := rfl
      others := fun _ _ => rfl
      arbiter := rfl
      lay := fun l => (if_neg fun h => by cases h.1).symm
      inspector := (if_neg fun h => by cases h.1).symm
      record := record.trans (by rw [Bool.or_false])
      otherRecords := fun _ _ => rfl
      table := rfl
      notices := rfl
      pack := rfl
      collector := rfl
      steady := ⟨rfl, rfl, rfl, rfl, rfl, rfl⟩ }

/-- The overrun test where it takes effect, at a station that runs or holds. -/
theorem Tallied.overrunHold {joins : Bool} {t : State} (h : Tallied s n i p joins false t)
    (piece : (s.station n).piece = some i) (working : (s.station n).state = .running ∨ (s.station n).state = .holding)
    (operate : (s.station n).state = .running → s.port.mode = .operate) :
    Tallied s n i p joins true (t.overrunHold n) := by
  have own : t.station n = s.station n := h.own
  have notices : t.notices = s.notices := h.notices
  have lays (l : Fin 8) : t.lay l = s.lay l := (h.lay l).trans (if_neg fun h => by cases h.1)
  have inspector : t.inspector = s.inspector := h.inspector.trans (if_neg fun h => by cases h.1)
  obtain ⟨table, noticed, pack, collector, loomSide⟩ := overrunHold_fields (s := t) (by rw [own]; exact piece)
  have record (j : Fin 64) : (t.overrunHold n).record j =
      (t.modPiece i fun p => { p with overrun := true }).record j := congrArg (·.records[j.1]) table
  exact
    { own := by
        rw [overrunHold_station, if_pos rfl, own]
        dsimp only
        obtain runs | holds := working
        · rw [if_pos runs, enter_given _ (h.steady.port ▸ operate runs) rfl, runs, if_pos (by decide)]
          rfl
        · rw [if_neg (by rw [holds]; decide), ← holds]
          rfl
      others := fun m other => by rw [overrunHold_station, if_neg other, h.others m other]
      arbiter := (overrunHold_arbiter t n).trans h.arbiter
      lay := fun l => by
        rw [overrunHold_lay, own, lays]
        simp only [true_and]
      inspector := by
        rw [loomSide, own, inspector]
        simp only [true_and]
      record := by
        rw [record, State.modPiece_record, if_pos rfl, h.record, Bool.or_true]
        rfl
      otherRecords := fun j other => by rw [record, State.modPiece_record, if_neg other, h.otherRecords j other]
      table := by
        rw [table]
        show ({ t.table with records := _ } : PieceTable) = _
        rw [h.table]
        rfl
      notices := by
        rw [noticed, State.notice, notices]
        rfl
      pack := pack.trans h.pack
      collector := collector.trans h.collector
      steady := h.steady.trans (steady_overrunHold t n) }

theorem mayOverrun_iff (st : StationState) : st.mayOverrun false = true ↔ st = .running ∨ st = .holding := by
  cases st <;> decide

/-- Both tests, by the figures of the open piece (R55, R57). -/
theorem tallied_tests (piece : (s.station n).piece = some i) (record : s.record i = some p)
    (order : s.boundOrder n = some o) (operate : (s.station n).state = .running → s.port.mode = .operate) :
    let joins := decide (o.target ≤ p.extent ∧ n ∉ s.arbiter.waiting ∧
      ((s.station n).state = .ready ∨ (s.station n).state = .running ∨ (s.station n).state = .holding))
    Tallied s n i p joins (decide (o.limit ≤ p.extent ∧ (joins = true ∨ n ∈ s.arbiter.waiting) ∧
      ((s.station n).state = .running ∨ (s.station n).state = .holding) ∧ (s.station n).reasons.overrun = false))
      ((s.targetTest n).overrunTest n false) := by
  intro joins
  have tested := tallied_targetTest (n := n) record
  rw [requestDue_of_open piece record order] at tested
  have own : (s.targetTest n).station n = s.station n := tested.own
  have extent : (s.targetTest n).reached n Order.limit = decide (o.limit ≤ p.extent) := by
    have bound : (s.targetTest n).boundOrder n = some o := by
      have slots : (s.targetTest n).orderAt = s.orderAt := funext fun k => congrArg (·[k.1]) tested.steady.orders
      rw [State.boundOrder, own, slots]
      exact order
    rw [reached_of_open (by rw [own]; exact piece) tested.record bound]
    rfl
  have waits : n ∈ (s.targetTest n).arbiter.waiting ↔ joins = true ∨ n ∈ s.arbiter.waiting := by
    rw [tested.arbiter]
    show n ∈ (if joins = true then s.arbiter.waiting ++ [n] else s.arbiter.waiting) ↔ _
    cases joins <;> simp
  have takes : ((s.targetTest n).cutStatus n = .waiting ∧ ((s.targetTest n).station n).state.mayOverrun false = true ∧
      (s.targetTest n).reached n Order.limit = true ∧ ((s.targetTest n).station n).reasons.overrun = false) ↔
      (o.limit ≤ p.extent ∧ (joins = true ∨ n ∈ s.arbiter.waiting) ∧
        ((s.station n).state = .running ∨ (s.station n).state = .holding) ∧ (s.station n).reasons.overrun = false) := by
    rw [mayOverrun_iff, extent, decide_eq_true_iff, own]
    have notCutting (working : (s.station n).state = .running ∨ (s.station n).state = .holding) :
        ((s.targetTest n).station n).state ≠ .cutting := by
      rw [own]
      obtain e | e := working <;> rw [e] <;> decide
    constructor
    · rintro ⟨status, working, limit, fresh⟩
      exact ⟨limit, waits.mp ((cutStatus_waiting_iff (notCutting working)).mp status), working, fresh⟩
    · rintro ⟨limit, waiting, working, fresh⟩
      exact ⟨(cutStatus_waiting_iff (notCutting working)).mpr (waits.mpr waiting), working, limit, fresh⟩
  rw [State.overrunTest]
  by_cases h : o.limit ≤ p.extent ∧ (joins = true ∨ n ∈ s.arbiter.waiting) ∧
      ((s.station n).state = .running ∨ (s.station n).state = .holding) ∧ (s.station n).reasons.overrun = false
  · rw [if_pos (takes.mpr h), decide_eq_true h]
    exact tested.overrunHold piece h.2.2.1 operate
  · rw [if_neg fun both => h (takes.mp both), decide_eq_false h]
    exact tested

/-- Below the target, and with no request waiting, neither test does anything. -/
theorem tallyTests_below (piece : (s.station n).piece = some i) (record : s.record i = some p)
    (order : s.boundOrder n = some o) (below : p.extent < o.target) (idle : n ∉ s.arbiter.waiting) :
    s.tallyTests n = s := by
  have due : s.requestDue n = false := by
    rw [requestDue_of_open piece record order]
    exact decide_eq_false fun h => absurd h.1 (Nat.not_le.mpr below)
  have target : s.targetTest n = s := by
    unfold State.targetTest
    rw [due]
    rfl
  have status : s.cutStatus n ≠ .waiting := by
    unfold State.cutStatus
    rw [if_neg idle]
    split <;> decide
  unfold State.tallyTests
  rw [target, due, State.overrunTest, if_neg fun both => status both.1]
  rfl

end

end Sys2Proof.Machine
end

