-- ==== Sys2Proof/Proofs/Counts.lean ====
section
/-!
PROOF. The counts of a lay station: length, accumulator and advances, and the close of a slip span (R25, R26, R51, R55,
R57, R59, R60).
-/
namespace Sys2Proof.Machine

/-! ### A count that is taken (R25) -/

theorem modLay_modLay (s : State) (l : Fin 8) (f g : LayStation → LayStation) :
    (s.modLay l f).modLay l g = s.modLay l fun x => g (f x) := by
  simp [State.modLay, modifyAt]

theorem modLay_eq_self {s : State} {l : Fin 8} {f : LayStation → LayStation} (h : f (s.lay l) = s.lay l) :
    s.modLay l f = s := by
  have e : s.lays.set l.1 (f s.lays[l.1]) = s.lays := by
    rw [show f s.lays[l.1] = s.lays[l.1] from h]
    exact Vector.set_getElem_self l.2
  rw [State.modLay, modifyAt, e]

theorem linesAt_taken {s : State} {l : Fin 8} {enc : Encoder} {new : Pair} {d : Direction}
    (released : s.pins.reset = false) (bound : (s.station (ofLay l)).state ≠ .unbound)
    (decoded : s.decodeCount l enc ((s.layPins l).pair enc) new = some d) :
    s.linesAt l enc new = (s.setLines l enc new).countAt l enc d := by
  unfold State.linesAt
  rw [decoded]
  exact if_pos ⟨released, decide_eq_true bound⟩

/-- The step of an encoder's count. -/
def LayParams.step (p : LayParams) (enc : Encoder) (d : Direction) : Int := d.unit * (p.scale enc : Int)

theorem step_spelled (p : LayParams) (enc : Encoder) (d : Direction) :
    p.step enc d = d.unit * ((match enc with
      | .capstan => p.capScale
      | .meter => p.meterScale : Nat) : Int) := by cases enc <;> rfl

theorem advance_spelled (enc : Encoder) (step : Int) : (fun y : LayStation => y.advance enc step) =
    fun y => match enc with
      | .capstan => { y with slipCap := y.slipCap + step }
      | .meter => { y with slipMeter := y.slipMeter + step } := by cases enc <;> rfl

/-! ### The tally's part leaves the advances alone (R51) -/

theorem tallyTests_slip (s : State) (n : Fin 9) (l : Fin 8) : ((s.tallyTests n).lay l).slipCap = (s.lay l).slipCap ∧
    ((s.tallyTests n).lay l).slipMeter = (s.lay l).slipMeter := by
  have tests : (((s.targetTest n).overrunTest n false).lay l).slipCap = (s.lay l).slipCap ∧
      (((s.targetTest n).overrunTest n false).lay l).slipMeter = (s.lay l).slipMeter := by
    have target : (s.targetTest n).lay l = s.lay l := by rw [targetTest_spelled]; rfl
    unfold State.overrunTest
    split
    · rw [overrunHold_lay, target]
      split <;> exact ⟨rfl, rfl⟩
    · rw [target]
      exact ⟨rfl, rfl⟩
  unfold State.tallyTests State.considerIf
  split
  · obtain ⟨cap, meter⟩ := consider_slip ((s.targetTest n).overrunTest n false) l
    exact ⟨cap.trans tests.1, meter.trans tests.2⟩
  · exact tests

theorem tallyCount_slip (s : State) (l m : Fin 8) (d : Direction) :
    ((s.tallyCount l d).lay m).slipCap = (s.lay m).slipCap ∧
    ((s.tallyCount l d).lay m).slipMeter = (s.lay m).slipMeter := by
  unfold State.tallyCount
  split
  · split
    · exact tallyTests_slip (s.modCoil _ _) (ofLay l) m
    · exact ⟨rfl, rfl⟩
  · exact ⟨rfl, rfl⟩

theorem steady_trackCount (s : State) (l : Fin 8) (d : Direction) : Steady s (s.trackCount l d) := by
  unfold State.trackCount
  split
  · exact steady_modLay s l _
  · exact Steady.refl s

theorem steady_tallyCount (s : State) (l : Fin 8) (d : Direction) : Steady s (s.tallyCount l d) := by
  unfold State.tallyCount
  split
  · split
    · exact (steady_modCoil s _ _).trans (steady_tallyTests _ _)
    · exact Steady.refl s
  · exact Steady.refl s

theorem steady_sourceCount (s : State) (l : Fin 8) (enc : Encoder) (d : Direction) :
    Steady s (s.sourceCount l enc d) := by
  unfold State.sourceCount
  split
  · exact (steady_trackCount s l d).trans (steady_tallyCount _ l d)
  · exact Steady.refl s

theorem sourceCount_slip (s : State) (l : Fin 8) (enc : Encoder) (d : Direction) :
    ((s.sourceCount l enc d).lay l).slipCap = (s.lay l).slipCap ∧
    ((s.sourceCount l enc d).lay l).slipMeter = (s.lay l).slipMeter := by
  unfold State.sourceCount
  split
  · obtain ⟨cap, meter⟩ := tallyCount_slip (s.trackCount l d) l l d
    rw [cap, meter]
    unfold State.trackCount
    split
    · rw [State.modLay_lay, if_pos rfl]
      exact ⟨rfl, rfl⟩
    · exact ⟨rfl, rfl⟩
  · exact ⟨rfl, rfl⟩

/-! ### The slip check's part (R59, R60) -/

/-- The metering count that fills the span closes it; every other one moves its advance. -/
theorem slipCount_spelled (s : State) (l : Fin 8) (enc : Encoder) (d : Direction) : s.slipCount l enc d =
    if (s.layParams l).meterScale = 0 then s
    else if enc = .meter ∧ ((s.layParams l).slipSpan : Int) * 1000000000 ≤
        (s.lay l).slipMeter + (s.layParams l).step .meter d then
      (s.modLay l fun x => x.advance enc ((s.layParams l).step enc d)).closeSpan l
        (slipOf (s.lay l).slipCap ((s.lay l).slipMeter + (s.layParams l).step .meter d))
    else s.modLay l fun x => x.advance enc ((s.layParams l).step enc d) := by
  unfold State.slipCount
  refine if_congr Iff.rfl rfl ?_
  have own : (s.modLay l fun x => x.advance enc ((s.layParams l).step enc d)).lay l =
      (s.lay l).advance enc ((s.layParams l).step enc d) := by rw [State.modLay_lay, if_pos rfl]
  show (s.modLay l fun x => x.advance enc ((s.layParams l).step enc d)).spanTest l enc = _
  unfold State.spanTest
  rw [own]
  cases enc with
  | capstan => exact (if_neg fun both => by cases both.1).trans (if_neg fun both => by cases both.1).symm
  | meter =>
    refine if_congr (and_congr_right fun _ => ?_) rfl rfl
    rw [spanFull, decide_eq_true_iff]
    rfl

/-- A count that closes no span: the source's part, and then the advance, if the station was RUNNING. -/
theorem countAt_unclosed {s : State} {l : Fin 8} {enc : Encoder} {d : Direction}
    (room : (s.station (ofLay l)).state = .running → enc = .meter →
      (s.lay l).slipMeter + (s.layParams l).step .meter d < ((s.layParams l).slipSpan : Int) * 1000000000) :
    s.countAt l enc d = if (s.station (ofLay l)).state = .running ∧ (s.layParams l).meterScale ≠ 0 then
        (s.sourceCount l enc d).modLay l fun y => y.advance enc ((s.layParams l).step enc d)
      else s.sourceCount l enc d := by
  have params : (s.sourceCount l enc d).layParams l = s.layParams l :=
    congrArg (·.lay[l.1]) (steady_sourceCount s l enc d).params
  unfold State.countAt
  by_cases runs : (s.station (ofLay l)).state = .running
  · rw [if_pos runs, slipCount_spelled, params, (sourceCount_slip s l enc d).2]
    by_cases unfitted : (s.layParams l).meterScale = 0
    · rw [if_pos unfitted, if_neg fun both => both.2 unfitted]
    · have unclosed : ¬ (enc = .meter ∧ ((s.layParams l).slipSpan : Int) * 1000000000 ≤
          (s.lay l).slipMeter + (s.layParams l).step .meter d) := fun full =>
        absurd full.2 (Int.not_le.mpr (room runs full.1))
      rw [if_neg unfitted, if_neg unclosed, if_pos ⟨runs, unfitted⟩]
  · rw [if_neg runs, if_neg fun both => runs both.1]

/-! ### The source's part at an open coil (R26, R51) -/

/-- A tracker after a count taken in RUNNING or not (R26). -/
def Tracker.counted (k : Tracker) (running : Bool) (d : Direction) : Tracker :=
  if running then { k with count := max (-2147483647) (min 2147483647 (k.count + d.unit)) } else k

/-- The part after tracker and length have moved, before the tests. -/
def State.movedBy (s : State) (l : Fin 8) (i : Fin 64) (d : Direction) (moved : Coil) : State :=
  (s.modLay l fun y => { y with
    tracker := y.tracker.counted (decide ((s.station (ofLay l)).state = .running)) d }).modCoil i fun _ => moved

theorem trackCount_spelled (s : State) (l : Fin 8) (d : Direction) : s.trackCount l d = s.modLay l fun y => { y with
    tracker := y.tracker.counted (decide ((s.station (ofLay l)).state = .running)) d } := by
  unfold State.trackCount
  split
  · rename_i runs
    rw [decide_eq_true runs]
    rfl
  · rename_i stopped
    rw [decide_eq_false stopped]
    exact (modLay_eq_self rfl).symm

section
variable {s : State} {l : Fin 8} {enc : Encoder} {d : Direction} {i : Fin 64} {p : Piece} {q : Coil}

theorem sourceCount_of_coil (piece : (s.station (ofLay l)).piece = some i) (record : s.record i = some p)
    (coil : p.body = .coil q) (source : enc = (s.layParams l).source.encoder) : s.sourceCount l enc d =
      (s.movedBy l i d { q with length := max 0 (min 4294967295000000
        (q.length + (s.layParams l).step enc d)) }).tallyTests (ofLay l) := by
  unfold State.sourceCount
  rw [if_pos source, trackCount_spelled]
  obtain ⟨u, hu⟩ : ∃ u, u = s.modLay l fun y => { y with
    tracker := y.tracker.counted (decide ((s.station (ofLay l)).state = .running)) d } := ⟨_, rfl⟩
  have has : u.hasCoil (ofLay l) = true := by
    rw [hu]
    show (((s.station (ofLay l)).piece.bind s.record).bind Piece.coil?).isSome = true
    rw [piece, Option.bind_some, record, Option.bind_some, Piece.coil?, coil]
    rfl
  have same : u.station (ofLay l) = s.station (ofLay l) := by rw [hu]; rfl
  have still : (u.station (ofLay l)).piece = some i := by rw [same, piece]
  rw [← hu, State.tallyCount, still, State.movedBy, ← hu]
  refine (if_pos has).trans (congrArg (fun v : State => v.tallyTests (ofLay l)) (modCoil_congr fun p' c hp hc => ?_))
  have recorded : s.record i = some p' := by rw [hu] at hp; exact hp
  obtain rfl := Option.some.inj (record.symm.trans recorded)
  obtain rfl := PieceBody.coil.inj (coil.symm.trans hc)
  rw [LayParams.step, source, hu]
  rfl

theorem movedBy_record (record : s.record i = some p) (coil : p.body = .coil q) (moved : Coil) (j : Fin 64) :
    (s.movedBy l i d moved).record j = if j = i then some { p with body := .coil moved } else s.record j := by
  show (State.modPiece _ i _).record j = _
  rw [State.modPiece_record]
  by_cases e : j = i
  · subst e
    rw [if_pos rfl, if_pos rfl, State.modLay_record, record, Option.map_some, coil]
  · rw [if_neg e, if_neg e, State.modLay_record]

end

/-! ### The statement of a count -/

/-- A count at a station without an open coil (R51, R59). -/
theorem sourceCount_of_none {s : State} {l : Fin 8} (noPiece : (s.station (ofLay l)).piece = none) (enc : Encoder)
    (d : Direction) : s.sourceCount l enc d = if enc = (s.layParams l).source.encoder then s.trackCount l d else s := by
  have same : (s.trackCount l d).station (ofLay l) = s.station (ofLay l) := by
    rw [trackCount_spelled]
    rfl
  unfold State.sourceCount
  refine if_congr Iff.rfl ?_ rfl
  unfold State.tallyCount
  rw [same, noPiece]

/-- The close of a slip span opens and closes no record. -/
theorem closeSpan_records {s : State} {l : Fin 8} (noPiece : (s.station (ofLay l)).piece = none) (slip : Int) :
    (s.closeSpan l slip).table.records = s.table.records := by
  have recorded : s.recordSlip (ofLay l) slip = s := by
    unfold State.recordSlip
    rw [noPiece]
  unfold State.closeSpan
  rw [recorded]
  dsimp only
  split
  · exact (unmoved_raise _ _ _).records
  · rfl

theorem countAt_records {s : State} {l : Fin 8} (noPiece : (s.station (ofLay l)).piece = none) (enc : Encoder)
    (d : Direction) : (s.countAt l enc d).table.records = s.table.records := by
  have source : (s.sourceCount l enc d).table.records = s.table.records ∧
      ((s.sourceCount l enc d).station (ofLay l)).piece = none := by
    rw [sourceCount_of_none noPiece, trackCount_spelled]
    split <;> exact ⟨rfl, noPiece⟩
  unfold State.countAt
  split
  · rw [slipCount_spelled]
    split
    · exact source.1
    · split
      · exact (closeSpan_records (s := State.modLay _ l _) source.2 _).trans source.1
      · exact source.1
  · exact source.1

theorem countAt_still {s : State} {l : Fin 8} (noPiece : (s.station (ofLay l)).piece = none)
    (stopped : (s.station (ofLay l)).state ≠ .running) (enc : Encoder) (d : Direction) : s.countAt l enc d = s := by
  have track : s.trackCount l d = s := if_neg stopped
  unfold State.countAt
  rw [if_neg stopped, sourceCount_of_none noPiece, track]
  exact ite_self _

theorem linesAt_cases {s : State} (l : Fin 8) (enc : Encoder) (new : Pair) :
    s.linesAt l enc new = s.setLines l enc new ∨
      ∃ d, s.linesAt l enc new = (s.setLines l enc new).countAt l enc d := by
  unfold State.linesAt
  split
  · split
    · exact .inr ⟨_, rfl⟩
    · exact .inl rfl
  · exact .inl rfl

/-- Settles O24. -/
theorem countMovesLengthAndAccumulators : Obligations.CountMovesLengthAndAccumulators := by
  refine ⟨fun s dt l enc a b released bound noPiece => ⟨⟨_, exec_countArrival dt l enc a b s, ?unmoved⟩,
    fun stopped => ?still⟩, fun s dt l enc a b d i p q o released bound piece record coil order decoded => ?counts⟩
  case unmoved =>
    obtain lines | ⟨d, count⟩ := linesAt_cases (s := s.elapse dt) l enc ⟨a, b⟩
    · rw [lines]
      rfl
    · rw [count]
      exact countAt_records (s := (s.elapse dt).setLines l enc ⟨a, b⟩) noPiece enc d
  case still =>
    rw [exec_countArrival]
    refine congrArg Host.Outcome.next ?_
    obtain lines | ⟨d, count⟩ := linesAt_cases (s := s.elapse dt) l enc ⟨a, b⟩
    · exact lines
    · exact count.trans (countAt_still (s := (s.elapse dt).setLines l enc ⟨a, b⟩) noPiece stopped enc d)
  case counts =>
    intro w n x running step moved counted advanced v room
    have stepped : w.step enc d = step := step_spelled w enc d
    have runs : running = true ↔ (s.station (ofLay l)).state = .running := decide_eq_true_iff
    have count : exec (.countArrival dt l enc a b) s = .next (advanced (v.sourceCount l enc d)) := by
      have closed : (v.station (ofLay l)).state = .running → enc = .meter →
          (v.lay l).slipMeter + (v.layParams l).step .meter d < ((v.layParams l).slipSpan : Int) * 1000000000 := by
        rintro runs' rfl
        show (s.lay l).slipMeter + w.step .meter d < _
        rw [stepped]
        exact room (runs.mpr runs') rfl
      rw [exec_countArrival]
      refine congrArg Host.Outcome.next ?_
      refine (linesAt_taken (s := s.elapse dt) released bound decoded).trans ((countAt_unclosed closed).trans ?_)
      show (if _ ∧ w.meterScale ≠ 0 then (v.sourceCount l enc d).modLay l fun y => y.advance enc (w.step enc d)
        else _) = _
      rw [stepped, advance_spelled]
      exact if_congr (and_congr_left fun _ => runs.symm) rfl rfl
    have base (source : enc = w.source.encoder) : v.sourceCount l enc d = (v.movedBy l i d moved).tallyTests n := by
      have moves := sourceCount_of_coil (s := v) (d := d) piece record coil source
      rw [show v.layParams l = w from rfl, stepped] at moves
      exact moves
    have recordHere (j : Fin 64) : (v.movedBy l i d moved).record j =
        if j = i then some { p with body := .coil moved } else s.record j :=
      movedBy_record (s := v) (d := d) record coil moved j
    have opened : (v.movedBy l i d moved).record i = some { p with body := .coil moved } :=
      (recordHere i).trans (if_pos rfl)
    refine ⟨fun other => ?_, fun source below idle => ?_, fun source operate => ?_⟩
    · have none : v.sourceCount l enc d = v := if_neg other
      rw [count, none]
    · rw [count, base source, tallyTests_below (s := v.movedBy l i d moved) piece opened order below idle]
      rfl
    · intro joins overrun
      have tallied := tallied_tests (s := v.movedBy l i d moved) (n := n) piece opened order
        fun h => operate (runs.mpr h)
      obtain ⟨t, ht⟩ : ∃ t, t = ((v.movedBy l i d moved).targetTest n).overrunTest n false := ⟨_, rfl⟩
      rw [← ht] at tallied
      have tests : (v.movedBy l i d moved).tallyTests n = if joins then t.consider else t := by
        rw [State.tallyTests, requestDue_of_open (s := v.movedBy l i d moved) piece opened order, ← ht]
        rfl
      have lay (m : Fin 8) : (v.movedBy l i d moved).lay m =
          if m = l then { s.lay l with tracker := counted (s.lay l).tracker } else s.lay m := by
        show (v.modLay l _).lay m = _
        rw [State.modLay_lay]
        by_cases e : m = l
        · rw [if_pos e, if_pos e, e]
          rfl
        · rw [if_neg e, if_neg e]
          rfl
      refine ⟨t, ?_, tallied.own, tallied.others, tallied.arbiter, ?_, fun m other => ?_, tallied.record,
        fun j other => ?_, tallied.notices, ?_⟩
      · rw [count, base source, tests]
      · rw [tallied.lay, lay, if_pos rfl]
        refine if_congr ⟨fun h => ⟨h.1, runs.mpr h.2.1⟩, fun h => ⟨h.1, runs.mp h.2, rfl⟩⟩ ?_ rfl
        exact LayStation.stop_eq _
      · rw [tallied.lay, if_neg fun h => other (ofLay_inj.mp h.2.2).symm, lay, if_neg other]
      · rw [tallied.otherRecords j other, recordHere, if_neg other]
      · have inspector : t.inspector = s.inspector := tallied.inspector.trans (if_neg fun h => ofLay_ne_loom l h.2.2)
        refine (tallied.steady.frame).trans ?_
        have table : t.table = { s.table with records := t.table.records } := tallied.table
        conv_lhs => rw [inspector, table, tallied.pack, tallied.collector]
        rfl

/-! ### The close of a slip span (R60) -/

theorem worseSlip_spelled (worst : Option Int) (slip : Int) : worseSlip worst slip =
    match worst with
    | none => some (max (-2147483647) (min 2147483647 slip))
    | some z => if |z| < |max (-2147483647) (min 2147483647 slip)| then
        some (max (-2147483647) (min 2147483647 slip)) else some z := by
  cases worst with
  | none => rfl
  | some z =>
    have greater (a b : Int) : a.natAbs < b.natAbs ↔ |a| < |b| := by
      rw [Int.abs_eq_natAbs, Int.abs_eq_natAbs]
      exact Int.ofNat_lt.symm
    exact if_congr (greater z _) rfl rfl

/-- A span closed at an open coil, by what it writes (R60). -/
theorem closeSpan_of_coil {s : State} {l : Fin 8} {i : Fin 64} (piece : (s.station (ofLay l)).piece = some i)
    (step slip : Int) : (s.modLay l fun x => x.advance .meter step).closeSpan l slip =
      let closed := (s.modCoil i fun q => { q with worstSlip := worseSlip q.worstSlip slip }).modLay l fun x =>
        { x with slipCap := 0, slipMeter := 0 }
      if ((s.layParams l).slipLimit : Int) < |slip| then closed.raise (ofLay l) .slip else closed := by
  have recorded : ((s.modLay l fun x => x.advance .meter step).recordSlip (ofLay l) slip).modLay l
      (fun x => { x with slipCap := 0, slipMeter := 0 }) =
      (s.modCoil i fun q => { q with worstSlip := worseSlip q.worstSlip slip }).modLay l fun x =>
        { x with slipCap := 0, slipMeter := 0 } := by
    unfold State.recordSlip
    rw [State.modLay_station, piece]
    exact modLay_modLay (s.modCoil i fun q => { q with worstSlip := worseSlip q.worstSlip slip }) l
      (fun x => x.advance .meter step) fun x => { x with slipCap := 0, slipMeter := 0 }
  unfold State.closeSpan
  rw [recorded]
  refine if_congr ?_ rfl rfl
  rw [Int.abs_eq_natAbs]
  exact Int.ofNat_lt.symm

/-- Settles O25. -/
theorem slipSpanClosesAtMeteringCount : Obligations.SlipSpanClosesAtMeteringCount := by
  intro s dt l a b d i p q released runs piece record coil decoded w fitted step moved below meter slip kept lines v closed
  have bound : (s.station (ofLay l)).state ≠ .unbound := by rw [runs]; decide
  have source : lines.sourceCount l .meter d = v := by
    cases chosen : w.source with
    | capstan =>
      have other : Encoder.meter ≠ (lines.layParams l).source.encoder := by
        show Encoder.meter ≠ w.source.encoder
        rw [chosen]
        decide
      show lines.sourceCount l .meter d = match w.source with
        | .capstan => _
        | .meter => _
      rw [chosen]
      exact if_neg other
    | meter =>
      have own : Encoder.meter = (lines.layParams l).source.encoder := by
        show Encoder.meter = w.source.encoder
        rw [chosen]
        rfl
      obtain ⟨idle, o, order, short⟩ := below chosen
      have opened := (movedBy_record (s := lines) (l := l) (d := d) record coil moved i).trans (if_pos rfl)
      have moves : lines.sourceCount l .meter d = (lines.movedBy l i d moved).tallyTests (ofLay l) :=
        sourceCount_of_coil (s := lines) (d := d) piece record coil own
      have tracked : lines.movedBy l i d moved = (lines.modLay l fun x => { x with tracker := { x.tracker with
          count := max (-2147483647) (min 2147483647 (x.tracker.count + d.unit)) } }).modCoil i fun _ => moved := by
        unfold State.movedBy
        rw [decide_eq_true (p := (lines.station (ofLay l)).state = .running) runs]
        rfl
      show lines.sourceCount l .meter d = match w.source with
        | .capstan => _
        | .meter => _
      rw [chosen, moves, tallyTests_below (s := lines.movedBy l i d moved) piece opened order short idle, tracked]
  have stands : v.layParams l = w ∧ (v.lay l).slipCap = (s.lay l).slipCap ∧
      (v.lay l).slipMeter = (s.lay l).slipMeter ∧ (v.station (ofLay l)).piece = some i := by
    obtain ⟨cap, meter⟩ := sourceCount_slip lines l .meter d
    rw [source] at cap meter
    refine ⟨?_, cap, meter, ?_⟩
    · rw [← source]
      exact congrArg (·.lay[l.1]) (steady_sourceCount lines l .meter d).params
    · show (State.station (match w.source with
        | .capstan => _
        | .meter => _) (ofLay l)).piece = some i
      cases w.source <;> exact piece
  obtain ⟨params, cap, advance, open'⟩ := stands
  have count : lines.countAt l .meter d = v.slipCount l .meter d := by
    unfold State.countAt
    rw [if_pos (show (lines.station (ofLay l)).state = .running from runs), source]
  have worst : (fun c : Coil => { c with worstSlip := worseSlip c.worstSlip slip }) = fun c => { c with
      worstSlip := match c.worstSlip with
        | none => some kept
        | some z => if |z| < |kept| then some kept else some z } := by
    funext c
    rw [worseSlip_spelled]
  have stepped : w.step .meter d = step := rfl
  rw [exec_countArrival]
  refine congrArg Host.Outcome.next ?_
  rw [linesAt_taken (s := s.elapse dt) released bound decoded]
  refine count.trans ?_
  rw [slipCount_spelled, params, if_neg fitted, stepped, cap, advance]
  by_cases room : meter < (w.slipSpan : Int) * 1000000000
  · rw [if_neg fun full => absurd full.2 (Int.not_le.mpr room), if_pos room]
    have fills : (fun x : LayStation => x.advance .meter step) = fun x => { x with slipMeter := x.slipMeter + step } := rfl
    have own : (v.modLay l fun x => { x with slipMeter := meter }) =
        v.modLay l fun x => { x with slipMeter := x.slipMeter + step } := by
      have lay : ({ v.lay l with slipMeter := meter } : LayStation) =
          { v.lay l with slipMeter := (v.lay l).slipMeter + step } := by rw [advance]
      show ({ v with lays := v.lays.set l.1 { v.lay l with slipMeter := meter } } : State) = _
      rw [lay]
      rfl
    rw [fills, own]
  · rw [if_pos ⟨rfl, Int.not_lt.mp room⟩, if_neg room, closeSpan_of_coil open', params]
    have zeroed : (v.modCoil i fun c => { c with worstSlip := worseSlip c.worstSlip slip }).modLay l
        (fun x => { x with slipCap := 0, slipMeter := 0 }) = closed :=
      congrArg (fun f => (v.modCoil i f).modLay l fun x => { x with slipCap := 0, slipMeter := 0 }) worst
    exact if_congr Iff.rfl (congrArg (fun u : State => u.raise (ofLay l) .slip) zeroed) zeroed

end Sys2Proof.Machine
end

