-- ==== Sys2Proof/Proofs/LoomRows.lean ====
section
/-!
PROOF. The row index and the row it sets awaiting, the loom's arrivals without a row, and the requests on the mend list
(R53, R68, R70, R71, R78, R81, R82).
-/
namespace Sys2Proof.Machine

/-! ### Writes of a panel -/

/-- Writes of a panel that agree on the panel the record holds are the same write. -/
theorem modPanel_congr {s : State} {i : Fin 64} {f g : Panel → Panel}
    (h : ∀ p q, s.record i = some p → p.body = .panel q → f q = g q) : s.modPanel i f = s.modPanel i g := by
  unfold State.modPanel State.modPiece
  refine congrArg (s.setRecord i) (Option.map_congr fun p hp => ?_)
  cases body : p.body with
  | coil _ => rfl
  | panel q => exact congrArg (fun q => { p with body := .panel q }) (h p q hp body)

theorem modPanel_record {s : State} {i : Fin 64} {p : Piece} {q : Panel} (record : s.record i = some p)
    (panel : p.body = .panel q) (f : Panel → Panel) (j : Fin 64) :
    (s.modPanel i f).record j = if j = i then some { p with body := .panel (f q) } else s.record j := by
  unfold State.modPanel
  rw [State.modPiece_record]
  by_cases e : j = i
  · subst e
    rw [if_pos rfl, if_pos rfl, record, Option.map_some, panel]
  · rw [if_neg e, if_neg e]

theorem modInspector_eq_self {s : State} {f : Inspector → Inspector} (h : f s.inspector = s.inspector) :
    s.modInspector f = s := by
  rw [State.modInspector, h]

/-- A record holds a panel under a serial where its piece is a panel of that serial. -/
theorem panelAt_isSome_iff (s : State) (i : Fin 64) (serial : Word32) : (s.panelAt i serial).isSome = true ↔
    ∃ p q, s.record i = some p ∧ p.serial = serial ∧ p.body = .panel q := by
  unfold State.panelAt State.named
  cases s.record i with
  | none => simp
  | some p =>
    by_cases e : p.serial = serial
    · cases body : p.body <;> simp [e, body, Piece.panel?]
    · simp [e]

/-! ### Row index (R53, R70) -/

theorem exec_rowIndex_edge {s : State} (dt : Nat) (released : s.pins.reset = false)
    (bound : (s.station loom).state ≠ .unbound) :
    exec (.rowIndex dt s.params.loom.rowEdge) s = .next ((s.elapse dt).rowAt) := by
  have arm : exec (.rowIndex dt s.params.loom.rowEdge) s = execRowIndex dt s.params.loom.rowEdge s := rfl
  simp [arm, execRowIndex, lineArrival, released, State.bound, bound]

theorem nextRow_spelled (s : State) : s.nextRow = s.modInspector fun y => { y with
    awaiting := s.awaitRow
    rowTimer := if (s.station loom).state = .running then some ⟨s.clocks.part, s.params.loom.rowTime⟩
      else y.rowTimer } := by
  unfold State.nextRow
  dsimp only
  by_cases runs : (s.station loom).state = .running
  · simp only [if_pos runs]
    rfl
  · simp only [if_neg runs]

/-- What a row index does once the tally has counted its row, by the row that was awaiting before it (R70). -/
def State.takeRow (s : State) : Option AwaitRow → State
  | some a => ((s.missSense a).nextRow).raise loom .senseMissing
  | none => s.nextRow

theorem rowAt_eq (s : State) : s.rowAt = s.tallyRow.takeRow s.inspector.awaiting := by
  unfold State.rowAt
  cases s.inspector.awaiting <;> rfl

theorem awaitRow_of_panel {s : State} {i : Fin 64} {p : Piece} {q : Panel} (piece : (s.station loom).piece = some i)
    (record : s.record i = some p) (panel : p.body = .panel q) : s.awaitRow = some ⟨i, p.serial, q.rows⟩ := by
  have opened : s.openPiece? loom = some p := by rw [State.openPiece?, piece]; exact record
  unfold State.awaitRow
  rw [piece, opened]
  simp [Piece.panel?, panel]

/-- The tally has counted a row of the panel of record i: its serial and rows, and which panels the records hold. -/
structure RowCounted (s : State) (i : Fin 64) (p : Piece) (rows : Nat) (u : State) : Prop where
  piece : (u.station loom).piece = some i
  own : ∃ p' q', u.record i = some p' ∧ p'.serial = p.serial ∧ p'.body = .panel q' ∧ q'.rows = rows
  others : ∀ j, j ≠ i → u.record j = s.record j
  params : u.params = s.params

/-- Step 1 of R70 in one write of the panel and one of the inspector. -/
theorem missSense_spelled (s : State) (a : AwaitRow) : s.missSense a =
    (if (s.panelAt a.panel a.serial).isSome then
      s.modPanel a.panel fun q => { q with unsensed := if q.unsensed < 65535 then q.unsensed + 1 else q.unsensed }
      else s).modInspector fun y => { y with awaiting := none, previous := none } := by
  unfold State.missSense
  dsimp only
  split <;> rfl

theorem RowCounted.panelAt {s u : State} {i : Fin 64} {p : Piece} {rows : Nat} {q : Panel} (h : RowCounted s i p rows u)
    (record : s.record i = some p) (panel : p.body = .panel q) (j : Fin 64) (serial : Word32) :
    (u.panelAt j serial).isSome = (s.panelAt j serial).isSome := by
  rw [Bool.eq_iff_iff, panelAt_isSome_iff, panelAt_isSome_iff]
  by_cases e : j = i
  · subst e
    obtain ⟨p', q', own, serial', body, -⟩ := h.own
    constructor
    · rintro ⟨p1, -, h1, rfl, -⟩
      obtain rfl := Option.some.inj (own.symm.trans h1)
      exact ⟨p, q, record, serial'.symm, panel⟩
    · rintro ⟨p1, -, h1, rfl, -⟩
      obtain rfl := Option.some.inj (record.symm.trans h1)
      exact ⟨p', q', own, serial', body⟩
  · rw [h.others j e]

theorem awaitRow_modInspector (s : State) (f : Inspector → Inspector) : (s.modInspector f).awaitRow = s.awaitRow := rfl

/-- The row that step 1 leaves to set awaiting is the open panel's, as the tally left it. -/
theorem RowCounted.awaitRow_missSense {s u : State} {i : Fin 64} {p : Piece} {rows : Nat} (h : RowCounted s i p rows u)
    (a : AwaitRow) : (u.missSense a).awaitRow = some ⟨i, p.serial, rows⟩ := by
  obtain ⟨p', q', own, serial, body, counted⟩ := h.own
  rw [missSense_spelled, awaitRow_modInspector, ← serial, ← counted]
  split
  · by_cases e : a.panel = i
    · have record := modPanel_record (e ▸ own) body
        (fun q => { q with unsensed := if q.unsensed < 65535 then q.unsensed + 1 else q.unsensed }) i
      rw [if_pos e.symm] at record
      exact (awaitRow_of_panel (s := u.modPanel _ _) h.piece record rfl).trans rfl
    · have record : (u.modPanel a.panel fun q => { q with
          unsensed := if q.unsensed < 65535 then q.unsensed + 1 else q.unsensed }).record i = some p' := by
        unfold State.modPanel
        rw [State.modPiece_record, if_neg (Ne.symm e)]
        exact own
      exact awaitRow_of_panel (s := u.modPanel _ _) h.piece record body
  · exact awaitRow_of_panel h.piece own body

theorem RowCounted.awaitRow {s u : State} {i : Fin 64} {p : Piece} {rows : Nat} (h : RowCounted s i p rows u) :
    u.awaitRow = some ⟨i, p.serial, rows⟩ := by
  obtain ⟨p', q', own, serial, body, counted⟩ := h.own
  rw [awaitRow_of_panel h.piece own body, serial, counted]

/-- A consideration leaves a station's piece. -/
theorem consider_piece (s : State) (n : Fin 9) : (s.consider.station n).piece = (s.station n).piece := by
  obtain ⟨-, -, piece, -⟩ := considerWith_station s.arbiter.waiting.length s n
  exact piece

/-- Settles O31. -/
theorem rowIndexCountsRowAndAwaitsSense : Obligations.RowIndexCountsRowAndAwaitsSense := by
  intro s dt i p q o released bound piece record panel order x rows missed finished
  obtain ⟨b, hb⟩ : ∃ b, b = (s.elapse dt).modPanel i fun q => { q with rows := rows } := ⟨_, rfl⟩
  have recordHere (j : Fin 64) : b.record j =
      if j = i then some { p with body := .panel { q with rows := rows } } else s.record j := by
    rw [hb]
    exact modPanel_record (s := s.elapse dt) record panel _ j
  have opened : b.record i = some { p with body := .panel { q with rows := rows } } := (recordHere i).trans (if_pos rfl)
  have pieceHere : (b.station loom).piece = some i := by rw [hb]; exact piece
  have orderHere : b.boundOrder loom = some o := by rw [hb]; exact order
  have tally : (s.elapse dt).tallyRow = b.tallyTests loom := by
    have has : (s.elapse dt).hasPanel = true := by
      show (((s.station loom).piece.bind s.record).bind Piece.panel?).isSome = true
      rw [piece, Option.bind_some, record, Option.bind_some, Piece.panel?, panel]
      rfl
    have counts : (s.elapse dt).modPanel i (fun q => { q with rows := satSucc Config.countSat q.rows }) = b := by
      rw [hb]
      refine modPanel_congr fun p' q' hp hq => ?_
      obtain rfl := Option.some.inj (record.symm.trans hp)
      obtain rfl := PieceBody.panel.inj (panel.symm.trans hq)
      rfl
    unfold State.tallyRow
    rw [State.elapse_station, piece]
    exact (if_pos has).trans (by rw [counts])
  /- What comes after the tally, for each state that the tally can leave. -/
  have finishes (u : State) (counted : RowCounted s i p rows u) : u.takeRow s.inspector.awaiting = finished u := by
    have panels := counted.panelAt record panel
    dsimp only [finished, missed]
    cases awaiting : s.inspector.awaiting with
    | none =>
      show u.nextRow = _
      rw [nextRow_spelled, counted.awaitRow, counted.params]
      rfl
    | some a =>
      show ((u.missSense a).nextRow).raise loom .senseMissing = _
      have station : (u.missSense a).station loom = u.station loom := by
        rw [missSense_spelled]
        split <;> rfl
      have params : (u.missSense a).params = s.params := by
        rw [missSense_spelled, ← counted.params]
        split <;> rfl
      have clocks : (u.missSense a).clocks = u.clocks := by
        rw [missSense_spelled]
        split <;> rfl
      have rowed : (u.missSense a).nextRow = State.modInspector ((if (s.panelAt a.panel a.serial).isSome then
            u.modPanel a.panel fun q => { q with
              unsensed := if q.unsensed < 65535 then q.unsensed + 1 else q.unsensed }
          else u).modInspector fun y => { y with previous := none }) fun y => { y with
        awaiting := some ⟨i, p.serial, rows⟩
        rowTimer := if (u.station loom).state = .running then some ⟨u.clocks.part, s.params.loom.rowTime⟩
          else y.rowTimer } := by
        rw [nextRow_spelled, counted.awaitRow_missSense, station, params, clocks, missSense_spelled, panels]
        rfl
      rw [rowed]
      rfl
  rw [exec_rowIndex_edge dt released bound, rowAt_eq, tally]
  have base : RowCounted s i p rows b :=
    { piece := pieceHere
      own := ⟨_, _, opened, rfl, rfl, rfl⟩
      others := fun j other => (recordHere j).trans (if_neg other)
      params := by rw [hb]; rfl }
  refine ⟨fun below idle => ?_, fun operate => ?_⟩
  · have idleHere : loom ∉ b.arbiter.waiting := by rw [hb]; exact idle
    rw [tallyTests_below pieceHere opened orderHere below idleHere]
    exact congrArg Host.Outcome.next ((finishes b base).trans (congrArg finished hb))
  · intro joins overrun
    have same : b.station loom = s.station loom ∧ b.arbiter = s.arbiter := by rw [hb]; exact ⟨rfl, rfl⟩
    have tallied := tallied_tests (s := b) (n := loom) pieceHere opened orderHere
      (by rw [same.1, hb]; exact operate)
    have due := requestDue_of_open (s := b) (n := loom) pieceHere opened orderHere
    rw [same.1, same.2] at tallied due
    obtain ⟨t, ht⟩ : ∃ t, t = (b.targetTest loom).overrunTest loom false := ⟨_, rfl⟩
    rw [← ht] at tallied
    have tests : b.tallyTests loom = if joins then t.consider else t := by
      rw [State.tallyTests, due, ← ht]
      rfl
    have talliedPiece : (t.station loom).piece = some i := by
      rw [tallied.own]
      split <;> exact pieceHere
    have counted : RowCounted s i p rows t :=
      { piece := talliedPiece
        own := ⟨_, _, tallied.record, rfl, rfl, rfl⟩
        others := fun j other => (tallied.otherRecords j other).trans (base.others j other)
        params := tallied.steady.params.trans base.params }
    have considered : RowCounted s i p rows t.consider := by
      have records (j : Fin 64) : t.consider.record j = t.record j := congrArg (·[j.1]) (unmoved_consider t).records
      obtain ⟨p', q', own, rest⟩ := counted.own
      exact
        { piece := (consider_piece t loom).trans talliedPiece
          own := ⟨p', q', (records i).trans own, rest⟩
          others := fun j other => (records j).trans (counted.others j other)
          params := (steady_consider t).params.trans counted.params }
    refine ⟨t, ?_, ?_, fun m other => ?_, ?_, ?_, tallied.record, fun j other => ?_, ?_, ?_⟩
    · rw [tests]
      show _ = Host.Outcome.next (finished (if joins = true then t.consider else t))
      split
      · exact congrArg Host.Outcome.next (finishes _ considered)
      · exact congrArg Host.Outcome.next (finishes _ counted)
    · rw [tallied.own, same.1]
      rfl
    · rw [tallied.others m other, hb]
      rfl
    · rw [tallied.arbiter, same.2]
      rfl
    · rw [tallied.inspector, same.1]
      have inspector : b.inspector = s.inspector := by rw [hb]; rfl
      rw [inspector]
      exact if_congr ⟨fun h => ⟨h.1, h.2.1⟩, fun h => ⟨h.1, h.2, rfl⟩⟩ rfl rfl
    · rw [tallied.otherRecords j other, recordHere, if_neg other]
    · rw [tallied.notices, hb]
      rfl
    · have lays : t.lays = s.lays := by
        refine Vector.ext fun l hl => ?_
        have lay := (tallied.lay ⟨l, hl⟩).trans (if_neg fun h => ofLay_ne_loom _ h.2.2.symm)
        rw [hb] at lay
        exact lay
      have table : t.table = { s.table with records := t.table.records } := by
        rw [tallied.table, hb]
        rfl
      refine tallied.steady.frame.trans ?_
      conv_lhs => rw [lays, table, tallied.pack, tallied.collector, hb]
      rfl

/-! ### Arrivals without a row (R68, R70, R71) -/

theorem exec_senseWord_bound {s : State} (dt : Nat) (word : BitVec 64) (released : s.pins.reset = false)
    (bound : (s.station loom).state ≠ .unbound) :
    exec (.senseWord dt word) s = .next ((s.elapse dt).senseAt word) := by
  have arm : exec (.senseWord dt word) s = execSenseWord dt word s := rfl
  simp [arm, execSenseWord, lineArrival, released, State.bound, bound]

theorem exec_senseWord_unbound {s : State} (dt : Nat) (word : BitVec 64) (unbound : (s.station loom).state = .unbound) :
    exec (.senseWord dt word) s = .next (s.elapse dt) := by
  have arm : exec (.senseWord dt word) s = execSenseWord dt word s := rfl
  simp [arm, execSenseWord, lineArrival, State.bound, unbound]

theorem exec_rowIndex_other {s : State} (dt : Nat) {edge : Edge}
    (other : edge ≠ s.params.loom.rowEdge ∨ (s.station loom).state = .unbound) :
    exec (.rowIndex dt edge) s = .next (s.elapse dt) := by
  have arm : exec (.rowIndex dt edge) s = execRowIndex dt edge s := rfl
  rw [arm, execRowIndex, lineArrival]
  split
  · rfl
  · refine congrArg Host.Outcome.next (if_neg fun both => ?_)
    obtain edge | unbound := other
    · exact edge both.1
    · have bound := both.2
      rw [State.bound, State.elapse_station, unbound] at bound
      cases bound

theorem handOn_dead (s : State) (dead : Bool) :
    s.handOn false false false dead = if dead then s.raise loom .deadHook else s := rfl

/-- Settles O32. -/
theorem loomArrivalsWithoutARow : Obligations.LoomArrivalsWithoutARow := by
  refine ⟨fun s dt word released => ⟨fun unbound edge =>
      ⟨exec_rowIndex_other dt (.inr unbound), exec_senseWord_unbound dt word unbound⟩,
    fun edge other => exec_rowIndex_other dt (.inl other), fun bound stopped noPiece idle => ?row, fun bound idle => ?stray⟩,
    fun s dt word a f released bound awaiting order gone => ?gone⟩
  case row =>
    have still : (s.elapse dt).tallyRow = s.elapse dt := by
      unfold State.tallyRow
      rw [State.elapse_station, noPiece]
    have none : (s.elapse dt).awaitRow = none := by
      unfold State.awaitRow
      rw [State.elapse_station, noPiece]
    rw [exec_rowIndex_edge dt released bound, rowAt_eq, still, State.elapse_inspector, idle]
    refine congrArg Host.Outcome.next ((nextRow_spelled _).trans (modInspector_eq_self ?_))
    rw [none, State.elapse_station, if_neg stopped, State.elapse_inspector, ← idle]
  case stray =>
    rw [exec_senseWord_bound dt word released bound]
    unfold State.senseAt
    rw [State.elapse_inspector, idle]
    rfl
  case gone =>
    intro missing counted
    rw [exec_senseWord_bound dt word released bound]
    unfold State.senseAt
    rw [State.elapse_inspector, awaiting, show (s.elapse dt).net loom = some f from order]
    dsimp only
    rw [show (s.elapse dt).panelAt a.panel a.serial = none from gone]
    exact congrArg Host.Outcome.next (handOn_dead _ _)

/-! ### The mend list (R81, R82) -/

theorem find_of_unique {mends : List MendEntry} {e : MendEntry} (mem : e ∈ mends)
    (unique : ∀ e' ∈ mends, e'.id = e.id → e' = e) : mends.find? (·.id == e.id) = some e := by
  cases found : mends.find? (·.id == e.id) with
  | none => exact absurd (beq_self_eq_true e.id) (List.find?_eq_none.mp found e mem)
  | some e' =>
    have bears : (e'.id == e.id) = true := List.find?_some (p := fun x : MendEntry => x.id == e.id) found
    rw [unique e' (List.mem_of_find?_eq_some found) (beq_iff_eq.mp bears)]

theorem mendRequest_found {s : State} {e : MendEntry} {p : Piece} {q : Panel}
    (found : s.inspector.mends.find? (·.id == e.id) = some e) (record : s.record e.panel = some p)
    (panel : p.body = .panel q) (room : q.mended < 65535) : s.mendRequest e.id =
      ⟨(s.modInspector fun x => { x with mends := x.mends.filter (·.id != e.id) }).modPanel e.panel
          fun q => { q with unmended := q.unmended - 1, mended := q.mended + 1 }, .ok,
        BitVec.ofNat 8 e.panel.1 :: (bytes32 p.serial ++ bytes16 (BitVec.ofNat 16 (q.unmended - 1)))⟩ := by
  obtain ⟨u, hu⟩ : ∃ u, u = s.modInspector fun x => { x with mends := x.mends.filter (·.id != e.id) } := ⟨_, rfl⟩
  have recordHere : u.record e.panel = some p := by rw [hu]; exact record
  have counts : u.modPanel e.panel Panel.mendOne =
      u.modPanel e.panel fun q => { q with unmended := q.unmended - 1, mended := q.mended + 1 } := by
    refine modPanel_congr fun p' q' hp hq => ?_
    obtain rfl := Option.some.inj (recordHere.symm.trans hp)
    obtain rfl := PieceBody.panel.inj (panel.symm.trans hq)
    have one : satSucc Config.countSat q.mended = q.mended + 1 := if_pos room
    rw [Panel.mendOne, one]
  have bytes : (u.modPanel e.panel fun q => { q with unmended := q.unmended - 1, mended := q.mended + 1 }).mendBytes
      e.panel = BitVec.ofNat 8 e.panel.1 :: (bytes32 p.serial ++ bytes16 (BitVec.ofNat 16 (q.unmended - 1))) := by
    unfold State.mendBytes
    rw [modPanel_record recordHere panel, if_pos rfl]
    rfl
  unfold State.mendRequest
  rw [found]
  dsimp only
  rw [← hu, counts, bytes]

theorem readMends_spelled (s : State) (first : Byte) : s.readMends first =
    if first.toNat < s.inspector.mends.length then
      ⟨s, .ok, s.inspector.headBytes ++ ((s.inspector.mends.drop first.toNat).take 16).flatMap MendEntry.bytes⟩
    else ⟨s, .empty, s.inspector.headBytes⟩ := rfl

/-- Settles O35. -/
theorem mendRemovesItsEntry : Obligations.MendRemovesItsEntry := by
  refine ⟨fun e => ?bytes, fun s dt tag released taken => ⟨fun id absent => ?absent,
    fun e p q mem unique record panel room => ?mended, fun first => ⟨fun past => ?past, fun within => ?page⟩⟩⟩
  case bytes =>
    unfold MendEntry.bytes
    cases e.kind <;> rfl
  case absent =>
    refine hostRequest_answered released taken ?_
    have none : (s.elapse dt).inspector.mends.find? (·.id == id) = none :=
      List.find?_eq_none.mpr fun e mem => by simpa using absent e mem
    rw [State.mendRequest, none]
    rfl
  case mended =>
    exact hostRequest_effect released taken
      (mendRequest_found (s := s.elapse dt) (find_of_unique mem unique) record panel room)
  case past => exact hostRequest_answered released taken ((readMends_spelled _ first).trans (if_neg (Nat.not_lt.mpr past)))
  case page => exact hostRequest_answered released taken ((readMends_spelled _ first).trans (if_pos within))

end Sys2Proof.Machine
end

