-- ==== Sys2Proof/Proofs/SortedWords.lean ====
section
/-!
PROOF. The sense word against an awaiting row: how its runs are sorted into the mend list, which ids the entries take,
and what the word leaves (R72 to R78).
-/
namespace Sys2Proof.Machine

/-! ### Ids (R74) -/

theorem succ_iterate (v : Word16) (m : Nat) : (· + 1)^[m] v = v + BitVec.ofNat 16 m := by
  induction m with
  | zero => simp
  | succ m ih =>
    rw [Function.iterate_succ_apply', ih, BitVec.add_assoc]
    congr 1
    exact (BitVec.ofNat_add m 1).symm

/-- So many ids in a row, all held, are no more than the ids held. -/
theorem passed_le {held : List Word16} {v : Word16} {passed : Nat} (few : passed < 65536)
    (h : ∀ k < passed, v + BitVec.ofNat 16 k ∈ held) : passed ≤ held.length := by
  have distinct : ((List.range passed).map fun k => v + BitVec.ofNat 16 k).Nodup := by
    refine List.Nodup.map_on (fun a ha b hb e => ?_) List.nodup_range
    rw [List.mem_range] at ha hb
    have e : BitVec.ofNat 16 a = BitVec.ofNat 16 b := by bv_omega
    have := congrArg BitVec.toNat e
    simp only [BitVec.toNat_ofNat] at this
    omega
  have within : ((List.range passed).map fun k => v + BitVec.ofNat 16 k) ⊆ held := fun w hw => by
    obtain ⟨k, hk, rfl⟩ := List.mem_map.mp hw
    exact h k (List.mem_range.mp hk)
  have := (distinct.subperm within).length_le
  rwa [List.length_map, List.length_range] at this

/-- An entry's id is the next entry id, or the first after it that no entry holds (R74). -/
theorem freshId_spec {mends : List MendEntry} (v : Word16) (room : mends.length < 48) :
    freshId mends v ∉ mends.map (·.id) ∧ ∃ passed ≤ (mends.map (·.id)).length,
      freshId mends v = v + BitVec.ofNat 16 passed ∧ ∀ k < passed, v + BitVec.ofNat 16 k ∈ mends.map (·.id) := by
  have holds (w : Word16) : (mends.any (·.id == w)) = true ↔ w ∈ mends.map (·.id) := by
    simp only [List.any_eq_true, List.mem_map, beq_iff_eq]
  obtain ⟨passed, few, value, before, free⟩ := firstUnheld_spec (fun w => mends.any (·.id == w)) (· + 1) 48 v
  have skipped (k : Nat) (hk : k < passed) : v + BitVec.ofNat 16 k ∈ mends.map (·.id) := by
    rw [← succ_iterate, ← holds]
    exact before k hk
  have few' := passed_le (by omega) skipped
  rw [List.length_map] at few'
  have unheld := free (by omega)
  rw [← value] at unheld
  refine ⟨fun held => ?_, passed, by rwa [List.length_map], value.trans (succ_iterate v passed), skipped⟩
  exact Bool.false_ne_true (unheld.symm.trans ((holds _).mpr held))

/-! ### Runs in turn (R73 to R75) -/

/-- The entries that runs of a word make in turn, beside those of the list, the first with the next entry id v. -/
def entriesFor (a : AwaitRow) (before : BitVec 64) : List MendEntry → Word16 → List Run → List MendEntry
  | _, _, [] => []
  | mends, v, run :: runs =>
    let e : MendEntry := ⟨freshId mends v, a.panel, a.row, run.first, run.span, runKind before run⟩
    e :: entriesFor a before (mends ++ [e]) (e.id + 1) runs

/-- The next entry id once these entries have been made. -/
def nextIdAfter (v : Word16) (new : List MendEntry) : Word16 :=
  match new.getLast? with
  | some last => last.id + 1
  | none => v

theorem nextIdAfter_cons (v : Word16) (e : MendEntry) (new : List MendEntry) :
    nextIdAfter v (e :: new) = nextIdAfter (e.id + 1) new := by
  cases new with
  | nil => rfl
  | cons e' new =>
    unfold nextIdAfter
    rw [List.getLast?_cons_cons, List.getLast?_eq_some_getLast (List.cons_ne_nil e' new)]

theorem entriesFor_rows (a : AwaitRow) (before : BitVec 64) (mends : List MendEntry) (v : Word16) (runs : List Run) :
    (entriesFor a before mends v runs).map (fun e => (e.panel, e.row, e.first, e.span, e.kind)) =
      runs.map fun r => (a.panel, a.row, r.first, r.span, runKind before r) := by
  induction runs generalizing mends v with
  | nil => rfl
  | cons run runs ih => exact congrArg (List.cons _) (ih _ _)

theorem entriesFor_length (a : AwaitRow) (before : BitVec 64) (mends : List MendEntry) (v : Word16) (runs : List Run) :
    (entriesFor a before mends v runs).length = runs.length := by
  rw [← List.length_map (f := fun e : MendEntry => (e.panel, e.row, e.first, e.span, e.kind)), entriesFor_rows,
    List.length_map]

/-- Each entry takes the next entry id as the entries before it left it, or the first after it that none holds. -/
theorem entriesFor_ids (a : AwaitRow) (set : BitVec 64) {mends : List MendEntry} {v : Word16} {runs : List Run}
    (room : mends.length + runs.length ≤ 48) {before after : List MendEntry} {e : MendEntry}
    (h : entriesFor a set mends v runs = before ++ e :: after) :
    e.id ∉ (mends ++ before).map (·.id) ∧ ∃ passed ≤ ((mends ++ before).map (·.id)).length,
      e.id = nextIdAfter v before + BitVec.ofNat 16 passed ∧
        ∀ k < passed, nextIdAfter v before + BitVec.ofNat 16 k ∈ (mends ++ before).map (·.id) := by
  induction runs generalizing mends v before with
  | nil => exact absurd h (by simp [entriesFor])
  | cons run runs ih =>
    have more : mends.length + (runs.length + 1) ≤ 48 := room
    cases before with
    | nil =>
      obtain ⟨rfl, -⟩ := List.cons.inj h
      rw [List.append_nil]
      exact freshId_spec v (by omega)
    | cons e' before =>
      obtain ⟨rfl, rest⟩ := List.cons.inj h
      have next := ih (mends := mends ++ [_]) (by rw [List.length_append, List.length_singleton]; omega) rest
      rw [List.append_assoc] at next
      rw [nextIdAfter_cons]
      exact next

/-- A panel after runs of which some were listed (R74, R75), its counts short of their limits. -/
def Panel.countRuns (q : Panel) (before : BitVec 64) (runs : List Run) (listed unlisted : Nat) : Panel :=
  { q with
    knots := q.knots + runs.countP fun r => runKind before r == .knot
    holes := q.holes + runs.countP fun r => runKind before r == .hole
    unmended := q.unmended + listed
    unlisted := q.unlisted + unlisted }

theorem satSucc_below {limit n : Nat} (h : n + 1 ≤ limit) : satSucc limit n = n + 1 := if_pos h

theorem countRun_short {q : Panel} (h : q.knots + 1 ≤ 65535 ∧ q.holes + 1 ≤ 65535) (before : BitVec 64) (run : Run) :
    q.countRun (runKind before run) = q.countRuns before [run] 0 0 := by
  unfold Panel.countRuns Panel.countRun
  cases kind : runKind before run
  · rw [satSucc_below (limit := Config.countSat) h.1]
    simp [kind]
  · rw [satSucc_below (limit := Config.countSat) h.2]
    simp [kind]

theorem countRuns_append (q : Panel) (before : BitVec 64) (runs more : List Run) (a b c d : Nat) :
    (q.countRuns before runs a b).countRuns before more c d = q.countRuns before (runs ++ more) (a + c) (b + d) := by
  unfold Panel.countRuns
  rw [List.countP_append, List.countP_append]
  simp only [Nat.add_assoc]

theorem countRuns_cons (q : Panel) (before : BitVec 64) (run : Run) (runs : List Run) (a b c d : Nat) :
    (q.countRuns before [run] a b).countRuns before runs c d = q.countRuns before (run :: runs) (a + c) (b + d) :=
  countRuns_append q before [run] runs a b c d

/-- Runs for which the list has room (R74). -/
theorem foldl_addRun_listed (a : AwaitRow) (before : BitVec 64) (runs : List Run) (x : Sorting)
    (room : x.inspector.mends.length + runs.length ≤ 48) (knots : x.panel.knots + runs.length ≤ 65535)
    (holes : x.panel.holes + runs.length ≤ 65535) (unmended : x.panel.unmended + runs.length ≤ 65535) :
    runs.foldl (Sorting.addRun a before) x =
      let new := entriesFor a before x.inspector.mends x.inspector.nextId runs
      ⟨{ x.inspector with mends := x.inspector.mends ++ new, nextId := nextIdAfter x.inspector.nextId new },
        x.panel.countRuns before runs runs.length 0⟩ := by
  induction runs generalizing x with
  | nil => simp [entriesFor, nextIdAfter, Panel.countRuns]
  | cons run runs ih =>
    have more : (run :: runs).length = runs.length + 1 := rfl
    rw [more] at room knots holes unmended
    obtain ⟨e, he⟩ : ∃ e : MendEntry, e = ⟨freshId x.inspector.mends x.inspector.nextId, a.panel, a.row, run.first,
      run.span, runKind before run⟩ := ⟨_, rfl⟩
    have one : x.addRun a before run = ⟨{ x.inspector with mends := x.inspector.mends ++ [e], nextId := e.id + 1 },
        x.panel.countRuns before [run] 1 0⟩ := by
      have counted := countRun_short (q := x.panel) ⟨by omega, by omega⟩ before run
      have listed : satSucc Config.countSat x.panel.unmended = x.panel.unmended + 1 :=
        satSucc_below (limit := Config.countSat) (by show _ ≤ 65535; omega)
      have first : x.addRun a before run = ⟨{ x.inspector with
          mends := x.inspector.mends ++ [e], nextId := e.id + 1 },
          { x.panel.countRun (runKind before run) with
            unmended := satSucc Config.countSat (x.panel.countRun (runKind before run)).unmended }⟩ := by
        rw [he]
        exact if_pos (by show _ < 48; omega)
      rw [first, counted]
      show (⟨_, { x.panel.countRuns before [run] 0 0 with
        unmended := satSucc Config.countSat x.panel.unmended }⟩ : Sorting) = _
      rw [listed]
      rfl
    have small : ([run].countP fun r => runKind before r == .knot) ≤ 1 ∧
        ([run].countP fun r => runKind before r == .hole) ≤ 1 :=
      ⟨List.countP_le_length, List.countP_le_length⟩
    rw [List.foldl_cons, one, ih _ ?_ ?_ ?_ ?_]
    · dsimp only
      rw [countRuns_cons, entriesFor, ← he, nextIdAfter_cons, List.append_assoc, Nat.add_comm 1, Nat.add_zero]
      rfl
    · rw [List.length_append, List.length_singleton]
      omega
    · show x.panel.knots + _ + runs.length ≤ _
      omega
    · show x.panel.holes + _ + runs.length ≤ _
      omega
    · show x.panel.unmended + 1 + runs.length ≤ _
      omega

/-- Runs for which the list has no room (R75). -/
theorem foldl_addRun_unlisted (a : AwaitRow) (before : BitVec 64) (runs : List Run) (x : Sorting)
    (full : 48 ≤ x.inspector.mends.length) (knots : x.panel.knots + runs.length ≤ 65535)
    (holes : x.panel.holes + runs.length ≤ 65535) (unlisted : x.panel.unlisted + runs.length ≤ 65535)
    (overflow : x.inspector.overflow + runs.length ≤ 255) :
    runs.foldl (Sorting.addRun a before) x =
      ⟨{ x.inspector with overflow := x.inspector.overflow + runs.length },
        x.panel.countRuns before runs 0 runs.length⟩ := by
  induction runs generalizing x with
  | nil => simp [Panel.countRuns]
  | cons run runs ih =>
    have more : (run :: runs).length = runs.length + 1 := rfl
    rw [more] at knots holes unlisted overflow
    have one : x.addRun a before run = ⟨{ x.inspector with overflow := x.inspector.overflow + 1 },
        x.panel.countRuns before [run] 0 1⟩ := by
      have counted := countRun_short (q := x.panel) ⟨by omega, by omega⟩ before run
      have missed : satSucc Config.countSat x.panel.unlisted = x.panel.unlisted + 1 :=
        satSucc_below (limit := Config.countSat) (by show _ ≤ 65535; omega)
      have lost : satSucc Config.overflowSat x.inspector.overflow = x.inspector.overflow + 1 :=
        satSucc_below (limit := Config.overflowSat) (by show _ ≤ 255; omega)
      have first : x.addRun a before run = ⟨{ x.inspector with
          overflow := satSucc Config.overflowSat x.inspector.overflow },
          { x.panel.countRun (runKind before run) with
            unlisted := satSucc Config.countSat (x.panel.countRun (runKind before run)).unlisted }⟩ :=
        if_neg (by show ¬ _ < 48; omega)
      rw [first, counted, lost]
      show (⟨_, { x.panel.countRuns before [run] 0 0 with
        unlisted := satSucc Config.countSat x.panel.unlisted }⟩ : Sorting) = _
      rw [missed]
      rfl
    have small : ([run].countP fun r => runKind before r == .knot) ≤ 1 ∧
        ([run].countP fun r => runKind before r == .hole) ≤ 1 :=
      ⟨List.countP_le_length, List.countP_le_length⟩
    rw [List.foldl_cons, one, ih ⟨{ x.inspector with overflow := x.inspector.overflow + 1 },
      x.panel.countRuns before [run] 0 1⟩ full ?_ ?_ ?_ ?_]
    · dsimp only
      rw [countRuns_cons, Nat.add_assoc, Nat.add_comm 1]
      rfl
    · show x.panel.knots + _ + runs.length ≤ _
      omega
    · show x.panel.holes + _ + runs.length ≤ _
      omega
    · show x.panel.unlisted + 1 + runs.length ≤ _
      omega
    · show x.inspector.overflow + 1 + runs.length ≤ _
      omega

/-- The runs of a word sorted while the list has room, and counted after that (R74, R75). -/
theorem foldl_addRun (a : AwaitRow) (before : BitVec 64) (runs : List Run) (x : Sorting)
    (within : x.inspector.mends.length ≤ 48) (knots : x.panel.knots + runs.length ≤ 65535)
    (holes : x.panel.holes + runs.length ≤ 65535) (unmended : x.panel.unmended + runs.length ≤ 65535)
    (unlisted : x.panel.unlisted + runs.length ≤ 65535) (overflow : x.inspector.overflow + runs.length ≤ 255)
    {listed : List Run} (taken : listed = runs.take (48 - x.inspector.mends.length)) :
    runs.foldl (Sorting.addRun a before) x =
      let new := entriesFor a before x.inspector.mends x.inspector.nextId listed
      ⟨{ x.inspector with
          mends := x.inspector.mends ++ new
          nextId := nextIdAfter x.inspector.nextId new
          overflow := x.inspector.overflow + (runs.length - listed.length) },
        x.panel.countRuns before runs listed.length (runs.length - listed.length)⟩ := by
  have size : listed.length = min (48 - x.inspector.mends.length) runs.length := by rw [taken, List.length_take]
  have count (p : Run → Bool) : listed.countP p + (runs.drop (48 - x.inspector.mends.length)).countP p = runs.countP p := by
    rw [taken, ← List.countP_append, List.take_append_drop]
  have rest : (runs.drop (48 - x.inspector.mends.length)).length = runs.length - listed.length := by
    rw [List.length_drop]
    omega
  have listedFold := foldl_addRun_listed a before listed x (by omega) (by omega) (by omega) (by omega)
  have runsEq : runs = listed ++ runs.drop (48 - x.inspector.mends.length) := by rw [taken, List.take_append_drop]
  have fold : runs.foldl (Sorting.addRun a before) x =
      (runs.drop (48 - x.inspector.mends.length)).foldl (Sorting.addRun a before)
        (listed.foldl (Sorting.addRun a before) x) := by
    conv_lhs => rw [runsEq]
    exact List.foldl_append
  by_cases room : runs.length ≤ 48 - x.inspector.mends.length
  · have none : runs.drop (48 - x.inspector.mends.length) = [] := List.drop_eq_nil_of_le room
    have all : listed = runs := taken.trans <| List.take_of_length_le room
    rw [fold, none, List.foldl_nil, listedFold]
    dsimp only
    rw [all, Nat.sub_self, ← all]
    rfl
  · have knots' : (x.panel.countRuns before listed listed.length 0).knots + (runs.length - listed.length) ≤ 65535 := by
      have := List.countP_le_length (p := fun r => runKind before r == .knot) (l := listed)
      show x.panel.knots + _ + _ ≤ _
      omega
    have holes' : (x.panel.countRuns before listed listed.length 0).holes + (runs.length - listed.length) ≤ 65535 := by
      have := List.countP_le_length (p := fun r => runKind before r == .hole) (l := listed)
      show x.panel.holes + _ + _ ≤ _
      omega
    rw [fold, listedFold, foldl_addRun_unlisted a before _ _ ?_ ?_ ?_ ?_ ?_]
    · dsimp only
      rw [countRuns_append, rest, ← runsEq, Nat.add_zero, Nat.zero_add]
    · dsimp only
      rw [List.length_append, entriesFor_length]
      omega
    · rw [rest]
      exact knots'
    · rw [rest]
      exact holes'
    · rw [rest]
      show x.panel.unlisted + 0 + _ ≤ _
      omega
    · rw [rest]
      show x.inspector.overflow + _ ≤ _
      omega

/-! ### The word (R72 to R78) -/

theorem touches_eq (set : BitVec 64) (first span : Nat) :
    touches set first span = decide (∃ h < span, set.getLsbD (first + h) = true) := by
  rw [touches, Bool.eq_iff_iff, List.any_eq_true, decide_eq_true_eq]
  simp only [List.mem_range]

theorem sameRow_eq (prev : Option PrevRow) (a : AwaitRow) :
    sameRow prev a = prev.filter fun b => decide (b.panel = a.panel ∧ b.serial = a.serial) := by
  cases prev with
  | none => rfl
  | some p => simp only [sameRow, Option.filter, decide_eq_true_eq]

/-- Each hook begins one run at most (R72). -/
theorem addHook_length_le (missing : BitVec 64) (h : Nat) (runs : List Run) :
    (addHook missing h runs).length ≤ runs.length + 1 := by
  unfold addHook
  split
  · split
    · split <;> simp
    · exact le_rfl
  · exact Nat.le_succ _

theorem foldr_addHook_length_le (missing : BitVec 64) (hooks : List Nat) :
    (hooks.foldr (addHook missing) []).length ≤ hooks.length := by
  induction hooks with
  | nil => exact le_rfl
  | cons h hooks ih => exact (addHook_length_le missing h _).trans (Nat.succ_le_succ ih)

theorem runsOf_length_le (missing : BitVec 64) : (runsOf missing).length ≤ 64 :=
  (foldr_addHook_length_le missing (List.range 64)).trans_eq List.length_range

/-- The count of the upgraded entries, by a criterion that tells which are upgraded (R76). -/
theorem upgradeCount_eq {prior : Option PrevRow} {missing : BitVec 64} {upgraded : MendEntry → Bool}
    (tells : ∀ e, upgraded e = prior.elim false fun b => upgrades b missing e) (old : List MendEntry) :
    upgradeCount prior missing old = old.countP upgraded := by
  rw [show upgraded = fun e => _ from funext tells]
  cases prior with
  | none => simp [upgradeCount]
  | some b => rfl

theorem upgradeEntries_eq {prior : Option PrevRow} {missing : BitVec 64} {upgraded : MendEntry → Bool}
    (tells : ∀ e, upgraded e = prior.elim false fun b => upgrades b missing e) (old : List MendEntry) :
    upgradeEntries prior missing old = old.map fun e => if upgraded e then { e with kind := .hole } else e := by
  rw [show upgraded = fun e => _ from funext tells]
  cases prior with
  | none => simp [upgradeEntries]
  | some b => rfl

/-- A word's runs sorted, the entries before it upgraded, its hooks counted and its row closed, every count short of its
limit (R72 to R78). -/
theorem sortWord_spelled (x : Sorting) (a : AwaitRow) (missing : BitVec 64) (hooks dead : Nat) {prior : Option PrevRow}
    (same : prior = sameRow x.inspector.previous a) (within : x.inspector.mends.length ≤ 48)
    (knots : x.panel.knots + 64 ≤ 65535) (holes : x.panel.holes + 112 ≤ 65535) (unmended : x.panel.unmended + 64 ≤ 65535)
    (unlisted : x.panel.unlisted + 64 ≤ 65535) (overflow : x.inspector.overflow + 64 ≤ 255)
    {listed : List Run} (taken : listed = (runsOf missing).take (48 - x.inspector.mends.length)) :
    sortWord x a missing hooks dead =
      let ups := upgradeCount prior missing x.inspector.mends
      let new := entriesFor a (beforeSet prior) x.inspector.mends x.inspector.nextId listed
      let runs := runsOf missing
      ⟨{ x.inspector with
          mends := upgradeEntries prior missing x.inspector.mends ++ new
          nextId := nextIdAfter x.inspector.nextId new
          hookMiss := hookCounts missing hooks dead x.inspector.hookMiss
          overflow := x.inspector.overflow + (runs.length - listed.length)
          previous := some ⟨a.panel, a.serial, a.row, missing⟩
          awaiting := none },
        { x.panel with
          knots := x.panel.knots + (runs.countP fun r => runKind (beforeSet prior) r == .knot) - ups
          holes := x.panel.holes + (runs.countP fun r => runKind (beforeSet prior) r == .hole) + ups
          unmended := x.panel.unmended + listed.length
          unlisted := x.panel.unlisted + (runs.length - listed.length) }⟩ := by
  have few := runsOf_length_le missing
  have sorted := foldl_addRun a (beforeSet prior) (runsOf missing) x within (by omega) (by omega) (by omega) (by omega)
    (by omega) taken
  have upgradedFew : upgradeCount prior missing x.inspector.mends ≤ 48 := by
    unfold upgradeCount
    split
    · exact List.countP_le_length.trans within
    · omega
  have holesFew : ((runsOf missing).countP fun r => runKind (beforeSet prior) r == .hole) ≤ 64 :=
    List.countP_le_length.trans few
  have held : min Config.countSat (x.panel.holes +
      ((runsOf missing).countP fun r => runKind (beforeSet prior) r == .hole) +
        upgradeCount prior missing x.inspector.mends) = x.panel.holes +
      ((runsOf missing).countP fun r => runKind (beforeSet prior) r == .hole) +
        upgradeCount prior missing x.inspector.mends := by
    refine Nat.min_eq_right ?_
    show _ ≤ 65535
    omega
  unfold sortWord
  rw [← same]
  dsimp only
  rw [sorted]
  dsimp only
  rw [List.drop_left]
  simp only [Panel.countRuns]
  rw [held]

theorem hookCounts_get (missing : BitVec 64) (hooks dead : Nat) (counts : Vector Nat 64) (h : Fin 64) :
    (hookCounts missing hooks dead counts)[h] = if hooks ≤ h.1 then counts[h]
      else if missing.getLsbD h.1 = false then 0
      else if counts[h] < dead then counts[h] + 1 else counts[h] := by
  have entry : (hookCounts missing hooks dead counts)[h] =
      if h.1 < hooks then if missing.getLsbD h.1 then satSucc dead counts[h] else 0 else counts[h] :=
    Vector.getElem_ofFn h.2
  rw [entry]
  by_cases used : h.1 < hooks
  · rw [if_pos used, if_neg (Nat.not_le.mpr used)]
    cases missing.getLsbD h.1
    · rfl
    · rfl
  · rw [if_neg used, if_pos (Nat.not_lt.mp used)]

theorem runKind_eq {before : BitVec 64} {r : Run} {hole : Bool} (tells : hole = true ↔ 2 ≤ r.span ∨
    touches before r.first r.span = true) : runKind before r = if hole then .hole else .knot :=
  if_congr tells.symm rfl rfl

/-- Settles O34. -/
theorem senseWordSortsItsRow : Obligations.SenseWordSortsItsRow := by
  intro s dt word a f q released bound awaiting order panel hooks knots holes unmended unlisted within overflow x missing
    prior touched runs listed isHole upgraded ups raiseIf addedIf deadHook
  have same : prior = sameRow x.previous a := (sameRow_eq x.previous a).symm
  have kind (r : Run) : runKind (beforeSet prior) r = if isHole r then .hole else .knot := by
    refine runKind_eq ?_
    rw [touches_eq, decide_eq_true_eq]
    show (decide (2 ≤ r.span) || _) = true ↔ _
    cases prior with
    | none => simp [beforeSet]
    | some b => simp [beforeSet, touched]
  have tells (e : MendEntry) : upgraded e = prior.elim false fun b => upgrades b missing e := by
    show (match prior with | some b => _ | none => _) = _
    cases prior with
    | none => rfl
    | some b =>
      show (_ && touched _ _ _) = (_ && _ && _ && touches _ _ _)
      rw [touches_eq]
      simp only [Bool.decide_and, Bool.and_assoc]
      rfl
  have holeKind (r : Run) : (runKind (beforeSet prior) r == .hole) = isHole r := by
    rw [kind]
    cases isHole r <;> rfl
  have knotKind (r : Run) : (runKind (beforeSet prior) r == .knot) = !isHole r := by
    rw [kind]
    cases isHole r <;> rfl
  have sorted := sortWord_spelled ⟨x, q⟩ a missing f.hooks f.deadRows same within knots holes unmended unlisted overflow
    (listed := listed) rfl
  simp only [holeKind, knotKind, upgradeCount_eq tells, upgradeEntries_eq tells] at sorted
  have raised : raisesHole x a missing = (runs.any isHole || decide (0 < ups)) := by
    unfold raisesHole
    rw [← same, upgradeCount_eq tells]
    simp only [holeKind]
    rfl
  have size : listed.length = min (48 - x.mends.length) runs.length := List.length_take
  have full : decide (Config.mendSize - x.mends.length < runs.length) = decide (listed.length < runs.length) := by
    refine decide_eq_decide.mpr ?_
    show 48 - _ < _ ↔ _
    omega
  have added : decide (0 < min (Config.mendSize - x.mends.length) runs.length) = decide (listed ≠ []) := by
    refine decide_eq_decide.mpr ?_
    rw [← List.length_pos_iff, size]
    rfl
  refine ⟨entriesFor a (beforeSet prior) x.mends x.nextId listed, _, _, ?_, ?rows, ?ids, rfl,
    hookCounts_get missing f.hooks f.deadRows x.hookMiss⟩
  case rows =>
    rw [entriesFor_rows]
    simp only [kind]
  case ids =>
    intro before after e split
    have room : x.mends.length + listed.length ≤ 48 := by
      have : x.mends.length ≤ 48 := within
      omega
    exact entriesFor_ids a (beforeSet prior) room split
  rw [exec_senseWord_row word dt released bound awaiting order panel]
  show Host.Outcome.next ((((s.elapse dt).modPanel a.panel fun _ => (sortWord ⟨x, q⟩ a missing f.hooks f.deadRows).panel)
    |>.modInspector fun _ => (sortWord ⟨x, q⟩ a missing f.hooks f.deadRows).inspector).handOn
      (decide (Config.mendSize - x.mends.length < runs.length)) (raisesHole x a missing)
      (decide (0 < min (Config.mendSize - x.mends.length) runs.length)) deadHook) = _
  rw [sorted, raised, full, added]
  rfl

end Sys2Proof.Machine
end

