-- ==== Sys2Proof/Proofs/Grants.lean ====
section
/-!
PROOF. The cut arbiter's choice of grants (R92 to R95) and the instants at which its readings age (R90).
-/
namespace Sys2Proof.Machine

/-! ### The instants of the grant list and the lane times (R90) -/

theorem waitPart_arbiter (s : State) (t : Timer) : (s.waitPart t).arbiter = s.arbiter :=
  (congrArg State.arbiter (waitPart_frame s t)).trans rfl

theorem forgetGrant_eq {s : State} {a : Arbiter} {r : Word32} {rest : List Word32} (same : s.arbiter = a)
    (h : a.grants = r :: rest) : s.forgetGrant = { s with arbiter := { a with grants := rest } } := by
  subst same
  rw [State.forgetGrant, h]
  rfl

theorem forgetLane_eq {s : State} {a : Arbiter} (same : s.arbiter = a) (lane : Lane) :
    s.forgetLane lane = { s with arbiter := a.setLane lane none } := by
  subst same
  rfl

/-- Settles O39. -/
theorem grantReadingsAge : Obligations.GrantReadingsAge := by
  intro s dt
  have ageing (i : Fin 8) : exec (.ageingOut dt i) s = .next ((s.elapse dt).ageOut i) := rfl
  have laneGap (lane : Lane) : exec (.laneGapExpiry dt lane) s = .next ((s.elapse dt).laneGapOver lane) := rfl
  have anyGap : exec (.anyGapExpiry dt) s = .next ((s.elapse dt).anyGapOver) := rfl
  have drop : exec (.grantListDrop dt) s = .next ((s.elapse dt).dropGrant) := rfl
  have absent (lane : Lane) : exec (.laneTimeAbsent dt lane) s = .next ((s.elapse dt).laneAbsent lane) := rfl
  refine ⟨fun i h => ?_, fun i r h => ?_, fun lane h => ?_, fun lane r h => ?_, fun ha hb => ?_, fun r h => ?_,
    fun a b ha hb => ?_, fun h => ?_, fun r rest h => ?_, fun lane h => ?_, fun r h => ?_, fun r h => ?_⟩
  · rw [ageing, State.ageOut, State.elapse_arbiter, h]
  · rw [ageing, State.ageOut, State.elapse_arbiter, h]
    rfl
  · rw [laneGap, State.laneGapOver, State.elapse_arbiter, h]
  · rw [laneGap, State.laneGapOver, State.elapse_arbiter, h]
    rfl
  · rw [anyGap, State.anyGapOver, State.latestLane, State.elapse_arbiter, ha, hb]
  · obtain ⟨ha, hb⟩ | ⟨ha, hb⟩ | ⟨ha, hb⟩ := h
    · rw [anyGap, State.anyGapOver, State.latestLane, State.elapse_arbiter, ha, hb]
      rfl
    · rw [anyGap, State.anyGapOver, State.latestLane, State.elapse_arbiter, ha, hb]
      rfl
    · rw [anyGap, State.anyGapOver, State.latestLane, State.elapse_arbiter, ha, hb]
      dsimp only
      rw [if_pos le_rfl]
      rfl
  · rw [anyGap, State.anyGapOver, State.latestLane, State.elapse_arbiter, ha, hb]
    dsimp only
    rw [← apply_ite some]
    rfl
  · rw [drop, State.dropGrant, State.elapse_arbiter, h]
  · rw [drop, State.dropGrant, State.elapse_arbiter, h]
    exact congrArg Host.Outcome.next (forgetGrant_eq (s := (s.elapse dt).waitPart _) (waitPart_arbiter _ _) h)
  · rw [absent, State.laneAbsent, State.elapse_arbiter, h]
  · rw [absent, State.laneAbsent, State.elapse_arbiter, show s.arbiter.laneTime .a = _ from h]
    exact congrArg Host.Outcome.next (forgetLane_eq (s := (s.elapse dt).waitPart _) (waitPart_arbiter _ _) .a)
  · rw [absent, State.laneAbsent, State.elapse_arbiter, show s.arbiter.laneTime .b = _ from h]
    exact congrArg Host.Outcome.next (forgetLane_eq (s := (s.elapse dt).waitPart _) (waitPart_arbiter _ _) .b)

/-! ### Grants (R94, R95) -/

/-- Step 2 of a change between states that are both given the permit (R158). -/
theorem enter_permitted {s : State} {n : Fin 9} {st : StationState} (now : Word32)
    (was : (s.station n).state.permitted = true) (becomes : st.permitted = true) :
    (s.station n).enter s.port.mode now st =
      { s.station n with state := st, pulseHigh := (s.station n).pulseHigh && s.permitGiven n } := by
  cases mode : s.port.mode with
  | operate =>
    rw [enter_given now rfl becomes, if_pos was, State.permitGiven, was, mode]
    simp
  | config =>
    rw [State.permitGiven, mode]
    simp [Station.enter]

theorem eligible_working {s : State} {n : Fin 9} (h : s.eligible n = true) :
    (s.station n).state = .running ∨ (s.station n).state = .holding := by
  obtain ⟨working, -⟩ := (eligible_iff s n).mp h
  exact working

theorem permitted_of_working {st : StationState} (h : st = .running ∨ st = .holding) : st.permitted = true :=
  (permitted_iff st).mpr (h.imp_right .inl)

theorem grant_arbiter (s : State) (n : Fin 9) :
    (s.grant n).arbiter = s.arbiter.grant n (s.stationParams n).lane s.clocks.part
      (s.partTimer (s.params.part.cutTimeout * 1000)) := by
  rw [State.grant, lowTest_arbiter, award_arbiter]

theorem grant_waiting (s : State) (n : Fin 9) : (s.grant n).arbiter.waiting = s.arbiter.waiting.filter (· != n) := by
  rw [grant_arbiter]
  rfl

theorem lowTest_frame (s : State) : s.lowTest = { s with
    table := { s.table with lowArmed := s.lowTest.table.lowArmed }, notices := s.lowTest.notices } := by
  unfold State.lowTest
  split
  · split <;> rfl
  · rfl

theorem award_frame (s : State) (n : Fin 9) : s.award n = { s with
    stations := (s.award n).stations, lays := (s.award n).lays, inspector := (s.award n).inspector
    arbiter := (s.award n).arbiter } := by
  refine (leaveFor_frame _ n .cutting).trans ?_
  rw [award_arbiter]
  rfl

/-- A grant changes no more than this (R95, R125). -/
theorem grant_frame (s : State) (n : Fin 9) : s.grant n = { s with
    stations := (s.grant n).stations, lays := (s.grant n).lays, inspector := (s.grant n).inspector
    arbiter := (s.grant n).arbiter, table := { s.table with lowArmed := (s.grant n).table.lowArmed }
    notices := (s.grant n).notices } := by
  have awarded := congrArg (fun u : State => { u with
    table := { u.table with lowArmed := (s.grant n).table.lowArmed }, notices := (s.grant n).notices }) (award_frame s n)
  refine (lowTest_frame (s.award n)).trans (awarded.trans ?_)
  rw [show (s.grant n).stations = (s.award n).stations from lowTest_stations _,
    show (s.grant n).lays = (s.award n).lays from lowTest_lays _,
    show (s.grant n).inspector = (s.award n).inspector from lowTest_inspector _,
    show (s.grant n).arbiter = (s.award n).arbiter from lowTest_arbiter _]

/-- The TABLE_LOW test of a grant is made with one FREE record fewer to give. -/
theorem award_figure (s : State) (n : Fin 9) : (s.award n).figure = s.figure - 1 := by
  have free : (s.award n).freeCount = s.freeCount := freeCount_of_records (congrArg _ (award_table s n))
  unfold State.figure
  rw [free, (award_reserves s n).1, Nat.sub_add_eq]

/-- A consideration grants the request it finds and goes on (R94). -/
theorem considerWith_found {s : State} {n : Fin 9} (h : s.arbiter.waiting.find? s.eligible = some n) (fuel : Nat) :
    considerWith (fuel + 1) s = considerWith fuel (s.grant n) := by
  rw [considerWith, h]

theorem considerWith_rested {s : State} (h : s.arbiter.waiting.find? s.eligible = none) (fuel : Nat) :
    considerWith fuel s = s := by
  cases fuel with
  | zero => rfl
  | succ fuel => rw [considerWith, h]

theorem consider_rested {s : State} (h : ∀ n ∈ s.arbiter.waiting, s.eligible n = false) : s.consider = s :=
  considerWith_rested (List.find?_eq_none.mpr fun n hn => by rw [h n hn]; exact Bool.false_ne_true) _

/-- A queue is shorter once a request has been taken from it. -/
theorem grant_waiting_lt {s : State} {n : Fin 9} (h : s.arbiter.waiting.find? s.eligible = some n) :
    (s.grant n).arbiter.waiting.length < s.arbiter.waiting.length := by
  rw [grant_waiting]
  refine List.length_filter_lt_length_iff_exists.mpr ⟨n, List.mem_of_find?_eq_some h, ?_⟩
  simp

/-- What walks of the queue do to the requests, enough of them for its length (R94). -/
theorem considerWith_spec (fuel : Nat) (s : State) (enough : s.arbiter.waiting.length ≤ fuel) :
    (∀ n ∈ (considerWith fuel s).arbiter.waiting, (considerWith fuel s).eligible n = false) ∧
    (considerWith fuel s).arbiter.waiting.Sublist s.arbiter.waiting ∧
    (∀ n, n ∈ s.arbiter.waiting → n ∉ (considerWith fuel s).arbiter.waiting →
      ((considerWith fuel s).station n).state = .cutting ∧
      ((s.station n).state = .running ∨ (s.station n).state = .holding)) ∧
    ∀ n, n ∉ s.arbiter.waiting ∨ n ∈ (considerWith fuel s).arbiter.waiting →
      (considerWith fuel s).station n = s.station n := by
  induction fuel generalizing s with
  | zero =>
    have empty : s.arbiter.waiting = [] := List.eq_nil_of_length_eq_zero (Nat.le_zero.mp enough)
    refine ⟨fun n hn => ?_, List.Sublist.refl _, fun n hn gone => absurd hn gone, fun n _ => rfl⟩
    exact absurd hn (by rw [considerWith, empty]; exact List.not_mem_nil)
  | succ fuel ih =>
    cases found : s.arbiter.waiting.find? s.eligible with
    | none =>
      rw [considerWith_rested found]
      exact ⟨fun n hn => Bool.eq_false_iff.mpr (List.find?_eq_none.mp found n hn), List.Sublist.refl _,
        fun n hn gone => absurd hn gone, fun n _ => rfl⟩
    | some m =>
      obtain ⟨none, order, taken, kept⟩ := ih (s.grant m) (by have := grant_waiting_lt found; omega)
      rw [considerWith_found found]
      have fewer : (s.grant m).arbiter.waiting.Sublist s.arbiter.waiting := by
        rw [grant_waiting]
        exact List.filter_sublist
      have left : m ∉ (s.grant m).arbiter.waiting := by rw [grant_waiting]; simp
      have others (n : Fin 9) (hn : n ≠ m) : (s.grant m).station n = s.station n := by rw [grant_station, if_neg hn]
      refine ⟨none, order.trans fewer, fun n hn gone => ?_, fun n h => ?_⟩
      · by_cases e : n = m
        · subst e
          have working := eligible_working (List.find?_some found)
          have granted : ((s.grant n).station n).state = .cutting := by
            rw [grant_station, if_pos rfl, Station.enter_state]
          refine ⟨?_, working⟩
          rw [considerWith_stopped fuel _ n (by rw [granted]; decide) (by rw [granted]; decide), granted]
        · have still : n ∈ (s.grant m).arbiter.waiting := by
            rw [grant_waiting]
            exact List.mem_filter.mpr ⟨hn, by simpa using e⟩
          rw [← others n e]
          exact taken n still gone
      · have other : n ≠ m := by
          rintro rfl
          obtain absent | stays := h
          · exact absent (List.mem_of_find?_eq_some found)
          · exact left (order.subset stays)
        rw [← others n other]
        exact kept n (h.imp_left fun absent still => absent (fewer.subset still))

/-- Settles O40. -/
theorem considerationLeavesNoEligibleRequest : Obligations.ConsiderationLeavesNoEligibleRequest :=
  fun s => considerWith_spec s.arbiter.waiting.length s le_rfl

/-! ### Eligibility (R90, R92, R93) -/

theorem younger_eq_false (s : State) (time : Option Word32) (gap : Nat) :
    s.younger time gap = false ↔ ∀ r, time = some r → gap * 1000 ≤ (s.clocks.part - r).toNat := by
  cases time with
  | none => exact ⟨fun _ _ h => (nomatch h), fun _ => rfl⟩
  | some r =>
    rw [State.younger, decide_eq_false_iff_not, Nat.not_lt]
    exact ⟨fun h r' e => Option.some.inj e ▸ h, fun h => h r rfl⟩

theorem laneBlocked_eq_false (s : State) (lane : Lane) :
    s.laneBlocked lane = false ↔
      (lane = .a → ∀ r, s.arbiter.laneA = some r → s.params.part.laneGap * 1000 ≤ (s.clocks.part - r).toNat) ∧
      (lane = .b → ∀ r, s.arbiter.laneB = some r → s.params.part.laneGap * 1000 ≤ (s.clocks.part - r).toNat) := by
  rw [State.laneBlocked, younger_eq_false]
  cases lane with
  | a => exact ⟨fun h => ⟨fun _ => h, fun e => nomatch e⟩, fun h => h.1 rfl⟩
  | b => exact ⟨fun h => ⟨fun e => (nomatch e), fun _ => h⟩, fun h => h.2 rfl⟩

theorem anyBlocked_eq_false (s : State) :
    s.anyBlocked = false ↔ ∀ r, s.arbiter.laneA = some r ∨ s.arbiter.laneB = some r →
      s.params.part.anyGap * 1000 ≤ (s.clocks.part - r).toNat := by
  rw [State.anyBlocked, Bool.or_eq_false_iff, younger_eq_false, younger_eq_false]
  exact ⟨fun h r => fun e => e.elim (h.1 r) (h.2 r), fun h => ⟨fun r e => h r (.inl e), fun r e => h r (.inr e)⟩⟩

theorem freeCount_spelled (s : State) :
    s.freeCount = ((List.finRange 64).filter fun i => decide (s.record i = none)).length := by
  rw [State.freeCount, records_toList, List.countP_map, ← List.countP_eq_length_filter]
  refine List.countP_congr fun i _ => ?_
  rw [Function.comp, Option.isNone_iff_eq_none, decide_eq_true_iff]

theorem placed_spelled (s : State) :
    s.placed = ((List.finRange 64).filter fun i => match s.record i with
      | some p => decide (p.state = .queued ∨ p.state = .atScale ∨ p.state = .weighed)
      | none => false).length := by
  rw [State.placed, ← List.countP_eq_length_filter]
  refine List.countP_congr fun i _ => ?_
  cases record : s.record i with
  | none => rfl
  | some p => cases state : p.state <;> simp [holdsPlace, custodyOf, state]

/-- The six conditions of R92, spelled out. -/
theorem eligible_spelled (s : State) (n : Fin 9) :
    s.eligible n = true ↔
      ((s.station n).state = .running ∨ (s.station n).state = .holding) ∧
      (s.arbiter.grants.filter fun r =>
        decide ((s.clocks.part - r).toNat < s.params.part.tWin * 1000)).length < s.params.part.kWin ∧
      ((s.stationParams n).lane = .a →
        ∀ r, s.arbiter.laneA = some r → s.params.part.laneGap * 1000 ≤ (s.clocks.part - r).toNat) ∧
      ((s.stationParams n).lane = .b →
        ∀ r, s.arbiter.laneB = some r → s.params.part.laneGap * 1000 ≤ (s.clocks.part - r).toNat) ∧
      (∀ r, s.arbiter.laneA = some r ∨ s.arbiter.laneB = some r →
        s.params.part.anyGap * 1000 ≤ (s.clocks.part - r).toNat) ∧
      ((List.finRange 64).filter fun i => match s.record i with
        | some p => decide (p.state = .queued ∨ p.state = .atScale ∨ p.state = .weighed)
        | none => false).length + s.arbiter.reservedPlaces < 8 ∧
      s.arbiter.reservedRecords < ((List.finRange 64).filter fun i => decide (s.record i = none)).length := by
  have figure : 1 ≤ s.figure ↔ s.arbiter.reservedRecords < s.freeCount := by
    unfold State.figure
    omega
  rw [eligible_iff, laneBlocked_eq_false, anyBlocked_eq_false, placesInUse_eq, placed_spelled, figure, freeCount_spelled,
    State.windowCount, List.countP_eq_length_filter, and_assoc]
  rfl

/-! ### One grant (R95) -/

/-- With an any-lane gap a grant blocks every lane at once (R90). -/
theorem grant_anyBlocked {s : State} (gap : 0 < s.params.part.anyGap) (n : Fin 9) : (s.grant n).anyBlocked = true := by
  have now : (s.grant n).clocks = s.clocks := (steady_grant s n).clocks
  have params : (s.grant n).params = s.params := (steady_grant s n).params
  refine Bool.of_not_eq_false fun clear => ?_
  have far := (anyBlocked_eq_false (s.grant n)).mp clear s.clocks.part (by
    rw [grant_arbiter]
    cases (s.stationParams n).lane with
    | a => exact .inl rfl
    | b => exact .inr rfl)
  rw [now, params, BitVec.sub_self] at far
  exact absurd far (by show ¬ _ ≤ 0; omega)

theorem appendGrant_drop {grants : List Word32} (few : grants.length ≤ 8) (now : Word32) :
    appendGrant grants now = grants.drop (grants.length - 7) ++ [now] := by
  unfold appendGrant
  by_cases full : 8 ≤ grants.length
  · rw [if_pos (show Config.grantSize ≤ _ from full), show grants.length - 7 = 1 by omega, List.drop_one]
  · rw [if_neg (show ¬ Config.grantSize ≤ _ from full), show grants.length - 7 = 0 by omega, List.drop_zero]

/-- Settles O41. -/
theorem considerationGrantsFirstEligible : Obligations.ConsiderationGrantsFirstEligible := by
  refine ⟨eligible_spelled, fun s => ⟨consider_rested, fun before after n waiting passed eligible notBefore notAfter few =>
    ?_⟩⟩
  intro now figure
  have found : s.arbiter.waiting.find? s.eligible = some n := by
    rw [waiting]
    exact List.find?_eq_some_iff_append.mpr ⟨eligible, before, after, rfl, fun m hm => by rw [passed m hm]; rfl⟩
  have rest : (s.grant n).arbiter.waiting = before ++ after := by
    have others {l : List (Fin 9)} (h : n ∉ l) : l.filter (· != n) = l :=
      List.filter_eq_self.mpr fun m hm => bne_iff_ne.mpr fun e => h (e ▸ hm)
    rw [grant_waiting, waiting, List.filter_append, List.filter_cons_of_neg (by simp), others notBefore, others notAfter]
  have goesOn : s.consider = (s.grant n).consider := by
    rw [State.consider, waiting, List.length_append, List.length_cons, ← Nat.add_assoc, considerWith_found found,
      ← List.length_append, ← rest]
    rfl
  have working := eligible_working eligible
  have granted : (s.grant n).station n = { s.station n with
      state := .cutting, pulseHigh := (s.station n).pulseHigh && s.permitGiven n } := by
    rw [grant_station, if_pos rfl, enter_permitted _ (permitted_of_working working) rfl]
  have cutting : ((s.grant n).station n).state = .cutting := by rw [granted]
  have lay (l : Fin 8) : (s.grant n).lay l =
      if (s.station n).state = .running ∧ n = ofLay l then (s.lay l).stop else s.lay l :=
    (lowTest_lay _ l).trans (award_lay s n l)
  have timer (m : Fin 9) : (s.grant n).cutTimer m =
      if m = n then some ⟨now, s.params.part.cutTimeout * 1000⟩ else s.cutTimer m := by
    show (s.grant n).arbiter.cutTimers[m.1] = _
    rw [grant_arbiter]
    exact getElem_set_fin s.arbiter.cutTimers n m _
  refine ⟨s.grant n, goesOn, fun gap => ?_, rest, ?_, ?_, ?_, ?_, ?_, ?_, fun m hm => ?_, granted,
    fun m hm => ?_, ?_, ?_, ?_, fun l e running => ?_, fun l e holding => ?_, fun l other => ?_, ?_, ?_, ?_, grant_frame s n⟩
  · rw [goesOn]
    refine consider_rested fun m _ => Bool.eq_false_iff.mpr fun due => ?_
    obtain ⟨-, -, -, clear, -⟩ := (eligible_iff _ m).mp due
    rw [grant_anyBlocked gap] at clear
    exact Bool.noConfusion clear
  · rw [grant_arbiter]
    exact appendGrant_drop few now
  · rw [grant_arbiter]
    rfl
  · rw [grant_arbiter]
    rfl
  · rw [grant_arbiter]
    rfl
  · rw [grant_arbiter]
    rfl
  · rw [timer, if_pos rfl]
  · rw [timer, if_neg hm]
  · rw [grant_station, if_neg hm]
  · rw [State.cutStatus, if_pos cutting]
  · rw [State.cutOn, cutting]
    rfl
  · rw [State.holdOn, cutting]
    rfl
  · rw [lay, if_pos ⟨running, e⟩]
    rfl
  · rw [lay, if_neg fun both => ?_]
    rw [holding] at both
    exact nomatch both.1
  · rw [lay, if_neg fun both => other both.2]
  · rw [State.grant, lowTest_inspector, award_inspector]
    simp only [and_comm]
  · rw [State.grant, lowTest_lowArmed, award_figure, (steady_award s n).params]
  · rw [State.grant, lowTest_notices, award_figure, (steady_award s n).params, award_table]
    have same : (s.award n).notices = s.notices := leaveFor_notices _ _ _
    have told : ((s.award n).notice partSlot .tableLow).notices = (s.notice 9 .tableLow).notices := by
      unfold State.notice
      rw [same]
      rfl
    rw [same, told]

end Sys2Proof.Machine
end

