-- ==== Sys2Proof/Proofs/RaisedFaults.lean ====
section
/-!
PROOF. Faults: what is recorded and noticed (R149, R150), the reactions against the station's state (R151 to R154), and
the expiry of the link silence timer (R157).
-/
namespace Sys2Proof.Machine

/-! ### What is recorded (R149, R150) -/

theorem inSet_addToSet (set : BitVec 16) (k k' : FaultKind) :
    inSet (addToSet set k) k' = (inSet set k' || decide (k' = k)) := by
  unfold inSet addToSet
  rw [BitVec.getLsbD_or, BitVec.getLsbD_twoPow]
  congr 1
  rw [Bool.eq_iff_iff, Bool.and_eq_true, decide_eq_true_iff, decide_eq_true_iff, decide_eq_true_iff, eq_comm (a := k')]
  exact ⟨fun h => faultIndex_inj (Fin.ext h.2), fun h => ⟨k.index.2, congrArg (fun k : FaultKind => k.index.1) h⟩⟩

theorem recordFault_faults (s : State) (n m : Fin 9) (k : FaultKind) (source : Option (Fin 9)) :
    (s.recordFault n k source).faults m =
      if m = n then ⟨addToSet (s.faults n).set k, some ((s.faults n).first.getD (s.firstFault n k source))⟩
      else s.faults m := by
  rw [State.recordFault, State.notice_faults, State.modFaults_faults]
  split
  · rename_i e
    subst e
    rfl
  · rfl

/-- Recording reaches the collector and the notices alone. -/
theorem recordFault_frame (s : State) (n : Fin 9) (k : FaultKind) (source : Option (Fin 9)) :
    s.recordFault n k source = { s with
      collector := (s.recordFault n k source).collector, notices := (s.recordFault n k source).notices } := rfl

theorem firstFault_idle {s : State} {n : Fin 9} (h : (s.station n).piece = none) (k : FaultKind)
    (source : Option (Fin 9)) :
    (s.firstFault n k source).piece = none ∧ (s.firstFault n k source).extent = none := by
  have idle : s.openPiece? n = none := by unfold State.openPiece?; rw [h]; rfl
  unfold State.firstFault
  rw [h, idle]
  exact ⟨rfl, rfl⟩

theorem firstFault_open {s : State} {n : Fin 9} {i : Fin 64} {p : Piece} (piece : (s.station n).piece = some i)
    (record : s.record i = some p) (k : FaultKind) (source : Option (Fin 9)) :
    (s.firstFault n k source).piece = some (i, p.serial) ∧ (s.firstFault n k source).extent = some p.extent := by
  have own : s.openPiece? n = some p := by unfold State.openPiece?; rw [piece]; exact record
  unfold State.firstFault
  rw [piece, own]
  exact ⟨rfl, rfl⟩

/-! ### What a consideration leaves alone -/

/-- What every grant keeps a consideration keeps (R94). -/
theorem consider_of {P : State → Prop} (grants : ∀ u n, u.eligible n = true → P u → P (u.grant n)) {s : State}
    (h : P s) : P s.consider := by
  have walk (fuel : Nat) : ∀ s, P s → P (considerWith fuel s) := by
    induction fuel with
    | zero => exact fun _ h => h
    | succ fuel ih =>
      intro s h
      cases found : s.arbiter.waiting.find? s.eligible with
      | none => rwa [considerWith_rested found]
      | some n =>
        rw [considerWith_found found]
        exact ih _ (grants s n (List.find?_some found) h)
  exact walk _ s h

theorem consider_collector (s : State) : s.consider.collector = s.collector := (consider_records s).2.2

theorem consider_waiting (s : State) : s.consider.arbiter.waiting.Sublist s.arbiter.waiting :=
  (considerWith_spec s.arbiter.waiting.length s le_rfl).2.1

theorem noticeCount_of_notices {s t : State} (h : t.notices = s.notices) (slot : Fin 10) (k : Fin 25) :
    t.noticeCount slot k = s.noticeCount slot k := by
  unfold State.noticeCount
  rw [h]

theorem lowTest_noticeCount_other (s : State) (slot : Fin 10) {k : Fin 25} (other : k ≠ NoticeKind.tableLow.index) :
    s.lowTest.noticeCount slot k = s.noticeCount slot k := by
  rw [lowTest_noticeCount, if_neg fun all => other all.2.1]

/-- Of the notices a consideration reaches TABLE_LOW alone (R125). -/
theorem consider_noticeCount (s : State) (slot : Fin 10) {k : Fin 25} (other : k ≠ NoticeKind.tableLow.index) :
    s.consider.noticeCount slot k = s.noticeCount slot k :=
  consider_of (P := fun u => u.noticeCount slot k = s.noticeCount slot k) (fun u n _ h => by
    rw [State.grant, lowTest_noticeCount_other _ slot other]
    exact (noticeCount_of_notices (leaveFor_notices _ _ _) slot k).trans h) rfl

theorem grant_cutTimer (s : State) (n m : Fin 9) : (s.grant n).cutTimer m =
    if m = n then some (s.partTimer (s.params.part.cutTimeout * 1000)) else s.cutTimer m := by
  show (s.grant n).arbiter.cutTimers[m.1] = _
  rw [grant_arbiter]
  exact getElem_set_fin s.arbiter.cutTimers n m _

/-- A station that may not be granted keeps its cut timer. -/
theorem consider_cutTimer {s : State} {m : Fin 9} (h : (s.station m).state ≠ .running)
    (h' : (s.station m).state ≠ .holding) : s.consider.cutTimer m = s.cutTimer m := by
  have kept : (s.consider.station m = s.station m) ∧ s.consider.cutTimer m = s.cutTimer m :=
    consider_of (P := fun u => u.station m = s.station m ∧ u.cutTimer m = s.cutTimer m) (fun u n eligible same => by
      obtain ⟨station, timer⟩ := same
      have other : m ≠ n := by
        rintro rfl
        have working := eligible_working eligible
        rw [station] at working
        exact working.elim h h'
      rw [grant_station, grant_cutTimer, if_neg other, if_neg other]
      exact ⟨station, timer⟩) ⟨rfl, rfl⟩
  exact kept.2

/-! ### Trips (R152) -/

theorem leaveFor_of_rested {s : State} {n : Fin 9} (h : (s.station n).state ≠ .running) (st : StationState) :
    s.leaveFor n st = s.enterState n st := if_neg h

theorem tripped_self (s : State) (n : Fin 9) : (s.tripped n).station n =
    { s.station n with state := .tripped, reasons := ⟨false, false, false⟩, pulseHigh := false } := by
  rw [tripped_station, if_pos rfl, enter_unpermitted _ _ _ rfl]
  rfl

theorem tripped_arbiter (s : State) (n : Fin 9) :
    (s.tripped n).arbiter = { s.arbiter with waiting := s.arbiter.waiting.filter (· != n) } := by
  unfold State.tripped
  rw [leaveFor_arbiter]
  rfl

theorem tripped_collector (s : State) (n : Fin 9) : (s.tripped n).collector = s.collector :=
  leaveFor_collector _ _ _

theorem tripped_notices (s : State) (n : Fin 9) : (s.tripped n).notices = s.notices := leaveFor_notices _ _ _

/-- A trip of a station whose machine does not run reaches the stations and the queue alone. -/
theorem tripped_rested_frame {s : State} {n : Fin 9} (h : (s.station n).state ≠ .running) :
    s.tripped n = { s with stations := (s.tripped n).stations, arbiter := (s.tripped n).arbiter } := by
  have rested : (((s.dropRequest n).modReasons n fun _ => Reasons.empty).station n).state ≠ .running := by
    rw [State.modReasons_station, if_pos rfl]
    exact h
  unfold State.tripped
  rw [leaveFor_of_rested rested]
  rfl

theorem tripStation_of_cutting {s : State} {n : Fin 9} (h : (s.station n).state = .cutting) :
    s.tripStation n = ((s.abortCut n).tripped n).lowTest.consider := if_pos h

theorem tripStation_of_other {s : State} {n : Fin 9} (h : (s.station n).state ≠ .cutting) :
    s.tripStation n = s.tripped n := if_neg h

theorem trip_of_bound {s : State} {n : Fin 9} (bound : (s.station n).state ≠ .unbound)
    (untripped : (s.station n).state ≠ .tripped) : s.trip n = s.tripStation n := by
  unfold State.trip
  cases state : (s.station n).state with
  | unbound => exact absurd state bound
  | tripped => exact absurd state untripped
  | _ => rfl

theorem trip_of_stopped {s : State} {n : Fin 9} (h : (s.station n).state = .unbound ∨ (s.station n).state = .tripped) :
    s.trip n = s := by
  unfold State.trip
  obtain h | h := h <;> rw [h]

theorem tripStation_self (s : State) (n : Fin 9) : (s.tripStation n).station n =
    { s.station n with state := .tripped, reasons := ⟨false, false, false⟩, pulseHigh := false } := by
  by_cases cutting : (s.station n).state = .cutting
  · have own : ((s.abortCut n).tripped n).lowTest.station n =
        { s.station n with state := .tripped, reasons := ⟨false, false, false⟩, pulseHigh := false } := by
      rw [lowTest_station, tripped_self]
      rfl
    rw [tripStation_of_cutting cutting, consider_stopped (by rw [own]; nofun) (by rw [own]; nofun), own]
  · rw [tripStation_of_other cutting, tripped_self]

theorem tripStation_waiting (s : State) (n : Fin 9) :
    (s.tripStation n).arbiter.waiting.Sublist (s.arbiter.waiting.filter (· != n)) := by
  by_cases cutting : (s.station n).state = .cutting
  · rw [tripStation_of_cutting cutting]
    refine (consider_waiting _).trans ?_
    rw [lowTest_arbiter, tripped_waiting]
    exact List.Sublist.refl _
  · rw [tripStation_of_other cutting, tripped_waiting]

theorem not_mem_tripStation_waiting (s : State) (n : Fin 9) : n ∉ (s.tripStation n).arbiter.waiting := fun h => by
  have := List.mem_filter.mp ((tripStation_waiting s n).subset h)
  simp at this

/-- The cut timer of a station that was CUTTING is disarmed by its trip. -/
theorem tripStation_cutTimer {s : State} {n : Fin 9} (cutting : (s.station n).state = .cutting) :
    (s.tripStation n).cutTimer n = none := by
  have own : (((s.abortCut n).tripped n).lowTest.station n).state = .tripped := by rw [lowTest_station, tripped_state]
  rw [tripStation_of_cutting cutting, consider_cutTimer (by rw [own]; decide) (by rw [own]; decide)]
  show ((s.abortCut n).tripped n).lowTest.arbiter.cutTimers[n.1] = none
  rw [lowTest_arbiter, tripped_arbiter]
  exact (getElem_set_fin s.arbiter.cutTimers n n none).trans (if_pos rfl)

theorem trip_collector (s : State) (n : Fin 9) : (s.trip n).collector = s.collector := by
  have taken : (s.tripStation n).collector = s.collector := by
    unfold State.tripStation
    split
    · rw [consider_collector, lowTest_collector, tripped_collector]
      rfl
    · exact tripped_collector s n
  unfold State.trip
  split
  · rfl
  · rfl
  · exact taken
  · exact taken
  · exact taken
  · exact taken

theorem trip_noticeCount (s : State) (n : Fin 9) (slot : Fin 10) {k : Fin 25}
    (other : k ≠ NoticeKind.tableLow.index) : (s.trip n).noticeCount slot k = s.noticeCount slot k := by
  have taken : (s.tripStation n).noticeCount slot k = s.noticeCount slot k := by
    unfold State.tripStation
    split
    · rw [consider_noticeCount _ slot other, lowTest_noticeCount_other _ slot other]
      exact noticeCount_of_notices (tripped_notices _ n) slot k
    · exact noticeCount_of_notices (tripped_notices s n) slot k
  unfold State.trip
  split
  · rfl
  · rfl
  · exact taken
  · exact taken
  · exact taken
  · exact taken

/-! ### Reactions other than TRIP_ALL (R151, R152) -/

/-- What a reaction other than TRIP_ALL keeps: its branches are no change, a hold reason and a trip. -/
theorem react_of {s : State} {n : Fin 9} {k : FaultKind} {P : State → Prop} (single : s.reaction k ≠ .tripAll)
    (none : P s) (hold : P (s.addReason n fun r => { r with fault := true })) (trip : P (s.trip n)) :
    P (s.react n k) := by
  unfold State.react
  split
  · exact none
  · split
    · exact none
    · exact hold
    · exact trip
    · exact absurd ‹_› single

theorem react_of_note {s : State} {k : FaultKind} (h : s.reaction k = .note) (n : Fin 9) : s.react n k = s := by
  unfold State.react
  rw [h]
  exact ite_self s

theorem react_of_hold {s : State} {n : Fin 9} {k : FaultKind} (h : s.reaction k = .hold) :
    s.react n k = s.addReason n fun r => { r with fault := true } := by
  unfold State.react
  rw [h]
  split
  · rename_i tripped
    exact (addReason_of_stopped _ (.inr tripped)).symm
  · rfl

theorem react_of_trip {s : State} {n : Fin 9} {k : FaultKind} (h : s.reaction k = .trip) : s.react n k = s.trip n := by
  unfold State.react
  rw [h]
  split
  · rename_i tripped
    exact (trip_of_stopped (.inr tripped)).symm
  · rfl

theorem addReason_unbound {s : State} {n : Fin 9} (h : (s.station n).state = .unbound) (f : Reasons → Reasons) :
    s.addReason n f = s := by
  unfold State.addReason
  rw [h]

theorem addReason_keeps (s : State) (n : Fin 9) (f : Reasons → Reasons) :
    (s.addReason n f).collector = s.collector ∧ (s.addReason n f).notices = s.notices ∧
      (s.addReason n f).arbiter = s.arbiter ∧ (s.addReason n f).table = s.table := by
  unfold State.addReason
  split
  · exact ⟨leaveFor_collector _ _ _, leaveFor_notices _ _ _, leaveFor_arbiter _ _ _, leaveFor_table _ _ _⟩
  · exact ⟨rfl, rfl, rfl, rfl⟩
  · exact ⟨rfl, rfl, rfl, rfl⟩
  · exact ⟨rfl, rfl, rfl, rfl⟩
  · exact ⟨rfl, rfl, rfl, rfl⟩
  · exact ⟨rfl, rfl, rfl, rfl⟩

/-- A reaction other than TRIP_ALL records nothing more. -/
theorem react_collector {s : State} {k : FaultKind} (single : s.reaction k ≠ .tripAll) (n : Fin 9) :
    (s.react n k).collector = s.collector :=
  react_of (P := fun t => t.collector = s.collector) single rfl (addReason_keeps s n _).1 (trip_collector s n)

theorem react_noticeCount {s : State} {k : FaultKind} (single : s.reaction k ≠ .tripAll) (n : Fin 9) (slot : Fin 10)
    {k' : Fin 25} (other : k' ≠ NoticeKind.tableLow.index) :
    (s.react n k).noticeCount slot k' = s.noticeCount slot k' :=
  react_of (P := fun t => t.noticeCount slot k' = s.noticeCount slot k') single rfl
    (noticeCount_of_notices (addReason_keeps s n _).2.1 slot k') (trip_noticeCount s n slot other)

theorem faultNotice_ne_tableLow (k : FaultKind) : (NoticeKind.fault k).index ≠ NoticeKind.tableLow.index := by
  cases k <;> decide

/-- What a hold reason that joins a station's set leaves of the station (R11). -/
theorem addReason_working {s : State} {n : Fin 9} (f : Reasons → Reasons) (h : (s.station n).state = .running ∨
    (s.station n).state = .holding ∨ (s.station n).state = .cutting) :
    ((s.addReason n f).station n).state = (if (s.station n).state = .running then .holding else (s.station n).state) ∧
      ((s.addReason n f).station n).reasons = f (s.station n).reasons ∧
      ((s.addReason n f).station n).piece = (s.station n).piece ∧
      ∀ m, m ≠ n → (s.addReason n f).station m = s.station m := by
  obtain running | held := h
  · obtain ⟨⟨state, -, piece, reasons⟩, others⟩ := addReason_running_station f running
    exact ⟨by rw [state, if_pos running], reasons, piece, others⟩
  · obtain ⟨own, others⟩ := addReason_held_station f held
    have still : (s.station n).state ≠ .running := by obtain h | h := held <;> rw [h] <;> decide
    refine ⟨?_, ?_, ?_, others⟩
    · rw [own, if_neg still]
    · rw [own]
    · rw [own]

theorem addReason_lay_other {s : State} {n : Fin 9} {l : Fin 8} (f : Reasons → Reasons) (other : n ≠ ofLay l) :
    (s.addReason n f).lay l = s.lay l := by
  unfold State.addReason
  split
  · rw [leaveFor_lay, if_neg fun both => other both.2]
    rfl
  · rfl
  · rfl
  · rfl
  · rfl
  · rfl

/-- A trip with a cut in flight, up to its tests (R102, R152). -/
theorem cutTrip_fields {s v : State} {n : Fin 9} (frame : v = { s with collector := v.collector, notices := v.notices })
    (cutting : (s.station n).state = .cutting) :
    let u := (v.abortCut n).tripped n
    u.station n = { s.station n with state := .tripped, reasons := ⟨false, false, false⟩, pulseHigh := false } ∧
      (∀ m, m ≠ n → u.station m = s.station m) ∧ u.cutTimer n = none ∧ (∀ m, m ≠ n → u.cutTimer m = s.cutTimer m) ∧
      u.arbiter = { s.arbiter with
        waiting := s.arbiter.waiting.filter (· != n), reservedRecords := s.arbiter.reservedRecords - 1
        reservedPlaces := s.arbiter.reservedPlaces - 1, cutTimers := u.arbiter.cutTimers } ∧
      u.notices = v.notices ∧
      u = { s with stations := u.stations, arbiter := u.arbiter, collector := v.collector, notices := u.notices } := by
  intro u
  have station (m : Fin 9) : (v.abortCut n).station m = s.station m := by
    rw [abortCut_station, frame]
    rfl
  have arbiter : u.arbiter = { (v.abortCut n).arbiter with waiting := s.arbiter.waiting.filter (· != n) } := by
    have waiting : (v.abortCut n).arbiter.waiting = s.arbiter.waiting := by rw [abortCut_waiting, frame]
    rw [← waiting]
    exact tripped_arbiter _ n
  have timer (m : Fin 9) : u.cutTimer m = if m = n then none else s.cutTimer m := by
    show u.arbiter.cutTimers[m.1] = _
    rw [arbiter, show s.cutTimer m = v.cutTimer m by rw [frame]; rfl]
    exact getElem_set_fin v.arbiter.cutTimers n m none
  refine ⟨?_, fun m hm => ?_, ?_, fun m hm => ?_, ?_, tripped_notices _ n, ?_⟩
  · rw [tripped_self, station]
  · rw [tripped_other _ hm, station]
  · rw [timer, if_pos rfl]
  · rw [timer, if_neg hm]
  · rw [arbiter, frame]
    rfl
  · have rested : ((v.abortCut n).station n).state ≠ .running := by rw [station, cutting]; decide
    have shape := congrArg (fun w : State => { w.abortCut n with stations := u.stations, arbiter := u.arbiter }) frame
    refine (tripped_rested_frame rested).trans (shape.trans ?_)
    rw [show u.notices = v.notices from tripped_notices _ n]
    rfl

/-- Settles O49. -/
theorem faultIsRecordedNoticedAndAnswered : Obligations.FaultIsRecordedNoticedAndAnswered := by
  intro s n k single t x c
  obtain ⟨v, hv⟩ : ∃ v, v = s.recordFault n k none := ⟨_, rfl⟩
  have reacted : t = v.react n k := by rw [hv]; rfl
  have frame : v = { s with collector := v.collector, notices := v.notices } := by
    rw [hv]
    exact recordFault_frame s n k none
  have station (m : Fin 9) : v.station m = s.station m := by rw [hv]; rfl
  have reaction : v.reaction k = s.reaction k := by rw [hv]; rfl
  have told : v.notices = (s.notice (slotOfStation n) (.fault k)).notices := by rw [hv]; rfl
  have collector : t.collector = v.collector := by
    rw [reacted]
    exact react_collector (reaction ▸ single) n
  have faults (m : Fin 9) : t.faults m = if m = n then
      ⟨addToSet (s.faults n).set k, some ((s.faults n).first.getD (s.firstFault n k none))⟩ else s.faults m := by
    rw [← recordFault_faults, ← hv]
    exact congrArg (fun c : Collector => c.stations[m.1]) collector
  have quiet (same : t = v) : t = { s with collector := t.collector, notices := t.notices } := by rw [same, ← frame]
  refine ⟨fun k' => ?set, fun f h => ?kept, fun h => ?first, fun m hm => ?others, ?count, fun h => ?none,
    fun hold working => ?hold, fun hold ready => ?ready, fun trip untripped bound => ?trip, fun l e loud running => ?stop,
    fun l other uncut => ?lay⟩
  case set => rw [faults, if_pos rfl, inSet_addToSet]
  case kept =>
    rw [faults, if_pos rfl, h]
    rfl
  case first =>
    refine ⟨s.firstFault n k none, ?_, rfl, rfl, rfl, fun idle => firstFault_idle idle k none,
      fun i p piece record => firstFault_open piece record k none⟩
    rw [faults, if_pos rfl, h]
    rfl
  case others => rw [faults, if_neg hm]
  case count =>
    rw [reacted, react_noticeCount (reaction ▸ single) n _ (faultNotice_ne_tableLow k), noticeCount_of_notices told,
      notice_noticeCount_self]
    rfl
  case none =>
    refine quiet (reacted.trans ?_)
    obtain note | stopped := h
    · exact react_of_note (reaction.trans note) n
    · rw [show x = v.station n from (station n).symm] at stopped
      refine react_of (P := fun u => u = v) (reaction ▸ single) rfl ?_ (trip_of_stopped stopped.symm)
      obtain tripped | unbound := stopped
      · exact addReason_of_stopped _ (.inr tripped)
      · exact addReason_unbound unbound _
  case hold =>
    have held : t = v.addReason n fun r => { r with fault := true } := reacted.trans (react_of_hold (reaction.trans hold))
    obtain ⟨-, -, arbiter, table⟩ := addReason_keeps v n fun r => { r with fault := true }
    rw [show x = v.station n from (station n).symm] at working
    obtain ⟨state, reasons, piece, others⟩ := addReason_working (fun r => { r with fault := true }) working
    rw [← held] at arbiter table state reasons piece others
    rw [station] at state reasons piece
    refine ⟨state, reasons, piece, fun m hm => (others m hm).trans (station m), ?_, ?_⟩
    · rw [arbiter, hv]
      rfl
    · rw [table, hv]
      rfl
  case ready =>
    refine quiet (reacted.trans ((react_of_hold (reaction.trans hold)).trans (addReason_of_stopped _ (.inl ?_))))
    rw [station]
    exact ready
  case trip =>
    have taken : t = v.tripStation n := by
      rw [reacted, react_of_trip (reaction.trans trip), trip_of_bound (by rw [station]; exact bound)
        (by rw [station]; exact untripped)]
    have own : t.station n = { x with state := .tripped, reasons := ⟨false, false, false⟩, pulseHigh := false } := by
      rw [taken, tripStation_self, station]
    have state : (t.station n).state = .tripped := by rw [own]
    have unmoved := unmoved_raise s n k
    refine ⟨state, by rw [own], by rw [own], by rw [own], ?_, ?_, ?_, ?_, unmoved.records, unmoved.pack,
      fun cutting => ⟨?_, ?_⟩, fun uncut => ⟨fun m hm => ?_, ?_, ?_⟩⟩
    · rw [taken]
      exact not_mem_tripStation_waiting v n
    · rw [State.permitGiven, state]
      exact Bool.and_false _
    · rw [State.holdOn, state]
      rfl
    · rw [State.cutOn, state]
      rfl
    · rw [taken]
      exact tripStation_cutTimer (by rw [station]; exact cutting)
    · obtain ⟨self, others, timer, timers, arbiter, notices, shape⟩ := cutTrip_fields frame cutting
      refine ⟨(v.abortCut n).tripped n, ?_, self, others, timer, timers, arbiter, notices.trans told, ?_⟩
      · rw [taken, tripStation_of_cutting (by rw [station]; exact cutting)]
      · rw [collector]
        exact shape
    · rw [taken, tripStation_of_other (by rw [station]; exact uncut), tripped_other v hm, station]
    · rw [taken, tripStation_of_other (by rw [station]; exact uncut), tripped_table, hv]
      rfl
    · rw [taken, tripStation_of_other (by rw [station]; exact uncut), tripped_arbiter, hv]
      rfl
  case stop =>
    have runs : (v.station n).state = .running := by rw [station]; exact running
    have lay : v.lay l = s.lay l := by rw [hv]; rfl
    rw [reacted]
    cases kind : s.reaction k with
    | note => exact absurd kind loud
    | tripAll => exact absurd kind single
    | hold => rw [react_of_hold (reaction.trans kind), addReason_running_lay _ runs, if_pos e, lay]
    | trip =>
      rw [react_of_trip (reaction.trans kind), trip_of_bound (by rw [runs]; decide) (by rw [runs]; decide),
        tripStation_of_other (by rw [runs]; decide), tripped_lay, if_pos ⟨runs, e⟩, lay]
      rfl
  case lay =>
    have lay : v.lay l = s.lay l := by rw [hv]; rfl
    rw [reacted, ← lay]
    refine react_of (P := fun u => u.lay l = v.lay l) (reaction ▸ single) rfl (addReason_lay_other _ other) ?_
    by_cases stopped : (v.station n).state = .unbound ∨ (v.station n).state = .tripped
    · rw [trip_of_stopped stopped]
    · rw [trip_of_bound (fun h => stopped (.inl h)) (fun h => stopped (.inr h)),
        tripStation_of_other (by rw [station]; exact uncut), tripped_lay, if_neg fun both => other both.2]

end Sys2Proof.Machine
end

