-- ==== Sys2Proof/Proofs/Trips.lean ====
section
/-!
PROOF. What a fault leaves of the stations it is not raised at: TRIP_ALL with its PEER_TRIPs (R153), and LINK_LOST at
every station that hears the silence (R157).
-/
namespace Sys2Proof.Machine

/-! ### A station that others' trips pass by -/

/-- From s to t nothing was raised at station m: a stopped one is as it was, a working one is bound and not TRIPPED. -/
structure Apart (m : Fin 9) (s t : State) : Prop where
  faults : t.faults m = s.faults m
  piece : (t.station m).piece = (s.station m).piece
  stopped : (s.station m).state = .unbound ∨ (s.station m).state = .tripped → t.station m = s.station m
  works : (s.station m).state ≠ .unbound → (s.station m).state ≠ .tripped →
    (t.station m).state ≠ .unbound ∧ (t.station m).state ≠ .tripped

theorem Apart.refl (m : Fin 9) (s : State) : Apart m s s := ⟨rfl, rfl, fun _ => rfl, fun h h' => ⟨h, h'⟩⟩

theorem Apart.trans {m : Fin 9} {s t u : State} (h : Apart m s t) (k : Apart m t u) : Apart m s u where
  faults := k.faults.trans h.faults
  piece := k.piece.trans h.piece
  stopped still := (k.stopped (by rw [h.stopped still]; exact still)).trans (h.stopped still)
  works bound untripped := k.works (h.works bound untripped).1 (h.works bound untripped).2

theorem Apart.of_station {m : Fin 9} {s t : State} (faults : t.faults m = s.faults m)
    (station : t.station m = s.station m) : Apart m s t where
  faults := faults
  piece := by rw [station]
  stopped _ := station
  works bound untripped := by
    rw [station]
    exact ⟨bound, untripped⟩

theorem apart_consider (m : Fin 9) (s : State) : Apart m s s.consider where
  faults := congrArg (fun c : Collector => c.stations[m.1]) (consider_collector s)
  piece := consider_piece s m
  stopped still := by
    obtain h | h := still
    · exact consider_stopped (by rw [h]; decide) (by rw [h]; decide)
    · exact consider_stopped (by rw [h]; decide) (by rw [h]; decide)
  works bound untripped := by
    obtain ⟨same | cutting, -⟩ := considerWith_station s.arbiter.waiting.length s m
    · rw [show (s.consider.station m).state = _ from same]
      exact ⟨bound, untripped⟩
    · rw [show (s.consider.station m).state = _ from cutting]
      decide

theorem apart_trip {m n : Fin 9} (hm : m ≠ n) (s : State) : Apart m s (s.trip n) := by
  by_cases stopped : (s.station n).state = .unbound ∨ (s.station n).state = .tripped
  · rw [trip_of_stopped stopped]
    exact Apart.refl m s
  rw [trip_of_bound (fun h => stopped (.inl h)) fun h => stopped (.inr h)]
  by_cases cutting : (s.station n).state = .cutting
  · rw [tripStation_of_cutting cutting]
    refine Apart.trans (Apart.of_station ?_ ?_) (apart_consider m _)
    · refine congrArg (fun c : Collector => c.stations[m.1]) ?_
      rw [lowTest_collector, tripped_collector]
      rfl
    · rw [lowTest_station, tripped_other _ hm]
      rfl
  · rw [tripStation_of_other cutting]
    exact Apart.of_station (congrArg (fun c : Collector => c.stations[m.1]) (tripped_collector s n)) (tripped_other s hm)

theorem apart_recordFault {m n : Fin 9} (hm : m ≠ n) (s : State) (k : FaultKind) (source : Option (Fin 9)) :
    Apart m s (s.recordFault n k source) :=
  Apart.of_station (by rw [recordFault_faults, if_neg hm]) rfl

theorem apart_addReason {m n : Fin 9} (hm : m ≠ n) (s : State) (f : Reasons → Reasons) :
    Apart m s (s.addReason n f) := by
  refine Apart.of_station (congrArg (fun c : Collector => c.stations[m.1]) (addReason_keeps s n f).1) ?_
  unfold State.addReason
  split
  · rw [leaveFor_station, if_neg hm, State.modReasons_station, if_neg hm]
  · rw [State.modReasons_station, if_neg hm]
  · rw [State.modReasons_station, if_neg hm]
  · rfl
  · rfl
  · rfl

theorem apart_peerTrip {m : Fin 9} (source : Fin 9) (s : State) {n : Fin 9} (hm : m ≠ n) :
    Apart m s (State.peerTrip source s n) := by
  unfold State.peerTrip
  split
  · exact (apart_recordFault hm s _ _).trans (apart_trip hm _)
  · exact Apart.refl m s

theorem apart_peerTrips {m : Fin 9} (source : Fin 9) {l : List (Fin 9)} (absent : m ∉ l) (s : State) :
    Apart m s (l.foldl (State.peerTrip source) s) := by
  induction l generalizing s with
  | nil => exact Apart.refl m s
  | cons n l ih =>
    have other : m ≠ n := fun e => absent (e ▸ List.mem_cons_self)
    have rest : m ∉ l := fun h => absent (List.mem_cons_of_mem n h)
    exact (apart_peerTrip source s other).trans (ih rest _)

/-! ### PEER_TRIP at one station (R153) -/

/-- PEER_TRIP passes by its source and the stations that are UNBOUND or TRIPPED. -/
theorem peerTrip_passes {source m : Fin 9} {s : State}
    (h : m = source ∨ (s.station m).state = .unbound ∨ (s.station m).state = .tripped) :
    State.peerTrip source s m = s :=
  if_neg fun all => by obtain ⟨a, b, c⟩ := all; exact h.elim a fun h => h.elim b c

theorem peerTrip_taken {source m : Fin 9} {s : State} (other : m ≠ source) (bound : (s.station m).state ≠ .unbound)
    (untripped : (s.station m).state ≠ .tripped) :
    State.peerTrip source s m = (s.recordFault m .peerTrip (some source)).tripStation m :=
  (if_pos ⟨other, bound, untripped⟩).trans (trip_of_bound bound untripped)

theorem tripStation_collector (s : State) (n : Fin 9) : (s.tripStation n).collector = s.collector := by
  by_cases cutting : (s.station n).state = .cutting
  · rw [tripStation_of_cutting cutting, consider_collector, lowTest_collector, tripped_collector]
    rfl
  · rw [tripStation_of_other cutting, tripped_collector]

/-- The PEER_TRIPs of a TRIP_ALL as one station sees them: those before its own, its own, and those after. -/
theorem peerTrips_split (source m : Fin 9) (s : State) : ∃ u : State, Apart m s u ∧
    Apart m (State.peerTrip source u m) (allStations.foldl (State.peerTrip source) s) := by
  obtain ⟨before, after, split⟩ := List.append_of_mem (mem_allStations m)
  have distinct : (before ++ m :: after).Nodup := split ▸ (by decide : allStations.Nodup)
  have apart := List.nodup_append.mp distinct
  refine ⟨before.foldl (State.peerTrip source) s, apart_peerTrips source (fun h => ?_) s, ?_⟩
  · exact apart.2.2 m h m List.mem_cons_self rfl
  · rw [split, List.foldl_append, List.foldl_cons]
    exact apart_peerTrips source (List.nodup_cons.mp apart.2.1).1 _

/-- TRIP_ALL leaves a station that is UNBOUND or TRIPPED, its source among it, as it is. -/
theorem peerTrips_passes {source m : Fin 9} {s : State}
    (h : (s.station m).state = .unbound ∨ (s.station m).state = .tripped) :
    let t := allStations.foldl (State.peerTrip source) s
    t.station m = s.station m ∧ t.faults m = s.faults m := by
  obtain ⟨u, before, after⟩ := peerTrips_split source m s
  have same := before.stopped h
  have still : (u.station m).state = .unbound ∨ (u.station m).state = .tripped := by rwa [same]
  rw [peerTrip_passes (.inr still)] at after
  exact ⟨(after.stopped still).trans same, after.faults.trans before.faults⟩

/-- TRIP_ALL leaves every other bound station TRIPPED, with PEER_TRIP in its set (R153). -/
theorem peerTrips_taken {source m : Fin 9} {s : State} (other : m ≠ source) (bound : (s.station m).state ≠ .unbound)
    (untripped : (s.station m).state ≠ .tripped) :
    let t := allStations.foldl (State.peerTrip source) s
    (t.station m).state = .tripped ∧ (t.station m).piece = (s.station m).piece ∧
      ∃ f : FirstFault, t.faults m = ⟨addToSet (s.faults m).set .peerTrip, some ((s.faults m).first.getD f)⟩ ∧
        f.kind = .peerTrip ∧ f.source = some source := by
  intro t
  obtain ⟨u, before, after⟩ := peerTrips_split source m s
  obtain ⟨bound', untripped'⟩ := before.works bound untripped
  rw [peerTrip_taken other bound' untripped'] at after
  have own := tripStation_self (u.recordFault m .peerTrip (some source)) m
  have faults : ((u.recordFault m .peerTrip (some source)).tripStation m).faults m =
      ⟨addToSet (s.faults m).set .peerTrip,
        some ((s.faults m).first.getD (u.firstFault m .peerTrip (some source)))⟩ := by
    rw [← before.faults]
    refine (congrArg (fun c : Collector => c.stations[m.1]) (tripStation_collector _ m)).trans ?_
    exact (recordFault_faults u m m .peerTrip (some source)).trans (if_pos rfl)
  have stays := after.stopped (.inr (by rw [own]))
  refine ⟨by rw [stays, own], ?_, _, after.faults.trans faults, rfl, rfl⟩
  rw [after.piece, own]
  exact before.piece

theorem react_of_tripAll {s : State} {n : Fin 9} {k : FaultKind} (h : s.reaction k = .tripAll)
    (untripped : (s.station n).state ≠ .tripped) :
    s.react n k = allStations.foldl (State.peerTrip n) (s.trip n) := by
  unfold State.react
  rw [h]
  exact if_neg untripped

/-- Settles O50. -/
theorem tripAllTripsEveryBoundStation : Obligations.TripAllTripsEveryBoundStation := by
  intro s n k all _ bound untripped t
  obtain ⟨v, hv⟩ : ∃ v, v = s.recordFault n k none := ⟨_, rfl⟩
  have station (m : Fin 9) : v.station m = s.station m := by rw [hv]; rfl
  have taken : t = allStations.foldl (State.peerTrip n) (v.tripStation n) := by
    have tripped : v.trip n = v.tripStation n :=
      trip_of_bound (by rw [station]; exact bound) (by rw [station]; exact untripped)
    have fault : t = v.react n k := by rw [hv]; rfl
    rw [fault, ← tripped]
    exact react_of_tripAll (by rw [hv]; exact all) (by rw [station]; exact untripped)
  have apart {m : Fin 9} (hm : m ≠ n) : Apart m s (v.tripStation n) := by
    have recorded : Apart m s v := hv ▸ apart_recordFault hm s k none
    rw [← trip_of_bound (by rw [station]; exact bound) (by rw [station]; exact untripped)]
    exact recorded.trans (apart_trip hm v)
  have own := tripStation_self v n
  obtain ⟨self, faults⟩ := peerTrips_passes (source := n) (s := v.tripStation n) (m := n) (.inr (by rw [own]))
  rw [← taken] at self faults
  have passed {m : Fin 9} (hm : m ≠ n) (stopped : (s.station m).state = .unbound ∨ (s.station m).state = .tripped) :
      t.station m = s.station m ∧ t.faults m = s.faults m := by
    have same := (apart hm).stopped stopped
    obtain ⟨kept, keptFaults⟩ := peerTrips_passes (source := n) (s := v.tripStation n) (m := m) (by rwa [same])
    rw [← taken] at kept keptFaults
    exact ⟨kept.trans same, keptFaults.trans (apart hm).faults⟩
  have reached {m : Fin 9} (hm : m ≠ n) (bound : (s.station m).state ≠ .unbound)
      (untripped : (s.station m).state ≠ .tripped) := by
    obtain ⟨bound', untripped'⟩ := (apart hm).works bound untripped
    have seen := peerTrips_taken (source := n) hm bound' untripped'
    rwa [← taken, (apart hm).piece, (apart hm).faults] at seen
  refine ⟨fun m bound' => ?_, fun m => passed, fun m hm bound' untripped' => ?_, ?_, (unmoved_raise s n k).records⟩
  · by_cases hm : m = n
    · subst hm
      rw [self, own, station]
      exact ⟨rfl, rfl⟩
    · by_cases tripped : (s.station m).state = .tripped
      · rw [(passed hm (.inr tripped)).1]
        exact ⟨tripped, rfl⟩
      · obtain ⟨state, piece, -⟩ := reached hm bound' tripped
        exact ⟨state, piece⟩
  · obtain ⟨-, -, f, record, kind, source⟩ := reached hm bound' untripped'
    rw [record]
    refine ⟨by rw [inSet_addToSet, decide_eq_true rfl, Bool.or_true], fun none => ⟨f, ?_, kind, source⟩⟩
    rw [none]
    rfl
  · have recorded : (v.tripStation n).faults n = v.faults n :=
      congrArg (fun c : Collector => c.stations[n.1]) (tripStation_collector v n)
    rw [faults, recorded, hv, recordFault_faults, if_pos rfl, inSet_addToSet, decide_eq_true rfl, Bool.or_true]

/-! ### A fault raised, seen from any station -/

/-- What the parts of a raising keep the raising keeps (R150 to R153). -/
theorem raise_of {P : State → Prop} (recorded : ∀ u m k source, P u → P (u.recordFault m k source))
    (held : ∀ u m f, P u → P (u.addReason m f)) (tripped : ∀ u m, P u → P (u.trip m)) {s : State} (n : Fin 9)
    (k : FaultKind) (h : P s) : P (s.raise n k) := by
  have peers (l : List (Fin 9)) : ∀ u, P u → P (l.foldl (State.peerTrip n) u) := by
    induction l with
    | nil => exact fun _ h => h
    | cons m l ih =>
      refine fun u h => ih _ ?_
      unfold State.peerTrip
      split
      · exact tripped _ m (recorded u m _ _ h)
      · exact h
  have start := recorded s n k none h
  unfold State.raise State.react
  split
  · exact start
  · split
    · exact start
    · exact held _ n _ start
    · exact tripped _ n start
    · exact peers _ _ (tripped _ n start)

theorem raise_linkTimer (s : State) (n : Fin 9) (k : FaultKind) :
    (s.raise n k).collector.linkTimer = s.collector.linkTimer :=
  raise_of (P := fun u => u.collector.linkTimer = s.collector.linkTimer) (fun _ _ _ _ h => h)
    (fun u m f h => (congrArg Collector.linkTimer (addReason_keeps u m f).1).trans h)
    (fun u m h => (congrArg Collector.linkTimer (trip_collector u m)).trans h) n k rfl

theorem slotOfStation_ne_part (m : Fin 9) : partSlot ≠ slotOfStation m := by revert m; decide

/-- In the part slot a fault notices TABLE_LOW at most. -/
theorem raise_partNotices (s : State) (n : Fin 9) (k : FaultKind) {k' : Fin 25}
    (other : k' ≠ NoticeKind.tableLow.index) : (s.raise n k).noticeCount partSlot k' = s.noticeCount partSlot k' :=
  raise_of (P := fun u => u.noticeCount partSlot k' = s.noticeCount partSlot k')
    (fun u m _ _ h => (notice_noticeCount_other (u.modFaults m _) (.inl (slotOfStation_ne_part m))).trans h)
    (fun u m f h => (noticeCount_of_notices (addReason_keeps u m f).2.1 partSlot k').trans h)
    (fun u m h => (trip_noticeCount u m partSlot other).trans h) n k rfl

/-- A fault that stands in a set stays there as others are raised. -/
theorem raise_inSet {s : State} {m : Fin 9} {k' : FaultKind} (h : inSet (s.faults m).set k' = true) (n : Fin 9)
    (k : FaultKind) : inSet ((s.raise n k).faults m).set k' = true :=
  raise_of (P := fun u => inSet (u.faults m).set k' = true)
    (fun u j k source h => by
      rw [recordFault_faults]
      split
      · rename_i e
        subst e
        rw [inSet_addToSet, h, Bool.true_or]
      · exact h)
    (fun u j f h => (congrArg (fun c : Collector => inSet c.stations[m.1].set k') (addReason_keeps u j f).1).trans h)
    (fun u j h => (congrArg (fun c : Collector => inSet c.stations[m.1].set k') (trip_collector u j)).trans h) n k h

theorem raise_inSet_self (s : State) (n : Fin 9) (k : FaultKind) : inSet ((s.raise n k).faults n).set k = true := by
  have recorded : inSet ((s.recordFault n k none).faults n).set k = true := by
    rw [recordFault_faults, if_pos rfl, inSet_addToSet, decide_eq_true rfl, Bool.or_true]
  by_cases single : (s.recordFault n k none).reaction k ≠ .tripAll
  · exact (congrArg (fun c : Collector => inSet c.stations[n.1].set k) (react_collector single n)).trans recorded
  · have all : s.reaction k = .tripAll := not_not.mp single
    unfold State.raise
    by_cases tripped : ((s.recordFault n k none).station n).state = .tripped
    · rwa [State.react, if_pos tripped]
    · rw [react_of_tripAll (s := s.recordFault n k none) all tripped]
      have same : ((s.recordFault n k none).trip n).faults n = (s.recordFault n k none).faults n :=
        congrArg (fun c : Collector => c.stations[n.1]) (trip_collector _ n)
      obtain ⟨-, faults⟩ := peerTrips_passes (source := n) (trip_state (s.recordFault n k none) n)
      rwa [faults, same]

/-- A raising passes by the other stations that are UNBOUND or TRIPPED. -/
theorem raise_passes {s : State} {m n : Fin 9} (hm : m ≠ n) (k : FaultKind)
    (stopped : (s.station m).state = .unbound ∨ (s.station m).state = .tripped) :
    (s.raise n k).station m = s.station m ∧ (s.raise n k).faults m = s.faults m := by
  have recorded := apart_recordFault hm s k none
  have of_apart {t : State} (h : Apart m (s.recordFault n k none) t) :
      t.station m = s.station m ∧ t.faults m = s.faults m :=
    ⟨(recorded.trans h).stopped stopped, (recorded.trans h).faults⟩
  by_cases single : (s.recordFault n k none).reaction k ≠ .tripAll
  · exact of_apart (react_of single (Apart.refl m _) (apart_addReason hm _ _) (apart_trip hm _))
  · have all : s.reaction k = .tripAll := not_not.mp single
    unfold State.raise
    by_cases tripped : ((s.recordFault n k none).station n).state = .tripped
    · rw [State.react, if_pos tripped]
      exact of_apart (Apart.refl m _)
    · rw [react_of_tripAll (s := s.recordFault n k none) all tripped]
      have through := of_apart (apart_trip hm (s.recordFault n k none))
      obtain ⟨station, faults⟩ := peerTrips_passes (source := n) (m := m)
        (s := (s.recordFault n k none).trip n) (by rwa [through.1])
      exact ⟨station.trans through.1, faults.trans through.2⟩

/-- A fault under HOLD reaches the station of no other. -/
theorem raise_hold_other {s : State} {m n : Fin 9} (hm : m ≠ n) {k : FaultKind} (hold : s.reaction k = .hold) :
    (s.raise n k).station m = s.station m := by
  have held : s.raise n k = (s.recordFault n k none).addReason n fun r => { r with fault := true } := react_of_hold hold
  rw [held]
  unfold State.addReason
  split
  · rw [leaveFor_station, if_neg hm, State.modReasons_station, if_neg hm, State.recordFault_station]
  · rw [State.modReasons_station, if_neg hm, State.recordFault_station]
  · rw [State.modReasons_station, if_neg hm, State.recordFault_station]
  · rfl
  · rfl
  · rfl

/-! ### LINK_LOST (R157) -/

/-- LINK_LOST raised at stations in turn changes none of the clocks, the parameters, the port and the records. -/
theorem linkLost_steady (l : List (Fin 9)) (s : State) : Steady s (l.foldl State.raiseLinkLost s) :=
  steady_foldl (fun s n => steady_raise s n .linkLost) l s

theorem linkLost_reaction (l : List (Fin 9)) (s : State) (k : FaultKind) :
    (l.foldl State.raiseLinkLost s).reaction k = s.reaction k := by
  unfold State.reaction
  rw [(linkLost_steady l s).params]

theorem linkLost_unmoved (l : List (Fin 9)) (s : State) : Unmoved s (l.foldl State.raiseLinkLost s) :=
  unmoved_foldl (fun s n => unmoved_raise s n .linkLost) l s

/-- What each LINK_LOST keeps all of them keep. -/
theorem linkLost_of {P : State → Prop} (raised : ∀ u m, P u → P (u.raise m .linkLost)) (l : List (Fin 9)) {s : State}
    (h : P s) : P (l.foldl State.raiseLinkLost s) := by
  induction l generalizing s with
  | nil => exact h
  | cons m l ih => exact ih (raised s m h)

theorem linkLost_passes {m : Fin 9} {l : List (Fin 9)} (absent : m ∉ l) {s : State}
    (stopped : (s.station m).state = .unbound ∨ (s.station m).state = .tripped) :
    (l.foldl State.raiseLinkLost s).station m = s.station m ∧
      (l.foldl State.raiseLinkLost s).faults m = s.faults m := by
  induction l generalizing s with
  | nil => exact ⟨rfl, rfl⟩
  | cons n l ih =>
    have other : m ≠ n := fun e => absent (e ▸ List.mem_cons_self)
    obtain ⟨station, faults⟩ := raise_passes other .linkLost stopped
    obtain ⟨station', faults'⟩ := ih (fun h => absent (List.mem_cons_of_mem n h)) (s := s.raise n .linkLost)
      (by rwa [station])
    exact ⟨station'.trans station, faults'.trans faults⟩

theorem linkLost_hold_other {m : Fin 9} {l : List (Fin 9)} (absent : m ∉ l) {s : State}
    (hold : s.reaction .linkLost = .hold) : (l.foldl State.raiseLinkLost s).station m = s.station m := by
  induction l generalizing s with
  | nil => rfl
  | cons n l ih =>
    have other : m ≠ n := fun e => absent (e ▸ List.mem_cons_self)
    have same := linkLost_reaction [n] s .linkLost
    exact (ih (fun h => absent (List.mem_cons_of_mem n h)) (s := s.raise n .linkLost) (same.trans hold)).trans
      (raise_hold_other other hold)

/-- Each station named has LINK_LOST in its set; under HOLD a RUNNING one holds. -/
theorem linkLost_heard {n : Fin 9} {l : List (Fin 9)} (distinct : l.Nodup) (mem : n ∈ l) (s : State) :
    let t := l.foldl State.raiseLinkLost s
    inSet (t.faults n).set .linkLost = true ∧
      (s.reaction .linkLost = .hold → (s.station n).state = .running →
        (t.station n).state = .holding ∧ (t.station n).reasons = { (s.station n).reasons with fault := true }) := by
  intro t
  obtain ⟨before, after, rfl⟩ := List.append_of_mem mem
  have apart := List.nodup_append.mp distinct
  obtain ⟨u, hu⟩ : ∃ u, u = before.foldl State.raiseLinkLost s := ⟨_, rfl⟩
  have taken : t = after.foldl State.raiseLinkLost (u.raise n .linkLost) := by
    rw [hu]
    exact List.foldl_append
  refine ⟨?_, fun hold running => ?_⟩
  · rw [taken]
    exact linkLost_of (P := fun u => inSet (u.faults n).set .linkLost = true)
      (fun u m h => raise_inSet h m .linkLost) after (raise_inSet_self u n .linkLost)
  · have own : u.station n = s.station n := by
      rw [hu]
      exact linkLost_hold_other (fun h => apart.2.2 n h n List.mem_cons_self rfl) hold
    have reaction : u.reaction .linkLost = .hold := by rw [hu, linkLost_reaction, hold]
    have next : (u.raise n .linkLost).reaction .linkLost = .hold := (linkLost_reaction [n] u .linkLost).trans reaction
    have held : u.raise n .linkLost = (u.recordFault n .linkLost none).addReason n fun r => { r with fault := true } :=
      react_of_hold reaction
    have runs : ((u.recordFault n .linkLost none).station n).state = .running := by
      rw [State.recordFault_station, own, running]
    obtain ⟨⟨state, -, -, reasons⟩, -⟩ := addReason_running_station (fun r => { r with fault := true }) runs
    rw [← held] at state reasons
    rw [taken, linkLost_hold_other (List.nodup_cons.mp apart.2.1).1 next]
    refine ⟨state, reasons.trans ?_⟩
    rw [State.recordFault_station, own]

/-- Settles O51. -/
theorem linkSilenceExpiryRaisesLinkLost : Obligations.LinkSilenceExpiryRaisesLinkLost := by
  intro s dt
  have arm : exec (.linkSilenceExpiry dt) s = .next ((s.elapse dt).linkExpiry) := rfl
  refine ⟨fun timer armed => ?_, fun disarmed => ?_⟩
  · obtain ⟨u, hu⟩ : ∃ u, u = ((s.elapse dt).waitPart timer).disarmLink := ⟨_, rfl⟩
    have frame : u = { s with
        clocks := ((s.elapse dt).waitPart timer).clocks, collector := { s.collector with linkTimer := none } } := by
      rw [hu]
      exact congrArg State.disarmLink (waitPart_frame (s.elapse dt) timer)
    obtain ⟨heard, hh⟩ : ∃ heard, heard = allStations.filter (s.elapse dt).linkHears := ⟨_, rfl⟩
    have hears (n : Fin 9) : n ∈ heard ↔ (s.station n).state ≠ .unbound ∧ (s.station n).state ≠ .tripped := by
      rw [hh, List.mem_filter]
      simp only [State.linkHears, State.bound, mem_allStations, true_and, Bool.and_eq_true, decide_eq_true_iff]
      exact Iff.rfl
    have distinct : heard.Nodup := hh ▸ (by decide : allStations.Nodup).filter _
    have station (n : Fin 9) : u.station n = s.station n := by rw [frame]; rfl
    have reaction : u.reaction .linkLost = s.reaction .linkLost := by rw [frame]; rfl
    have steady := linkLost_steady heard u
    refine ⟨(heard.foldl State.raiseLinkLost u).notice partSlot (.fault .linkLost), ?_, ?_, fun n bound untripped => ?_,
      fun n stopped => ?_, ?_, ?_, ?_, ?_, ?_⟩
    · rw [arm, State.linkExpiry, State.elapse_collector, armed, hh, hu]
    · refine linkLost_of (P := fun u => u.collector.linkTimer = none)
        (fun u m h => (raise_linkTimer u m .linkLost).trans h) heard ?_
      rw [frame]
    · have found := linkLost_heard distinct ((hears n).mpr ⟨bound, untripped⟩) u
      rw [station, reaction] at found
      exact found
    · have absent : n ∉ heard := fun h => by
        obtain ⟨bound, untripped⟩ := (hears n).mp h
        exact stopped.elim bound untripped
      obtain ⟨same, faults⟩ := linkLost_passes absent (s := u) (by rwa [station])
      refine ⟨same.trans (station n), faults.trans ?_⟩
      rw [frame]
      rfl
    · have count : (heard.foldl State.raiseLinkLost u).noticeCount partSlot (NoticeKind.fault .linkLost).index =
          s.noticeCount partSlot (NoticeKind.fault .linkLost).index :=
        linkLost_of (P := fun u => u.noticeCount partSlot (NoticeKind.fault .linkLost).index =
            s.noticeCount partSlot (NoticeKind.fault .linkLost).index)
          (fun u m h => (raise_partNotices u m .linkLost (by decide)).trans h) heard (by rw [frame]; rfl)
      refine (notice_noticeCount_self _ partSlot _).trans ?_
      rw [count]
      rfl
    · refine steady.clocks.trans ?_
      rw [frame]
    · refine (linkLost_unmoved heard u).records.trans ?_
      rw [frame]
    · refine steady.params.trans ?_
      rw [frame]
    · refine steady.port.trans ?_
      rw [frame]
  · rw [arm, State.linkExpiry, State.elapse_collector, disarmed]

end Sys2Proof.Machine
end

