-- ==== Sys2Proof/Proofs/CutEnds.lean ====
section
/-!
PROOF. How a cut ends: the expiry of its timer (R101, R102) and its completion (R98).
-/
namespace Sys2Proof.Machine

/-! ### The cut timer (R101) -/

theorem reached_iff (s : State) (n : Fin 9) (figure : Order → Nat) : s.reached n figure = true ↔
    ∃ i p o, (s.station n).piece = some i ∧ s.record i = some p ∧ s.boundOrder n = some o ∧ figure o ≤ p.extent := by
  constructor
  · intro h
    unfold State.reached at h
    cases opened : s.openPiece? n with
    | none => rw [opened] at h; exact absurd h Bool.false_ne_true
    | some p =>
      cases order : s.boundOrder n with
      | none => rw [opened, order] at h; exact absurd h Bool.false_ne_true
      | some o =>
        rw [opened, order] at h
        obtain ⟨i, piece, record⟩ := Option.bind_eq_some_iff.mp opened
        exact ⟨i, p, o, piece, record, rfl, of_decide_eq_true h⟩
  · rintro ⟨i, p, o, piece, record, order, far⟩
    rw [reached_of_open piece record order]
    exact decide_eq_true far

/-- The target test where no overrun test goes with it, and its consideration (R55, R94). -/
theorem retest_due {s : State} {n : Fin 9} (due : s.requestDue n = true) : s.retest n =
    ({ s with arbiter := { s.arbiter with waiting := s.arbiter.waiting ++ [n] } } : State).consider := by
  rw [State.retest, State.targetTest, if_pos due, State.considerIf, if_pos due]
  rfl

theorem retest_rested {s : State} {n : Fin 9} (due : s.requestDue n ≠ true) : s.retest n = s := by
  rw [State.retest, State.targetTest, if_neg due, State.considerIf, if_neg due]

theorem exec_cutTimerExpiry_armed {s : State} (dt : Nat) {n : Fin 9} {t : Timer} (armed : s.cutTimer n = some t)
    (cutting : (s.station n).state = .cutting) : exec (.cutTimerExpiry dt n) s =
      .next (((((s.elapse dt).waitPart t).setCutTimer n none).raise n .cutTimeout).abortTimedOut n) := by
  have arm : exec (.cutTimerExpiry dt n) s = .next ((s.elapse dt).cutExpiry n) := rfl
  rw [arm, State.cutExpiry, show (s.elapse dt).cutTimer n = some t from armed]
  exact congrArg Host.Outcome.next (if_pos cutting)

theorem exec_cutTimerExpiry_rested {s : State} (dt : Nat) {n : Fin 9}
    (rested : s.cutTimer n = none ∨ (s.station n).state ≠ .cutting) :
    exec (.cutTimerExpiry dt n) s = .next (s.elapse dt) := by
  have arm : exec (.cutTimerExpiry dt n) s = .next ((s.elapse dt).cutExpiry n) := rfl
  rw [arm, State.cutExpiry, State.elapse_cutTimer]
  cases timer : s.cutTimer n with
  | none => rfl
  | some t =>
    have moved : (s.station n).state ≠ .cutting := rested.resolve_left fun h => nomatch timer.symm.trans h
    exact congrArg Host.Outcome.next (if_neg moved)

/-- TRIP_ALL leaves a TRIPPED station's request and cut timer as they are. -/
theorem peerTrips_cut {source n : Fin 9} {s : State} (tripped : (s.station n).state = .tripped) (l : List (Fin 9)) :
    (l.foldl (State.peerTrip source) s).cutTimer n = s.cutTimer n ∧
      (l.foldl (State.peerTrip source) s).arbiter.waiting ⊆ s.arbiter.waiting := by
  induction l generalizing s with
  | nil => exact ⟨rfl, fun _ h => h⟩
  | cons m l ih =>
    by_cases passes : m = source ∨ (s.station m).state = .unbound ∨ (s.station m).state = .tripped
    · rw [List.foldl_cons, peerTrip_passes passes]
      exact ih tripped
    · have other : n ≠ m := by
        rintro rfl
        exact passes (.inr (.inr tripped))
      have still := (apart_peerTrip source s other).stopped (.inr tripped)
      obtain ⟨timer, waiting⟩ := ih (s := State.peerTrip source s m) (by rw [still, tripped])
      have taken := peerTrip_taken (source := source) (s := s) (m := m) (fun h => passes (.inl h))
        (fun h => passes (.inr (.inl h))) fun h => passes (.inr (.inr h))
      have fewer := (tripStation_waiting (s.recordFault m .peerTrip (some source)) m).subset
      rw [← taken] at fewer
      refine ⟨timer.trans ?_, fun k hk => List.mem_of_mem_filter (fewer (waiting hk))⟩
      rw [taken]
      by_cases cutting : (s.station m).state = .cutting
      · have own : (((((s.recordFault m .peerTrip (some source)).abortCut m).tripped m).lowTest).station n) =
            s.station n := by
          rw [lowTest_station, tripped_other _ other]
          rfl
        rw [tripStation_of_cutting (s := s.recordFault m .peerTrip (some source)) cutting,
          consider_cutTimer (by rw [own, tripped]; decide) (by rw [own, tripped]; decide)]
        show ((((s.recordFault m .peerTrip (some source)).abortCut m).tripped m).lowTest).arbiter.cutTimers[n.1] = _
        rw [lowTest_arbiter, tripped_arbiter]
        exact (getElem_set_fin s.arbiter.cutTimers m n none).trans (if_neg other)
      · rw [tripStation_of_other (s := s.recordFault m .peerTrip (some source)) cutting]
        exact (congrArg (fun a : Arbiter => a.cutTimers[n.1]) (tripped_arbiter _ m)).trans rfl

/-- Settles O38. -/
theorem cutTimerExpiryAbortsTheCut : Obligations.CutTimerExpiryAbortsTheCut := by
  intro s dt n
  refine ⟨fun t armed cutting => ?_, exec_cutTimerExpiry_rested dt⟩
  intro raised
  have expiry := exec_cutTimerExpiry_armed dt armed cutting
  obtain ⟨w, hw⟩ : ∃ w, w = (s.elapse dt).waitPart t := ⟨_, rfl⟩
  have waited : w = { s with clocks := w.clocks } := by
    rw [hw]
    exact waitPart_frame (s.elapse dt) t
  obtain ⟨v, hv⟩ : ∃ v, v = w.setCutTimer n none := ⟨_, rfl⟩
  have disarmed : v = { s with
      clocks := w.clocks, arbiter := { s.arbiter with cutTimers := s.arbiter.cutTimers.set n.1 none } } := by
    rw [hv, waited]
    rfl
  have isRaised : raised = v.raise n .cutTimeout := by rw [hv, hw]
  rw [← hw] at expiry ⊢
  rw [← hv, ← isRaised] at expiry
  have vStation (m : Fin 9) : v.station m = s.station m := by rw [disarmed]; rfl
  have vReaction : v.reaction .cutTimeout = s.reaction .cutTimeout := by rw [disarmed]; rfl
  have vTimer (m : Fin 9) : v.cutTimer m = if m = n then none else s.cutTimer m := by
    rw [hv, State.setCutTimer_cutTimer, waited]
    rfl
  have vFaults (m : Fin 9) : v.faults m = s.faults m := by rw [disarmed]; rfl
  refine ⟨fun hold => ?hold, fun trips => ?tripped, fun trip => ?trip⟩
  case hold =>
    obtain ⟨r, hr⟩ : ∃ r, r = (v.recordFault n .cutTimeout none).modReasons n fun x => { x with fault := true } := ⟨_, rfl⟩
    have held : raised = r := by
      rw [isRaised, hr, ← addReason_of_held (s := v.recordFault n .cutTimeout none) (n := n) _
        (.inr ((congrArg Station.state (vStation n)).trans cutting))]
      exact react_of_hold (vReaction.trans hold)
    have rFrame : r = { s with
        stations := r.stations, clocks := w.clocks, arbiter := v.arbiter, collector := r.collector
        notices := (s.notice (slotOfStation n) (.fault .cutTimeout)).notices } := by
      rw [hr, disarmed]
      rfl
    have rStation (m : Fin 9) : r.station m =
        if m = n then { s.station n with reasons := { (s.station n).reasons with fault := true } } else s.station m := by
      rw [hr, State.modReasons_station, State.recordFault_station, vStation]
      by_cases e : m = n
      · rw [if_pos e, if_pos e, e]
      · rw [if_neg e, if_neg e]
    have rCutting : (r.station n).state = .cutting := by rw [rStation, if_pos rfl, cutting]
    have given : r.permitGiven n = s.permitGiven n := by
      have mode : r.port = s.port := by rw [rFrame]
      unfold State.permitGiven
      rw [mode, rCutting, cutting]
    refine ⟨(r.abortCut n).enterState n .holding, ⟨fun due => ?_, fun quiet => ?_⟩, ?_, fun m hm => ?_, ?_, fun m hm => ?_,
      ?_, fun k => ?_, ?_, fun m hm => ?_, ?_, ?_⟩
    · rw [expiry, held, State.abortTimedOut, if_pos rCutting]
      obtain ⟨free, may, far⟩ := due
      exact congrArg Host.Outcome.next (retest_due ((requestDue_iff _ n).mpr ⟨(reached_iff _ n _).mpr far, free, may⟩))
    · rw [expiry, held, State.abortTimedOut, if_pos rCutting]
      refine congrArg Host.Outcome.next (retest_rested fun due => quiet ?_)
      obtain ⟨far, free, may⟩ := (requestDue_iff _ n).mp due
      exact ⟨free, may, (reached_iff _ n _).mp far⟩
    · have permitted : (r.station n).state.permitted = true := by rw [rCutting]; rfl
      rw [State.enterState_station, if_pos rfl, abortCut_station]
      refine (enter_permitted (s := r) (n := n) (st := .holding) _ permitted rfl).trans ?_
      rw [given, rStation, if_pos rfl]
    · rw [State.enterState_station, if_neg hm, abortCut_station, rStation, if_neg hm]
    · exact (State.setCutTimer_cutTimer r n n none).trans (if_pos rfl)
    · refine (State.setCutTimer_cutTimer r n m none).trans ((if_neg hm).trans ?_)
      rw [rFrame]
      exact (vTimer m).trans (if_neg hm)
    · rw [rFrame, disarmed]
      rfl
    · rw [show ((r.abortCut n).enterState n .holding).faults n = r.faults n from rfl, hr, State.modReasons_faults,
        recordFault_faults, if_pos rfl, inSet_addToSet, vFaults]
    · rw [held]
      rfl
    · rw [show ((r.abortCut n).enterState n .holding).faults m = r.faults m from rfl, hr, State.modReasons_faults,
        recordFault_faults, if_neg hm, vFaults]
    · rw [show ((r.abortCut n).enterState n .holding).notices = r.notices from rfl, rFrame]
    · have collector : r.collector = { s.collector with stations := r.collector.stations } := by
        rw [hr, disarmed]
        rfl
      have shape := congrArg (fun u : State => { u with
        stations := ((r.abortCut n).enterState n .holding).stations
        arbiter := ((r.abortCut n).enterState n .holding).arbiter }) rFrame
      refine Eq.trans ?_ (shape.trans ?_)
      · rfl
      · rw [waited, collector]
        have notices : ((r.abortCut n).enterState n .holding).notices =
            (s.notice (slotOfStation n) (.fault .cutTimeout)).notices := by
          show r.notices = _
          rw [rFrame]
        rw [notices]
        rfl
  case tripped =>
    obtain ⟨x, hx⟩ : ∃ x, x = v.recordFault n .cutTimeout none := ⟨_, rfl⟩
    have xCutting : (x.station n).state = .cutting := by
      rw [hx, State.recordFault_station, vStation, cutting]
    have taken : x.trip n = x.tripStation n := trip_of_bound (by rw [xCutting]; decide) (by rw [xCutting]; decide)
    have own := tripStation_self x n
    have ownState : ((x.tripStation n).station n).state = .tripped := by rw [own]
    have ended : raised.station n = (x.tripStation n).station n ∧ raised.cutTimer n = (x.tripStation n).cutTimer n ∧
        raised.arbiter.waiting ⊆ (x.tripStation n).arbiter.waiting := by
      obtain trip | all := trips
      · rw [isRaised, show v.raise n .cutTimeout = x.tripStation n by
          rw [← taken, hx]
          exact react_of_trip (vReaction.trans trip)]
        exact ⟨rfl, rfl, fun _ h => h⟩
      · rw [isRaised, show v.raise n .cutTimeout = allStations.foldl (State.peerTrip n) (x.tripStation n) by
          rw [← taken, hx]
          exact react_of_tripAll (vReaction.trans all) (by rw [← hx, xCutting]; decide)]
        obtain ⟨timer, waiting⟩ := peerTrips_cut (source := n) ownState allStations
        exact ⟨(peerTrips_passes (.inr ownState)).1, timer, waiting⟩
    obtain ⟨station, timer, waiting⟩ := ended
    have state : (raised.station n).state = .tripped := by rw [station, ownState]
    refine ⟨?_, state, ?_, ?_, fun h => not_mem_tripStation_waiting x n (waiting h)⟩
    · rw [expiry, State.abortTimedOut, if_neg (by rw [state]; decide)]
    · rw [timer, tripStation_cutTimer xCutting]
    · rw [station, own, hx, State.recordFault_station, vStation]
  case trip =>
    obtain ⟨x, hx⟩ : ∃ x, x = v.recordFault n .cutTimeout none := ⟨_, rfl⟩
    have frame : x = { v with collector := x.collector, notices := x.notices } := by
      rw [hx]
      exact recordFault_frame v n .cutTimeout none
    have vCutting : (v.station n).state = .cutting := by rw [vStation, cutting]
    have xCutting : (x.station n).state = .cutting := by rw [hx, State.recordFault_station, vCutting]
    have taken : raised = x.tripStation n := by
      rw [isRaised, ← trip_of_bound (s := x) (n := n) (by rw [xCutting]; decide) (by rw [xCutting]; decide), hx]
      exact react_of_trip (vReaction.trans trip)
    obtain ⟨self, others, timer, timers, arbiter, notices, shape⟩ := cutTrip_fields frame vCutting
    have collector : ((x.abortCut n).tripped n).collector = x.collector := tripped_collector _ n
    have faults (m : Fin 9) : ((x.abortCut n).tripped n).faults m = x.faults m :=
      congrArg (fun c : Collector => c.stations[m.1]) collector
    refine ⟨(x.abortCut n).tripped n, taken.trans (tripStation_of_cutting xCutting), ?_, fun m hm => ?_, timer,
      fun m hm => ?_, ?_, ?_, fun m hm => ?_, ?_, ?_⟩
    · rw [self, vStation]
    · rw [others m hm, vStation]
    · rw [timers m hm, vTimer, if_neg hm]
    · rw [arbiter, disarmed]
    · rw [faults, hx, recordFault_faults, if_pos rfl, inSet_addToSet, decide_eq_true rfl, Bool.or_true]
    · rw [faults, hx, recordFault_faults, if_neg hm, vFaults]
    · rw [notices, hx, disarmed]
      rfl
    · have same : x.collector = { s.collector with stations := ((x.abortCut n).tripped n).collector.stations } := by
        rw [collector, hx, disarmed]
        rfl
      have disarmedShape := congrArg (fun u : State => { u with
        stations := ((x.abortCut n).tripped n).stations, arbiter := ((x.abortCut n).tripped n).arbiter
        collector := x.collector, notices := ((x.abortCut n).tripped n).notices }) disarmed
      refine shape.trans (disarmedShape.trans ?_)
      rw [waited, ← same]

/-! ### The exchange of pieces (R98) -/

/-- Steps 1 to 3 of a completion: the timer is disarmed, the old piece closes, record j opens. -/
def State.exchange (s : State) (n : Fin 9) (slot : Fin 16) (j : Fin 64) : State :=
  ((s.setCutTimer n none).closeOld n).openInto n slot j

theorem openSerial_congr {s t : State} (serials : ∀ v, t.serialInUse v = s.serialInUse v)
    (next : t.table.nextSerial = s.table.nextSerial) : t.openSerial = s.openSerial := by
  unfold State.openSerial
  rw [funext serials, next]

theorem orderTag_of_orderAt {s : State} {slot : Fin 16} {o : Order} (h : s.orderAt slot = some o) :
    s.orderTag slot = o.tag := by
  rw [State.orderTag, h]

section
variable {s : State} {n : Fin 9} {slot : Fin 16} {i j : Fin 64} {p : Piece}

theorem closeOld_openSerial (s : State) (n : Fin 9) : (s.closeOld n).openSerial = s.openSerial := by
  have bears (v : Word32) : (s.closeOld n).serialInUse v = true ↔ s.serialInUse v = true := by
    constructor
    · intro h
      obtain ⟨k, q, record, rfl⟩ := record_of_serialInUse h
      rw [closeOld_record] at record
      split at record
      · obtain ⟨old, found, rfl⟩ := Option.map_eq_some_iff.mp record
        exact serialInUse_of_record (p := old) found
      · exact serialInUse_of_record record
    · intro h
      obtain ⟨k, q, record, rfl⟩ := record_of_serialInUse h
      have now := closeOld_record s n k
      rw [record] at now
      split at now
      · exact serialInUse_of_record (p := q.closeQueued s.clocks.part) now
      · exact serialInUse_of_record now
  refine openSerial_congr (fun v => Bool.eq_iff_iff.mpr (bears v)) ?_
  unfold State.closeOld
  split <;> rfl

theorem exchange_station (m : Fin 9) : (s.exchange n slot j).station m =
    if m = n then { s.station n with piece := some j } else s.station m := by
  rw [State.exchange, openInto_station, closeOld_station]
  by_cases e : m = n
  · rw [if_pos e, if_pos e, if_pos e, e]
    rfl
  · rw [if_neg e, if_neg e, if_neg e]
    rfl

theorem exchange_record (piece : (s.station n).piece = some i) (record : s.record i = some p) (k : Fin 64) :
    (s.exchange n slot j).record k =
      if k = j then some (s.newPiece n slot (s.orderTag slot) s.openSerial)
      else if k = i then some { p with state := .queued, closedAt := some s.clocks.part } else s.record k := by
  have steady := (steady_setCutTimer s n none).trans (steady_closeOld (s.setCutTimer n none) n)
  have serial : ((s.setCutTimer n none).closeOld n).openSerial = s.openSerial := closeOld_openSerial _ n
  have fresh : ((s.setCutTimer n none).closeOld n).newPiece n slot
      (((s.setCutTimer n none).closeOld n).orderTag slot) s.openSerial =
        s.newPiece n slot (s.orderTag slot) s.openSerial := by
    unfold State.newPiece State.newBody State.layParams State.orderTag State.orderAt
    rw [steady.clocks, steady.params, steady.orders]
  rw [State.exchange, openInto_record, serial, fresh, closeOld_record]
  refine if_congr Iff.rfl rfl ?_
  have own : ((s.setCutTimer n none).station n).piece = some k ↔ k = i := by
    rw [show ((s.setCutTimer n none).station n).piece = some i from piece, Option.some.injEq, eq_comm]
  rw [if_congr own rfl rfl]
  by_cases e : k = i
  · rw [if_pos e, if_pos e, e, show (s.setCutTimer n none).record i = some p from record]
    rfl
  · rw [if_neg e, if_neg e]
    rfl

theorem exchange_nextSerial : (s.exchange n slot j).table.nextSerial = nextSerial s.openSerial ∧
    (s.exchange n slot j).table.lowArmed = s.table.lowArmed := by
  have serial : ((s.setCutTimer n none).closeOld n).openSerial = s.openSerial := closeOld_openSerial _ n
  have low : ((s.setCutTimer n none).closeOld n).table.lowArmed = s.table.lowArmed := by
    unfold State.closeOld
    split <;> rfl
  unfold State.exchange State.openInto State.forgetRow
  rw [← serial, ← low]
  split <;> exact ⟨rfl, rfl⟩

theorem exchange_arbiter : (s.exchange n slot j).arbiter =
    { s.arbiter with cutTimers := s.arbiter.cutTimers.set n.1 none } := by
  rw [State.exchange, openInto_arbiter, closeOld_arbiter]
  rfl

theorem exchange_lay (l : Fin 8) : (s.exchange n slot j).lay l = s.lay l := by
  rw [State.exchange, openInto_lay, closeOld_lay]
  rfl

theorem exchange_inspector : (s.exchange n slot j).inspector =
    if n = loom then { s.inspector with previous := none } else s.inspector := by
  rw [State.exchange, openInto_inspector, closeOld_inspector]
  rfl

theorem exchange_notices : (s.exchange n slot j).notices = s.notices := by
  rw [State.exchange, openInto_notices, closeOld_notices]
  rfl

theorem exchange_pack (piece : (s.station n).piece = some i) :
    (s.exchange n slot j).pack = { s.pack with queue := s.pack.queue ++ [i] } := by
  rw [State.exchange, openInto_pack]
  unfold State.closeOld
  rw [show ((s.setCutTimer n none).station n).piece = some i from piece]
  rfl

theorem exchange_collector : (s.exchange n slot j).collector = s.collector := by
  have opening (u : State) : (u.openInto n slot j).collector = u.collector := by
    unfold State.openInto State.forgetRow
    split <;> rfl
  rw [State.exchange, opening]
  unfold State.closeOld
  split <;> rfl

theorem steady_exchange : Steady s (s.exchange n slot j) :=
  ((steady_setCutTimer s n none).trans (steady_closeOld _ n)).trans (steady_openInto _ n slot j)

/-- A completion opens the lowest FREE record, and its station goes on as at a START (R98). -/
theorem completeCut_eq (order : (s.station n).order = some slot) (lowest : s.firstFree = some j)
    (cutting : (s.station n).state = .cutting) : s.completeCut n =
      some (((s.exchange n slot j).release.modReasons n fun r => { r with overrun := false }).startState n) := by
  have free (k : Fin 64) : (((s.setCutTimer n none).closeOld n).record k).isNone = (s.record k).isNone := by
    rw [closeOld_record]
    split
    · exact Option.isNone_map
    · rfl
  have first : ((s.setCutTimer n none).closeOld n).firstFree = some j := by
    rw [← lowest]
    exact congrArg (fun q => allRecords.find? q) (funext free)
  have named : (((s.setCutTimer n none).closeOld n).station n).order = some slot := by
    rw [closeOld_station, if_pos rfl]
    exact order
  have still : (((s.exchange n slot j).release.modReasons n fun r => { r with overrun := false }).station n).state ≠
      .running := by
    rw [State.modReasons_station, if_pos rfl, State.release_station, exchange_station, if_pos rfl, cutting]
    decide
  unfold State.completeCut State.openPiece
  rw [named, first]
  refine congrArg some ?_
  show (s.exchange n slot j).finishCut n = _
  unfold State.finishCut State.resume State.startState
  rw [leaveFor_of_rested still]

end

/-- Two notices that are not of the same count, each of which raises its own below the limit (R162). -/
theorem noticed_either {p q : Prop} [Decidable p] [Decidable q] (c : Nat) (apart : p → ¬ q)
    [Decidable ((p ∨ q) ∧ c < 15)] : (if q then noticed (if p then noticed c else c) else if p then noticed c else c) =
      if (p ∨ q) ∧ c < 15 then c + 1 else c := by
  have value : noticed c = if c < 15 then c + 1 else c := rfl
  by_cases hp : p
  · rw [if_neg (apart hp), if_pos hp, value]
    exact if_congr (by simp [hp]) rfl rfl
  · rw [if_neg hp, value]
    by_cases hq : q
    · rw [if_pos hq]
      exact if_congr (by simp [hq]) rfl rfl
    · rw [if_neg hq, if_neg (by simp [hp, hq])]

/-- Settles O36. -/
theorem cutDoneExchangesPieces : Obligations.CutDoneExchangesPieces := by
  refine ⟨fun s dt n edge other => ?_, fun s dt n i p slot released cutting piece record order room => ?_⟩
  · rw [exec_cutDone, execCutDone, if_neg other]
    exact ite_self _
  obtain ⟨j, lowest⟩ := firstFree_of_freeCount (s := s.elapse dt) (by
    obtain ⟨k, hk⟩ := room
    exact freeCount_pos (s := s.elapse dt) hk)
  have free : s.record j = none := firstFree_free (s := s.elapse dt) lowest
  have distinct : i ≠ j := by
    rintro rfl
    exact nomatch record.symm.trans free
  obtain ⟨u, hu⟩ : ∃ u, u = s.elapse dt := ⟨_, rfl⟩
  obtain ⟨e, he⟩ : ∃ e, e = u.exchange n slot j := ⟨_, rfl⟩
  obtain ⟨g, hg⟩ : ∃ g, g = e.release.modReasons n fun r => { r with overrun := false } := ⟨_, rfl⟩
  have uEq : u = { s with clocks := u.clocks } := by rw [hu]; rfl
  have gStation (m : Fin 9) : g.station m = if m = n then { s.station n with
      piece := some j, reasons := { (s.station n).reasons with overrun := false } } else s.station m := by
    rw [hg, State.modReasons_station, State.release_station, he, exchange_station, uEq]
    by_cases own : m = n
    · rw [if_pos own, if_pos own, if_pos own]
      rfl
    · rw [if_neg own, if_neg own, if_neg own]
      rfl
  have rested : (g.station n).state ≠ .running := by
    rw [gStation, if_pos rfl, cutting]
    decide
  obtain ⟨station, lay, inspector, arbiter, table, pack, collector, notices, steady⟩ := startState_fields rested
  obtain ⟨f, hf⟩ : ∃ f, f = g.startState n := ⟨_, rfl⟩
  rw [← hf] at station lay inspector arbiter table pack collector notices steady
  have done : exec (.cutDone dt n (s.stationParams n).cutEdge) s =
      .next (f.notice (slotOfStation n) .pieceCut).highTest := by
    rw [exec_cutDone_cutEdge dt n released, State.cutDoneAt, State.elapse_station, cutting, ← hu,
      completeCut_eq (s := u) (by rw [hu]; exact order) (by rw [hu]; exact lowest) (by rw [hu]; exact cutting),
      ← he, ← hg, ← hf]
    dsimp only
    rw [piece]
    rfl
  have fRecord (k : Fin 64) : f.record k = if k = j then some (s.elapse dt |>.newPiece n slot (s.orderTag slot) s.openSerial)
      else if k = i then some { p with state := .queued, closedAt := some (s.elapse dt).clocks.part } else s.record k := by
    rw [record_of_table table, hg]
    show e.record k = _
    rw [he, hu]
    exact exchange_record (s := s.elapse dt) piece record k
  obtain ⟨t, ht⟩ : ∃ t, t = (f.notice (slotOfStation n) .pieceCut).highTest := ⟨_, rfl⟩
  have tStation (m : Fin 9) : t.station m = f.station m := by
    rw [ht]
    exact congrArg (fun v : Vector Station 9 => v[m.1]) (highTest_stations _)
  have tLay (l : Fin 8) : t.lay l = f.lay l := by
    rw [ht, highTest_lay]
    rfl
  have tRecord (k : Fin 64) : t.record k = f.record k := by
    rw [ht, highTest_record]
    rfl
  have tTable : t.table = e.table := by
    rw [ht, highTest_table, State.notice_table, table, hg]
    rfl
  have tArbiter : t.arbiter = { s.arbiter with
      reservedRecords := s.arbiter.reservedRecords - 1, reservedPlaces := s.arbiter.reservedPlaces - 1
      cutTimers := s.arbiter.cutTimers.set n.1 none } := by
    rw [ht, highTest_arbiter, State.notice_arbiter, arbiter, hg, State.modReasons_arbiter]
    unfold State.release
    rw [he, exchange_arbiter, uEq]
  have tInspector : t.inspector = f.inspector := by
    rw [ht, highTest_inspector]
    rfl
  have ePack : e.pack = { s.pack with queue := s.pack.queue ++ [i] } := by
    rw [he, exchange_pack (s := u) (by rw [uEq]; exact piece), uEq]
  have fPack : (f.notice (slotOfStation n) .pieceCut).pack = { s.pack with queue := s.pack.queue ++ [i] } := by
    rw [State.notice_pack, pack, hg, ← ePack]
    rfl
  have gSteady : Steady u g := by
    rw [hg, he]
    exact steady_exchange.trans ((steady_release _).trans (steady_modReasons _ n _))
  have params : f.params = s.params := by
    rw [steady.params, gSteady.params, uEq]
  have own : (t.station n).piece = some j ∧ (t.station n).order = some slot ∧
      (t.station n).reasons = { (s.station n).reasons with overrun := false } := by
    rw [tStation, station, if_pos rfl, gStation, if_pos rfl, Station.enter_piece, Station.enter_order,
      Station.enter_reasons]
    exact ⟨rfl, order, rfl⟩
  have holds : (g.station n).reasons.any = true ↔
      ((s.station n).reasons.halted = true ∨ (s.station n).reasons.fault = true) := by
    rw [gStation, if_pos rfl]
    show (_ || _ || false) = true ↔ _
    rw [Bool.or_false, Bool.or_eq_true]
  have state : (t.station n).state = if (s.station n).reasons.halted = true ∨ (s.station n).reasons.fault = true
      then .holding else .running := by
    rw [tStation, station, if_pos rfl, Station.enter_state]
    exact if_congr holds rfl rfl
  have runs (running : (t.station n).state = .running) : (g.station n).reasons.any = false := by
    refine Bool.eq_false_iff.mpr fun held => ?_
    rw [state, if_pos (holds.mp held)] at running
    exact nomatch running
  have fresh : g.freshLay = fun l => { s.lay l with
      tracker := ⟨none, [], 0, 0, true, 0, 0, false⟩, demand := (s.layParams l).fStart
      stall := some ⟨(s.elapse dt).clocks.mark, (s.layParams l).tMax⟩, lastPulse := none } := by
    funext l
    have lays : g.lay l = s.lay l := by
      rw [hg, State.modReasons_lay, State.release_lay, he, exchange_lay, uEq]
      rfl
    have layParams : g.layParams l = s.layParams l := by
      unfold State.layParams
      rw [gSteady.params, uEq]
    rw [freshLay_spelled, lays, layParams, gSteady.clocks, hu]
  have gLay (l : Fin 8) : g.lay l = s.lay l := by
    rw [hg, State.modReasons_lay, State.release_lay, he, exchange_lay, uEq]
    rfl
  have gInspector : g.inspector = if n = loom then { s.inspector with previous := none } else s.inspector := by
    rw [hg, State.modReasons_inspector, State.release_inspector, he, exchange_inspector, uEq]
  have gNotices : g.notices = s.notices := by
    rw [hg, State.modReasons_notices, State.release_notices, he, exchange_notices, uEq]
  refine ⟨t, j, s.newBody n, done.trans (by rw [ht]), free, firstFree_lowest (s := s.elapse dt) lowest, ?_, ?_,
    fun o found => orderTag_of_orderAt found, fun l e => ?_, fun e => ?_, rfl, newBody_limits s n, ?_, ?_, fun k hi hj => ?_,
    ?_, ?_, ?_, fun m hm => ?_, ?_, ?_, ?_, ?_, own.1, own.2.1, own.2.2, state, fun m hm => ?_, ?_, ?_, fun l e running => ?_,
    fun l rest => ?_, fun e => ?_, fun other => ?_, ?_, ?_, ?_, ?_⟩
  · rw [tRecord, fRecord, if_neg distinct, if_pos rfl]
  · rw [tRecord, fRecord, if_pos rfl]
    rfl
  · rw [e]
    unfold State.newBody
    rw [layOf_ofLay]
  · rw [e]
    rfl
  · rw [tTable, he, exchange_nextSerial.1, nextSerial_spelled, hu]
    rfl
  · rw [tTable, he, exchange_nextSerial.2, uEq]
  · rw [tRecord, fRecord, if_neg hj, if_neg hi]
  · rw [ht, highTest_queue, fPack]
  · rw [ht, highTest_scale, fPack]
  · show t.arbiter.cutTimers[n.1] = none
    rw [tArbiter]
    exact (getElem_set_fin s.arbiter.cutTimers n n none).trans (if_pos rfl)
  · show t.arbiter.cutTimers[m.1] = _
    rw [tArbiter]
    exact (getElem_set_fin s.arbiter.cutTimers n m none).trans (if_neg hm)
  · rw [tArbiter]
  · rw [tArbiter]
  · rw [tArbiter]
  · rw [tArbiter]
  · rw [tStation, station, if_neg hm, gStation, if_neg hm]
  · rw [State.cutOn, state]
    split <;> rfl
  · intro high length told
    have due : ((f.notice (slotOfStation n) .pieceCut).pack.highArmed = true ∧
        (f.notice (slotOfStation n) .pieceCut).params.part.queueHigh ≤
          (f.notice (slotOfStation n) .pieceCut).pack.queue.length) ↔ told = true := by
      rw [State.notice_params, params, fPack, List.length_append]
      exact (decide_eq_true_iff).symm
    refine ⟨?_, fun slot' k => ?_⟩
    · rw [ht, highTest_highArmed, if_congr due rfl rfl]
      unfold State.usedLowMark
      rw [State.notice_params, params, fPack, List.length_append]
      rfl
    · have count : f.noticeCount slot' k = s.noticeCount slot' k := noticeCount_of_notices (notices.trans gNotices) slot' k
      rw [ht, highTest_noticeCount, if_congr (and_congr_right fun _ => and_congr_right fun _ => due) rfl rfl,
        State.notice_noticeCount, count]
      exact noticed_either _ fun cut queue => by
        rw [cut.2] at queue
        exact absurd queue.2.1 (by decide)
  · rw [tLay, lay, if_pos ⟨e, runs running⟩, fresh]
  · rw [tLay, lay, if_neg fun both => ?_, gLay]
    obtain other | holding := rest
    · exact other both.1
    · have held : (g.station n).reasons.any = true := by
        refine Bool.of_not_eq_false fun free => ?_
        rw [state, if_neg fun h => Bool.false_ne_true (free.symm.trans (holds.mpr h))] at holding
        exact nomatch holding
      exact Bool.false_ne_true (both.2.symm.trans held)
  · rw [tInspector, inspector, gInspector, if_pos e]
    split <;> exact ⟨rfl, rfl, rfl⟩
  · rw [tInspector, inspector, gInspector, if_neg other, if_neg fun both => other both.1]
  · rw [ht, highTest_collector, State.notice_collector, collector, hg, State.modReasons_collector,
      State.release_collector, he, exchange_collector, uEq]
  · rw [ht, highTest_orders, State.notice_orders, steady.orders, gSteady.orders, uEq]
  · rw [ht, highTest_params, State.notice_params, params]
  · rw [ht, highTest_port, State.notice_port, steady.port, gSteady.port, uEq]

end Sys2Proof.Machine
end

