-- ==== Sys2Proof/Proofs/PieceRequests.lean ====
section
/-!
PROOF. AMEND PIECE item by item (R120 to R122, R83), and RETIRE PIECE (R123, R84).
-/
namespace Sys2Proof.Machine

/-! ### Where an item is allowed (R120) -/

theorem recordOf_eq_none {b : Byte} (h : 64 ≤ b.toNat) : recordOf b = none := dif_neg (by omega)

theorem capAllowed_iff (st : PieceState) : st.capAllowed = false ↔ st = .atScale := by cases st <;> decide

theorem holdAllowed_iff (st : PieceState) : st.holdAllowed = true ↔ st = .opened ∨ st = .queued := by
  cases st <;> decide

theorem waiveAllowed_iff (st : PieceState) :
    st.waiveAllowed = true ↔ st = .opened ∨ st = .queued ∨ st = .aside := by cases st <;> decide

theorem capOf_capCode (c : Option Cap) : capOf (capCode c) = some c := by
  cases c with
  | none => decide
  | some c => cases c <;> decide

theorem holdOf_code (h : Bool) : holdOf (if h then 1 else 0) = some h := by cases h <;> decide

/-- A request none of whose items is refused against the record (R120). -/
theorem refusal_eq_none {a : Amendment} {p : Piece} (cap : a.cap.isSome = true → p.state ≠ .atScale)
    (hold : a.hold.isSome = true → p.state = .opened ∨ p.state = .queued)
    (panel : a.waive = true → p.panel? ≠ none)
    (waive : a.waive = true → p.state = .opened ∨ p.state = .queued ∨ p.state = .aside) : a.refusal p = none := by
  unfold Amendment.refusal
  rw [if_neg fun h => cap h.1 ((capAllowed_iff _).mp h.2),
    if_neg fun h => Bool.false_ne_true (h.2.symm.trans ((holdAllowed_iff _).mpr (hold h.1))),
    if_neg fun h => panel h.1 h.2,
    if_neg fun h => Bool.false_ne_true (h.2.symm.trans ((waiveAllowed_iff _).mpr (waive h.1)))]

theorem gather_add {a b : Amendment} {item : AmendItem} (h : a.add item = some b) (items : List AmendItem) :
    gather a (item :: items) = gather b items := by rw [gather, h]

theorem gather_twice {a : Amendment} {item : AmendItem} (h : a.add item = none) (items : List AmendItem) :
    gather a (item :: items) = none := by rw [gather, h]

theorem add_capCode {a : Amendment} (h : a.cap = none) (c : Option Cap) :
    a.add (.cap (capCode c)) = some { a with cap := some c } := by
  rw [Amendment.add, h, capOf_capCode]
  rfl

theorem add_holdCode {a : Amendment} (h : a.hold = none) (b : Bool) :
    a.add (.hold (if b then 1 else 0)) = some { a with hold := some b } := by
  rw [Amendment.add, h, holdOf_code]
  rfl

/-- A cap or hold item after another of its sort, whatever their codes (R120). -/
theorem gather_caps (b c : Byte) : gather Amendment.empty [.cap b, .cap c] = none := by
  cases code : capOf b with
  | none =>
    refine gather_twice ?_ _
    rw [Amendment.add, code]
    rfl
  | some cap =>
    refine (gather_add (b := { Amendment.empty with cap := some cap }) ?_ _).trans (gather_twice rfl _)
    rw [Amendment.add, code]
    rfl

theorem gather_holds (b c : Byte) : gather Amendment.empty [.hold b, .hold c] = none := by
  cases code : holdOf b with
  | none =>
    refine gather_twice ?_ _
    rw [Amendment.add, code]
    rfl
  | some hold =>
    refine (gather_add (b := { Amendment.empty with hold := some hold }) ?_ _).trans (gather_twice rfl _)
    rw [Amendment.add, code]
    rfl

/-! ### AMEND PIECE by the amendment that its items make -/

section
variable {s : State} {i : Fin 64} {p : Piece} {items : List AmendItem} {a : Amendment}

theorem amendPiece_stale {v : Word32} (record : s.record i = some p) (other : v ≠ p.serial) (items : List AmendItem) :
    s.amendPiece (BitVec.ofNat 8 i.1) v items = s.refuse .stalePiece := by
  unfold State.amendPiece
  have none : s.named i v = none := named_eq_none fun q hq => by
    rw [← Option.some.inj (record.symm.trans hq)]
    exact other.symm
  rw [recordOf_ofNat]
  dsimp only
  rw [none]

theorem amendPiece_ungathered (record : s.record i = some p) (h : gather Amendment.empty items = none) :
    s.amendPiece (BitVec.ofNat 8 i.1) p.serial items = s.refuse .badRequest := by
  unfold State.amendPiece
  rw [recordOf_ofNat]
  dsimp only
  rw [named_of_record record, h]

theorem amendPiece_refused {status : Status} (record : s.record i = some p)
    (gathered : gather Amendment.empty items = some a) (h : a.refusal p = some status) :
    s.amendPiece (BitVec.ofNat 8 i.1) p.serial items = s.refuse status := by
  unfold State.amendPiece
  rw [recordOf_ofNat]
  dsimp only
  rw [named_of_record record, gathered]
  dsimp only
  rw [h]

theorem amendPiece_taken (record : s.record i = some p) (gathered : gather Amendment.empty items = some a)
    (h : a.refusal p = none) : s.amendPiece (BitVec.ofNat 8 i.1) p.serial items =
      ⟨s.applyAmendment i a, if capClamped p a.cap then .clamped else .ok, (s.applyAmendment i a).amendBytes i⟩ := by
  unfold State.amendPiece
  rw [recordOf_ofNat]
  dsimp only
  rw [named_of_record record, gathered]
  dsimp only
  rw [h]

/-- A request without a waive changes its record alone. -/
theorem amendPiece_changed {f : Piece → Piece} {status : Status} (record : s.record i = some p)
    (gathered : gather Amendment.empty items = some a) (allowed : a.refusal p = none) (unwaived : a.waive = false)
    (changes : ∀ q, q.amend a = f q) (judged : (if capClamped p a.cap then .clamped else .ok) = status) :
    s.amendPiece (BitVec.ofNat 8 i.1) p.serial items = ⟨s.modPiece i f, status, (f p).amendBytes⟩ := by
  have applied : s.applyAmendment i a = s.modPiece i f := by
    unfold State.applyAmendment
    rw [unwaived, show (fun q : Piece => q.amend a) = f from funext changes]
    rfl
  have bytes : (s.modPiece i f).amendBytes i = (f p).amendBytes := by
    unfold State.amendBytes
    rw [State.modPiece_record, if_pos rfl, record]
    rfl
  rw [amendPiece_taken record gathered allowed, applied, bytes, judged]

/-- A waive with no other item (R83). -/
theorem amendPiece_waived {q : Panel} (record : s.record i = some p) (panel : p.body = .panel q)
    (allowed : p.state = .opened ∨ p.state = .queued ∨ p.state = .aside) :
    let waived := q.waiveAll (s.entriesOf i)
    s.amendPiece (BitVec.ofNat 8 i.1) p.serial [.waive] =
      ⟨(s.modPiece i fun p => { p with body := .panel waived }).modInspector fun x => { x with
        mends := x.mends.filter (·.panel != i) }, .ok, { p with body := .panel waived }.amendBytes⟩ := by
  intro waived
  have present : p.panel? ≠ none := by
    rw [Piece.panel?, panel]
    exact Option.some_ne_none q
  have gathered : gather Amendment.empty [.waive] = some { Amendment.empty with waive := true } := rfl
  have kept : s.modPiece i (fun p => p.amend { Amendment.empty with waive := true }) = s :=
    modPiece_eq_self fun p _ => rfl
  have applied : s.applyAmendment i { Amendment.empty with waive := true } =
      (s.modPiece i fun p => { p with body := .panel waived }).modInspector fun x => { x with
        mends := x.mends.filter (·.panel != i) } := by
    unfold State.applyAmendment
    rw [kept]
    show (s.modPanel i fun q => q.waiveAll (s.entriesOf i)).dropEntries i = _
    unfold State.modPanel State.modPiece State.dropEntries
    rw [record, Option.map_some, Option.map_some, panel]
  rw [amendPiece_taken record gathered (refusal_eq_none (fun h => (nomatch h)) (fun h => (nomatch h))
    (fun _ => present) fun _ => allowed), applied]
  have bytes : ((s.modPiece i fun p => { p with body := .panel waived }).modInspector fun x => { x with
      mends := x.mends.filter (·.panel != i) }).amendBytes i = { p with body := .panel waived }.amendBytes := by
    unfold State.amendBytes
    rw [State.modInspector_record, State.modPiece_record, if_pos rfl, record]
    rfl
  rw [bytes]
  rfl

end

/-- Settles O42. -/
theorem amendPieceAppliesItems : Obligations.AmendPieceAppliesItems := by
  intro s dt tag i p released taken record amend refused changed capped capStatus
  have refusal {v : Word32} {b : Byte} {items : List AmendItem} {status : Status}
      (h : (s.elapse dt).amendPiece b v items = (s.elapse dt).refuse status) :
      exec (.amendPiece dt tag b v items) s = refused status :=
    hostRequest_answered (body := fun s => s.amendPiece b v items) released taken h
  have ungathered {items : List AmendItem} (h : gather Amendment.empty items = none) :
      amend items = refused .badRequest := refusal (amendPiece_ungathered (s := s.elapse dt) record h)
  have judged {items : List AmendItem} {a : Amendment} {status : Status} (gathered : gather Amendment.empty items = some a)
      (h : a.refusal p = some status) : amend items = refused status :=
    refusal (amendPiece_refused (s := s.elapse dt) record gathered h)
  have changes {items : List AmendItem} {a : Amendment} {f : Piece → Piece} {status : Status}
      (gathered : gather Amendment.empty items = some a) (allowed : a.refusal p = none) (unwaived : a.waive = false)
      (shape : ∀ q, q.amend a = f q) (status_eq : (if capClamped p a.cap then .clamped else .ok) = status) :
      amend items = changed f status :=
    hostRequest_effect (body := fun s => s.amendPiece (BitVec.ofNat 8 i.1) p.serial items) released taken
      (amendPiece_changed (s := s.elapse dt) record gathered allowed unwaived shape status_eq)
  have clamps (c : Option Cap) : (if capClamped p (some c) then Status.clamped else .ok) = capStatus c :=
    if_congr decide_eq_true_iff rfl rfl
  have capGathered (c : Option Cap) :
      gather Amendment.empty [.cap (capCode c)] = some { Amendment.empty with cap := some c } :=
    gather_add (add_capCode rfl c) []
  have holdGathered (h : Bool) :
      gather Amendment.empty [.hold (if h then 1 else 0)] = some { Amendment.empty with hold := some h } :=
    gather_add (add_holdCode rfl h) []
  refine ⟨fun v items other => ?stale, fun b out v items => ?range, ?empty, fun v => ?label, ?labelNone, fun c away => ?cap,
    fun c there => ?capRefused, fun h => ⟨fun may => ?hold, fun late => ?holdRefused, fun may v c => ?together,
      fun queued c coil => ?holdWaive⟩, fun c coil => ?waiveCoil, fun q panel late => ?waiveRefused,
    fun q panel may => ?waive, fun v w => ⟨ungathered rfl, ungathered rfl⟩, ungathered rfl,
    fun b c => ungathered (gather_caps b c), fun b c => ungathered (gather_holds b c)⟩
  case stale => exact refusal (amendPiece_stale (s := s.elapse dt) record other items)
  case range =>
    refine refusal ?_
    unfold State.amendPiece
    rw [recordOf_eq_none out]
  case empty =>
    refine (changes (a := Amendment.empty) (f := id) (status := .ok) rfl (refusal_eq_none nofun nofun nofun nofun) rfl
      (fun _ => rfl) rfl).trans ?_
    show Host.Outcome.next (((s.elapse dt).modPiece i id).responded tag s.unread .ok p.amendBytes) = _
    rw [modPiece_eq_self (f := id) fun _ _ => rfl]
    rfl
  case label =>
    exact changes (a := { Amendment.empty with label := some (some v) }) rfl (refusal_eq_none nofun nofun nofun nofun) rfl
      (fun _ => rfl) rfl
  case labelNone =>
    exact changes (a := { Amendment.empty with label := some none }) rfl (refusal_eq_none nofun nofun nofun nofun) rfl
      (fun _ => rfl) rfl
  case cap =>
    exact changes (capGathered c) (refusal_eq_none (fun _ => away) nofun nofun nofun) rfl (fun _ => rfl) (clamps c)
  case capRefused => exact judged (capGathered c) (if_pos ⟨rfl, (capAllowed_iff _).mpr there⟩)
  case hold =>
    exact changes (holdGathered h) (refusal_eq_none nofun (fun _ => may) nofun nofun) rfl (fun _ => rfl) rfl
  case holdRefused =>
    have closed : p.state.holdAllowed = false :=
      Bool.eq_false_iff.mpr fun allowed => late ((holdAllowed_iff _).mp allowed)
    exact judged (holdGathered h) ((if_neg fun both => nomatch both.1).trans (if_pos ⟨rfl, closed⟩))
  case together =>
    have away : p.state ≠ .atScale := by obtain e | e := may <;> rw [e] <;> decide
    have gathered : gather Amendment.empty [.label v, .cap (capCode c), .hold (if h then 1 else 0)] =
        some ⟨some (some v), some c, some h, false⟩ :=
      (gather_add rfl _).trans ((gather_add (add_capCode rfl c) _).trans (gather_add (add_holdCode rfl h) _))
    refine changes gathered (refusal_eq_none (fun _ => away) (fun _ => may) nofun nofun) rfl (fun q => ?_) (clamps c)
    show ({ (if capDepth c < capDepth q.cap then { q with label := some v }
      else Piece.lowerCap { q with label := some v } c) with hold := h } : Piece) =
        { capped c q with label := some v, hold := h }
    by_cases deep : capDepth c < capDepth q.cap
    · rw [if_pos deep, show capped c q = q from if_pos deep]
    · rw [if_neg deep, show capped c q = _ from if_neg deep]
      rfl
  case holdWaive =>
    have gathered : gather Amendment.empty [.hold (if h then 1 else 0), .waive] =
        some ⟨none, none, some h, true⟩ := gather_add (add_holdCode rfl h) _
    have none : p.panel? = none := by rw [Piece.panel?, coil]
    have may : p.state.holdAllowed = true := (holdAllowed_iff _).mpr (.inr queued)
    exact judged gathered ((if_neg fun both => nomatch both.1).trans
      ((if_neg fun both => Bool.false_ne_true (both.2.symm.trans may)).trans (if_pos ⟨rfl, none⟩)))
  case waiveCoil =>
    have none : p.panel? = none := by rw [Piece.panel?, coil]
    exact judged (a := { Amendment.empty with waive := true }) rfl ((if_neg fun both => nomatch both.1).trans
      ((if_neg fun both => nomatch both.1).trans (if_pos ⟨rfl, none⟩)))
  case waiveRefused =>
    have present : p.panel? ≠ none := by
      rw [Piece.panel?, panel]
      exact Option.some_ne_none q
    have closed : p.state.waiveAllowed = false :=
      Bool.eq_false_iff.mpr fun allowed => late ((waiveAllowed_iff _).mp allowed)
    exact judged (a := { Amendment.empty with waive := true }) rfl ((if_neg fun both => nomatch both.1).trans
      ((if_neg fun both => nomatch both.1).trans ((if_neg fun both => present both.2).trans (if_pos ⟨rfl, closed⟩))))
  case waive =>
    exact hostRequest_effect (body := fun s => s.amendPiece (BitVec.ofNat 8 i.1) p.serial [.waive]) released taken
      (amendPiece_waived (s := s.elapse dt) record panel may)

/-! ### RETIRE PIECE (R123, R84) -/

/-- A retirement up to its tests: entries discarded and counted, record FREE (R84, R123). -/
def State.retires (s : State) (i : Fin 64) : State :=
  ((s.dropEntries i).modInspector fun x =>
    { x with discarded := min Config.countSat (x.discarded + s.entriesOf i) }).setRecord i none

theorem retirePiece_named {s : State} {i : Fin 64} {v : Word32} {p : Piece} (h : s.named i v = some p) :
    s.retirePiece (BitVec.ofNat 8 i.1) v =
      if p.state = .packed ∨ p.state = .aside then ⟨s.retireRecord i, .ok, [byteOf (s.entriesOf i)]⟩
      else s.refuse .wrongState := by
  unfold State.retirePiece
  rw [recordOf_ofNat]
  dsimp only
  rw [h]

theorem retirePiece_stale {s : State} {i : Fin 64} {v : Word32} (h : s.named i v = none) :
    s.retirePiece (BitVec.ofNat 8 i.1) v = s.refuse .stalePiece := by
  unfold State.retirePiece
  rw [recordOf_ofNat]
  dsimp only
  rw [h]

/-- Settles O43. -/
theorem retirePieceFreesRecord : Obligations.RetirePieceFreesRecord := by
  intro s dt tag i released taken
  have refusal {v : Word32} {b : Byte} {status : Status}
      (h : (s.elapse dt).retirePiece b v = (s.elapse dt).refuse status) :
      exec (.retirePiece dt tag b v) s = .next (s.answeredOnly dt tag status []) :=
    hostRequest_answered (body := fun s => s.retirePiece b v) released taken h
  refine ⟨fun p record done => ?retired, fun p record undone => refusal ?_, fun v stale => refusal ?_,
    fun b out v => refusal ?_⟩
  case retired =>
    intro entries
    have named : (s.elapse dt).named i p.serial = some p := named_of_record (s := s.elapse dt) record
    refine ⟨(s.elapse dt).retires i, ?_, ?_, fun j hj => ?_, ?_, rfl, rfl⟩
    · refine hostRequest_effect (body := fun s => s.retirePiece (BitVec.ofNat 8 i.1) p.serial) released taken ?_
      rw [retirePiece_named named]
      exact if_pos done
    · rw [State.retires, State.setRecord_record, if_pos rfl]
    · rw [State.retires, State.setRecord_record, if_neg hj]
      rfl
    · have one := freeCount_setRecord (s.elapse dt) i none
      rw [show (s.elapse dt).record i = some p from record] at one
      have same : ((s.elapse dt).retires i).freeCount = ((s.elapse dt).setRecord i none).freeCount := rfl
      rw [same]
      simpa using one
  · rw [retirePiece_named (named_of_record (s := s.elapse dt) record)]
    exact if_neg undone
  · exact retirePiece_stale (named_eq_none (s := s.elapse dt) stale)
  · unfold State.retirePiece
    rw [recordOf_eq_none out]

end Sys2Proof.Machine
end

