-- ==== Sys2Proof/Proofs/PackLine.lean ====
section
/-!
PROOF. The pack line: NEXT, the scale timer and the high-queue test (R131, R132, R142), WEIGH with its grades (R133 to
R137), PACKED, ASIDE and QUERY (R138 to R141).
-/
namespace Sys2Proof.Machine

/-! ### A request of the terminal (R144, R177) -/

section
variable {s t : State} {dt : Nat} {kind : Byte} {body : State → Answer} {st : Status} {fields : List Byte}

theorem packRequest_effect (released : s.pins.reset = false) (room : s.txRoom)
    (h : body (s.elapse dt) = ⟨t, st, fields⟩) :
    packRequest dt kind body s = .next (t.packResponded kind st fields) := by
  have open_ : ¬ Config.txSize ≤ (s.elapse dt).pack.tx.length := Nat.not_le.mpr room
  rw [packRequest, if_neg (by simp [released]), State.takePack, if_neg open_, h]

theorem packRequest_answered (released : s.pins.reset = false) (room : s.txRoom)
    (h : body (s.elapse dt) = ⟨s.elapse dt, st, fields⟩) :
    packRequest dt kind body s = .next (s.packAnsweredOnly dt kind st fields) :=
  packRequest_effect released room h

end

/-! ### The high-queue test (R142) -/

theorem highTest_frame (s : State) : s.highTest = { s with
    pack := { s.pack with highArmed := s.highTest.pack.highArmed }
    notices := { s.notices with slots := s.highTest.notices.slots } } := by
  unfold State.highTest
  split
  · rfl
  · split <;> rfl

theorem highTest_quiet {s : State} (h : s.pack.highArmed = false ∨ s.pack.queue.length < s.params.part.queueHigh) :
    s.highTest.notices = s.notices := by
  have idle : ¬ (s.pack.highArmed = true ∧ s.params.part.queueHigh ≤ s.pack.queue.length) := by
    rintro ⟨armed, far⟩
    obtain unarmed | below := h
    · exact Bool.false_ne_true (unarmed.symm.trans armed)
    · omega
  unfold State.highTest
  rw [if_neg idle]
  split <;> rfl

/-! ### NEXT (R131) -/

theorem nextPiece_occupied {s : State} (h : s.pack.scale ≠ none) : s.nextPiece = s.refuse .scaleOccupied :=
  if_pos (Option.isSome_iff_ne_none.mpr h)

theorem nextPiece_empty {s : State} (idle : s.pack.scale = none) (h : ∀ i ∈ s.pack.queue, s.readyAt i = false) :
    s.nextPiece = s.refuse .empty := by
  have unready : s.pack.queue.find? s.readyAt = none :=
    List.find?_eq_none.mpr fun i hi => by rw [h i hi]; exact Bool.false_ne_true
  unfold State.nextPiece
  rw [idle, unready]
  rfl

theorem nextPiece_ready {s : State} {i : Fin 64} {p : Piece} (idle : s.pack.scale = none)
    (first : s.pack.queue.find? s.readyAt = some i) (record : s.record i = some p) :
    s.nextPiece = ⟨s.issue i, .ok, issueBytes i p⟩ := by
  unfold State.nextPiece
  rw [idle, first]
  dsimp only
  rw [record]
  rfl

/-- A flag of one bit, by what it says. -/
theorem flag_present {α : Type} (x : Option α) [Decidable (x = none)] : flag x.isSome 0 = if x = none then 0 else 1 := by
  cases x with
  | none => rw [if_pos rfl]; rfl
  | some a => rw [if_neg (Option.some_ne_none a)]; rfl

theorem issueBytes_spelled (i : Fin 64) (p : Piece) [Decidable (p.label = none)] : issueBytes i p = BitVec.ofNat 8 i.1 ::
    (bytes32 p.serial ++ [p.kindByte, BitVec.ofNat 8 p.station.1] ++ bytes32 p.tag ++
      [if p.label = none then 0 else 1] ++ bytes32 (p.label.getD 0) ++ bytes32 (BitVec.ofNat 32 p.extent) ++
      [capCode p.cap]) := by
  rw [← flag_present]
  rfl

/-! ### The scale timer (R132) -/

theorem unweighed_of_record {s : State} {i : Fin 64} {p : Piece} (scale : s.pack.scale = some i)
    (record : s.record i = some p) (state : p.state = .atScale) : s.unweighed = some i := by
  unfold State.unweighed
  rw [scale]
  dsimp only
  rw [record]
  exact if_pos state

/-- Settles O44. -/
theorem scaleTakesFirstReadyPiece : Obligations.ScaleTakesFirstReadyPiece := by
  refine ⟨fun s => ?high, fun s dt => ⟨fun released room occupied => ?_, fun released room idle unready => ?_,
    fun before i after p released room idle queue unready once record ready => ?next,
    fun timer i p armed scale record state => ?expiry, fun disarmed => ?_⟩⟩
  case high =>
    intro high length c t
    refine ⟨fun armed far => ⟨?_, ?_⟩, fun quiet => ⟨highTest_quiet quiet, ?_⟩, fun slot k other => ?_, highTest_frame s⟩
    · exact (highTest_highArmed s).trans (if_pos ⟨armed, far⟩)
    · exact (highTest_noticeCount s 9 _).trans (if_pos ⟨rfl, rfl, armed, far⟩)
    · have idle : ¬ (s.pack.highArmed = true ∧ high ≤ length) := by
        rintro ⟨armed, far⟩
        obtain unarmed | below := quiet
        · exact Bool.false_ne_true (unarmed.symm.trans armed)
        · exact absurd far (Nat.not_le.mpr below)
      refine (highTest_highArmed s).trans ((if_neg idle).trans ?_)
      have low : length ≤ s.usedLowMark ↔ length ≤ s.params.part.queueLow ∧ length ≤ high - 1 := Nat.le_min
      by_cases under : length ≤ s.usedLowMark
      · rw [if_pos under, decide_eq_true (low.mp under), Bool.or_true]
      · rw [if_neg under, decide_eq_false fun h => under (low.mpr h), Bool.or_false]
    · refine (highTest_noticeCount s slot k).trans (if_neg ?_)
      rintro ⟨rfl, rfl, -⟩
      exact other.elim (fun h => h rfl) fun h => h rfl
  · exact packRequest_answered (body := fun s => s.nextPiece) released room (nextPiece_occupied (s := s.elapse dt) occupied)
  · exact packRequest_answered (body := fun s => s.nextPiece) released room (nextPiece_empty (s := s.elapse dt) idle unready)
  case next =>
    have readyHere : (s.elapse dt).readyAt i = true := by
      unfold State.readyAt
      rw [show (s.elapse dt).record i = some p from record]
      exact ready
    have first : (s.elapse dt).pack.queue.find? (s.elapse dt).readyAt = some i := by
      rw [State.elapse_pack, queue]
      refine List.find?_eq_some_iff_append.mpr ⟨readyHere, before, after, rfl, fun j hj => ?_⟩
      rw [show (s.elapse dt).readyAt j = false from unready j hj]
      rfl
    have absent : i ∉ before := fun h => Bool.false_ne_true ((unready i h).symm.trans readyHere)
    have rest : s.pack.queue.filter (· != i) = before ++ after := by
      have others {l : List (Fin 64)} (h : i ∉ l) : l.filter (· != i) = l :=
        List.filter_eq_self.mpr fun m hm => bne_iff_ne.mpr fun e => h (e ▸ hm)
      rw [queue, List.filter_append, List.filter_cons_of_neg (by simp), others absent, others once]
    refine ⟨(s.elapse dt).toScale i, ?_, ?_, fun j hj => ?_, ?_, rfl⟩
    · rw [← issueBytes_spelled]
      exact packRequest_effect (body := fun s => s.nextPiece) released room
        (nextPiece_ready (s := s.elapse dt) idle first record)
    · show ((s.elapse dt).modPiece i fun p => { p with state := .atScale }).record i = _
      rw [State.modPiece_record, if_pos rfl, show (s.elapse dt).record i = some p from record]
      rfl
    · show ((s.elapse dt).modPiece i fun p => { p with state := .atScale }).record j = _
      rw [State.modPiece_record, if_neg hj]
      rfl
    · rw [← rest]
      rfl
  case expiry =>
    have arm : exec (.scaleTimerExpiry dt) s = .next ((s.elapse dt).scaleExpiry) := rfl
    obtain ⟨w, hw⟩ : ∃ w, w = (s.elapse dt).waitPart timer := ⟨_, rfl⟩
    have frame : w = { s with clocks := w.clocks } := by
      rw [hw]
      exact waitPart_frame (s.elapse dt) timer
    have wRecord (j : Fin 64) : w.record j = s.record j := by rw [frame]; rfl
    have taken (j : Fin 64) : ((w.takeBack i).setScaleTimer none).record j =
        (w.modPiece i fun p => { p with state := .queued }).record j := rfl
    refine ⟨(w.takeBack i).setScaleTimer none, ?_, ?_, fun j hj => ?_, ?_, ?_⟩
    · rw [arm, State.scaleExpiry, State.elapse_pack, armed, unweighed_of_record (s := s.elapse dt) scale record state, hw]
      rfl
    · rw [taken, State.modPiece_record, if_pos rfl, wRecord, record]
      rfl
    · rw [taken, State.modPiece_record, if_neg hj, wRecord]
    · rw [frame]
      rfl
    · rw [← hw, frame]
      rfl
  · have arm : exec (.scaleTimerExpiry dt) s = .next ((s.elapse dt).scaleExpiry) := rfl
    rw [arm, State.scaleExpiry, State.elapse_pack, disarmed]

/-! ### WEIGH (R133 to R137) -/

theorem within_iff (d : Option Int) (tol : Nat) : within d tol = true ↔ ∃ v, d = some v ∧ v.natAbs ≤ tol := by
  cases d with
  | none => simp [within]
  | some v => simp [within]

/-- A grade by a bar that rejects, and the two limits in their order. -/
theorem graded_iff {bar a b A B : Prop} [Decidable bar] [Decidable a] [Decidable b] {g : Grade}
    (h : g = if bar then .reject else if a then .a else if b then .b else .reject) (isA : A ↔ ¬ bar ∧ a)
    (isB : B ↔ ¬ bar ∧ b) : (g = .a ↔ A) ∧ (g = .b ↔ ¬ A ∧ B) ∧ (g = .reject ↔ ¬ A ∧ ¬ B) := by
  rw [h, isA, isB]
  by_cases barred : bar
  · simp [barred]
  · by_cases best : a
    · simp [barred, best]
    · by_cases second : b <;> simp [barred, best, second]

theorem coilGrade_iff (f : RopeOrder) (c : Coil) (d : Option Int) :
    let total := c.splices.length + c.spliceOverflow
    let near (tol : Nat) : Prop := ∃ v, d = some v ∧ v.natAbs ≤ tol
    let a : Prop := c.spliceOverflow = 0 ∧ total ≤ f.spliceA ∧ c.quality.excursions ≤ f.excA ∧ near f.tolA
    let b : Prop := c.spliceOverflow = 0 ∧ total ≤ f.spliceB ∧ c.quality.excursions ≤ f.excB ∧ near f.tolB
    (coilGrade f c d = .a ↔ a) ∧ (coilGrade f c d = .b ↔ ¬ a ∧ b) ∧ (coilGrade f c d = .reject ↔ ¬ a ∧ ¬ b) := by
  intro total near a b
  have limit (splices exc tol : Nat) :
      (c.spliceOverflow = 0 ∧ total ≤ splices ∧ c.quality.excursions ≤ exc ∧ near tol) ↔
        ¬ (0 < c.spliceOverflow ∨ d = none) ∧
          (c.spliceTotal ≤ splices ∧ c.quality.excursions ≤ exc ∧ within d tol = true) := by
    rw [within_iff, not_or, Nat.not_lt, Nat.le_zero]
    refine ⟨fun ⟨clean, few, exc, close⟩ => ⟨⟨clean, fun absent => ?_⟩, few, exc, close⟩,
      fun ⟨⟨clean, _⟩, few, exc, close⟩ => ⟨clean, few, exc, close⟩⟩
    obtain ⟨v, hv, -⟩ := close
    exact nomatch hv.symm.trans absent
  exact graded_iff rfl (limit f.spliceA f.excA f.tolA) (limit f.spliceB f.excB f.tolB)

theorem panelGrade_iff (f : NetOrder) (q : Panel) (d : Option Int) :
    let near (tol : Nat) : Prop := ∃ v, d = some v ∧ v.natAbs ≤ tol
    let clean : Prop := q.waived = 0 ∧ q.unmended = 0 ∧ q.unlisted = 0
    let a : Prop := clean ∧ q.holes = 0 ∧ q.knots ≤ f.knotsA ∧ q.unsensed = 0 ∧ near f.tolA
    let b : Prop := clean ∧ q.holes ≤ f.holesB ∧ q.knots ≤ f.knotsB ∧ near f.tolB
    (panelGrade f q d = .a ↔ a) ∧ (panelGrade f q d = .b ↔ ¬ a ∧ b) ∧ (panelGrade f q d = .reject ↔ ¬ a ∧ ¬ b) := by
  intro near clean a b
  have bar : ¬ (0 < q.waived ∨ d = none ∨ 0 < q.unmended ∨ 0 < q.unlisted) ↔ clean ∧ d ≠ none := by
    rw [not_or, not_or, not_or, Nat.not_lt, Nat.not_lt, Nat.not_lt, Nat.le_zero, Nat.le_zero, Nat.le_zero]
    exact ⟨fun ⟨w, present, u, l⟩ => ⟨⟨w, u, l⟩, present⟩, fun ⟨⟨w, u, l⟩, present⟩ => ⟨w, present, u, l⟩⟩
  have present {tol : Nat} (close : near tol) : d ≠ none := fun absent => by
    obtain ⟨v, hv, -⟩ := close
    exact nomatch hv.symm.trans absent
  refine graded_iff rfl ?_ ?_
  · rw [bar, within_iff]
    exact ⟨fun ⟨c, h, k, u, close⟩ => ⟨⟨c, present close⟩, h, k, u, close⟩,
      fun ⟨⟨c, _⟩, h, k, u, close⟩ => ⟨c, h, k, u, close⟩⟩
  · rw [bar, within_iff]
    exact ⟨fun ⟨c, h, k, close⟩ => ⟨⟨c, present close⟩, h, k, close⟩,
      fun ⟨⟨c, _⟩, h, k, close⟩ => ⟨c, h, k, close⟩⟩

theorem onPiece_named {s : State} {i : Fin 64} {p : Piece} (record : s.record i = some p) (body : Fin 64 → Piece → Answer) :
    s.onPiece (BitVec.ofNat 8 i.1) p.serial body = body i p := by
  unfold State.onPiece
  rw [recordOf_ofNat]
  dsimp only
  rw [named_of_record record]

theorem weighRequest_taken {s : State} {i : Fin 64} {p : Piece} {o : Order} (record : s.record i = some p)
    (state : p.state = .atScale ∨ p.state = .weighed) (order : s.orderAt p.slot = some o) (weight : Word32) :
    s.weighRequest (BitVec.ofNat 8 i.1) p.serial weight =
      let w := weighing o p (min 2000000 weight.toNat)
      ⟨s.weighPiece i p w, if 2000000 < weight.toNat then .clamped else .ok, w.bytes⟩ := by
  unfold State.weighRequest
  rw [onPiece_named record]
  obtain state | state := state
  · rw [state]
    dsimp only
    rw [order]
    rfl
  · rw [state]
    dsimp only
    rw [order]
    rfl

theorem disarmScale_spelled (s : State) (p : Piece) : s.disarmScale p = { s with pack := { s.pack with
    scaleTimer := if p.state = .atScale then none else s.pack.scaleTimer } } := by
  unfold State.disarmScale
  by_cases e : p.state = .atScale
  · rw [if_pos e, if_pos e]
    rfl
  · rw [if_neg e, if_neg e]

/-- Settles O45. -/
theorem weighGradesTheOccupant : Obligations.WeighGradesTheOccupant := by
  intro s dt i p o weight released room record state order
  obtain ⟨w, hw⟩ : ∃ w, w = weighing o p (min 2000000 weight.toNat) := ⟨_, rfl⟩
  refine ⟨w, ?_, by rw [hw]; rfl, fun zero => ?_, fun some_ => ?_, by rw [hw]; rfl, fun f c rope coil => ?_,
    fun f q net panel => ?_⟩
  · refine (packRequest_effect (body := fun s => s.weighRequest (BitVec.ofNat 8 i.1) p.serial weight) released room
      (weighRequest_taken (s := s.elapse dt) record state order weight)).trans ?_
    dsimp only
    rw [← hw, State.weighPiece, disarmScale_spelled, ← flag_present]
    rfl
  · rw [hw] at zero ⊢
    exact if_pos zero
  · rw [hw] at some_ ⊢
    exact if_neg some_
  · have expected : w.expected = min 4294967295 (roundDiv (c.length.toNat / 1000000 * f.density) 1000000) := by
      rw [hw]
      unfold weighing expectedWeight
      rw [rope, coil]
      rfl
    have computed : w.computed = coilGrade f c w.deviation := by
      rw [hw]
      unfold weighing computedGrade
      rw [rope, coil]
    refine ⟨expected, ?_⟩
    rw [computed]
    exact coilGrade_iff f c w.deviation
  · have expected : w.expected = min 4294967295 (roundDiv (q.rows * f.rowMass) 1000) := by
      rw [hw]
      unfold weighing expectedWeight
      rw [net, panel]
      rfl
    have computed : w.computed = panelGrade f q w.deviation := by
      rw [hw]
      unfold weighing computedGrade
      rw [net, panel]
    refine ⟨expected, ?_⟩
    rw [computed]
    exact panelGrade_iff f q w.deviation

/-! ### PACKED and ASIDE (R139, R140) -/

section
variable {s : State} {i : Fin 64} {p : Piece}

theorem packedRequest_weighed (record : s.record i = some p) (state : p.state = .weighed) (label : Word32) :
    s.packedRequest (BitVec.ofNat 8 i.1) p.serial label =
      if p.grade? = some .reject then s.refuse .gradeReject
      else ⟨s.packPiece i label, .ok, (p.grade?.map Grade.code).toList⟩ := by
  unfold State.packedRequest
  rw [onPiece_named record, state]

theorem asideRequest_taken (record : s.record i = some p) (state : p.state = .atScale ∨ p.state = .weighed) :
    s.asideRequest (BitVec.ofNat 8 i.1) p.serial = ⟨s.asidePiece i p, .ok, [p.asideReason.code]⟩ := by
  unfold State.asideRequest
  rw [onPiece_named record]
  obtain state | state := state
  · rw [state]
  · rw [state]

theorem asideReason_spelled (p : Piece) : p.asideReason = match p.weighing with
    | some w => if w.grade = .reject then .reject else .packer
    | none => .packer := by
  unfold Piece.asideReason Piece.grade?
  cases p.weighing with
  | none => rfl
  | some w => exact if_congr (by rw [Option.map_some, Option.some.injEq]) rfl rfl

end

/-- Settles O46. -/
theorem packedAndAsideFreeTheScale : Obligations.PackedAndAsideFreeTheScale := by
  intro s dt i p released room record
  refine ⟨fun w label state weighed fair => ?_, fun w label state weighed rejected => ?_, fun state => ?_⟩
  · have grade : p.grade? = some w.grade := by rw [Piece.grade?, weighed]; rfl
    refine packRequest_effect (body := fun s => s.packedRequest (BitVec.ofNat 8 i.1) p.serial label) released room ?_
    rw [packedRequest_weighed (s := s.elapse dt) record state, grade, if_neg fun e => fair (Option.some.inj e)]
    rfl
  · have grade : p.grade? = some w.grade := by rw [Piece.grade?, weighed]; rfl
    refine packRequest_answered (body := fun s => s.packedRequest (BitVec.ofNat 8 i.1) p.serial label) released room ?_
    rw [packedRequest_weighed (s := s.elapse dt) record state, grade, if_pos (by rw [rejected])]
    rfl
  · intro reason
    have same : p.asideReason = reason := asideReason_spelled p
    refine (packRequest_effect (body := fun s => s.asideRequest (BitVec.ofNat 8 i.1) p.serial) released room
      (asideRequest_taken (s := s.elapse dt) record state)).trans ?_
    rw [State.asidePiece, disarmScale_spelled, same]
    rfl

end Sys2Proof.Machine
end

