-- ==== Sys2Proof/Proofs/Terminal.lean ====
section
/-!
PROOF. The terminal's requests judged by the record they name, and QUERY's fields (R138, R141, R177).
-/
namespace Sys2Proof.Machine

/-! ### QUERY's fields (R141, R177) -/

/-- Four flags as the sum of their bits. -/
theorem flags_four {a b c d : Bool} {A B C D : Prop} [Decidable A] [Decidable B] [Decidable C] [Decidable D]
    (ha : a = true ↔ A) (hb : b = true ↔ B) (hc : c = true ↔ C) (hd : d = true ↔ D) :
    flag a 0 ||| flag b 1 ||| flag c 2 ||| flag d 3 =
      BitVec.ofNat 8 ((if A then 1 else 0) + (if B then 2 else 0) + (if C then 4 else 0) + if D then 8 else 0) := by
  rw [← if_congr ha rfl rfl, ← if_congr hb rfl rfl, ← if_congr hc rfl rfl, ← if_congr hd rfl rfl]
  clear ha hb hc hd
  revert a b c d
  decide

theorem queryBytes_none {s : State} {i : Fin 64} (h : s.record i = none) : s.queryBytes i = [0] := by
  unfold State.queryBytes
  rw [h]

/-! ### An answer that is settled (R177) -/

/-- The answers that wait stand, and a status other than OK and CLAMPED comes without effect and without fields. -/
structure Settled (s : State) (a : Answer) : Prop where
  tx : a.state.pack.tx = s.pack.tx
  bare : a.status ≠ .ok → a.status ≠ .clamped → a.fields = [] ∧ a.state = s

theorem Settled.refuse (s : State) (status : Status) : Settled s (s.refuse status) := ⟨rfl, fun _ _ => ⟨rfl, rfl⟩⟩

theorem Settled.ok {s t : State} {fields : List Byte} (tx : t.pack.tx = s.pack.tx) : Settled s ⟨t, .ok, fields⟩ :=
  ⟨tx, fun h => absurd rfl h⟩

theorem Settled.onPiece {s : State} {body : Fin 64 → Piece → Answer} (h : ∀ i p, Settled s (body i p)) (b : Byte)
    (v : Word32) : Settled s (s.onPiece b v body) := by
  unfold State.onPiece
  split
  · exact Settled.refuse s _
  · split
    · exact Settled.refuse s _
    · exact h _ _

theorem settled_nextPiece (s : State) : Settled s s.nextPiece := by
  unfold State.nextPiece
  split
  · exact Settled.refuse s _
  · split
    · exact Settled.refuse s _
    · exact Settled.ok (highTest_tx _)

theorem settled_weighRequest (s : State) (b : Byte) (v w : Word32) : Settled s (s.weighRequest b v w) := by
  refine Settled.onPiece (fun i p => ?_) b v
  have taken : Settled s (match s.orderAt p.slot with
      | none => s.refuse .noSuchOrder
      | some o =>
        let x := weighing o p (min Config.weightLimit w.toNat)
        ⟨s.weighPiece i p x, if Config.weightLimit < w.toNat then .clamped else .ok, x.bytes⟩) := by
    cases s.orderAt p.slot with
    | none => exact Settled.refuse s _
    | some o =>
      refine ⟨disarmScale_tx s p, fun plain clamped => ?_⟩
      dsimp only at plain clamped
      split at plain
      · exact absurd rfl (by rwa [if_pos ‹_›] at clamped)
      · exact absurd rfl plain
  cases state : p.state with
  | opened => exact Settled.refuse s _
  | queued => exact Settled.refuse s _
  | atScale => exact taken
  | weighed => exact taken
  | packed => exact Settled.refuse s _
  | aside => exact Settled.refuse s _

theorem settled_packedRequest (s : State) (b : Byte) (v label : Word32) : Settled s (s.packedRequest b v label) := by
  refine Settled.onPiece (fun i p => ?_) b v
  cases state : p.state with
  | opened => exact Settled.refuse s _
  | queued => exact Settled.refuse s _
  | atScale => exact Settled.refuse s _
  | weighed =>
    dsimp only
    split
    · exact Settled.refuse s _
    · exact Settled.ok ((congrArg PackLine.tx (consider_pack _)).trans rfl)
  | packed => exact Settled.refuse s _
  | aside => exact Settled.refuse s _

theorem settled_asideRequest (s : State) (b : Byte) (v : Word32) : Settled s (s.asideRequest b v) := by
  refine Settled.onPiece (fun i p => ?_) b v
  have taken : Settled s ⟨s.asidePiece i p, .ok, [p.asideReason.code]⟩ :=
    Settled.ok ((congrArg PackLine.tx (consider_pack _)).trans (disarmScale_tx s p))
  cases state : p.state with
  | opened => exact Settled.refuse s _
  | queued => exact Settled.refuse s _
  | atScale => exact taken
  | weighed => exact taken
  | packed => exact Settled.refuse s _
  | aside => exact Settled.refuse s _

theorem settled_queryRequest (s : State) (b : Byte) (v : Option Word32) : Settled s (s.queryRequest b v) := by
  unfold State.queryRequest
  split
  · exact Settled.onPiece (fun i p => Settled.ok rfl) b _
  · split
    · exact Settled.refuse s _
    · exact Settled.ok rfl

theorem packRequest_settled {s : State} {dt : Nat} {kind : Byte} {body : State → Answer}
    (released : s.pins.reset = false) (room : s.txRoom) (h : Settled (s.elapse dt) (body (s.elapse dt))) :
    ∃ (t : State) (status : Status) (fields : List Byte),
      packRequest dt kind body s = .next (t.packResponded kind status fields) ∧ t.pack.tx = s.pack.tx ∧
      (status ≠ .ok → status ≠ .clamped → fields = [] ∧ t = s.elapse dt) :=
  ⟨_, _, _, packRequest_effect released room rfl, h.tx, h.bare⟩

/-! ### The table of states (R138) -/

section
variable {s : State} {i : Fin 64} {p : Piece} (record : s.record i = some p) (w : Word32)
include record

theorem weighRequest_wrongState (h : p.state = .opened ∨ p.state = .packed ∨ p.state = .aside) :
    s.weighRequest (BitVec.ofNat 8 i.1) p.serial w = s.refuse .wrongState := by
  unfold State.weighRequest
  rw [onPiece_named record]
  obtain h | h | h := h <;> rw [h]

theorem packedRequest_wrongState (h : p.state = .opened ∨ p.state = .atScale ∨ p.state = .packed ∨ p.state = .aside) :
    s.packedRequest (BitVec.ofNat 8 i.1) p.serial w = s.refuse .wrongState := by
  unfold State.packedRequest
  rw [onPiece_named record]
  obtain h | h | h | h := h <;> rw [h]

omit w in
theorem asideRequest_wrongState (h : p.state = .opened ∨ p.state = .packed ∨ p.state = .aside) :
    s.asideRequest (BitVec.ofNat 8 i.1) p.serial = s.refuse .wrongState := by
  unfold State.asideRequest
  rw [onPiece_named record]
  obtain h | h | h := h <;> rw [h]

theorem queued_tooLate (h : p.state = .queued) :
    s.weighRequest (BitVec.ofNat 8 i.1) p.serial w = s.refuse .tooLate ∧
      s.packedRequest (BitVec.ofNat 8 i.1) p.serial w = s.refuse .tooLate ∧
      s.asideRequest (BitVec.ofNat 8 i.1) p.serial = s.refuse .tooLate := by
  refine ⟨?_, ?_, ?_⟩
  · unfold State.weighRequest
    rw [onPiece_named record, h]
  · unfold State.packedRequest
    rw [onPiece_named record, h]
  · unfold State.asideRequest
    rw [onPiece_named record, h]

end

theorem onPiece_outOfRange {b : Byte} (h : 64 ≤ b.toNat) (s : State) (v : Word32) (body : Fin 64 → Piece → Answer) :
    s.onPiece b v body = s.refuse .badRequest := by
  unfold State.onPiece
  rw [recordOf_eq_none h]

theorem onPiece_stale {s : State} {i : Fin 64} {v : Word32} (h : ∀ p, s.record i = some p → p.serial ≠ v)
    (body : Fin 64 → Piece → Answer) : s.onPiece (BitVec.ofNat 8 i.1) v body = s.refuse .stalePiece := by
  unfold State.onPiece
  rw [recordOf_ofNat]
  dsimp only
  rw [named_eq_none h]

theorem queryRequest_number (s : State) (i : Fin 64) :
    s.queryRequest (BitVec.ofNat 8 i.1) none = ⟨s, .ok, s.queryBytes i⟩ := by
  unfold State.queryRequest
  dsimp only
  rw [recordOf_ofNat]

/-- Settles O47. -/
theorem terminalRequestsAreJudgedByRecord : Obligations.TerminalRequestsAreJudgedByRecord := by
  unfold Obligations.TerminalRequestsAreJudgedByRecord
  intro two four
  refine ⟨fun s i p record => ?bytes, fun s dt released room => ⟨?settled, fun b out v w => ?range, fun i => ?named⟩⟩
  case bytes =>
    have ready : p.readyFlag = true ↔ p.state = .queued ∧ p.ready = true := by
      rw [Piece.readyFlag, Bool.and_eq_true, beq_iff_eq]
    have label : p.label.isSome = true ↔ p.label ≠ none := Option.isSome_iff_ne_none
    have packing : p.hasPacking = true ↔ p.weighing ≠ none ∨ p.packLabel ≠ none ∨ p.aside ≠ none := by
      rw [Piece.hasPacking, Bool.or_eq_true, Bool.or_eq_true, or_assoc, Option.isSome_iff_ne_none,
        Option.isSome_iff_ne_none, Option.isSome_iff_ne_none]
    unfold State.queryBytes
    rw [record]
    dsimp only
    rw [flags_four Iff.rfl label ready packing]
    cases body : p.body with
    | coil c =>
      rw [Piece.kindByte, body]
      rfl
    | panel q =>
      rw [Piece.kindByte, body]
      rfl
  case settled =>
    intro settled
    have from_ {kind : Byte} {body : State → Answer} {c : Instr} (arm : exec c s = packRequest dt kind body s)
        (h : Settled (s.elapse dt) (body (s.elapse dt))) : settled kind c := by
      show ∃ (t : State) (status : Status) (fields : List Byte), exec c s = _ ∧ _
      rw [arm]
      exact packRequest_settled released room h
    exact ⟨from_ (body := fun s => s.nextPiece) rfl (settled_nextPiece _), fun b v w =>
      ⟨from_ (body := fun s => s.weighRequest b v w) rfl (settled_weighRequest _ b v w),
        from_ (body := fun s => s.packedRequest b v w) rfl (settled_packedRequest _ b v w),
        from_ (body := fun s => s.asideRequest b v) rfl (settled_asideRequest _ b v),
        from_ (body := fun s => s.queryRequest b none) rfl (settled_queryRequest _ b none),
        from_ (body := fun s => s.queryRequest b (some v)) rfl (settled_queryRequest _ b (some v))⟩⟩
  case range =>
    have refused {kind : Byte} {body : State → Answer} (h : body (s.elapse dt) = (s.elapse dt).refuse .badRequest) :=
      packRequest_answered (kind := kind) released room h
    refine ⟨refused (body := fun s => s.weighRequest b v w) (onPiece_outOfRange out _ v _),
      refused (body := fun s => s.packedRequest b v w) (onPiece_outOfRange out _ v _),
      refused (body := fun s => s.asideRequest b v) (onPiece_outOfRange out _ v _),
      refused (body := fun s => s.queryRequest b none) ?_,
      refused (body := fun s => s.queryRequest b (some v)) (onPiece_outOfRange out _ v _)⟩
    dsimp only [State.queryRequest]
    rw [recordOf_eq_none out]
  case named =>
    intro b
    have answered {kind : Byte} {status : Status} {body : State → Answer}
        (h : body (s.elapse dt) = (s.elapse dt).refuse status) := packRequest_answered (kind := kind) released room h
    have queried (h : (s.elapse dt).queryRequest b none = ⟨s.elapse dt, .ok, s.queryBytes i⟩) :=
      packRequest_answered (kind := 5) (body := fun s => s.queryRequest b none) released room h
    refine ⟨fun v w stale => ⟨answered (body := fun s => s.weighRequest b v w) (onPiece_stale (s := s.elapse dt) stale _),
        answered (body := fun s => s.packedRequest b v w) (onPiece_stale (s := s.elapse dt) stale _),
        answered (body := fun s => s.asideRequest b v) (onPiece_stale (s := s.elapse dt) stale _),
        answered (body := fun s => s.queryRequest b (some v)) (onPiece_stale (s := s.elapse dt) stale _)⟩,
      fun p record w => ⟨fun done => ?_, fun queued => ?_, fun atScale => ?_⟩, fun free => ?_, fun p record => ⟨?_, ?_⟩⟩
    · exact ⟨answered (body := fun s => s.weighRequest b p.serial w)
          (weighRequest_wrongState (s := s.elapse dt) record w done),
        answered (body := fun s => s.packedRequest b p.serial w) (packedRequest_wrongState (s := s.elapse dt) record w
          (done.imp_right .inr)),
        answered (body := fun s => s.asideRequest b p.serial) (asideRequest_wrongState (s := s.elapse dt) record done)⟩
    · obtain ⟨weigh, packed, aside⟩ := queued_tooLate (s := s.elapse dt) record w queued
      exact ⟨answered (body := fun s => s.weighRequest b p.serial w) weigh,
        answered (body := fun s => s.packedRequest b p.serial w) packed,
        answered (body := fun s => s.asideRequest b p.serial) aside⟩
    · exact answered (body := fun s => s.packedRequest b p.serial w)
        (packedRequest_wrongState (s := s.elapse dt) record w (.inr (.inl atScale)))
    · rw [← queryBytes_none free]
      exact queried (queryRequest_number _ i)
    · exact queried (queryRequest_number _ i)
    · exact packRequest_answered (body := fun s => s.queryRequest b (some p.serial)) released room
        (onPiece_named (s := s.elapse dt) record _)

end Sys2Proof.Machine
end

