-- ==== Sys2Proof/Proofs/HostNotices.lean ====
section
/-!
PROOF. Notices as the host sees them: the codes (R161), POLL, TAKE NOTICE and SET MASK, and the notice output (R163 to
R166).
-/
namespace Sys2Proof.Machine

/-! ### The kind that is chosen (R166) -/

/-- The first of a finite range that a criterion admits. -/
theorem find_finRange {n : Nat} {q : Fin n → Bool} {k : Fin n} (admits : q k = true)
    (lowest : ∀ j : Fin n, j.1 < k.1 → q j = false) : (List.finRange n).find? q = some k := by
  refine List.find?_eq_some_iff_getElem.mpr ⟨admits, k.1, by simp, by simp, fun j hj => ?_⟩
  rw [List.getElem_finRange]
  simpa using lowest ⟨j, by omega⟩ hj

theorem urgentShown_iff (s : State) (slot : Fin 10) (k : Fin 25) :
    s.urgentShown slot k = true ↔ s.noticeShown slot k = true ∧ s.classOf k = .urgent := by
  rw [State.urgentShown, Bool.and_eq_true, beq_iff_eq]

theorem chooseNotice_lowest {s : State} {slot : Fin 10} {k : Fin 25} (shown : s.noticeShown slot k = true)
    (noUrgent : ∀ j, s.noticeShown slot j = true → s.classOf k = .routine → s.classOf j = .routine)
    (lowest : ∀ j : Fin 25, j.1 < k.1 → s.noticeShown slot j = true → s.classOf j ≠ s.classOf k) :
    s.chooseNotice slot = some k := by
  cases ofClass : s.classOf k with
  | urgent =>
    have found : allKinds.find? (s.urgentShown slot) = some k :=
      find_finRange ((urgentShown_iff s slot k).mpr ⟨shown, ofClass⟩) fun j lower =>
        Bool.eq_false_iff.mpr fun urgent => by
          obtain ⟨shownToo, urgentToo⟩ := (urgentShown_iff s slot j).mp urgent
          exact lowest j lower shownToo (urgentToo.trans ofClass.symm)
    rw [State.chooseNotice, found]
  | routine =>
    have none : allKinds.find? (s.urgentShown slot) = none := List.find?_eq_none.mpr fun j _ urgent => by
      obtain ⟨shownToo, urgentToo⟩ := (urgentShown_iff s slot j).mp urgent
      exact nomatch (noUrgent j shownToo ofClass).symm.trans urgentToo
    have found : allKinds.find? (s.noticeShown slot) = some k := find_finRange shown fun j lower =>
      Bool.eq_false_iff.mpr fun shownToo =>
        lowest j lower shownToo ((noUrgent j shownToo ofClass).trans ofClass.symm)
    rw [State.chooseNotice, none]
    exact found

theorem chooseNotice_none {s : State} {slot : Fin 10} (h : ∀ k, s.noticeShown slot k = false) :
    s.chooseNotice slot = none := by
  have urgent : allKinds.find? (s.urgentShown slot) = none := List.find?_eq_none.mpr fun j _ urgent =>
    Bool.false_ne_true ((h j).symm.trans ((urgentShown_iff s slot j).mp urgent).1)
  rw [State.chooseNotice, urgent]
  exact List.find?_eq_none.mpr fun j _ => by rw [h j]; exact Bool.false_ne_true

theorem removeNotice_noticeCount (s : State) (slot slot' : Fin 10) (k j : Fin 25) :
    (s.removeNotice slot k).noticeCount slot' j = if slot' = slot ∧ j = k then 0 else s.noticeCount slot' j := by
  simp only [State.noticeCount, State.removeNotice, getElem_modifyAt]
  by_cases own : slot' = slot
  · simp only [own, if_true, true_and]
    exact getElem_set_fin _ k j 0
  · simp only [own, if_false, false_and]

/-- What a slot still shows once a kind has been taken. -/
theorem removeNotice_shownCount (s : State) (slot : Fin 10) (k : Fin 25) : (s.removeNotice slot k).shownCount slot =
    ((List.finRange 25).filter fun j => decide (j ≠ k) && s.noticeShown slot j).length := by
  rw [State.shownCount, ← List.countP_eq_length_filter]
  refine List.countP_congr fun j _ => ?_
  rw [State.noticeShown, removeNotice_noticeCount]
  by_cases taken : j = k
  · simp [taken]
  · simp only [taken, and_false, if_false, ne_eq, not_false_eq_true, decide_true, Bool.true_and]
    exact Iff.rfl

/-! ### POLL (R165) -/

/-- A bitmap holds at each position the entry of the list there. -/
theorem bitmap_testBit (bits : List Bool) (j : Nat) :
    (bits.foldr (fun (b : Bool) n => 2 * n + b.toNat) 0).testBit j = bits[j]?.getD false := by
  induction bits generalizing j with
  | nil => simp
  | cons b bits ih =>
    rw [List.foldr_cons]
    obtain ⟨n, hn⟩ : ∃ n, n = bits.foldr (fun (b : Bool) n => 2 * n + b.toNat) 0 := ⟨_, rfl⟩
    rw [← hn] at ih ⊢
    cases j with
    | zero =>
      rw [Nat.testBit_zero]
      cases b <;> simp
    | succ j =>
      have half : (2 * n + b.toNat) / 2 = n := by
        have := Bool.toNat_le b
        omega
      rw [Nat.testBit_succ, half, ih, List.getElem?_cons_succ]

theorem slotBitmap_getLsbD (f : Fin 10 → Bool) (j : Nat) :
    (BitVec.ofNat 16 ((allSlots.map f).foldr (fun (b : Bool) n => 2 * n + b.toNat) 0)).getLsbD j =
      if h : j < 10 then f ⟨j, h⟩ else false := by
  rw [BitVec.getLsbD_ofNat, bitmap_testBit, List.getElem?_map]
  by_cases small : j < 10
  · rw [dif_pos small, decide_eq_true (by omega), Bool.true_and]
    have entry : allSlots[j]? = some ⟨j, small⟩ := by
      rw [allSlots, List.getElem?_eq_getElem (by simpa using small), List.getElem_finRange]
      rfl
    rw [entry]
    rfl
  · rw [dif_neg small, List.getElem?_eq_none (by rw [allSlots, List.length_finRange]; omega)]
    exact Bool.and_false _

theorem noticeShown_iff (s : State) (slot : Fin 10) (k : Fin 25) : s.noticeShown slot k = true ↔
    0 < s.noticeCount slot k ∧ s.notices.mask.getLsbD k.1 = false := by
  rw [State.noticeShown, Bool.and_eq_true, decide_eq_true_iff, Bool.not_eq_true']

theorem slotShows_iff (s : State) (slot : Fin 10) : s.slotShows slot = true ↔
    ∃ k : Fin 25, 0 < s.noticeCount slot k ∧ s.notices.mask.getLsbD k.1 = false := by
  rw [State.slotShows, List.any_eq_true]
  exact ⟨fun ⟨k, _, h⟩ => ⟨k, (noticeShown_iff s slot k).mp h⟩,
    fun ⟨k, h⟩ => ⟨k, List.mem_finRange k, (noticeShown_iff s slot k).mpr h⟩⟩

theorem slotUrgent_iff (s : State) (slot : Fin 10) : s.slotUrgent slot = true ↔
    ∃ k : Fin 25, 0 < s.noticeCount slot k ∧ s.notices.mask.getLsbD k.1 = false ∧ s.classOf k = .urgent := by
  have each (k : Fin 25) : s.urgentShown slot k = true ↔
      0 < s.noticeCount slot k ∧ s.notices.mask.getLsbD k.1 = false ∧ s.classOf k = .urgent := by
    rw [urgentShown_iff, noticeShown_iff, and_assoc]
  rw [State.slotUrgent, List.any_eq_true]
  exact ⟨fun ⟨k, _, h⟩ => ⟨k, (each k).mp h⟩, fun ⟨k, h⟩ => ⟨k, List.mem_finRange k, (each k).mpr h⟩⟩

/-! ### SET MASK (R163) -/

theorem mask_kept_iff (mask : Word32) : (mask.setWidth 25).setWidth 32 = mask ↔ mask.toNat < 2 ^ 25 := by
  have small := mask.isLt
  constructor
  · intro h
    have value := congrArg BitVec.toNat h
    simp only [BitVec.toNat_setWidth] at value
    omega
  · intro h
    refine BitVec.eq_of_toNat_eq ?_
    simp only [BitVec.toNat_setWidth]
    omega

theorem mask_kept_eq (mask : Word32) : (mask.setWidth 25).setWidth 32 = BitVec.ofNat 32 (mask.toNat % 2 ^ 25) := by
  refine BitVec.eq_of_toNat_eq ?_
  simp only [BitVec.toNat_setWidth, BitVec.toNat_ofNat]

/-- Settles O53. -/
theorem noticesAreTakenUrgentFirst : Obligations.NoticesAreTakenUrgentFirst := by
  refine ⟨by decide, fun k => ⟨rfl, rfl⟩, fun s dt tag released taken => ⟨fun slot k shown noUrgent lowest => ?take,
    fun slot none => ?empty, fun b out => ?range, fun mask => ?mask, ?poll, ?output⟩⟩
  case take =>
    have chosen : (s.elapse dt).chooseNotice slot = some k := chooseNotice_lowest (s := s.elapse dt) shown noUrgent lowest
    refine ⟨(s.elapse dt).removeNotice slot k, ?_, removeNotice_noticeCount_self _ slot k, fun slot' j other => ?_, rfl⟩
    · refine (hostRequest_effect (body := fun s => s.takeRequested (BitVec.ofNat 8 slot.1)) released taken
        (takeRequested_of_choice chosen)).trans ?_
      rw [removeNotice_shownCount]
      rfl
    · rw [removeNotice_noticeCount, if_neg fun own => other.elim (fun h => h own.1) fun h => h own.2]
      rfl
  case empty =>
    refine hostRequest_answered (body := fun s => s.takeRequested (BitVec.ofNat 8 slot.1)) released taken ?_
    unfold State.takeRequested
    rw [noticeSlotOf_ofNat]
    dsimp only
    rw [chooseNotice_none (s := s.elapse dt) none]
    rfl
  case range =>
    refine hostRequest_answered (body := fun s => s.takeRequested b) released taken ?_
    unfold State.takeRequested
    rw [show noticeSlotOf b = none from dif_neg (by omega)]
    rfl
  case mask =>
    refine ⟨mask.setWidth 25, fun k => ?_, ?_⟩
    · rw [BitVec.getLsbD_setWidth, decide_eq_true k.2, Bool.true_and]
    · rw [← mask_kept_eq, ← if_congr (mask_kept_iff mask) rfl rfl]
      exact hostRequest_effect (body := fun s => s.maskRequest mask) released taken rfl
  case poll =>
    refine ⟨_, _, hostRequest_answered (body := fun s => s.pollRequest) released taken rfl, fun slot => ?_, fun slot => ?_,
      fun j far => ?_⟩
    · rw [slotBitmap_getLsbD, dif_pos slot.2]
      exact slotShows_iff (s.elapse dt) slot
    · rw [slotBitmap_getLsbD, dif_pos slot.2]
      exact slotUrgent_iff (s.elapse dt) slot
    · rw [slotBitmap_getLsbD, slotBitmap_getLsbD, dif_neg (by omega), dif_neg (by omega)]
      exact ⟨rfl, rfl⟩
  case output =>
    rw [State.noticeOutput, List.any_eq_true]
    exact ⟨fun ⟨slot, _, h⟩ => ⟨slot, (slotShows_iff s slot).mp h⟩,
      fun ⟨slot, h⟩ => ⟨slot, List.mem_finRange slot, (slotShows_iff s slot).mpr h⟩⟩

end Sys2Proof.Machine
end
